-- ==== Sys2Proof/Word.lean ====
section
/-!
DEFINITION. The plainest data of the E4: characters, four-of-a-kind registers (ports, channels,
tags, slots) and sets over four numbers.
-/

namespace Sys2Proof

/-- The eight data bits of a link character (R179). -/
abbrev Byte := BitVec 8

/-- One register for each of the four numbers 0 to 3 (ports, channels, tags, excitation slots). -/
structure Quad (α : Type) where
  q0 : α
  q1 : α
  q2 : α
  q3 : α
  deriving DecidableEq, Repr

/-- The register of number `i`. -/
def Quad.get {α : Type} (q : Quad α) (i : Fin 4) : α :=
  match i with
  | 0 => q.q0
  | 1 => q.q1
  | 2 => q.q2
  | 3 => q.q3

/-- Write the register of number `i`. -/
def Quad.set {α : Type} (q : Quad α) (i : Fin 4) (x : α) : Quad α :=
  match i with
  | 0 => { q with q0 := x }
  | 1 => { q with q1 := x }
  | 2 => { q with q2 := x }
  | 3 => { q with q3 := x }

/-- The same value in all four registers. -/
def Quad.fill {α : Type} (x : α) : Quad α := ⟨x, x, x, x⟩

/-- Apply `f` to each register. -/
def Quad.map {α β : Type} (f : α → β) (q : Quad α) : Quad β := ⟨f q.q0, f q.q1, f q.q2, f q.q3⟩

/-- The registers whose number is given by `f`. -/
def Quad.ofFn {α : Type} (f : Fin 4 → α) : Quad α := ⟨f 0, f 1, f 2, f 3⟩

/-- The registers in the order of their numbers. -/
def Quad.toList {α : Type} (q : Quad α) : List α := [q.q0, q.q1, q.q2, q.q3]

/-- A set of numbers from 0 to 3: number `i` is in the set when its register is true. -/
abbrev FourSet := Quad Bool

/-- The empty set. -/
def FourSet.empty : FourSet := Quad.fill false

/-- The four numbers in rising order. -/
def four : List (Fin 4) := [0, 1, 2, 3]

/-- How many numbers a set holds. -/
def FourSet.card (q : FourSet) : Nat := (four.filter (fun i => q.get i)).length

/-- A vector of two signed components. -/
structure Vec where
  x : Int
  y : Int
  deriving DecidableEq, Repr

end Sys2Proof
end

