-- ==== Sys2Proof/Config.lean ====
section
/-!
DEFINITION. The fixed sizes of the part. The rules leave no value of the E4 open, so no free value
stands here.
-/

namespace Sys2Proof.Config

/-- Records of the Indication Store (R150). -/
abbrev poolSize : Nat := 8192

/-- Most tubes of a map (R1, R13). -/
abbrev mapCapacity : Nat := 32768

/-- Most records one tube holds, and one job keeps (R143, R150). -/
abbrev keptMax : Nat := 16

/-- Most records of a pull buffer (R77). -/
abbrev bufferMax : Nat := 24

/-- Samples of the null stage (R71). -/
abbrev nullSamples : Nat := 16

/-- Longest detection window (R75). -/
abbrev windowMax : Nat := 256

/-- Supports whose positions are kept (R73). -/
abbrev supportsKept : Nat := 64

/-- The thin-data limit (R61). -/
abbrev thinLimit : Nat := 64

/-- Rise above the lowest position that is still allowed, in counts (R62). -/
abbrev reverseLimit : Int := 1000

/-- SHORT_PULL when the lowest position reached is above this, in counts (R80). -/
abbrev shortLimit : Int := 4000

/-- Tubes at which a calibration group makes its channel CHECK_DUE (R128, R130). -/
abbrev groupMax : Nat := 512

/-- STORE_LOW below this free count (R155). -/
abbrev storeLow : Nat := 512

/-- Entries of one LIST_READ reply (R175). -/
abbrev listMax : Nat := 27

/-- The clamp of calibrated, nulled and mix components, in mV (R92, R94). -/
abbrev clampLimit : Int := 20000

end Sys2Proof.Config
end

