-- ==== Sys2Proof/Syntax.lean ====
section
/-!
DEFINITION. The commands of the E4: one constructor of `Instr` for each row of the opcode table,
and the data their operands are made of.
-/

namespace Sys2Proof

/-- A station link port, 0 to 3. -/
abbrev Port := Fin 4

/-- A probe channel, 0 to 3. -/
abbrev Chan := Fin 4

/-- A claim tag, 0 to 3. -/
abbrev Tag := Fin 4

/-- The eight raw traces, in the order of R120 and of the trace codes (R55, R189). -/
inductive RawTrace where
  | f1d | f1a | f2d | f2a | f3d | f3a | f4d | f4a
  deriving DecidableEq, Repr

/-- The excitation slot of a raw trace: 0 for F1 up to 3 for F4 (R55). -/
def RawTrace.slot : RawTrace → Fin 4
  | .f1d | .f1a => 0
  | .f2d | .f2a => 1
  | .f3d | .f3a => 2
  | .f4d | .f4a => 3

/-- The raw traces in the order of R120. -/
def RawTrace.all : List RawTrace := [.f1d, .f1a, .f2d, .f2a, .f3d, .f3a, .f4d, .f4a]

/-- One value for each raw trace. -/
structure Eight (α : Type) where
  f1d : α
  f1a : α
  f2d : α
  f2a : α
  f3d : α
  f3a : α
  f4d : α
  f4a : α
  deriving DecidableEq, Repr

/-- The value of trace `r`. -/
def Eight.get {α : Type} (e : Eight α) : RawTrace → α
  | .f1d => e.f1d
  | .f1a => e.f1a
  | .f2d => e.f2d
  | .f2a => e.f2a
  | .f3d => e.f3d
  | .f3a => e.f3a
  | .f4d => e.f4d
  | .f4a => e.f4a

/-- The values that `f` gives the traces. -/
def Eight.ofFn {α : Type} (f : RawTrace → α) : Eight α :=
  ⟨f .f1d, f .f1a, f .f2d, f .f2a, f .f3d, f .f3a, f .f4d, f .f4a⟩

/-- A raw value of a trace: two signed 16-bit counts (R55). -/
structure Raw where
  x : BitVec 16
  y : BitVec 16
  deriving DecidableEq, Repr

/-- A character as the line carries it: data bits, mark bit, parity bit and stop bit, where `true`
is a one and a stop bit at mark (R179). -/
structure Character where
  data : Byte
  mark : Bool
  parity : Bool
  stop : Bool
  deriving DecidableEq, Repr

/-- A complete request frame: its code, its body and its garbled mark (R181). -/
structure Frame where
  code : Byte
  body : List Byte
  garbled : Bool
  deriving DecidableEq, Repr

/-- The direction of one encoder count step (R57). -/
inductive EncoderDir where
  /-- Toward the near end: the position falls by 1. -/
  | near
  /-- Toward the far end: the position rises by 1. -/
  | far
  deriving DecidableEq, Repr

/-- The commands. A request carries the port that takes it and the body characters of its frame
(R182, R189); an event carries the port or channel it reaches. -/
inductive Instr where
  | planNew (p : Port) (body : List Byte)
  | planSet (p : Port) (body : List Byte)
  | standardSet (p : Port) (body : List Byte)
  | rowAdd (p : Port) (body : List Byte)
  | tubeMark (p : Port) (body : List Byte)
  | curveSet (p : Port) (body : List Byte)
  | limitsSet (p : Port) (body : List Byte)
  | tracesSet (p : Port) (body : List Byte)
  | scopeSet (p : Port) (body : List Byte)
  | planOpen (p : Port) (body : List Byte)
  | planLock (p : Port) (body : List Byte)
  | planClose (p : Port) (body : List Byte)
  | tubeRepull (p : Port) (body : List Byte)
  | rescreenStart (p : Port) (body : List Byte)
  | claim (p : Port) (body : List Byte)
  | claimNext (p : Port) (body : List Byte)
  | release (p : Port) (body : List Byte)
  | tubeRelease (p : Port) (body : List Byte)
  | bind (p : Port) (body : List Byte)
  | unbind (p : Port) (body : List Byte)
  | freqSet (p : Port) (body : List Byte)
  | calStart (p : Port) (body : List Byte)
  | pullStart (p : Port) (body : List Byte)
  | pullEnd (p : Port) (body : List Byte)
  | pullAbort (p : Port) (body : List Byte)
  | resultTake (p : Port) (body : List Byte)
  | status (p : Port) (body : List Byte)
  | tubeRead (p : Port) (body : List Byte)
  | indRead (p : Port) (body : List Byte)
  | listRead (p : Port) (body : List Byte)
  | summaryRead (p : Port) (body : List Byte)
  | channelRead (p : Port) (body : List Byte)
  | attach (p : Port) (body : List Byte)
  | detach (p : Port) (body : List Byte)
  | linkRate (p : Port) (body : List Byte)
  /-- A complete frame whose garbled mark is set (R182). -/
  | garbledFrame (p : Port) (code : Byte) (body : List Byte)
  /-- A complete frame whose code names no request (R182). -/
  | unknownCode (p : Port) (code : Byte) (body : List Byte)
  /-- The last stop bit of the reply in progress is sent (R180, R181). -/
  | replySent (p : Port)
  /-- BREAK: the receive line has been held at space for 24 bit times (R184). -/
  | lineBreak (p : Port)
  | warmReset
  | powerOnReset
  | timeBaseTick
  | leaseExpiry (p : Port) (t : Tag)
  | timeout (c : Chan)
  | calibrationIntervalExpiry (c : Chan)
  | settleCompletion (c : Chan)
  | encoderStep (c : Chan) (dir : EncoderDir)
  | encoderReverse (c : Chan)
  /-- One demodulator output: a raw value for each raw trace; those of slots that are off are no
  values and are not read (R55). -/
  | demodulatorOutput (c : Chan) (values : Eight Raw)
  | coilOpen (c : Chan)
  | coilRestored (c : Chan)
  | sizingJobBegin
  | sizingCommit
  | rescreenStepBegin
  | rescreenStepWrite
  | detachPullAbort (p : Port)
  | detachClaimRemoval (p : Port)
  | forcedUnbind (c : Chan)
  | orphanMark (p : Port)
  | receivedCharacter (p : Port) (ch : Character)
  | lineReturnedToMark (p : Port)
  deriving DecidableEq, Repr

end Sys2Proof
end

