-- ==== Sys2Proof/WellFormed.lean ====
section
/-!
DEFINITION. Which terms of `Instr` are commands of the E4. Ports, channels, tags, characters and
raw values are bounded by their types; what is left is the length of a frame's body and the code of
an UNKNOWN_CODE frame.
-/

namespace Sys2Proof

/-- The length character of a frame holds 0 to 250 (R181). -/
def bodyFits (body : List Byte) : Bool := decide (body.length ≤ 250)

/-- The request codes of the table in Frame and Record Formats (R189). -/
def requestCodes : List Byte :=
  [0x10, 0x11, 0x12, 0x13, 0x14, 0x15, 0x16, 0x17, 0x18, 0x19, 0x1A, 0x1B, 0x1C, 0x1D,
   0x20, 0x21, 0x22, 0x23,
   0x30, 0x31, 0x32, 0x33, 0x34, 0x35, 0x36, 0x37,
   0x40, 0x41, 0x42, 0x43, 0x44, 0x45,
   0x50, 0x51, 0x52]

/-- A code that names a request. -/
def namesRequest (code : Byte) : Bool := requestCodes.contains code

/-- The commands of the E4 among the terms of `Instr`. -/
def Instr.wellFormed : Instr → Bool
  | .planNew _ body | .planSet _ body | .standardSet _ body | .rowAdd _ body | .tubeMark _ body
  | .curveSet _ body | .limitsSet _ body | .tracesSet _ body | .scopeSet _ body | .planOpen _ body
  | .planLock _ body | .planClose _ body | .tubeRepull _ body | .rescreenStart _ body
  | .claim _ body | .claimNext _ body | .release _ body | .tubeRelease _ body | .bind _ body
  | .unbind _ body | .freqSet _ body | .calStart _ body | .pullStart _ body | .pullEnd _ body
  | .pullAbort _ body | .resultTake _ body | .status _ body | .tubeRead _ body | .indRead _ body
  | .listRead _ body | .summaryRead _ body | .channelRead _ body | .attach _ body
  | .detach _ body | .linkRate _ body | .garbledFrame _ _ body => bodyFits body
  | .unknownCode _ code body => !namesRequest code && bodyFits body
  | .replySent _ | .lineBreak _ | .warmReset | .powerOnReset | .timeBaseTick | .leaseExpiry _ _
  | .timeout _ | .calibrationIntervalExpiry _ | .settleCompletion _ | .encoderStep _ _
  | .encoderReverse _ | .demodulatorOutput _ _ | .coilOpen _ | .coilRestored _ | .sizingJobBegin
  | .sizingCommit | .rescreenStepBegin | .rescreenStepWrite | .detachPullAbort _
  | .detachClaimRemoval _ | .forcedUnbind _ | .orphanMark _ | .receivedCharacter _ _
  | .lineReturnedToMark _ => true

end Sys2Proof
end

