-- ==== Sys2Proof/Decode.lean ====
section
/-!
DEFINITION. From frames to commands. The opcode table gives its rows no bits, so no numbered word
spells a command; what the E4 itself decodes is the code of a complete frame (R182), and
`commandOfFrame` and `frameOfCommand` are that decoding and its inverse.
-/

namespace Sys2Proof

/-- The command a word spells by the table's bits: no row of the table has bits, so none. -/
def decodeTableWord (_nbits _w : Nat) : Option Instr := none

/-- The request that a code names, for the port and body of its frame (R182, request codes of Frame
and Record Formats). -/
def requestOfCode (p : Port) (code : Byte) (body : List Byte) : Option Instr :=
  match code.toNat with
  | 0x10 => some (.planNew p body)
  | 0x11 => some (.planSet p body)
  | 0x12 => some (.standardSet p body)
  | 0x13 => some (.rowAdd p body)
  | 0x14 => some (.tubeMark p body)
  | 0x15 => some (.curveSet p body)
  | 0x16 => some (.limitsSet p body)
  | 0x17 => some (.tracesSet p body)
  | 0x18 => some (.scopeSet p body)
  | 0x19 => some (.planOpen p body)
  | 0x1A => some (.planLock p body)
  | 0x1B => some (.planClose p body)
  | 0x1C => some (.tubeRepull p body)
  | 0x1D => some (.rescreenStart p body)
  | 0x20 => some (.claim p body)
  | 0x21 => some (.claimNext p body)
  | 0x22 => some (.release p body)
  | 0x23 => some (.tubeRelease p body)
  | 0x30 => some (.bind p body)
  | 0x31 => some (.unbind p body)
  | 0x32 => some (.freqSet p body)
  | 0x33 => some (.calStart p body)
  | 0x34 => some (.pullStart p body)
  | 0x35 => some (.pullEnd p body)
  | 0x36 => some (.pullAbort p body)
  | 0x37 => some (.resultTake p body)
  | 0x40 => some (.status p body)
  | 0x41 => some (.tubeRead p body)
  | 0x42 => some (.indRead p body)
  | 0x43 => some (.listRead p body)
  | 0x44 => some (.summaryRead p body)
  | 0x45 => some (.channelRead p body)
  | 0x50 => some (.attach p body)
  | 0x51 => some (.detach p body)
  | 0x52 => some (.linkRate p body)
  | _ => none

/-- The command a complete frame asks for, in the order of the port's checks of R182: a garbled
frame first (its code and body are not read), then a code that names no request. -/
def commandOfFrame (p : Port) (f : Frame) : Instr :=
  if f.garbled then .garbledFrame p f.code f.body
  else (requestOfCode p f.code f.body).getD (.unknownCode p f.code f.body)

/-- The port and frame of a command that arrives as a frame. -/
def frameOfCommand : Instr → Option (Port × Frame)
  | .planNew p body => some (p, ⟨0x10, body, false⟩)
  | .planSet p body => some (p, ⟨0x11, body, false⟩)
  | .standardSet p body => some (p, ⟨0x12, body, false⟩)
  | .rowAdd p body => some (p, ⟨0x13, body, false⟩)
  | .tubeMark p body => some (p, ⟨0x14, body, false⟩)
  | .curveSet p body => some (p, ⟨0x15, body, false⟩)
  | .limitsSet p body => some (p, ⟨0x16, body, false⟩)
  | .tracesSet p body => some (p, ⟨0x17, body, false⟩)
  | .scopeSet p body => some (p, ⟨0x18, body, false⟩)
  | .planOpen p body => some (p, ⟨0x19, body, false⟩)
  | .planLock p body => some (p, ⟨0x1A, body, false⟩)
  | .planClose p body => some (p, ⟨0x1B, body, false⟩)
  | .tubeRepull p body => some (p, ⟨0x1C, body, false⟩)
  | .rescreenStart p body => some (p, ⟨0x1D, body, false⟩)
  | .claim p body => some (p, ⟨0x20, body, false⟩)
  | .claimNext p body => some (p, ⟨0x21, body, false⟩)
  | .release p body => some (p, ⟨0x22, body, false⟩)
  | .tubeRelease p body => some (p, ⟨0x23, body, false⟩)
  | .bind p body => some (p, ⟨0x30, body, false⟩)
  | .unbind p body => some (p, ⟨0x31, body, false⟩)
  | .freqSet p body => some (p, ⟨0x32, body, false⟩)
  | .calStart p body => some (p, ⟨0x33, body, false⟩)
  | .pullStart p body => some (p, ⟨0x34, body, false⟩)
  | .pullEnd p body => some (p, ⟨0x35, body, false⟩)
  | .pullAbort p body => some (p, ⟨0x36, body, false⟩)
  | .resultTake p body => some (p, ⟨0x37, body, false⟩)
  | .status p body => some (p, ⟨0x40, body, false⟩)
  | .tubeRead p body => some (p, ⟨0x41, body, false⟩)
  | .indRead p body => some (p, ⟨0x42, body, false⟩)
  | .listRead p body => some (p, ⟨0x43, body, false⟩)
  | .summaryRead p body => some (p, ⟨0x44, body, false⟩)
  | .channelRead p body => some (p, ⟨0x45, body, false⟩)
  | .attach p body => some (p, ⟨0x50, body, false⟩)
  | .detach p body => some (p, ⟨0x51, body, false⟩)
  | .linkRate p body => some (p, ⟨0x52, body, false⟩)
  | .garbledFrame p code body => some (p, ⟨code, body, true⟩)
  | .unknownCode p code body => some (p, ⟨code, body, false⟩)
  | .replySent _ | .lineBreak _ | .warmReset | .powerOnReset | .timeBaseTick | .leaseExpiry _ _
  | .timeout _ | .calibrationIntervalExpiry _ | .settleCompletion _ | .encoderStep _ _
  | .encoderReverse _ | .demodulatorOutput _ _ | .coilOpen _ | .coilRestored _ | .sizingJobBegin
  | .sizingCommit | .rescreenStepBegin | .rescreenStepWrite | .detachPullAbort _
  | .detachClaimRemoval _ | .forcedUnbind _ | .orphanMark _ | .receivedCharacter _ _
  | .lineReturnedToMark _ => none

end Sys2Proof
end

