-- ==== Sys2Proof/Machine/State.lean ====
section
/-!
DEFINITION. The state of the E4, whole, as plain data, and the state after power-on reset.
-/

namespace Sys2Proof.Machine

/-! ## Why a step stops -/

/-- Why a step faults. -/
inductive Fault where
  /-- Raised by UNKNOWN_CODE alone, on a term whose code names a request: such a term is ill-formed
  and is no command of the E4 (`Instr.wellFormed`). Safe: the machine stops where no command is. -/
  | illFormedCommand
  deriving DecidableEq, Repr

/-- Why a step is refused. No meaning answers with a refusal; a REFUSED reply of the E4 is no
refusal of the model but state of the port (R183). -/
inductive Refusal where
  /-- Raised by a dispatch arm whose command has no meaning yet. Safe: the machine stops. -/
  | notModelled (mnemonic : String)
  deriving DecidableEq, Repr

/-! ## The Tube Map (01_the_tube_map.md) -/

/-- The plan states (R2). -/
inductive PlanState where
  | empty | draft | active | closed
  deriving DecidableEq, Repr

/-- A trace of a channel: a raw trace or a mix (R55, R98). -/
inductive Trace where
  | raw (r : RawTrace)
  | m1
  | m2
  deriving DecidableEq, Repr

/-- A point of the sizing curve: a phase in tenths and a depth (R1). -/
structure CurvePoint where
  phase : Nat
  depth : Nat
  deriving DecidableEq, Repr

/-- A sizing curve: its points in order, of which there are at least two (R8). -/
structure Curve where
  first : CurvePoint
  second : CurvePoint
  more : List CurvePoint
  deriving DecidableEq, Repr

/-- A mix definition (R1). -/
structure MixDef where
  primary : RawTrace
  secondary : RawTrace
  deriving DecidableEq, Repr

/-- The standard descriptor, in millimetres (R7). -/
structure Standard where
  length : Nat
  hole : Nat
  ring : Nat
  half : Nat
  deriving DecidableEq, Repr

/-- The plan record, less its tube count, which is the length of the list of tube records, and less
the plan lock, which is written apart from the record's fields (R1). -/
structure Plan where
  name : List Byte
  tubeLength : Nat
  curve : Option Curve
  openT : Nat
  closeT : Nat
  supportT : Nat
  report : Nat
  plug : Nat
  attemptLimit : Nat
  lease : Nat
  pullLimit : Nat
  calInterval : Nat
  detection : Trace
  support : Trace
  mixes : List MixDef
  standard : Option Standard
  deriving DecidableEq, Repr

/-- Every field of the plan record at its default (R1). -/
def Plan.default : Plan where
  name := []
  tubeLength := 12000
  curve := none
  openT := 500
  closeT := 300
  supportT := 2000
  report := 20
  plug := 40
  attemptLimit := 3
  lease := 600
  pullLimit := 120
  calInterval := 240
  detection := .raw .f1d
  support := .raw .f4a
  mixes := []
  standard := none

/-- A row entry (R13). -/
structure Row where
  row : Nat
  first : Nat
  last : Nat
  supports : Nat
  firstIndex : Nat
  deriving DecidableEq, Repr

/-- The faults of a pull, in the order of their ranks 1 to 8 (R80). -/
inductive PullFault where
  | probeOpen | overspeed | saturated | encoderReverse | timeout | shortPull | restricted
  | supportMismatch
  deriving DecidableEq, Repr

/-- Why a tube is UNRESOLVED (R15). -/
inductive Reason where
  | indefiniteDepth
  | serviceFault (f : PullFault)
  | attempts
  deriving DecidableEq, Repr

/-- The nine statuses; the reason stands with UNRESOLVED, so it is present exactly then (R15,
R16). -/
inductive Status where
  | noTube | priorPlug | outOfScope | pending | repull | clear | reportable | plug
  | unresolved (why : Reason)
  deriving DecidableEq, Repr

/-- The depth of an indication or of a tube (R103, R104). -/
inductive Depth where
  | indefinite
  | pct (d : Nat)
  deriving DecidableEq, Repr

/-- An indication record as the pull buffer holds it (R76). Position in 0.5 mm steps, amplitude in
mV, phase in tenths. -/
structure Found where
  position : Nat
  trace : Trace
  amplitude : Nat
  phase : Nat
  clipped : Bool
  long : Bool
  deriving DecidableEq, Repr

/-- A record located against the supports: the support's number and the signed offset, or none
(R84). -/
structure Located extends Found where
  support : Option (Nat × Int)
  deriving DecidableEq, Repr

/-- A stored indication record (R151). -/
structure Indication extends Located where
  depth : Depth
  outOfCurve : Bool
  deriving DecidableEq, Repr

/-- The claim field of a tube record: station, tag and in-pull marker (R15). -/
structure TubeClaim where
  port : Port
  tag : Tag
  inPull : Bool
  deriving DecidableEq, Repr

/-- A tube record (R15). -/
structure Tube where
  row : Nat
  col : Nat
  status : Status
  attempts : Nat
  claim : Option TubeClaim
  worst : Option Depth
  list : List Indication
  truncated : Bool
  suspect : Bool
  lastPull : Option (Chan × BitVec 16)
  deriving DecidableEq, Repr

/-- A tube record as ROW_ADD creates it (R15). -/
def Tube.created (row col : Nat) : Tube where
  row := row
  col := col
  status := .pending
  attempts := 0
  claim := none
  worst := none
  list := []
  truncated := false
  suspect := false
  lastPull := none

/-! ## The Claim Table (02_claims.md) -/

/-- A claim is in pull or has a lease deadline, so the deadline is present exactly when the marker
is clear (R30). -/
inductive Hold where
  | inPull
  | leased (deadline : Nat)
  deriving DecidableEq, Repr

/-- A claim in a tag slot (R30). `departed`: the claim is one of a departed station, whose detach
course has begun (R186). -/
structure Claim where
  tube : Nat
  hold : Hold
  departed : Bool
  deriving DecidableEq, Repr

/-! ## Station links and the Station Table (10_station_links.md) -/

/-- The role of a port; a port with NONE is detached (R178). -/
inductive Role where
  | none | crew | review
  deriving DecidableEq, Repr

/-- The saturation policy of a CREW station (R78, R178). -/
inductive Policy where
  | masked | unmasked
  deriving DecidableEq, Repr

/-- The receive assembly (R178, R181). -/
inductive Assembly where
  | hunt
  | length (code : Byte) (garbled : Bool)
  | body (code : Byte) (len : Nat) (got : List Byte) (garbled : Bool)
  | waiting (f : Frame)
  deriving DecidableEq, Repr

/-- The reply in progress: its lead character's data, its body, and how many of its characters have
gone (R178, R183). -/
structure Reply where
  lead : Byte
  body : List Byte
  sent : Nat
  deriving DecidableEq, Repr

/-- The latched items of a notice set (R170). -/
structure Notices where
  claimExpired : FourSet
  claimRevoked : FourSet
  storeLow : Bool
  rescreenDone : Bool
  deriving DecidableEq, Repr

/-- No notice. -/
def Notices.empty : Notices := ⟨FourSet.empty, FourSet.empty, false, false⟩

/-- A station link port with its Station Table entry (R178). `nextDivider`: the divider an accepted
LINK_RATE gave, which takes effect when its reply is sent (R180). `breakTaken`: a break has been
taken and the line has not returned to mark (R184). -/
structure PortState where
  divider : Nat
  nextDivider : Option Nat
  assembly : Assembly
  reply : Option Reply
  breakTaken : Bool
  role : Role
  policy : Option Policy
  bound : FourSet
  notices : Notices
  deriving DecidableEq, Repr

/-- A port after power-on reset (R178). -/
def PortState.reset : PortState where
  divider := 7
  nextDivider := none
  assembly := .hunt
  reply := none
  breakTaken := false
  role := .none
  policy := none
  bound := FourSet.empty
  notices := Notices.empty

/-! ## Probe Channels (03_probe_channels.md) -/

/-- The pull states (R49). -/
inductive PullState where
  | unbound | settling | ready | pulling | sizing | held
  deriving DecidableEq, Repr

/-- The pull kinds (R48). -/
inductive PullKind where
  | tube | calFull | calCheck
  deriving DecidableEq, Repr

/-- A Probe Channel (R48). `settle`: the interval of the running settle timer in microseconds.
`reverseReported`: the report of R62 stands. `passed`: step 3 of the detach course has passed this
channel while it was SIZING (R186). -/
structure Channel where
  binding : Option Port
  state : PullState
  kind : Option PullKind
  slots : Quad (Option Nat)
  excited : Bool
  settle : Option Nat
  probeOpen : Bool
  position : Int
  lowest : Int
  lastDue : Int
  waiting : List Int
  thin : Nat
  reverseReported : Bool
  passed : Bool
  deriving DecidableEq, Repr

/-- The default slots F1 D 1, F2 D 3, F3 D 9, F4 D 39 (R48). -/
def Channel.defaultSlots : Quad (Option Nat) := ⟨some 1, some 3, some 9, some 39⟩

/-- A channel after power-on or warm reset (R48). -/
def Channel.reset : Channel where
  binding := none
  state := .unbound
  kind := none
  slots := Channel.defaultSlots
  excited := false
  settle := none
  probeOpen := false
  position := 0
  lowest := 0
  lastDue := 0
  waiting := []
  thin := 0
  reverseReported := false
  passed := false

/-! ## Pull Controllers (04_pulls.md) -/

/-- What the pull record of a tube pull holds beyond that of a calibration pull (R67, R70). -/
structure TubePull where
  tag : Tag
  index : Nat
  row : Nat
  col : Nat
  policy : Policy
  openT : Nat
  closeT : Nat
  supportT : Nat
  detection : Trace
  support : Trace
  mix : Option MixDef
  deriving DecidableEq, Repr

/-- The pull record (R67). -/
structure PullRecord where
  kind : PullKind
  port : Port
  epoch : BitVec 16
  deadline : Nat
  tube : Option TubePull
  deriving DecidableEq, Repr

/-- The null of a pull: the running sums, then the null vectors (R67, R71). -/
inductive Null where
  | absent
  | summing (sums : Eight (Option Vec))
  | formed (nulls : Eight (Option Vec))
  deriving DecidableEq, Repr

/-- A sample of a detection window: its position in 0.5 mm steps, its value and its clipped
mark (R74). -/
structure WindowSample where
  position : Nat
  value : Vec
  clipped : Bool
  deriving DecidableEq, Repr

/-- The detector (R67, R74). -/
inductive Detector where
  | armed
  | opened (window : List WindowSample)
  | blocked
  deriving DecidableEq, Repr

/-- How a tube pull came out (R90). -/
inductive TubeOutcome where
  | committed | faulted
  deriving DecidableEq, Repr

/-- The result record of a tube pull (R90). -/
structure TubeResult where
  chan : Chan
  row : Nat
  col : Nat
  tag : Tag
  outcome : TubeOutcome
  status : Status
  fault : Option PullFault
  further : Bool
  truncated : Bool
  samples : Nat
  thin : Nat
  supports : Nat
  found : Nat
  kept : Nat
  worst : Option Depth
  epoch : BitVec 16
  deriving DecidableEq, Repr

/-- The reasons of a failed or short calibration and of a failed trace (R108, R119, R123). -/
inductive CalReason where
  | clipped | weak | strong | amplitude | phase | short
  deriving DecidableEq, Repr

/-- The outcome of a calibration pull (R136). -/
inductive CalOutcome where
  | passed | failed | faulted | short
  deriving DecidableEq, Repr

/-- A gain step in 1/256 and a rotation in tenths of a degree (R92). -/
structure GainRot where
  gain : Nat
  rotation : Nat
  deriving DecidableEq, Repr

/-- A mix coefficient in steps of 1/4,096 (R92). -/
structure Coef where
  a : Int
  b : Int
  deriving DecidableEq, Repr

/-- What a full calibration found for one trace, or a check (R120, R123, R136); `failed` is absent
when the trace passes. -/
structure TraceEntry where
  trace : RawTrace
  amplitude : Nat
  phase : Nat
  failed : Option CalReason
  written : Option GainRot
  deriving DecidableEq, Repr

/-- What a full calibration made of one mix position (R121). -/
inductive MixOutcome where
  | learned (c : Coef)
  | absent
  | weak
  | ill
  | noDefinition
  deriving DecidableEq, Repr

/-- The calibration states (R114). -/
inductive CalState where
  | uncalibrated | calibrated | checkDue
  deriving DecidableEq, Repr

/-- The result record of a calibration pull (R136). -/
structure CalResult where
  chan : Chan
  kind : PullKind
  outcome : CalOutcome
  reason : Option CalReason
  fault : Option PullFault
  further : Bool
  samples : Nat
  thin : Nat
  traces : List TraceEntry
  mixes : List MixOutcome
  checkFaults : Nat
  invalidated : Nat
  state : CalState
  epoch : BitVec 16
  deriving DecidableEq, Repr

/-- A held result record (R67). -/
inductive Result where
  | tube (r : TubeResult)
  | cal (r : CalResult)
  deriving DecidableEq, Repr

/-- A Pull Controller (R67). -/
structure PullCtl where
  record : Option PullRecord
  samples : Nat
  null : Null
  armed : Bool
  supports : Nat
  supportAt : List Nat
  detector : Detector
  buffer : List Found
  found : Nat
  latch : List PullFault
  result : Option Result
  deriving DecidableEq, Repr

/-- A Pull Controller after power-on or warm reset (R67). -/
def PullCtl.reset : PullCtl where
  record := none
  samples := 0
  null := .absent
  armed := true
  supports := 0
  supportAt := []
  detector := .armed
  buffer := []
  found := 0
  latch := []
  result := none

/-! ## Calibration Units (06_calibration_and_calibration_groups.md) -/

/-- The raw values of one sample, absent for the traces of slots that are off (R55). -/
abbrev RawSample := Eight (Option Raw)

/-- The capture of a calibration pull (R113, R118). A clipped mark is a function of its raw value
(R56) and is not stored beside it. -/
structure Capture where
  standard : Option Standard
  mixes : List MixDef
  nulls : List RawSample
  hole : List RawSample
  ring : List RawSample
  deriving DecidableEq, Repr

/-- The empty capture (R113). -/
def Capture.empty : Capture := ⟨none, [], [], [], []⟩

/-- A Calibration Unit (R113). -/
structure CalUnit where
  state : CalState
  slots : Option FourSet
  gains : Eight (Option GainRot)
  mix1 : Option Coef
  mix2 : Option Coef
  epoch : BitVec 16
  lastGood : Option Nat
  checkFaults : Nat
  group : List Nat
  capture : Capture
  deriving DecidableEq, Repr

/-- No gain and rotation of any trace. -/
def noGains : Eight (Option GainRot) := Eight.ofFn (fun _ => none)

/-- A Calibration Unit after power-on reset (R113). -/
def CalUnit.reset : CalUnit where
  state := .uncalibrated
  slots := none
  gains := noGains
  mix1 := none
  mix2 := none
  epoch := 0
  lastGood := none
  checkFaults := 0
  group := []
  capture := Capture.empty

/-! ## Sizing Unit and Re-screen Sequencer (07, 08) -/

/-- The settings a job or a step reads when it begins (R140, R163). -/
structure Settings where
  curve : Curve
  report : Nat
  plug : Nat
  deriving DecidableEq, Repr

/-- A sizing job (R84, R137). -/
structure Job where
  chan : Chan
  port : Port
  tag : Tag
  index : Nat
  row : Nat
  col : Nat
  epoch : BitVec 16
  records : List Located
  found : Nat
  fault : Option PullFault
  further : Bool
  samples : Nat
  thin : Nat
  supports : Nat
  orphan : Bool
  deriving DecidableEq, Repr

/-- The Sizing Unit (R137): the job in flight stands with its sizing settings. -/
structure SizingUnit where
  queue : List Job
  flight : Option (Job × Settings)
  step : Option Settings
  deriving DecidableEq, Repr

/-- The Sizing Unit with no job and no step (R137). -/
def SizingUnit.reset : SizingUnit := ⟨[], none, none⟩

/-- Whether a pass is under way; RUNNING and WAITING, which a pass under way is in by the Sizing Unit
at every moment (R160), are computed from it. -/
inductive Phase where
  | idle | underWay | done
  deriving DecidableEq, Repr

/-- The Re-screen Sequencer (R159). -/
structure Rescreen where
  phase : Phase
  cursor : Nat
  restarts : Nat
  incomplete : Bool
  deriving DecidableEq, Repr

/-- The sequencer after power-on reset and PLAN_NEW (R159). -/
def Rescreen.reset : Rescreen := ⟨.idle, 0, 0, false⟩

end Sys2Proof.Machine

namespace Sys2Proof.Machine

/-- The state of the E4, and the queue of commands that wait. -/
structure State where
  ports : Quad PortState
  planState : PlanState
  plan : Plan
  lock : Bool
  rows : List Row
  tubes : List Tube
  claims : Quad (Quad (Option Claim))
  seconds : BitVec 32
  chan : Quad Channel
  pull : Quad PullCtl
  cal : Quad CalUnit
  sizing : SizingUnit
  free : Nat
  rescreen : Rescreen
  pending : List Instr
  deriving DecidableEq, Repr

/-- The state after power-on reset, with no command waiting (R27, R31, R47, R48, R67, R113, R137,
R156, R159, R178). -/
def State.reset : State where
  ports := Quad.fill PortState.reset
  planState := .empty
  plan := Plan.default
  lock := false
  rows := []
  tubes := []
  claims := Quad.fill (Quad.fill none)
  seconds := 0
  chan := Quad.fill Channel.reset
  pull := Quad.fill PullCtl.reset
  cal := Quad.fill CalUnit.reset
  sizing := SizingUnit.reset
  free := Config.poolSize
  rescreen := Rescreen.reset
  pending := []

end Sys2Proof.Machine
end

