-- ==== Sys2Proof/Machine/Flags.lean ====
section
/-!
DEFINITION. Writing the fields of a reply (R188): numbers, absent fields, sets and flags characters,
and the codes of the named values (code table of Frame and Record Formats).
-/

namespace Sys2Proof.Machine

/-- A number of one character. -/
def c1 (n : Nat) : List Byte := [BitVec.ofNat 8 n]

/-- A number of two characters, least significant first. -/
def c2 (n : Nat) : List Byte := [BitVec.ofNat 8 n, BitVec.ofNat 8 (n / 256)]

/-- A number of four characters, least significant first. -/
def c4 (n : Nat) : List Byte :=
  [BitVec.ofNat 8 n, BitVec.ofNat 8 (n / 256), BitVec.ofNat 8 (n / 65536),
   BitVec.ofNat 8 (n / 16777216)]

/-- A signed number of four characters in two's complement. -/
def s4 (i : Int) : List Byte := c4 (BitVec.ofInt 32 i).toNat

/-- An optional number of one character; all ones when absent. -/
def o1 (n : Option Nat) : List Byte := c1 (n.getD 255)

/-- An optional number of two characters; all ones when absent. -/
def o2 (n : Option Nat) : List Byte := c2 (n.getD 65535)

/-- An optional signed number of four characters; 80000000h when absent. -/
def os4 (i : Option Int) : List Byte :=
  match i with
  | some i => s4 i
  | none => c4 0x80000000

/-- A flag of one character. -/
def flag (b : Bool) : List Byte := c1 b.toNat

/-- A flags character with up to three flags from bit 0. -/
def flags (b0 b1 b2 : Bool) : List Byte := c1 (b0.toNat + 2 * b1.toNat + 4 * b2.toNat)

/-- A set of channels or tags: bit n for number n (R188). -/
def setChar (q : FourSet) : List Byte :=
  c1 (q.q0.toNat + 2 * q.q1.toNat + 4 * q.q2.toNat + 8 * q.q3.toNat)

/-- A depth character: 0 to 100, INDEFINITE FEh, absent FFh. -/
def depthChar (d : Option Depth) : List Byte :=
  match d with
  | some (.pct n) => c1 n
  | some .indefinite => c1 0xFE
  | none => c1 0xFF

/-- The status codes. -/
def Status.code : Status → Nat
  | .noTube => 0
  | .priorPlug => 1
  | .outOfScope => 2
  | .pending => 3
  | .repull => 4
  | .clear => 5
  | .reportable => 6
  | .plug => 7
  | .unresolved _ => 8

/-- The fault codes: the rank, 1 to 8 (R80). -/
def PullFault.rank : PullFault → Nat
  | .probeOpen => 1
  | .overspeed => 2
  | .saturated => 3
  | .encoderReverse => 4
  | .timeout => 5
  | .shortPull => 6
  | .restricted => 7
  | .supportMismatch => 8

/-- The reason code of a status, absent unless UNRESOLVED. -/
def Status.reasonCode : Status → Option Nat
  | .unresolved .indefiniteDepth => some 0
  | .unresolved (.serviceFault _) => some 1
  | .unresolved .attempts => some 2
  | _ => none

/-- The fault code of a status, present with SERVICE_FAULT. -/
def Status.faultCode : Status → Option Nat
  | .unresolved (.serviceFault f) => some f.rank
  | _ => none

/-- The code of a raw trace. -/
def rawCode : RawTrace → Nat
  | .f1d => 0
  | .f1a => 1
  | .f2d => 2
  | .f2a => 3
  | .f3d => 4
  | .f3a => 5
  | .f4d => 6
  | .f4a => 7

/-- The trace codes. -/
def Trace.code : Trace → Nat
  | .raw r => rawCode r
  | .m1 => 8
  | .m2 => 9

/-- The role codes. -/
def Role.code : Role → Nat
  | .none => 0
  | .crew => 1
  | .review => 2

/-- The policy codes. -/
def Policy.code : Policy → Nat
  | .masked => 0
  | .unmasked => 1

/-- The pull kind codes. -/
def PullKind.code : PullKind → Nat
  | .tube => 0
  | .calFull => 1
  | .calCheck => 2

/-- The pull state codes. -/
def PullState.code : PullState → Nat
  | .unbound => 0
  | .settling => 1
  | .ready => 2
  | .pulling => 3
  | .sizing => 4
  | .held => 5

/-- The calibration state codes. -/
def CalState.code : CalState → Nat
  | .uncalibrated => 0
  | .calibrated => 1
  | .checkDue => 2

/-- The plan state codes. -/
def PlanState.code : PlanState → Nat
  | .empty => 0
  | .draft => 1
  | .active => 2
  | .closed => 3

/-- The tube outcome codes. -/
def TubeOutcome.code : TubeOutcome → Nat
  | .committed => 0
  | .faulted => 1

/-- The calibration outcome codes. -/
def CalOutcome.code : CalOutcome → Nat
  | .passed => 0
  | .failed => 1
  | .faulted => 2
  | .short => 3

/-- The trace outcome and calibration reason codes; Pass is 0. -/
def CalReason.code : CalReason → Nat
  | .clipped => 1
  | .weak => 2
  | .strong => 3
  | .amplitude => 4
  | .phase => 5
  | .short => 6

/-- The mix state codes of a calibration result. -/
def MixOutcome.code : MixOutcome → Nat
  | .learned _ => 1
  | .absent => 2
  | .weak => 3
  | .ill => 4
  | .noDefinition => 5

end Sys2Proof.Machine
end

