-- ==== Sys2Proof/Machine/Operands.lean ====
section
/-!
DEFINITION. Reading the body of a request (R188, R189): one reader per layout. A reader answers none
when the body does not have the length its layout gives for the counts the body itself states; the
port then refuses with RANGE (R182). Codes and ranges are the owners' to check.
-/

namespace Sys2Proof.Machine

/-- A number of two characters, least significant first (R188). -/
def num2 (lo hi : Byte) : Nat := lo.toNat + 256 * hi.toNat

/-- A channel, tag or port number of one character, when it lies in 0 to 3. -/
def fin4 (b : Byte) : Option (Fin 4) :=
  match b.toNat with
  | 0 => some 0
  | 1 => some 1
  | 2 => some 2
  | 3 => some 3
  | _ => none

/-- The raw trace of a code (code table of Frame and Record Formats). -/
def rawTraceOf (b : Byte) : Option RawTrace :=
  match b.toNat with
  | 0 => some .f1d
  | 1 => some .f1a
  | 2 => some .f2d
  | 3 => some .f2a
  | 4 => some .f3d
  | 5 => some .f3a
  | 6 => some .f4d
  | 7 => some .f4a
  | _ => none

/-- A detection trace of a code: F1D to F4D, M1 or M2 (R11). -/
def detectionOf (b : Byte) : Option Trace :=
  match b.toNat with
  | 0 => some (.raw .f1d)
  | 2 => some (.raw .f2d)
  | 4 => some (.raw .f3d)
  | 6 => some (.raw .f4d)
  | 8 => some .m1
  | 9 => some .m2
  | _ => none

/-- A support trace of a code: F1A to F4A (R11). -/
def supportOf (b : Byte) : Option Trace :=
  match b.toNat with
  | 1 => some (.raw .f1a)
  | 3 => some (.raw .f2a)
  | 5 => some (.raw .f3a)
  | 7 => some (.raw .f4a)
  | _ => none

/-- A body of no characters. -/
def readNone : List Byte → Option Unit
  | [] => some ()
  | _ => none

/-- A body of one character: a tag, a channel or a divider. -/
def readOne : List Byte → Option Byte
  | [a] => some a
  | _ => none

/-- A body of two characters. -/
def readTwo : List Byte → Option (Byte × Byte)
  | [a, b] => some (a, b)
  | _ => none

/-- Row and column (TUBE_REPULL, TUBE_RELEASE, TUBE_READ). -/
structure Place where
  row : Nat
  col : Nat
  deriving DecidableEq, Repr

/-- Reader of row (2), column (2). -/
def readPlace : List Byte → Option Place
  | [a, b, c, d] => some ⟨num2 a b, num2 c d⟩
  | _ => none

/-- Row and column with one more character: a mark (TUBE_MARK) or a place in the list (IND_READ). -/
structure PlaceAnd where
  place : Place
  extra : Byte
  deriving DecidableEq, Repr

/-- Reader of row (2), column (2) and one character. -/
def readPlaceAnd : List Byte → Option PlaceAnd
  | [a, b, c, d, e] => some ⟨⟨num2 a b, num2 c d⟩, e⟩
  | _ => none

/-- A tag with row and column (CLAIM). -/
structure TagPlace where
  tag : Byte
  place : Place
  deriving DecidableEq, Repr

/-- Reader of tag (1), row (2), column (2). -/
def readTagPlace : List Byte → Option TagPlace
  | [t, a, b, c, d] => some ⟨t, ⟨num2 a b, num2 c d⟩⟩
  | _ => none

/-- A rectangle of the tube sheet. -/
structure Rect where
  firstRow : Nat
  lastRow : Nat
  firstCol : Nat
  lastCol : Nat
  deriving DecidableEq, Repr

/-- A rectangle with one character: a direction (SCOPE_SET) or a tag (CLAIM_NEXT). -/
structure RectAnd where
  rect : Rect
  extra : Byte
  deriving DecidableEq, Repr

/-- Reader of four numbers and a direction (SCOPE_SET). -/
def readScope : List Byte → Option RectAnd
  | [a, b, c, d, e, f, g, h, x] => some ⟨⟨num2 a b, num2 c d, num2 e f, num2 g h⟩, x⟩
  | _ => none

/-- Reader of a tag and four numbers (CLAIM_NEXT). -/
def readClaimNext : List Byte → Option RectAnd
  | [x, a, b, c, d, e, f, g, h] => some ⟨⟨num2 a b, num2 c d, num2 e f, num2 g h⟩, x⟩
  | _ => none

/-- The fields of PLAN_SET. -/
structure PlanSetBody where
  name : List Byte
  tubeLength : Nat
  deriving DecidableEq, Repr

/-- Reader of a name count, the name and the tube length (PLAN_SET). -/
def readPlanSet : List Byte → Option PlanSetBody
  | [] => none
  | n :: rest =>
    match rest.drop n.toNat with
    | [a, b] => some ⟨rest.take n.toNat, num2 a b⟩
    | _ => none

/-- Reader of the standard descriptor (STANDARD_SET). -/
def readStandard : List Byte → Option Standard
  | [a, b, c, d, e, f, w] => some ⟨num2 a b, num2 c d, num2 e f, w.toNat⟩
  | _ => none

/-- The fields of ROW_ADD. -/
structure RowAddBody where
  row : Nat
  first : Nat
  last : Nat
  supports : Nat
  deriving DecidableEq, Repr

/-- Reader of row (2), first column (2), last column (2), expected supports (1). -/
def readRowAdd : List Byte → Option RowAddBody
  | [a, b, c, d, e, f, n] => some ⟨num2 a b, num2 c d, num2 e f, n.toNat⟩
  | _ => none

/-- Curve points of three characters each. -/
def readPoints : List Byte → Option (List CurvePoint)
  | [] => some []
  | a :: b :: d :: rest => (readPoints rest).map (fun l => ⟨num2 a b, d.toNat⟩ :: l)
  | _ => none

/-- Reader of a count and that many points (CURVE_SET). -/
def readCurve : List Byte → Option (List CurvePoint)
  | [] => none
  | k :: rest => if rest.length = 3 * k.toNat then readPoints rest else none

/-- The nine values of LIMITS_SET. -/
structure Limits where
  openT : Nat
  closeT : Nat
  supportT : Nat
  report : Nat
  plug : Nat
  attemptLimit : Nat
  lease : Nat
  pullLimit : Nat
  calInterval : Nat
  deriving DecidableEq, Repr

/-- Reader of nine numbers (LIMITS_SET). -/
def readLimits : List Byte → Option Limits
  | [a, b, c, d, e, f, g, h, i, j, k, l, m, n, o, p, q, r] =>
    some ⟨num2 a b, num2 c d, num2 e f, num2 g h, num2 i j, num2 k l, num2 m n, num2 o p, num2 q r⟩
  | _ => none

/-- The fields of TRACES_SET, as codes. -/
structure TracesBody where
  detection : Byte
  support : Byte
  mixes : List (Byte × Byte)
  deriving DecidableEq, Repr

/-- Pairs of characters. -/
def readPairs : List Byte → Option (List (Byte × Byte))
  | [] => some []
  | a :: b :: rest => (readPairs rest).map (fun l => (a, b) :: l)
  | _ => none

/-- Reader of two trace codes, a mix count and that many definitions (TRACES_SET). -/
def readTraces : List Byte → Option TracesBody
  | d :: s :: m :: rest =>
    if rest.length = 2 * m.toNat then (readPairs rest).map (fun l => ⟨d, s, l⟩) else none
  | _ => none

/-- A channel with four divider fields (FREQ_SET). -/
structure FreqBody where
  chan : Byte
  slots : Quad Nat
  deriving DecidableEq, Repr

/-- Reader of channel (1) and four dividers (2 each). -/
def readFreq : List Byte → Option FreqBody
  | [x, a, b, c, d, e, f, g, h] => some ⟨x, ⟨num2 a b, num2 c d, num2 e f, num2 g h⟩⟩
  | _ => none

/-- A divider field: FFFFh means off (R188). -/
def dividerField (n : Nat) : Option Nat := if n = 65535 then none else some n

/-- A status code with a starting index (LIST_READ). -/
structure ListBody where
  status : Byte
  start : Nat
  deriving DecidableEq, Repr

/-- Reader of status (1), starting index (2). -/
def readList : List Byte → Option ListBody
  | [x, a, b] => some ⟨x, num2 a b⟩
  | _ => none

end Sys2Proof.Machine
end

