-- ==== Sys2Proof/Machine/Signal.lean ====
section
/-!
DEFINITION. Signal Arithmetic (05_signal_arithmetic.md): every figure is computed from integers and
rounded once, half to even.

The irrational factors are the cosine and sine of multiples of 0.05 degrees. `unitStep` holds those
of 0.05 degrees to 192 binary places and `rot` raises it to a power, with an error below 2^-176. A
result within 2^-100 of the middle between two grid points is exactly there: for the ranges of R92 a
nonzero distance from the middle is above 2^-75 (assumption log 12), so the rounding is that of the
exact value, as R93 asks.
-/

namespace Sys2Proof.Machine

/-! ## Rounding (R93) -/

/-- `n / d` rounded half to even, for a positive `d`. -/
def roundHalfEven (n d : Int) : Int :=
  let q := n / d
  let r := n % d
  if 2 * r < d then q
  else if d < 2 * r then q + 1
  else if q % 2 = 0 then q else q + 1

/-- The integer square root from below, bit by bit from bit `b` down. -/
def isqrtFrom (n : Nat) : Nat → Nat → Nat
  | 0, r => r
  | b + 1, r => isqrtFrom n b (if (r + 2 ^ b) * (r + 2 ^ b) ≤ n then r + 2 ^ b else r)

/-- The greatest `r` below 2^32 with `r * r ≤ n`. -/
def isqrt (n : Nat) : Nat := isqrtFrom n 32 0

/-- The amplitude of a squared distance: its square root rounded to an integer (R102). -/
def amplitudeOf (e : Nat) : Nat :=
  let k := isqrt e
  if (2 * k + 1) * (2 * k + 1) < 4 * e then k + 1 else k

/-- The gain step of a squared raw hole amplitude: 2,560,000 / √E rounded half to even (R106). -/
def gainOf (e : Nat) : Nat :=
  let g := isqrt (2560000 * 2560000 / e)
  let middle := (2 * g + 1) * (2 * g + 1) * e
  if middle < 5120000 * 5120000 then g + 1
  else if 5120000 * 5120000 < middle then g
  else if g % 2 = 0 then g else g + 1

/-! ## Angles -/

/-- One, with the 192 binary places of the trigonometric factors. -/
def trigOne : Int := 2 ^ 192

/-- The cosine and sine of 0.05 degrees in steps of 2^-192. -/
def unitStep : Int × Int :=
  (6277099345243664481805958485001305754505433163397145765017,
   5477803942992933712585211644344733480758718287267041630)

/-- The product of two complex numbers in steps of 2^-192. -/
def cmul (a b : Int × Int) : Int × Int :=
  ((a.1 * b.1 - a.2 * b.2) / trigOne, (a.1 * b.2 + a.2 * b.1) / trigOne)

/-- `base` to the power `j`, read bit by bit, times `acc`. -/
def cpow : Nat → Nat → Int × Int → Int × Int → Int × Int
  | 0, _, _, acc => acc
  | n + 1, j, base, acc =>
    cpow n (j / 2) (cmul base base) (if j % 2 = 1 then cmul acc base else acc)

/-- The cosine and sine of `j` steps of 0.05 degrees, for `j` below 8,192. -/
def rot (j : Nat) : Int × Int := cpow 13 j unitStep (trigOne, 0)

/-- `n / d` rounded half to even, where `n` carries the error of `rot`: within 2^-100 of the middle
the exact value is the middle. -/
def roundTrig (n d : Int) : Int :=
  let q := n / d
  let r := n % d
  let off := 2 * r - d
  if off.natAbs * 2 ^ 100 < d.natAbs then (if q % 2 = 0 then q else q + 1)
  else if off < 0 then q else q + 1

/-- The vector turned round when it points below the first axis or along it backwards (R101). -/
def upward (v : Vec) : Vec := if v.y < 0 ∨ (v.y = 0 ∧ v.x < 0) then ⟨-v.x, -v.y⟩ else v

/-- Whether an upward vector's angle is above `j` steps of 0.05 degrees. -/
def angleAbove (v : Vec) (j : Nat) : Bool :=
  let t := rot j
  decide (0 < v.y * t.1 - v.x * t.2)

/-- The greatest count `r` of tenths, found bit by bit, whose lower boundary `r - 0.5` tenths the
angle is above. -/
def tenthsFrom (v : Vec) : Nat → Nat → Nat
  | 0, r => r
  | b + 1, r =>
    let r' := r + 2 ^ b
    tenthsFrom v b (if r' ≤ 1800 ∧ angleAbove v (2 * r' - 1) = true then r' else r)

/-- The folded angle of a vector rounded to tenths of a degree, before 180.0 becomes 0.0: 0 to
1,800. The angle of an integer vector never lies halfway between two tenths (R101). -/
def angleTenths (v : Vec) : Nat :=
  if v = ⟨0, 0⟩ then 0 else tenthsFrom (upward v) 11 0

/-- The folded phase in tenths (R101). -/
def phaseOf (v : Vec) : Nat := angleTenths v % 1800

/-- The rotation that carries the folded angle to 40.0 degrees: 40.0 less the exact angle, plus 360
when negative, rounded to tenths, 360.0 as 0.0 (R107). -/
def rotationOf (v : Vec) : Nat := (4000 - angleTenths v) % 3600

/-! ## Samples (R94 to R98) -/

/-- A value with its clipped mark (R97). -/
structure Sig where
  value : Vec
  clipped : Bool
  deriving DecidableEq, Repr

/-- A component clamped to ±20,000 mV (R94). -/
def clampMv (x : Int) : Int := max (-Config.clampLimit) (min Config.clampLimit x)

/-- Both components clamped; the mark is kept, and set when a clamp acts (R94, R96, R98). -/
def clampSig (x y : Int) (mark : Bool) : Sig :=
  ⟨⟨clampMv x, clampMv y⟩, mark || decide (clampMv x ≠ x) || decide (clampMv y ≠ y)⟩

/-- A raw component at a limit of its range (R56). -/
def atLimit (x : BitVec 16) : Bool := decide (x.toInt = -32768) || decide (x.toInt = 32767)

/-- The clipped mark of a raw value (R56). -/
def Raw.clipped (r : Raw) : Bool := atLimit r.x || atLimit r.y

/-- A raw value as a vector of counts. -/
def Raw.vec (r : Raw) : Vec := ⟨r.x.toInt, r.y.toInt⟩

/-- The calibrated value of a raw value under a gain and a rotation (R94). -/
def calibrate (g : GainRot) (r : Raw) : Sig :=
  let t := rot (2 * g.rotation)
  let v := Raw.vec r
  let gain : Int := g.gain
  clampSig (roundTrig (gain * (v.x * t.1 - v.y * t.2)) (256 * trigOne))
    (roundTrig (gain * (v.x * t.2 + v.y * t.1)) (256 * trigOne)) (Raw.clipped r)

/-- The nulled value: calibrated less null, clamped (R96). -/
def nulled (s : Sig) (null : Vec) : Sig :=
  clampSig (s.value.x - null.x) (s.value.y - null.y) s.clipped

/-- The null vector of the sum of 16 calibrated values (R95). -/
def nullOfSum (sum : Vec) : Vec := ⟨roundHalfEven sum.x 16, roundHalfEven sum.y 16⟩

/-- The mix of a primary and a secondary value (R98). -/
def mixValue (c : Coef) (p s : Sig) : Sig :=
  clampSig (roundHalfEven (4096 * p.value.x - c.a * s.value.x + c.b * s.value.y) 4096)
    (roundHalfEven (4096 * p.value.y - c.a * s.value.y - c.b * s.value.x) 4096)
    (p.clipped || s.clipped)

/-! ## Magnitudes (R99) -/

/-- The squared magnitude. -/
def magSq (v : Vec) : Nat := (v.x * v.x + v.y * v.y).toNat

/-- Magnitude at or above a threshold. -/
def atOrAbove (v : Vec) (t : Nat) : Bool := decide (t * t ≤ magSq v)

/-- Magnitude below a threshold. -/
def below (v : Vec) (t : Nat) : Bool := decide (magSq v < t * t)

/-- Magnitude below half a threshold. -/
def belowHalf (v : Vec) (t : Nat) : Bool := decide (4 * magSq v < t * t)

/-! ## Peak-to-peak (R100 to R102) -/

/-- The vector from one sample to another. -/
def vecTo (a b : Vec) : Vec := ⟨b.x - a.x, b.y - a.y⟩

/-- The best vector so far against the vectors from `a` to the samples after it: a later pair wins
only by a greater squared distance (R100). -/
def bestFrom (a : Vec) : List Vec → Vec → Vec
  | [], best => best
  | b :: rest, best =>
    bestFrom a rest (if magSq best < magSq (vecTo a b) then vecTo a b else best)

/-- The best vector over the pairs of a window, lowest first sample first (R100). -/
def bestPair : List Vec → Vec → Vec
  | [], best => best
  | a :: rest, best => bestPair rest (bestFrom a rest best)

/-- The peak-to-peak vector of a window; (0, 0) for a window of one sample (R100, R101). -/
def peakVector (w : List Vec) : Vec := bestPair w ⟨0, 0⟩

/-- The peak-to-peak amplitude of a window (R102). -/
def peakAmplitude (w : List Vec) : Nat := amplitudeOf (magSq (peakVector w))

/-- The peak-to-peak phase of a window (R101). -/
def peakPhase (w : List Vec) : Nat := phaseOf (peakVector w)

/-! ## Depth (R103, R104) -/

/-- The points of a curve in order. -/
def Curve.points (c : Curve) : List CurvePoint := c.first :: c.second :: c.more

/-- The depth between two neighbouring points, or beyond the last (R103). -/
def depthAlong (p : Nat) (a : CurvePoint) : List CurvePoint → Nat × Bool
  | [] => (a.depth, decide (a.phase < p))
  | b :: rest =>
    if p < b.phase then
      ((roundHalfEven ((a.depth : Int) * ((b.phase : Int) - a.phase)
          + ((p : Int) - a.phase) * ((b.depth : Int) - a.depth))
        ((b.phase : Int) - a.phase)).toNat, false)
    else depthAlong p b rest

/-- The depth and the out-of-curve flag that a curve gives a folded phase (R103). -/
def Curve.read (c : Curve) (p : Nat) : Nat × Bool :=
  if p ≤ c.first.phase then (c.first.depth, decide (p < c.first.phase))
  else depthAlong p c.first (c.second :: c.more)

/-- The depth and the out-of-curve flag of a record (R103, R104). -/
def depthOf (c : Curve) (r : Found) : Depth × Bool :=
  if r.clipped then (.indefinite, false)
  else (.pct (c.read r.phase).1, (c.read r.phase).2)

/-! ## Deriving a gain and a rotation (R106 to R108) -/

/-- The outcome of one trace of a full calibration from the raw values of its hole window: the
rounded amplitude, the folded phase, and the gain and rotation or the reason it failed (R108, R120). -/
def deriveTrace (r : RawTrace) (hole : List Raw) : TraceEntry :=
  let v := peakVector (hole.map Raw.vec)
  let e := magSq v
  let failed :=
    if hole.any Raw.clipped then some CalReason.clipped
    else if e < 250000 then some CalReason.weak
    else if 1600000000 < e then some CalReason.strong
    else none
  { trace := r
    amplitude := amplitudeOf e
    phase := phaseOf v
    failed := failed
    written := if failed.isNone then some ⟨gainOf e, rotationOf v⟩ else none }

/-! ## Learning a mix coefficient (R109 to R111) -/

/-- The sum of `f` over the samples of a window. -/
def sumOver (f : Vec → Vec → Int) : List (Vec × Vec) → Int
  | [] => 0
  | (p, s) :: rest => f p s + sumOver f rest

/-- The largest of `f` over the samples of a window, 0 when there is none. -/
def largestOver (f : Vec → Vec → Nat) : List (Vec × Vec) → Nat
  | [] => 0
  | (p, s) :: rest => max (f p s) (largestOver f rest)

/-- The rounded least-squares coefficient of primary values over secondary values (R109). -/
def fitCoef (w : List (Vec × Vec)) : Coef :=
  let u := sumOver (fun p s => p.x * s.x + p.y * s.y) w
  let v := sumOver (fun p s => p.y * s.x - p.x * s.y) w
  let n := sumOver (fun _ s => s.x * s.x + s.y * s.y) w
  ⟨roundHalfEven (4096 * u) n, roundHalfEven (4096 * v) n⟩

/-- 4,096 times the residual of one sample under a coefficient (R111). -/
def residual (c : Coef) (p s : Vec) : Vec :=
  ⟨4096 * p.x - c.a * s.x + c.b * s.y, 4096 * p.y - c.a * s.y - c.b * s.x⟩

/-- Whether the largest residual exceeds 0.2 of the largest primary magnitude (R111). -/
def residualFails (c : Coef) (w : List (Vec × Vec)) : Bool :=
  decide (4096 * 4096 * largestOver (fun p _ => magSq p) w
    < 25 * largestOver (fun p s => magSq (residual c p s)) w)

/-- Learn a mix over the ring window's primary and secondary values, with the four checks in the
order of R110. -/
def learnMix (w : List (Sig × Sig)) : MixOutcome :=
  let vals := w.map (fun ps => (ps.1.value, ps.2.value))
  let c := fitCoef vals
  if w.any (fun ps => ps.1.clipped || ps.2.clipped) then .ill
  else if largestOver (fun _ s => magSq s) vals < 40000 then .weak
  else if 1073741824 < c.a * c.a + c.b * c.b then .ill
  else if residualFails c vals then .ill
  else .learned c

end Sys2Proof.Machine
end

