-- ==== Sys2Proof/Machine/Ops.lean ====
section
/-!
DEFINITION. The named operations over the state that the commands share: access to the registers of
each block, the writes of the claim field with its slot, invalidation, unbinding, the interval, the
start of a re-screen pass, and how a port takes a request and answers it.
-/

namespace Sys2Proof.Machine

/-! ## Registers -/

/-- The Time Base count (R31). -/
def State.now (s : State) : Nat := s.seconds.toNat

/-- Write a port. -/
def State.setPort (s : State) (p : Port) (x : PortState) : State :=
  { s with ports := s.ports.set p x }

/-- Write a Probe Channel. -/
def State.setChan (s : State) (c : Chan) (x : Channel) : State := { s with chan := s.chan.set c x }

/-- Write a Pull Controller. -/
def State.setPull (s : State) (c : Chan) (x : PullCtl) : State := { s with pull := s.pull.set c x }

/-- Write a Calibration Unit. -/
def State.setCal (s : State) (c : Chan) (x : CalUnit) : State := { s with cal := s.cal.set c x }

/-- The tag slot `t` of port `p` (R30). -/
def State.slot (s : State) (p : Port) (t : Tag) : Option Claim := (s.claims.get p).get t

/-- Write a tag slot. -/
def State.setSlot (s : State) (p : Port) (t : Tag) (x : Option Claim) : State :=
  { s with claims := s.claims.set p ((s.claims.get p).set t x) }

/-- Rewrite the tube record of an index. -/
def State.modTube (s : State) (i : Nat) (f : Tube → Tube) : State :=
  { s with tubes := s.tubes.modify i f }

/-- Write the plan record. -/
def State.setPlan (s : State) (x : Plan) : State := { s with plan := x }

/-- Write the Sizing Unit. -/
def State.setSizing (s : State) (x : SizingUnit) : State := { s with sizing := x }

/-! ## Looking up tubes (R14) -/

/-- The row entry of a row number. -/
def rowEntry (rows : List Row) (row : Nat) : Option Row := rows.find? (fun r => r.row == row)

/-- The tube index that a row and column name. -/
def State.indexOf (s : State) (row col : Nat) : Option Nat :=
  match rowEntry s.rows row with
  | some r => if r.first ≤ col ∧ col ≤ r.last then some (r.firstIndex + (col - r.first)) else none
  | none => none

/-- The index and record of the tube that a row and column name. -/
def State.tubeAt (s : State) (pl : Place) : Option (Nat × Tube) :=
  match s.indexOf pl.row pl.col with
  | some i => (s.tubes[i]?).map (fun tb => (i, tb))
  | none => none

/-- The first index from `i` on whose record satisfies `f`. -/
def firstIndex (f : Tube → Bool) : Nat → List Tube → Option Nat
  | _, [] => none
  | i, tb :: rest => if f tb then some i else firstIndex f (i + 1) rest

/-- Row and column both lie in the rectangle (R18, R34). -/
def Rect.holds (r : Rect) (tb : Tube) : Bool :=
  decide (r.firstRow ≤ tb.row ∧ tb.row ≤ r.lastRow ∧ r.firstCol ≤ tb.col ∧ tb.col ≤ r.lastCol)

/-- The four numbers lie in 1 to 256 and no first number exceeds its last (R18, R34). -/
def Rect.valid (r : Rect) : Bool :=
  decide (1 ≤ r.firstRow ∧ r.lastRow ≤ 256 ∧ r.firstRow ≤ r.lastRow
    ∧ 1 ≤ r.firstCol ∧ r.lastCol ≤ 256 ∧ r.firstCol ≤ r.lastCol)

/-- PENDING or REPULL (R16, Open). -/
def Status.isOpen : Status → Bool
  | .pending | .repull => true
  | _ => false

/-- CLEAR, REPORTABLE, PLUG or UNRESOLVED (R16, Done). -/
def Status.isDone : Status → Bool
  | .clear | .reportable | .plug | .unresolved _ => true
  | _ => false

/-! ## The claim field and its slot, written together (R21, R30) -/

/-- The lease deadline of a lease that starts now (R31, R35). -/
def State.leaseDeadline (s : State) : Nat := s.now + s.plan.lease

/-- A grant: the slot and the tube's claim field (R35). -/
def State.grant (s : State) (p : Port) (t : Tag) (i : Nat) : State :=
  (s.setSlot p t (some ⟨i, .leased s.leaseDeadline, false⟩)).modTube i
    (fun tb => { tb with claim := some ⟨p, t, false⟩ })

/-- PULL_START on the claim: the marker set, the deadline removed (R38). A departed claim that the port's
new station puts in pull keeps its departed mark (DESIGN CHOICE, assumption log 32). -/
def State.markInPull (s : State) (p : Port) (t : Tag) : State :=
  match s.slot p t with
  | some cl =>
    (s.setSlot p t (some { cl with hold := .inPull })).modTube cl.tube
      (fun tb => { tb with claim := some ⟨p, t, true⟩ })
  | none => s

/-- A pull end that keeps the claim: the marker cleared, a new full lease (R40). A departed claim keeps
its departed mark, so its expiry adds no notice and DETACH_CLAIM_REMOVAL removes it (DESIGN CHOICE,
assumption log 32). -/
def State.keepClaim (s : State) (p : Port) (t : Tag) : State :=
  match s.slot p t with
  | some cl =>
    (s.setSlot p t (some { cl with hold := .leased s.leaseDeadline })).modTube cl.tube
      (fun tb => { tb with claim := some ⟨p, t, false⟩ })
  | none => s

/-- The end of a claim: the slot emptied, the claim field removed (R21). -/
def State.dropClaim (s : State) (p : Port) (t : Tag) : State :=
  match s.slot p t with
  | some cl =>
    (s.setSlot p t none).modTube cl.tube (fun tb => { tb with claim := none })
  | none => s

/-! ## Notices (R45, R170) -/

/-- Add a tag to CLAIM_EXPIRED of a port (R37). -/
def State.addExpired (s : State) (p : Port) (t : Tag) : State :=
  let x := s.ports.get p
  s.setPort p
    { x with notices := { x.notices with claimExpired := x.notices.claimExpired.set t true } }

/-- Add a tag to CLAIM_REVOKED of a port (R43). -/
def State.addRevoked (s : State) (p : Port) (t : Tag) : State :=
  let x := s.ports.get p
  s.setPort p
    { x with notices := { x.notices with claimRevoked := x.notices.claimRevoked.set t true } }

/-- STORE_LOW to every attached station (R155). -/
def PortState.tellStoreLow (x : PortState) : PortState :=
  if x.role = .none then x else { x with notices := { x.notices with storeLow := true } }

/-- RESCREEN_DONE to the station in the REVIEW role (R165). -/
def PortState.tellRescreenDone (x : PortState) : PortState :=
  if x.role = .review then { x with notices := { x.notices with rescreenDone := true } } else x

/-! ## Channels, binding and excitation (R48 to R54) -/

/-- The channel is in the set of the port (R48: bound to the requester). -/
def State.holdsChan (s : State) (p : Port) (c : Chan) : Bool := (s.ports.get p).bound.get c

/-- The channel's binding names a port whose set does not hold it: the port's station has departed
(R48, R186). -/
def State.departed (s : State) (c : Chan) : Bool :=
  match (s.chan.get c).binding with
  | some p => !s.holdsChan p c
  | none => false

/-- The largest divider of the active slots (R54). -/
def lowDivider (slots : Quad (Option Nat)) : Nat :=
  slots.toList.foldr (fun d m => max (d.getD 0) m) 0

/-- The settle interval in microseconds (R54). -/
def settleTime (slots : Quad (Option Nat)) : Nat := 256 * (lowDivider slots + 1)

/-- Demodulator outputs per second (R59). -/
def outputRate (slots : Quad (Option Nat)) : Nat :=
  min 4000 (1000000 / (4 * (lowDivider slots + 1)))

/-- The slot of a raw trace is active (R55). -/
def traceActive (slots : Quad (Option Nat)) (r : RawTrace) : Bool := (slots.get r.slot).isSome

/-- The active slots (R53). -/
def activeSlots (slots : Quad (Option Nat)) : FourSet := slots.map Option.isSome

/-- A new settle: the excitation runs and the settle timer starts (R54). -/
def Channel.beginSettle (ch : Channel) : Channel :=
  { ch with excited := true, state := .settling, settle := some (settleTime ch.slots) }

/-- A channel as an unbind leaves it: the slots are kept (R52, R65). -/
def Channel.unbound (ch : Channel) : Channel :=
  { ch with
    binding := none, state := .unbound, kind := none, excited := false, settle := none,
    probeOpen := false, waiting := [], passed := false }

/-- A pull is in flight: PULLING or SIZING (R49). -/
def Channel.inFlight (ch : Channel) : Bool := ch.state = .pulling || ch.state = .sizing

/-- A calibration pull is in flight (R49: a calibration pull is never in SIZING). -/
def Channel.calInFlight (ch : Channel) : Bool :=
  ch.state = .pulling && (ch.kind = some .calFull || ch.kind = some .calCheck)

/-- A calibration pull is in flight on any channel. -/
def State.anyCalInFlight (s : State) : Bool := s.chan.toList.any Channel.calInFlight

/-- A pull is in flight on any channel. -/
def State.anyInFlight (s : State) : Bool := s.chan.toList.any Channel.inFlight

/-! ## Calibration: losing it, and the interval (R127, R128, R132, R133) -/

/-- UNCALIBRATED, with everything the calibration held gone; the epoch and the group stay (R122,
R133). -/
def CalUnit.drop (u : CalUnit) : CalUnit :=
  { u with
    state := .uncalibrated, slots := none, gains := noGains, mix1 := none, mix2 := none,
    lastGood := none, checkFaults := 0 }

/-- CALIBRATED becomes CHECK_DUE; the other states stay (R128). -/
def CalUnit.due (u : CalUnit) : CalUnit :=
  if u.state = .calibrated then { u with state := .checkDue } else u

/-- A tube record as an invalidation writes it (R24). -/
def Tube.invalidated (tb : Tube) : Tube := { tb with status := .repull, suspect := true }

/-- Write every tube of a list of indices as an invalidation does (R24). -/
def invalidateTubes : List Nat → List Tube → List Tube
  | [], tubes => tubes
  | i :: rest, tubes => invalidateTubes rest (tubes.modify i Tube.invalidated)

/-- The invalidation of a channel (R132). -/
def State.invalidate (s : State) (c : Chan) : State :=
  let u := s.cal.get c
  { s with
    tubes := invalidateTubes u.group s.tubes
    cal := s.cal.set c { u.drop with group := [] } }

/-- The calibration interval of a CALIBRATED channel has passed (R127). -/
def State.intervalPassed (s : State) (c : Chan) : Bool :=
  let u := s.cal.get c
  decide (u.state = .calibrated) &&
    (match u.lastGood with
     | some g => decide (g + 60 * s.plan.calInterval ≤ s.now)
     | none => false)

/-- The interval expiry of every channel whose interval has passed (R127). -/
def State.takeIntervals (s : State) : State :=
  { s with
    cal := Quad.ofFn (fun c =>
      if s.intervalPassed c then (s.cal.get c).due else s.cal.get c) }

/-- The channel leaves its station: out of the port's set, and unbound (R52). -/
def State.unbindChan (s : State) (c : Chan) : State :=
  let ch := s.chan.get c
  let s1 := s.setChan c ch.unbound
  match ch.binding with
  | some p =>
    let x := s1.ports.get p
    s1.setPort p { x with bound := x.bound.set c false }
  | none => s1

/-- A forced unbind: the held result discarded, the channel unbound, its group invalidated (R65,
R134). -/
def State.forceUnbind (s : State) (c : Chan) : State :=
  let ctl := s.pull.get c
  ((s.setPull c { ctl with result := none }).unbindChan c).invalidate c

/-! ## Sizing Unit and Re-screen Sequencer (R139, R148, R160, R161) -/

/-- A job is queued or in flight (R160). -/
def State.jobsWaiting (s : State) : Bool := !s.sizing.queue.isEmpty || s.sizing.flight.isSome

/-- The unit has no job in flight and no step in flight (R139). -/
def State.unitIdle (s : State) : Bool := s.sizing.flight.isNone && s.sizing.step.isNone

/-- A pass is under way: RUNNING or WAITING (R160). -/
def State.passUnderWay (s : State) : Bool := s.rescreen.phase = .underWay

/-- The code of the sequencer's state: IDLE 0, RUNNING 1, WAITING 2, DONE 3 (R160). -/
def State.rescreenCode (s : State) : Nat :=
  match s.rescreen.phase with
  | .idle => 0
  | .underWay => if s.jobsWaiting then 2 else 1
  | .done => 3

/-- The curve and thresholds in force, when a curve is present (R140, R163). -/
def Plan.settings (pl : Plan) : Option Settings :=
  pl.curve.map (fun c => ⟨c, pl.report, pl.plug⟩)

/-- The start or restart of a pass, which ends a step in flight (R161, R164). -/
def State.startPass (s : State) : State :=
  { s with
    rescreen :=
      { phase := .underWay
        cursor := 0
        restarts :=
          if s.rescreen.phase = .underWay then min (s.rescreen.restarts + 1) 65535 else 0
        incomplete := false }
    sizing := { s.sizing with step := none } }

/-- A job in flight begins again under the settings now in force (R148). -/
def State.restartJob (s : State) : State :=
  match s.sizing.flight, s.plan.settings with
  | some (j, _), some st => s.setSizing { s.sizing with flight := some (j, st) }
  | _, _ => s

/-- What an accepted CURVE_SET or LIMITS_SET starts in ACTIVE (R8, R9, R148, R161). -/
def State.settingsChanged (s : State) : State :=
  if s.planState = .active then s.restartJob.startPass else s

/-! ## Taking a request (R181 to R183) -/

/-- The refusal codes, in the order of their table (Station Links). -/
inductive RefusalCode where
  | garbled | unknown | role | state | locked | range | order | full | noTube | notClaimable
  | taken | tagBusy | noClaim | inPull | noneLeft | busy | notBound | settling | uncalibrated
  | checkDue | held | groupOpen | noMix | probeOpen | ended
  deriving DecidableEq, Repr

/-- The code values 01h to 19h. -/
def RefusalCode.code : RefusalCode → Byte
  | .garbled => 0x01
  | .unknown => 0x02
  | .role => 0x03
  | .state => 0x04
  | .locked => 0x05
  | .range => 0x06
  | .order => 0x07
  | .full => 0x08
  | .noTube => 0x09
  | .notClaimable => 0x0A
  | .taken => 0x0B
  | .tagBusy => 0x0C
  | .noClaim => 0x0D
  | .inPull => 0x0E
  | .noneLeft => 0x0F
  | .busy => 0x10
  | .notBound => 0x11
  | .settling => 0x12
  | .uncalibrated => 0x13
  | .checkDue => 0x14
  | .held => 0x15
  | .groupOpen => 0x16
  | .noMix => 0x17
  | .probeOpen => 0x18
  | .ended => 0x19

/-- What a block answers a request: accepted with the state it leaves and the body of the DONE
reply, or refused with a code, which changes no state (R182). -/
inductive Answer where
  | done (s : State) (body : List Byte)
  | refused (why : RefusalCode)
  deriving DecidableEq, Repr

/-- The lead character of a DONE reply. -/
def leadDone : Byte := 0xF0

/-- The lead character of a REFUSED reply. -/
def leadRefused : Byte := 0xF1

/-- The reply of an answer, not yet begun to be sent (R183). -/
def Answer.reply : Answer → Reply
  | .done _ body => ⟨leadDone, body, 0⟩
  | .refused why => ⟨leadRefused, [why.code], 0⟩

/-- The state an answer leaves, given the state it was asked in. -/
def Answer.after (s : State) : Answer → State
  | .done s' _ => s'
  | .refused _ => s

/-- The port answers: it is in HUNT with the reply in progress (R182). -/
def State.answer (s : State) (p : Port) (a : Answer) : State :=
  let s' := a.after s
  s'.setPort p { s'.ports.get p with assembly := .hunt, reply := some a.reply }

/-- How a complete frame of a port is dealt with. While a reply is in progress the frame waits in
WAITING; a frame that arrives while another one waits is discarded; otherwise the port takes it and
answers (R181, R182). -/
def State.deliver (s : State) (p : Port) (f : Frame) (ask : State → Answer) : State :=
  let x := s.ports.get p
  match x.assembly, x.reply with
  | .waiting g, none => if g = f then s.answer p (ask s) else s
  | .waiting _, some _ => s
  | _, none => s.answer p (ask s)
  | _, some _ => s.setPort p { x with assembly := .waiting f }

/-- Who may issue a request as the Station Table checks it (R187). -/
inductive Rights where
  /-- ATTACH and LINK_RATE: attached or not. -/
  | anyone
  /-- Attached; the owner checks the role where it does. -/
  | attached
  /-- The REVIEW station. -/
  | review
  deriving DecidableEq, Repr

/-- The Station Table's check (R182, R187). -/
def Rights.allows (r : Rights) (role : Role) : Bool :=
  match r with
  | .anyone => true
  | .attached => decide (role ≠ .none)
  | .review => decide (role = .review)

/-- The checks of R182 after the port has read the code: the role at the Station Table, the length
of the body, then the owner. -/
def checked {α : Type} (p : Port) (rights : Rights) (fields : Option α)
    (owner : α → Port → State → Answer) (s : State) : Answer :=
  if rights.allows (s.ports.get p).role then
    match fields with
    | some x => owner x p s
    | none => .refused .range
  else .refused .role

/-- A request of a port as a command: its frame is complete and not garbled, and is dealt with. -/
def request {α : Type} (p : Port) (code : Byte) (body : List Byte) (rights : Rights)
    (fields : Option α) (owner : α → Port → State → Answer) (s : State) :
    Host.Outcome State Fault Refusal :=
  .next (s.deliver p ⟨code, body, false⟩ (checked p rights fields owner))

end Sys2Proof.Machine
end

