-- ==== Sys2Proof/Machine/ChannelRequests.lean ====
section
/-!
DEFINITION. BIND, UNBIND, FREQ_SET, the settle completion and the expiry of the calibration interval
(03_probe_channels.md R51 to R54, 06 R127, R128, R133).
-/

namespace Sys2Proof.Machine

/-- The four slot settings in a reply; an off slot holds FFFFh (R188). -/
def slotsBody (slots : Quad (Option Nat)) : List Byte :=
  o2 slots.q0 ++ o2 slots.q1 ++ o2 slots.q2 ++ o2 slots.q3

/-- The one action of an accepted BIND (R51). -/
def State.bindChan (s : State) (p : Port) (c : Chan) : State :=
  let x := s.ports.get p
  let ch := s.chan.get c
  (s.setPort p { x with bound := x.bound.set c true }).setChan c
    { ch with binding := some p }.beginSettle

/-- BIND at its owners (R51). -/
def ownBind (x : Byte) (p : Port) (s : State) : Answer :=
  if (s.ports.get p).role ≠ .crew then .refused .role
  else match fin4 x with
    | none => .refused .range
    | some c =>
      if (s.chan.get c).binding.isSome then .refused .busy
      else if 2 ≤ (s.ports.get p).bound.card then .refused .full
      else .done (s.bindChan p c)
        (c1 c.val ++ slotsBody (s.chan.get c).slots ++ c4 (settleTime (s.chan.get c).slots))

/-- BIND (R51). -/
def execBind (p : Port) (body : List Byte) (s : State) : Host.Outcome State Fault Refusal :=
  request p 0x30 body .attached (readOne body) ownBind s

/-- Checks 3 to 6 of UNBIND and FREQ_SET (R52, R53); none when they pass. -/
def State.freeRefusal (s : State) (p : Port) (c : Chan) : Option RefusalCode :=
  if !s.holdsChan p c then some .notBound
  else match (s.chan.get c).state with
    | .pulling | .sizing => some .busy
    | .held => some .held
    | _ => if (s.cal.get c).group ≠ [] then some .groupOpen else none

/-- The unit of channel `c` without its calibration; the group stays (R133). -/
def State.dropCal (s : State) (c : Chan) : State := s.setCal c (s.cal.get c).drop

/-- UNBIND at its owners (R52). -/
def ownUnbind (x : Byte) (p : Port) (s : State) : Answer :=
  if (s.ports.get p).role ≠ .crew then .refused .role
  else match fin4 x with
    | none => .refused .range
    | some c =>
      match s.freeRefusal p c with
      | some r => .refused r
      | none => .done ((s.unbindChan c).dropCal c) (c1 c.val)

/-- UNBIND (R52). -/
def execUnbind (p : Port) (body : List Byte) (s : State) : Host.Outcome State Fault Refusal :=
  request p 0x31 body .attached (readOne body) ownUnbind s

/-- The active dividers. -/
def dividers (slots : Quad (Option Nat)) : List Nat := slots.toList.filterMap id

/-- The slots of FREQ_SET: no divider above 999, no two alike, at least one (R53). -/
def slotsValid (slots : Quad (Option Nat)) : Bool :=
  (dividers slots).all (fun d => decide (d ≤ 999)) && decide ((dividers slots).Nodup)
    && decide (dividers slots ≠ [])

/-- FREQ_SET at its owners (R53). -/
def ownFreqSet (x : FreqBody) (p : Port) (s : State) : Answer :=
  let slots := x.slots.map dividerField
  if (s.ports.get p).role ≠ .crew then .refused .role
  else match fin4 x.chan with
    | none => .refused .range
    | some c =>
      if !slotsValid slots then .refused .range
      else match s.freeRefusal p c with
        | some r => .refused r
        | none =>
          .done ((s.setChan c { s.chan.get c with slots := slots }.beginSettle).dropCal c)
            (slotsBody slots ++ c4 (settleTime slots))

/-- FREQ_SET (R53). -/
def execFreqSet (p : Port) (body : List Byte) (s : State) : Host.Outcome State Fault Refusal :=
  request p 0x32 body .attached (readFreq body) ownFreqSet s

/-- SETTLE_COMPLETION (R54): a SETTLING channel whose timer runs becomes READY. -/
def execSettleCompletion (c : Chan) (s : State) : Host.Outcome State Fault Refusal :=
  let ch := s.chan.get c
  .next
    (if ch.state = .settling ∧ ch.settle.isSome = true then
      s.setChan c { ch with state := .ready, settle := none }
     else s)

/-- CALIBRATION_INTERVAL_EXPIRY (R127): taken on a CALIBRATED channel once the count has reached the
due count, where the tick of that second has not taken it already (assumption log 6). -/
def execCalibrationIntervalExpiry (c : Chan) (s : State) : Host.Outcome State Fault Refusal :=
  .next (if s.intervalPassed c then s.setCal c (s.cal.get c).due else s)

end Sys2Proof.Machine
end

