-- ==== Sys2Proof/Machine/ClaimRequests.lean ====
section
/-!
DEFINITION. The Claim Table's requests and the expiry of a lease (02_claims.md).
-/

namespace Sys2Proof.Machine

/-- The body of the reply to an accepted CLAIM or CLAIM_NEXT (R35). -/
def grantBody (t : Tag) (i : Nat) (tb : Tube) (lease : Nat) : List Byte :=
  c1 t.val ++ c2 tb.row ++ c2 tb.col ++ c2 i ++ c1 tb.status.code ++ c1 tb.attempts
    ++ flag tb.suspect ++ c2 lease

/-- CLAIM at the Claim Table and the Tube Map, in the order of checks of R33. -/
def ownClaim (x : TagPlace) (p : Port) (s : State) : Answer :=
  if s.planState ≠ .active then .refused .state
  else if (s.ports.get p).role ≠ .crew then .refused .role
  else match fin4 x.tag with
    | none => .refused .range
    | some t =>
      if (s.slot p t).isSome then .refused .tagBusy
      else match s.tubeAt x.place with
        | none => .refused .noTube
        | some (i, tb) =>
          if !tb.status.isOpen then .refused .notClaimable
          else if tb.claim.isSome then .refused .taken
          else .done (s.grant p t i) (grantBody t i tb s.plan.lease)

/-- CLAIM (R33). -/
def execClaim (p : Port) (body : List Byte) (s : State) : Host.Outcome State Fault Refusal :=
  request p 0x20 body .attached (readTagPlace body) ownClaim s

/-- A candidate of CLAIM_NEXT with a given status (R34). -/
def candidate (r : Rect) (st : Status) (tb : Tube) : Bool :=
  r.holds tb && decide (tb.status = st) && tb.claim.isNone

/-- The tube CLAIM_NEXT chooses: the lowest REPULL candidate, else the lowest PENDING one (R34). -/
def chooseNext (r : Rect) (tubes : List Tube) : Option Nat :=
  match firstIndex (candidate r .repull) 0 tubes with
  | some i => some i
  | none => firstIndex (candidate r .pending) 0 tubes

/-- CLAIM_NEXT at the Claim Table and the Tube Map (R34). -/
def ownClaimNext (x : RectAnd) (p : Port) (s : State) : Answer :=
  if s.planState ≠ .active then .refused .state
  else if (s.ports.get p).role ≠ .crew then .refused .role
  else match fin4 x.extra with
    | none => .refused .range
    | some t =>
      if !x.rect.valid then .refused .range
      else if (s.slot p t).isSome then .refused .tagBusy
      else match chooseNext x.rect s.tubes with
        | none => .refused .noneLeft
        | some i =>
          match s.tubes[i]? with
          | none => .refused .noneLeft
          | some tb => .done (s.grant p t i) (grantBody t i tb s.plan.lease)

/-- CLAIM_NEXT (R34). -/
def execClaimNext (p : Port) (body : List Byte) (s : State) : Host.Outcome State Fault Refusal :=
  request p 0x21 body .attached (readClaimNext body) ownClaimNext s

/-- The row and column of a tube index, in a reply. -/
def placeBody (tubes : List Tube) (i : Nat) : List Byte :=
  match tubes[i]? with
  | some tb => c2 tb.row ++ c2 tb.col
  | none => o2 none ++ o2 none

/-- RELEASE at the Claim Table (R42). -/
def ownRelease (tag : Byte) (p : Port) (s : State) : Answer :=
  if (s.ports.get p).role ≠ .crew then .refused .role
  else match fin4 tag with
    | none => .refused .range
    | some t =>
      match s.slot p t with
      | none => .refused .noClaim
      | some cl =>
        if cl.hold = .inPull then .refused .inPull
        else .done (s.dropClaim p t) (placeBody s.tubes cl.tube)

/-- RELEASE (R42). -/
def execRelease (p : Port) (body : List Byte) (s : State) : Host.Outcome State Fault Refusal :=
  request p 0x22 body .attached (readOne body) ownRelease s

/-- The claim in a slot is one of a departed station whose detach course runs (R45, R186). -/
def State.departedClaim (s : State) (p : Port) (t : Tag) : Bool :=
  match s.slot p t with
  | some cl => cl.departed
  | none => false

/-- TUBE_RELEASE at the Claim Table (R43); a departed station's claim adds no notice (R45). -/
def ownTubeRelease (x : Place) (p : Port) (s : State) : Answer :=
  if (s.ports.get p).role ≠ .review then .refused .role
  else match s.tubeAt x with
    | none => .refused .noTube
    | some (_, tb) =>
      match tb.claim with
      | none => .refused .noClaim
      | some cf =>
        if cf.inPull then .refused .inPull
        else
          let s' := s.dropClaim cf.port cf.tag
          .done (if s.departedClaim cf.port cf.tag then s' else s'.addRevoked cf.port cf.tag)
            (c1 cf.port.val ++ c1 cf.tag.val)

/-- TUBE_RELEASE (R43). -/
def execTubeRelease (p : Port) (body : List Byte) (s : State) :
    Host.Outcome State Fault Refusal :=
  request p 0x23 body .attached (readPlace body) ownTubeRelease s

/-- The lease of a slot's claim has run out: its marker is clear and the count has reached its
deadline (R31, R37). -/
def State.leaseRunOut (s : State) (p : Port) (t : Tag) : Bool :=
  match s.slot p t with
  | some ⟨_, .leased d, _⟩ => decide (d ≤ s.now)
  | _ => false

/-- The expiry of a claim (R37); a departed station's claim adds no notice (R45). -/
def State.expire (s : State) (p : Port) (t : Tag) : State :=
  let s' := s.dropClaim p t
  if s.departedClaim p t then s' else s'.addExpired p t

/-- LEASE_EXPIRY (R37): an expiry that the tick of its second has not taken already (assumption log
6). -/
def execLeaseExpiry (p : Port) (t : Tag) (s : State) : Host.Outcome State Fault Refusal :=
  .next (if s.leaseRunOut p t then s.expire p t else s)

end Sys2Proof.Machine
end

