-- ==== Sys2Proof/Machine/PullSamples.lean ====
section
/-!
DEFINITION. What a Pull Controller makes of one sample, and a Calibration Unit of one sample of a
calibration pull (04_pulls.md R68 to R78, 06 R115, R118). Pure functions of the block's registers.
-/

namespace Sys2Proof.Machine

/-! ## The fault latch (R67, R80) -/

/-- A fault put into the latch, once (R67). -/
def latchAdd (f : PullFault) (l : List PullFault) : List PullFault :=
  if l.contains f then l else l ++ [f]

/-- The highest-ranked fault of a latch (R80). -/
def reported : List PullFault → Option PullFault
  | [] => none
  | f :: rest =>
    match reported rest with
    | some g => if f.rank ≤ g.rank then some f else some g
    | none => some f

/-- The further-faults flag: the latch holds more than one fault (R80). -/
def further (l : List PullFault) : Bool := decide (1 < l.length)

/-- An error-type fault, ranks 1 to 6 (R80). -/
def PullFault.isError (f : PullFault) : Bool := decide (f.rank ≤ 6)

/-! ## The null stage (R71, R95) -/

/-- The calibrated values of the active raw traces (R71, R112). -/
def calibrateAll (gains : Eight (Option GainRot)) (raw : RawSample) : Eight (Option Sig) :=
  Eight.ofFn (fun r =>
    match gains.get r, raw.get r with
    | some g, some v => some (calibrate g v)
    | _, _ => none)

/-- The running sums with one more sample (R71). -/
def addToSums (sums : Eight (Option Vec)) (sigs : Eight (Option Sig)) : Eight (Option Vec) :=
  Eight.ofFn (fun r =>
    match sigs.get r with
    | some x =>
      let v := (sums.get r).getD ⟨0, 0⟩
      some ⟨v.x + x.value.x, v.y + x.value.y⟩
    | none => none)

/-- The sums so far; none before the first sample. -/
def Null.sums : Null → Eight (Option Vec)
  | .summing sums => sums
  | _ => Eight.ofFn (fun _ => none)

/-- The null vectors of the sums of 16 samples (R71, R95). -/
def nullsOf (sums : Eight (Option Vec)) : Eight (Option Vec) :=
  Eight.ofFn (fun r => (sums.get r).map nullOfSum)

/-- The null after sample number `n`, from 1 to 16 (R71). -/
def Null.add (z : Null) (n : Nat) (sigs : Eight (Option Sig)) : Null :=
  let sums := addToSums z.sums sigs
  if n < Config.nullSamples then .summing sums else .formed (nullsOf sums)

/-- The null vector of a trace, once formed. -/
def Null.vector (z : Null) (r : RawTrace) : Option Vec :=
  match z with
  | .formed nulls => nulls.get r
  | _ => none

/-! ## The sampling stage (R72) -/

/-- The calibrated, nulled value of a raw trace (R72). -/
def nulledTrace (z : Null) (sigs : Eight (Option Sig)) (r : RawTrace) : Option Sig :=
  match sigs.get r, z.vector r with
  | some x, some v => some (nulled x v)
  | _, _ => none

/-- The mix of a definition under a coefficient (R72, R98). -/
def mixTrace (z : Null) (sigs : Eight (Option Sig)) (d : Option MixDef) (k : Option Coef) :
    Option Sig :=
  match d, k with
  | some d, some k =>
    match nulledTrace z sigs d.primary, nulledTrace z sigs d.secondary with
    | some p, some q => some (mixValue k p q)
    | _, _ => none
  | _, _ => none

/-- The value of the detection or support trace at a sample (R72). -/
def traceValue (u : CalUnit) (tp : TubePull) (z : Null) (sigs : Eight (Option Sig)) :
    Trace → Option Sig
  | .raw r => nulledTrace z sigs r
  | .m1 => mixTrace z sigs tp.mix u.mix1
  | .m2 => mixTrace z sigs tp.mix u.mix2

/-- The support counter at a sample (R73). -/
def PullCtl.countSupport (k : PullCtl) (pos : Nat) (v : Vec) (threshold : Nat) : PullCtl :=
  if k.armed then
    if atOrAbove v threshold then
      { k with
        armed := false
        supports := k.supports + 1
        supportAt :=
          if k.supportAt.length < Config.supportsKept then k.supportAt ++ [pos] else k.supportAt }
    else k
  else if belowHalf v threshold then { k with armed := true } else k

/-! ## Indications (R74 to R78) -/

/-- The least amplitude of a list of records, no more than `m`. -/
def leastAmplitude : List Found → Nat → Nat
  | [], m => m
  | f :: rest, m => leastAmplitude rest (min f.amplitude m)

/-- The list without the last record of an amplitude. -/
def dropLastOf (a : Nat) : List Found → List Found
  | [] => []
  | f :: rest =>
    if rest.any (fun g => g.amplitude == a) then f :: dropLastOf a rest
    else if f.amplitude = a then rest
    else f :: dropLastOf a rest

/-- A record offered to the pull buffer: a full buffer drops, of the 25, the record of smallest
amplitude, and of several the one that closed last (R77). -/
def offer (buffer : List Found) (f : Found) : List Found :=
  if buffer.length < Config.bufferMax then buffer ++ [f]
  else dropLastOf (leastAmplitude buffer f.amplitude) (buffer ++ [f])

/-- The record of a window (R76). The centre of n samples is number (n + 1) / 2 or n / 2, which is
place (n - 1) / 2 counted from 0. -/
def recordOf (w : List WindowSample) (trace : Trace) (long : Bool) : Found :=
  let vals := w.map WindowSample.value
  { position := ((w[(w.length - 1) / 2]?).map WindowSample.position).getD 0
    trace := trace
    amplitude := peakAmplitude vals
    phase := peakPhase vals
    clipped := w.any WindowSample.clipped
    long := long }

/-- An indication closes: its record is counted and offered to the buffer (R76). -/
def PullCtl.close (k : PullCtl) (w : List WindowSample) (trace : Trace) (long : Bool)
    (next : Detector) : PullCtl :=
  { k with
    found := k.found + 1
    buffer := offer k.buffer (recordOf w trace long)
    detector := next }

/-- A sample appended to a window is checked against the saturation policy (R78). -/
def PullCtl.saturate (k : PullCtl) (policy : Policy) (x : Sig) : PullCtl :=
  if policy = .unmasked ∧ x.clipped = true then { k with latch := latchAdd .saturated k.latch }
  else k

/-- The detector at a sample (R74, R75). -/
def PullCtl.detect (k : PullCtl) (tp : TubePull) (pos : Nat) (x : Sig) : PullCtl :=
  let ws : WindowSample := ⟨pos, x.value, x.clipped⟩
  match k.detector with
  | .armed =>
    if atOrAbove x.value tp.openT then
      ({ k with detector := .opened [ws] }).saturate tp.policy x
    else k
  | .opened w =>
    let w' := w ++ [ws]
    let k' := k.saturate tp.policy x
    if below x.value tp.closeT then k'.close w' tp.detection false .armed
    else if w'.length = Config.windowMax then k'.close w' tp.detection true .blocked
    else { k' with detector := .opened w' }
  | .blocked => if below x.value tp.closeT then { k with detector := .armed } else k

/-! ## A sample, and a step (R68) -/

/-- A sample of a tube pull at a position in 0.5 mm steps (R71, R72). -/
def PullCtl.tubeSample (u : CalUnit) (tp : TubePull) (raw : RawSample) (k : PullCtl) (pos : Nat) :
    PullCtl :=
  let n := k.samples + 1
  let sigs := calibrateAll u.gains raw
  let k' := { k with samples := n }
  if n ≤ Config.nullSamples then { k' with null := k.null.add n sigs }
  else
    let k1 :=
      match traceValue u tp k.null sigs tp.support with
      | some x => k'.countSupport pos x.value tp.supportT
      | none => k'
    match traceValue u tp k.null sigs tp.detection with
    | some x => k1.detect tp pos x
    | none => k1

/-- The samples of a step in the order handed on; a latched fault stops the processing of the remaining
ones (R68). Those were handed on, and raise the samples taken all the same: the number the result record
reports is the number of samples handed on (R64, R90; DEDUCED, assumption log 22). -/
def tubeStep (u : CalUnit) (tp : TubePull) (raw : RawSample) : List Nat → PullCtl → PullCtl
  | [], k => k
  | pos :: rest, k =>
    if k.latch.isEmpty then tubeStep u tp raw rest (k.tubeSample u tp raw pos)
    else { k with samples := k.samples + (rest.length + 1) }

/-- The lowest and highest step of the window about a position of the standard (R115). -/
def windowSteps (centre half : Nat) : Nat × Nat := (2 * (centre - half), 2 * (centre + half))

/-- A step lies in the window about a position of the standard (R115). -/
def inWindow (centre half pos : Nat) : Bool :=
  decide ((windowSteps centre half).1 ≤ pos ∧ pos ≤ (windowSteps centre half).2)

/-- The capture with one more sample, of number `n` at step `pos` (R118). -/
def Capture.take (k : Capture) (n pos : Nat) (raw : RawSample) : Capture :=
  match k.standard with
  | none => k
  | some d =>
    { k with
      nulls := if n ≤ Config.nullSamples then k.nulls ++ [raw] else k.nulls
      hole := if inWindow d.hole d.half pos then k.hole ++ [raw] else k.hole
      ring := if inWindow d.ring d.half pos then k.ring ++ [raw] else k.ring }

/-- The samples of a step of a calibration pull: counted by the Pull Controller, captured by the
Calibration Unit (R89, R118). -/
def calStep (raw : RawSample) : List Nat → Nat → Capture → Nat × Capture
  | [], n, k => (n, k)
  | pos :: rest, n, k => calStep raw rest (n + 1) (k.take (n + 1) pos raw)

/-- The sample an output gives: the raw values of the active slots (R55, R60). -/
def sampleOf (slots : Quad (Option Nat)) (values : Eight Raw) : RawSample :=
  Eight.ofFn (fun r => if traceActive slots r then some (values.get r) else none)

end Sys2Proof.Machine
end

