-- ==== Sys2Proof/Machine/Calibration.lean ====
section
/-!
DEFINITION. The Calibration Unit's judgement of a calibration pull (06_calibration_and_calibration_groups.md
R119 to R125, R136).
-/

namespace Sys2Proof.Machine

/-! ## A full calibration (R120, R121) -/

/-- The values of one trace among captured samples. -/
def traceRaws (r : RawTrace) (l : List RawSample) : List Raw := l.filterMap (fun x => x.get r)

/-- The active raw traces of a channel in the order of R120. -/
def activeTraces (slots : Quad (Option Nat)) : List RawTrace :=
  RawTrace.all.filter (traceActive slots)

/-- The outcome of each active raw trace of a measured FULL (R120). -/
def fullEntries (slots : Quad (Option Nat)) (k : Capture) : List TraceEntry :=
  (activeTraces slots).map (fun r => deriveTrace r (traceRaws r k.hole))

/-- The reason of the first failing trace (R120, R123). -/
def firstFailure : List TraceEntry → Option CalReason
  | [] => none
  | e :: rest =>
    match e.failed with
    | some r => some r
    | none => firstFailure rest

/-- The gains and rotations of the entries of a FULL whose traces all passed (R121). -/
def gainsOf (l : List TraceEntry) : Eight (Option GainRot) :=
  Eight.ofFn (fun r => (l.find? (fun e => decide (e.trace = r))).bind TraceEntry.written)

/-- The null vector of a trace from its captured null samples (R121, R123). -/
def capturedNull (g : GainRot) (l : List Raw) : Vec :=
  nullOfSum (l.foldl (fun v r =>
    ⟨v.x + (calibrate g r).value.x, v.y + (calibrate g r).value.y⟩) ⟨0, 0⟩)

/-- The calibrated, nulled values of one trace over captured samples (R121, R123). -/
def capturedValues (g : GainRot) (r : RawTrace) (k : Capture) (l : List RawSample) : List Sig :=
  let null := capturedNull g (traceRaws r k.nulls)
  (traceRaws r l).map (fun v => nulled (calibrate g v) null)

/-- What a FULL makes of a mix position (R121). -/
def learnPosition (gains : Eight (Option GainRot)) (k : Capture) (d : Option MixDef) : MixOutcome :=
  match d with
  | none => .noDefinition
  | some d =>
    match gains.get d.primary, gains.get d.secondary with
    | some g, some h =>
      learnMix ((capturedValues g d.primary k k.ring).zip (capturedValues h d.secondary k k.ring))
    | _, _ => .absent

/-- The coefficient of a learned position. -/
def MixOutcome.coef : MixOutcome → Option Coef
  | .learned c => some c
  | _ => none

/-- The unit after a full calibration that succeeds (R121). -/
def CalUnit.calibrateFull (u : CalUnit) (slots : Quad (Option Nat)) (entries : List TraceEntry)
    (now : Nat) : CalUnit :=
  let gains := gainsOf entries
  { u with
    state := .calibrated
    slots := some (activeSlots slots)
    gains := gains
    mix1 := (learnPosition gains u.capture u.capture.mixes[0]?).coef
    mix2 := (learnPosition gains u.capture u.capture.mixes[1]?).coef
    epoch := u.epoch + 1
    lastGood := some now
    checkFaults := 0 }

/-! ## A check (R123 to R125) -/

/-- The outcome of one trace of a measured CHECK: its amplitude and phase over the hole window, and
the first of the three tests it fails (R123). -/
def checkTrace (g : GainRot) (k : Capture) (r : RawTrace) : TraceEntry :=
  let sigs := capturedValues g r k k.hole
  let v := peakVector (sigs.map Sig.value)
  let amplitude := amplitudeOf (magSq v)
  let phase := phaseOf v
  { trace := r
    amplitude := amplitude
    phase := phase
    failed :=
      if sigs.any Sig.clipped then some .clipped
      else if amplitude < 9000 ∨ 11000 < amplitude then some .amplitude
      else if phase < 350 ∨ 450 < phase then some .phase
      else none
    written := none }

/-- The outcome of each trace of the calibrated slot set (R123). -/
def checkEntries (u : CalUnit) : List TraceEntry :=
  RawTrace.all.filterMap (fun r => (u.gains.get r).map (fun g => checkTrace g u.capture r))

/-- The unit after a CHECK that passes (R124). -/
def CalUnit.passCheck (u : CalUnit) (now : Nat) : CalUnit :=
  { u with
    group := []
    epoch := u.epoch + 1
    state := .calibrated
    lastGood := some now
    checkFaults := 0 }

/-- The unit after a faulted or short CHECK at check-fault count 0 (R125, R128). -/
def CalUnit.firstCheckFault (u : CalUnit) : CalUnit := { u.due with checkFaults := 1 }

/-! ## The judgement (R119) -/

/-- Both windows of the standard are passed after `n` samples (R115, R119). -/
def windowsPassed (d : Standard) (n : Nat) : Bool :=
  decide (2 * d.length ≤ (windowSteps d.hole d.half).1 + n
    ∧ 2 * d.length ≤ (windowSteps d.ring d.half).1 + n)

/-- What the Calibration Unit judges, before it writes. -/
structure Verdict where
  /-- The state with the map and the unit as the judgement leaves them. -/
  state : State
  outcome : CalOutcome
  reason : Option CalReason
  traces : List TraceEntry
  mixes : List MixOutcome
  invalidated : Nat
  deriving DecidableEq, Repr

/-- The judgement of a FULL that fails on a trace, is faulted or is short (R122). -/
def failFull (s : State) (c : Chan) (outcome : CalOutcome) (reason : Option CalReason)
    (traces : List TraceEntry) : Verdict :=
  ⟨s.setCal c (s.cal.get c).drop, outcome, reason, traces, [], 0⟩

/-- A judgement that invalidates the channel (R132). -/
def failCheck (s : State) (c : Chan) (outcome : CalOutcome) (reason : Option CalReason)
    (traces : List TraceEntry) : Verdict :=
  ⟨s.invalidate c, outcome, reason, traces, [], (s.cal.get c).group.length⟩

/-- The judgement of a faulted or short CHECK by the check-fault count (R125). -/
def faultCheck (s : State) (c : Chan) (outcome : CalOutcome) (reason : Option CalReason) :
    Verdict :=
  let u := s.cal.get c
  if u.checkFaults = 0 then ⟨s.setCal c u.firstCheckFault, outcome, reason, [], [], 0⟩
  else failCheck s c outcome reason []

/-- A faulted or short pull, judged by its kind (R119). -/
def judgeUnmeasured (s : State) (c : Chan) (kind : PullKind) (outcome : CalOutcome)
    (reason : Option CalReason) : Verdict :=
  if kind = .calCheck then faultCheck s c outcome reason else failFull s c outcome reason []

/-- A measured FULL (R120, R121, R122). -/
def judgeFull (s : State) (c : Chan) : Verdict :=
  let u := s.cal.get c
  let slots := (s.chan.get c).slots
  let entries := fullEntries slots u.capture
  match firstFailure entries with
  | some r => failFull s c .failed (some r) entries
  | none =>
    let gains := gainsOf entries
    ⟨s.setCal c (u.calibrateFull slots entries s.now), .passed, none, entries,
      [learnPosition gains u.capture u.capture.mixes[0]?,
       learnPosition gains u.capture u.capture.mixes[1]?], 0⟩

/-- A measured CHECK (R123, R124, R125). -/
def judgeCheck (s : State) (c : Chan) : Verdict :=
  let u := s.cal.get c
  let entries := checkEntries u
  match firstFailure entries with
  | some r => failCheck s c .failed (some r) entries
  | none => ⟨s.setCal c (u.passCheck s.now), .passed, none, entries, [], 0⟩

/-- The judgement of a calibration pull that ends other than by PULL_ABORT (R119). -/
def judge (s : State) (c : Chan) (kind : PullKind) : Verdict :=
  let k := s.pull.get c
  let passed :=
    match (s.cal.get c).capture.standard with
    | some d => windowsPassed d k.samples
    | none => false
  if !k.latch.isEmpty then judgeUnmeasured s c kind .faulted none
  else if !passed then judgeUnmeasured s c kind .short (some .short)
  else if kind = .calCheck then judgeCheck s c
  else judgeFull s c

/-- The calibration result record of a judgement (R136). The further-faults flag, absent unless FAULTED, is
held clear otherwise, so bit 0 of its flags character is 0 (DESIGN CHOICE, assumption log 33). -/
def calResultOf (s : State) (c : Chan) (kind : PullKind) (v : Verdict) : CalResult :=
  let k := s.pull.get c
  let u := v.state.cal.get c
  { chan := c
    kind := kind
    outcome := v.outcome
    reason := v.reason
    fault := if v.outcome = .faulted then reported k.latch else none
    further := decide (v.outcome = .faulted) && further k.latch
    samples := k.samples
    thin := (s.chan.get c).thin
    traces := v.traces
    mixes := v.mixes
    checkFaults := u.checkFaults
    invalidated := v.invalidated
    state := u.state
    epoch := u.epoch }

/-- The end of a calibration pull other than by PULL_ABORT: judged, HELD with its result record, and
the capture emptied, in one action (R119). -/
def State.endCal (s : State) (c : Chan) (kind : PullKind) : State :=
  let v := judge s c kind
  let s1 := v.state
  let s2 := s1.setCal c { s1.cal.get c with capture := Capture.empty }
  let s3 := s2.setPull c { s2.pull.get c with result := some (.cal (calResultOf s c kind v)) }
  s3.setChan c { s3.chan.get c with state := .held, waiting := [] }

end Sys2Proof.Machine
end

