-- ==== Sys2Proof/Machine/PullEnds.lean ====
section
/-!
DEFINITION. How a pull ends (04_pulls.md R79 to R85, R89, R90; The Tube Map R22): the error-type end
with its commit, the non-error end with its located job, the abort, and the judgement of a
calibration pull.
-/

namespace Sys2Proof.Machine

/-! ## Location (R84) -/

/-- The distance between two positions. -/
def distance (a b : Nat) : Nat := (a - b) + (b - a)

/-- The nearest of the supports counted, each with its number; of two equally near, the one at the
lower position (R84). -/
def nearest (pos : Nat) : List (Nat × Nat) → Option (Nat × Nat)
  | [] => none
  | x :: rest =>
    match nearest pos rest with
    | none => some x
    | some y =>
      if distance pos x.2 < distance pos y.2
          ∨ (distance pos x.2 = distance pos y.2 ∧ x.2 < y.2) then some x
      else some y

/-- The supports with their numbers, from the near end: the k-th counted of N has number N - k + 1
(R84). -/
def numbered (n : Nat) : List Nat → List (Nat × Nat)
  | [] => []
  | pos :: rest => (n, pos) :: numbered (n - 1) rest

/-- A record with its location (R84). -/
def locate (n : Nat) (supportAt : List Nat) (f : Found) : Located :=
  { f with
    support := (nearest f.position (numbered n supportAt)).map
      (fun x => (x.1, (f.position : Int) - x.2)) }

/-! ## The end checks (R80) -/

/-- How a pull reached its end checks. -/
inductive EndBy where
  | positionZero
  | pullEnd (restricted : Bool)
  deriving DecidableEq, Repr

/-- The supports counted differ from the expected support count of the tube's row (R80). -/
def State.supportMismatch (s : State) (tp : TubePull) (counted : Nat) : Bool :=
  match rowEntry s.rows tp.row with
  | some r => decide (r.supports ≠ 0 ∧ counted ≠ r.supports)
  | none => false

/-- The latch after the end checks (R80, R82). -/
def endChecks (by_ : EndBy) (lowest : Int) (mismatch : Bool) (latch : List PullFault) :
    List PullFault :=
  let l1 :=
    match by_ with
    | .positionZero => latch
    | .pullEnd true => latchAdd .restricted latch
    | .pullEnd false => if Config.shortLimit < lowest then latchAdd .shortPull latch else latch
  if mismatch then latchAdd .supportMismatch l1 else l1

/-- An open indication closes at the last sample taken (R79). -/
def PullCtl.closeOpen (k : PullCtl) (trace : Trace) : PullCtl :=
  match k.detector with
  | .opened w => k.close w trace false .armed
  | _ => k

/-- An open window is discarded unclosed (R79). -/
def PullCtl.discardOpen (k : PullCtl) : PullCtl :=
  match k.detector with
  | .opened _ => { k with detector := .armed }
  | _ => k

/-! ## The error-type end (R22, R83) -/

/-- Attempts after an error-type fault commit (R22). -/
def attemptsAfter (a : Nat) : Nat := min (a + 1) 5

/-- The status an error-type fault commit gives (R22, R88). -/
def errorStatus (limit a : Nat) : Status :=
  if limit ≤ attemptsAfter a then .unresolved .attempts else .repull

/-- The error-type fault commit: the tube record, and the claim with its slot (R22, R40, R41). -/
def State.errorCommit (s : State) (p : Port) (t : Tag) (i : Nat) : State :=
  match s.tubes[i]? with
  | none => s
  | some tb =>
    let s1 := s.modTube i (fun tb =>
      { tb with
        attempts := attemptsAfter tb.attempts
        status := errorStatus s.plan.attemptLimit tb.attempts })
    if s.plan.attemptLimit ≤ attemptsAfter tb.attempts then s1.dropClaim p t
    else s1.keepClaim p t

/-- The status assigned in the result record of an error-type end (R90). -/
def State.errorAssigned (s : State) (i : Nat) : Status :=
  errorStatus s.plan.attemptLimit (((s.tubes[i]?).map Tube.attempts).getD 0)

/-- The result record of an error-type end (R90). -/
def faultedResult (c : Chan) (rec : PullRecord) (tp : TubePull) (k : PullCtl) (thin : Nat)
    (assigned : Status) : TubeResult :=
  { chan := c
    row := tp.row
    col := tp.col
    tag := tp.tag
    outcome := .faulted
    status := assigned
    fault := reported k.latch
    further := further k.latch
    truncated := false
    samples := k.samples
    thin := thin
    supports := k.supports
    found := k.found
    kept := 0
    worst := none
    epoch := rec.epoch }

/-- The error-type end: the commit, the buffer and window discarded, HELD with the result record, in
one write (R83). -/
def State.errorEnd (s : State) (c : Chan) (rec : PullRecord) (tp : TubePull) : State :=
  let k := s.pull.get c
  let ch := s.chan.get c
  let res := faultedResult c rec tp k ch.thin (s.errorAssigned tp.index)
  ((s.errorCommit rec.port tp.tag tp.index).setPull c
      { k.discardOpen with buffer := [], result := some (.tube res) }).setChan c
    { ch with state := .held, waiting := [] }

/-! ## The non-error end (R84) -/

/-- The job of a non-error end (R84). -/
def jobOf (c : Chan) (rec : PullRecord) (tp : TubePull) (k : PullCtl) (thin : Nat) : Job :=
  { chan := c
    port := rec.port
    tag := tp.tag
    index := tp.index
    row := tp.row
    col := tp.col
    epoch := rec.epoch
    records := k.buffer.map (locate k.supports k.supportAt)
    found := k.found
    fault := reported k.latch
    further := further k.latch
    samples := k.samples
    thin := thin
    supports := k.supports
    orphan := false }

/-- The non-error end: the located job at the tail of the queue, and SIZING, in one action (R84,
R138). -/
def State.jobEnd (s : State) (c : Chan) (rec : PullRecord) (tp : TubePull) : State :=
  let k := s.pull.get c
  let ch := s.chan.get c
  (s.setSizing { s.sizing with queue := s.sizing.queue ++ [jobOf c rec tp k ch.thin] }).setChan c
    { ch with state := .sizing, waiting := [] }

/-- The latch decides the outcome of an ended tube pull (R80, R83, R84). -/
def State.settleTube (s : State) (c : Chan) (rec : PullRecord) (tp : TubePull) : State :=
  match reported (s.pull.get c).latch with
  | some f => if f.isError then s.errorEnd c rec tp else s.jobEnd c rec tp
  | none => s.jobEnd c rec tp

/-! ## Ends of the pull in flight on a channel -/

/-- The pull in flight ends on the faults in its latch (R79, R119). -/
def State.endOnFault (s : State) (c : Chan) : State :=
  match (s.pull.get c).record with
  | none => s
  | some rec =>
    match rec.tube with
    | some tp => s.settleTube c rec tp
    | none => s.endCal c rec.kind

/-- The pull in flight ends by position 0 or by PULL_END: the open indication closes, the end checks
are made, and the latch decides (R79, R80); a calibration pull is judged (R89, R119). -/
def State.endBy (s : State) (c : Chan) (by_ : EndBy) : State :=
  match (s.pull.get c).record with
  | none => s
  | some rec =>
    match rec.tube with
    | some tp =>
      let k := (s.pull.get c).closeOpen tp.detection
      let latch := endChecks by_ (s.chan.get c).lowest (s.supportMismatch tp k.supports) k.latch
      (s.setPull c { k with latch := latch }).settleTube c rec tp
    | none => s.endCal c rec.kind

/-- A fault of its own event: latched, and the pull ends on it (R68, R80). -/
def State.endWith (s : State) (c : Chan) (f : PullFault) : State :=
  let k := s.pull.get c
  (s.setPull c { k with latch := latchAdd f k.latch }).endOnFault c

/-- The abort of the pull in flight: no result, READY; a tube pull keeps its claim with a new lease,
a calibration pull's capture is emptied (R85, R89, R119). -/
def State.abortPull (s : State) (c : Chan) : State :=
  let k := s.pull.get c
  let ch := s.chan.get c
  let u := s.cal.get c
  let s1 := (s.setPull c { k.discardOpen with latch := [], buffer := [] }).setChan c
    { ch with state := .ready, kind := none, waiting := [] }
  match k.record with
  | none => s1
  | some rec =>
    match rec.tube with
    | some tp => s1.keepClaim rec.port tp.tag
    | none => s1.setCal c { u with capture := Capture.empty }

end Sys2Proof.Machine
end

