-- ==== Sys2Proof/Machine/PullRequests.lean ====
section
/-!
DEFINITION. PULL_START, PULL_END, PULL_ABORT, CAL_START and RESULT_TAKE, and the events that reach a
channel in PULLING: demodulator outputs, encoder steps, the reverse report, coil events and the pull
deadline (03_probe_channels.md, 04_pulls.md, 06, 09).
-/

namespace Sys2Proof.Machine

/-! ## Starting a pull (R57, R69, R70, R116, R117) -/

/-- The encoder state preset for a pull, and PULLING of its kind (R57). -/
def Channel.preset (ch : Channel) (kind : PullKind) (mm : Nat) : Channel :=
  let start : Int := 20 * mm
  { ch with
    state := .pulling, kind := some kind, position := start, lowest := start, lastDue := start,
    waiting := [], thin := 0, reverseReported := false }

/-- The pull record filled and every working item at its value of R67. -/
def PullCtl.start (rec : PullRecord) : PullCtl := { PullCtl.reset with record := some rec }

/-- A trace belongs to an active slot; a mix is looked at by its own check (R55, R69). -/
def Trace.slotOn (slots : Quad (Option Nat)) : Trace → Bool
  | .raw r => traceActive slots r
  | _ => true

/-- The definition of the detection trace when it is a mix (R70). -/
def Plan.detectionMix (pl : Plan) : Option MixDef :=
  match pl.detection with
  | .raw _ => none
  | .m1 => pl.mixes[0]?
  | .m2 => pl.mixes[1]?

/-- A mix position is learned, and neither of its traces belongs to a slot that is off (R69). -/
def mixReady (slots : Quad (Option Nat)) (d : Option MixDef) (k : Option Coef) : Bool :=
  match d, k with
  | some d, some _ => traceActive slots d.primary && traceActive slots d.secondary
  | _, _ => false

/-- The detection trace is no mix, or its mix is learned on the channel (check 10 of R69). -/
def detectionReady (slots : Quad (Option Nat)) (pl : Plan) (u : CalUnit) : Bool :=
  match pl.detection with
  | .raw _ => true
  | .m1 => mixReady slots pl.detectionMix u.mix1
  | .m2 => mixReady slots pl.detectionMix u.mix2

/-- What a channel that is not READY answers a start (checks 4 to 6 of R69 and R116); none when
READY. -/
def startRefusal : PullState → Option RefusalCode
  | .settling => some .settling
  | .pulling | .sizing => some .busy
  | .held => some .held
  | .unbound => some .notBound
  | .ready => none

/-- Checks 7 to 10 of R69. -/
def State.tubeStartRefusal (s : State) (c : Chan) : Option RefusalCode :=
  let ch := s.chan.get c
  let u := s.cal.get c
  if ch.probeOpen then some .probeOpen
  else if u.state = .uncalibrated ∨ s.plan.detection.slotOn ch.slots = false
      ∨ s.plan.support.slotOn ch.slots = false then some .uncalibrated
  else if u.state = .checkDue then some .checkDue
  else if !detectionReady ch.slots s.plan u then some .noMix
  else none

/-- The pull record of a tube pull (R70). -/
def State.tubeRecord (s : State) (p : Port) (t : Tag) (c : Chan) (i : Nat) (tb : Tube) :
    PullRecord :=
  { kind := .tube
    port := p
    epoch := (s.cal.get c).epoch
    deadline := s.now + s.plan.pullLimit
    tube := some
      { tag := t
        index := i
        row := tb.row
        col := tb.col
        policy := ((s.ports.get p).policy).getD .masked
        openT := s.plan.openT
        closeT := s.plan.closeT
        supportT := s.plan.supportT
        detection := s.plan.detection
        support := s.plan.support
        mix := s.plan.detectionMix } }

/-- The one action of an accepted PULL_START (R70). -/
def State.startTube (s : State) (p : Port) (t : Tag) (c : Chan) (i : Nat) (tb : Tube) : State :=
  ((s.markInPull p t).setChan c ((s.chan.get c).preset .tube s.plan.tubeLength)).setPull c
    (PullCtl.start (s.tubeRecord p t c i tb))

/-- The body of the reply to PULL_START (R70). -/
def pullStartBody (s : State) (t : Tag) (c : Chan) (tb : Tube) : List Byte :=
  c1 c.val ++ c1 t.val ++ c2 tb.row ++ c2 tb.col ++ c1 tb.status.code ++ c1 tb.attempts
    ++ c2 (s.cal.get c).epoch.toNat ++ c2 s.plan.pullLimit

/-- PULL_START at its owners, in the order of checks of R69. -/
def ownPullStart (x : Byte × Byte) (p : Port) (s : State) : Answer :=
  if (s.ports.get p).role ≠ .crew then .refused .role
  else match fin4 x.1, fin4 x.2 with
    | some t, some c =>
      if !s.holdsChan p c then .refused .notBound
      else match startRefusal (s.chan.get c).state with
        | some r => .refused r
        | none =>
          match s.tubeStartRefusal c with
          | some r => .refused r
          | none =>
            match s.slot p t with
            | some ⟨i, .leased _, _⟩ =>
              match s.tubes[i]? with
              | some tb => .done (s.startTube p t c i tb) (pullStartBody s t c tb)
              | none => .refused .noClaim
            | _ => .refused .noClaim
    | _, _ => .refused .range

/-- PULL_START (R69). -/
def execPullStart (p : Port) (body : List Byte) (s : State) : Host.Outcome State Fault Refusal :=
  request p 0x34 body .attached (readTwo body) ownPullStart s

/-- The kind of a CAL_START: FULL 0, CHECK 1 (R116). -/
def calKindOf (b : Byte) : Option PullKind :=
  match b.toNat with
  | 0 => some .calFull
  | 1 => some .calCheck
  | _ => none

/-- The pull record of a calibration pull (R89, R117). -/
def State.calRecord (s : State) (p : Port) (c : Chan) (kind : PullKind) : PullRecord :=
  { kind := kind
    port := p
    epoch := (s.cal.get c).epoch
    deadline := s.now + s.plan.pullLimit
    tube := none }

/-- The capture as CAL_START fills it: the descriptor and, for FULL, the mix definitions (R117). -/
def Capture.start (d : Standard) (kind : PullKind) (mixes : List MixDef) : Capture :=
  { Capture.empty with
    standard := some d
    mixes := if kind = .calFull then mixes else [] }

/-- The one action of an accepted CAL_START (R117). -/
def State.startCal (s : State) (p : Port) (c : Chan) (kind : PullKind) (d : Standard) : State :=
  ((s.setChan c ((s.chan.get c).preset kind d.length)).setPull c
      (PullCtl.start (s.calRecord p c kind))).setCal c
    { s.cal.get c with capture := Capture.start d kind s.plan.mixes }

/-- The body of the reply to CAL_START (R117). -/
def calStartBody (s : State) (c : Chan) (kindCode : Byte) (d : Standard) : List Byte :=
  c1 c.val ++ [kindCode] ++ c2 (s.cal.get c).epoch.toNat ++ c2 d.length
    ++ c2 (windowSteps d.hole d.half).1 ++ c2 (windowSteps d.hole d.half).2
    ++ c2 (windowSteps d.ring d.half).1 ++ c2 (windowSteps d.ring d.half).2
    ++ c2 s.plan.pullLimit

/-- CAL_START at its owners, in the order of checks of R116. -/
def ownCalStart (x : Byte × Byte) (p : Port) (s : State) : Answer :=
  if (s.ports.get p).role ≠ .crew then .refused .role
  else match fin4 x.1, calKindOf x.2 with
    | some c, some kind =>
      if !s.holdsChan p c then .refused .notBound
      else match startRefusal (s.chan.get c).state with
        | some r => .refused r
        | none =>
          if (s.chan.get c).probeOpen then .refused .probeOpen
          else match s.plan.standard with
            | none => .refused .state
            | some d =>
              if kind = .calFull ∧ (s.cal.get c).group ≠ [] then .refused .groupOpen
              else if kind = .calCheck ∧ (s.cal.get c).state = .uncalibrated then
                .refused .uncalibrated
              else .done (s.startCal p c kind d) (calStartBody s c x.2 d)
    | _, _ => .refused .range

/-- CAL_START (R116). -/
def execCalStart (p : Port) (body : List Byte) (s : State) : Host.Outcome State Fault Refusal :=
  request p 0x33 body .attached (readTwo body) ownCalStart s

/-! ## PULL_END, PULL_ABORT, RESULT_TAKE (R82, R85, R168) -/

/-- What a channel that is not PULLING answers PULL_END and PULL_ABORT (R82, R85); none when
PULLING. -/
def endRefusal : PullState → Option RefusalCode
  | .settling | .ready => some .state
  | .sizing | .held => some .ended
  | .unbound => some .notBound
  | .pulling => none

/-- The restricted flag: clear 0, set 1 (R82). -/
def restrictedOf (b : Byte) : Option Bool :=
  match b.toNat with
  | 0 => some false
  | 1 => some true
  | _ => none

/-- PULL_END at its owners (R82). -/
def ownPullEnd (x : Byte × Byte) (p : Port) (s : State) : Answer :=
  if (s.ports.get p).role ≠ .crew then .refused .role
  else match fin4 x.1, restrictedOf x.2 with
    | some c, some restricted =>
      if !s.holdsChan p c then .refused .notBound
      else match endRefusal (s.chan.get c).state with
        | some r => .refused r
        | none =>
          let s' := s.endBy c (.pullEnd restricted)
          .done s' (c1 (s'.chan.get c).state.code ++ c2 (s.pull.get c).samples)
    | _, _ => .refused .range

/-- PULL_END (R82). -/
def execPullEnd (p : Port) (body : List Byte) (s : State) : Host.Outcome State Fault Refusal :=
  request p 0x35 body .attached (readTwo body) ownPullEnd s

/-- PULL_ABORT at its owners (R85). -/
def ownPullAbort (x : Byte) (p : Port) (s : State) : Answer :=
  if (s.ports.get p).role ≠ .crew then .refused .role
  else match fin4 x with
    | some c =>
      if !s.holdsChan p c then .refused .notBound
      else match endRefusal (s.chan.get c).state with
        | some r => .refused r
        | none => .done (s.abortPull c) (c1 c.val ++ c2 (s.pull.get c).samples)
    | none => .refused .range

/-- PULL_ABORT (R85). -/
def execPullAbort (p : Port) (body : List Byte) (s : State) : Host.Outcome State Fault Refusal :=
  request p 0x36 body .attached (readOne body) ownPullAbort s

/-- A mix entry of nine characters (R189). -/
def mixEntry (code : Nat) (k : Option Coef) : List Byte :=
  c1 code ++ os4 (k.map Coef.a) ++ os4 (k.map Coef.b)

/-- A trace entry of twelve characters (R189). -/
def TraceEntry.body (e : TraceEntry) : List Byte :=
  c1 (rawCode e.trace) ++ c4 e.amplitude ++ c2 e.phase
    ++ c1 ((e.failed.map CalReason.code).getD 0)
    ++ o2 (e.written.map GainRot.gain) ++ o2 (e.written.map GainRot.rotation)

/-- The layout of a tube result (R189). -/
def TubeResult.body (r : TubeResult) : List Byte :=
  c1 PullKind.tube.code ++ c1 r.chan.val ++ c2 r.row ++ c2 r.col ++ c1 r.tag.val
    ++ c1 r.outcome.code ++ c1 r.status.code ++ o1 r.status.reasonCode
    ++ o1 (r.fault.map PullFault.rank) ++ flags r.further r.truncated false
    ++ c2 r.samples ++ c2 r.thin ++ c2 r.supports ++ c2 r.found ++ c1 r.kept
    ++ depthChar r.worst ++ c2 r.epoch.toNat

/-- The layout of a calibration result (R189). The flags character of a record that is not FAULTED is 00h
(assumption log 33). -/
def CalResult.body (r : CalResult) : List Byte :=
  c1 r.kind.code ++ c1 r.chan.val ++ c1 r.outcome.code ++ o1 (r.reason.map CalReason.code)
    ++ o1 (r.fault.map PullFault.rank) ++ flags r.further false false
    ++ c2 r.samples ++ c2 r.thin ++ c1 r.checkFaults ++ c2 r.invalidated ++ c1 r.state.code
    ++ c2 r.epoch.toNat ++ c1 r.traces.length ++ r.traces.flatMap TraceEntry.body
    ++ c1 r.mixes.length ++ r.mixes.flatMap (fun m => mixEntry m.code m.coef)

/-- The layout of a result record, headed by its kind (R168). -/
def Result.body : Result → List Byte
  | .tube r => r.body
  | .cal r => r.body

/-- What a channel that is not HELD answers RESULT_TAKE (R168); none when HELD. -/
def takeRefusal : PullState → Option RefusalCode
  | .settling | .ready => some .state
  | .pulling | .sizing => some .busy
  | .unbound => some .notBound
  | .held => none

/-- The record taken off its channel, which is READY again (R168). -/
def State.takeResult (s : State) (c : Chan) : State :=
  (s.setPull c { s.pull.get c with result := none }).setChan c
    { s.chan.get c with state := .ready, kind := none }

/-- RESULT_TAKE at its owners (R168). -/
def ownResultTake (x : Byte) (p : Port) (s : State) : Answer :=
  if (s.ports.get p).role ≠ .crew then .refused .role
  else match fin4 x with
    | some c =>
      if !s.holdsChan p c then .refused .notBound
      else match takeRefusal (s.chan.get c).state with
        | some r => .refused r
        | none =>
          .done (s.takeResult c) (((s.pull.get c).result.map Result.body).getD [])
    | none => .refused .range

/-- RESULT_TAKE (R168). -/
def execResultTake (p : Port) (body : List Byte) (s : State) :
    Host.Outcome State Fault Refusal :=
  request p 0x37 body .attached (readOne body) ownResultTake s

/-! ## Demodulator outputs (R60, R61, R68) -/

/-- The positions of a step in 0.5 mm steps, newest last (R60). -/
def stepPositions (waiting : List Int) : List Nat := waiting.map (fun x => (x / 10).toNat)

/-- The step of one output processed by the Pull Controller and, in a calibration pull, the
Calibration Unit, with its thin-data report (R61, R68). -/
def State.processStep (s : State) (c : Chan) (raw : RawSample) : State :=
  let ch := s.chan.get c
  let k := s.pull.get c
  let u := s.cal.get c
  let positions := stepPositions ch.waiting
  let thin := ch.thin + (positions.length - 1)
  let report (k : PullCtl) : PullCtl :=
    if Config.thinLimit ≤ thin then { k with latch := latchAdd .overspeed k.latch } else k
  let s1 := s.setChan c { ch with waiting := [], thin := thin }
  match k.record.bind PullRecord.tube with
  | some tp => s1.setPull c (report (tubeStep u tp raw positions k))
  | none =>
    let r := calStep raw positions k.samples u.capture
    (s1.setPull c (report { k with samples := r.1 })).setCal c { u with capture := r.2 }

/-- An output taken in PULLING with positions waiting: the step is processed, and then the pull ends
when a fault is latched or, failing that, when the step carried position 0 (R68, R79). -/
def State.takeOutput (s : State) (c : Chan) (values : Eight Raw) : State :=
  let ch := s.chan.get c
  let s1 := s.processStep c (sampleOf ch.slots values)
  if !(s1.pull.get c).latch.isEmpty then s1.endOnFault c
  else if ch.waiting.contains 0 then s1.endBy c .positionZero
  else s1

/-- DEMODULATOR_OUTPUT (R60): discarded unless PULLING with a position waiting. -/
def execDemodulatorOutput (c : Chan) (values : Eight Raw) (s : State) :
    Host.Outcome State Fault Refusal :=
  .next
    (if (s.chan.get c).state = .pulling ∧ (s.chan.get c).waiting ≠ [] then s.takeOutput c values
     else s)

/-! ## The encoder (R57, R58, R62) -/

/-- A multiple of 10 counts, not below 0, below the last due position (R58). -/
def becomesDue (position lastDue : Int) : Bool :=
  decide (position % 10 = 0 ∧ 0 ≤ position ∧ position < lastDue)

/-- A count step of a PULLING channel (R57, R58, R62). -/
def Channel.count (ch : Channel) (dir : EncoderDir) : Channel :=
  match dir with
  | .near =>
    let pos := ch.position - 1
    let ch1 := { ch with position := pos, lowest := min ch.lowest pos }
    if becomesDue pos ch.lastDue then
      { ch1 with lastDue := pos, waiting := ch.waiting ++ [pos] }
    else ch1
  | .far =>
    let pos := ch.position + 1
    let ch1 := { ch with position := pos }
    if ch.lowest + Config.reverseLimit < pos then { ch1 with reverseReported := true } else ch1

/-- ENCODER_STEP (R57): counted in PULLING alone. -/
def execEncoderStep (c : Chan) (dir : EncoderDir) (s : State) : Host.Outcome State Fault Refusal :=
  .next
    (if (s.chan.get c).state = .pulling then s.setChan c ((s.chan.get c).count dir) else s)

/-- ENCODER_REVERSE (R62): the channel's report, taken in PULLING, ends the pull. -/
def execEncoderReverse (c : Chan) (s : State) : Host.Outcome State Fault Refusal :=
  .next
    (if (s.chan.get c).state = .pulling ∧ (s.chan.get c).reverseReported = true then
      s.endWith c .encoderReverse
     else s)

/-! ## Coil events and the pull deadline (R63, R81) -/

/-- COIL_OPEN (R63): the condition is set in every bound state; in PULLING the pull ends. -/
def execCoilOpen (c : Chan) (s : State) : Host.Outcome State Fault Refusal :=
  let ch := s.chan.get c
  let s1 := s.setChan c { ch with probeOpen := true }
  .next
    (match ch.state with
     | .unbound => s
     | .pulling => s1.endWith c .probeOpen
     | _ => s1)

/-- COIL_RESTORED (R63): the condition is cleared in every bound state. -/
def execCoilRestored (c : Chan) (s : State) : Host.Outcome State Fault Refusal :=
  let ch := s.chan.get c
  .next (if ch.state = .unbound then s else s.setChan c { ch with probeOpen := false })

/-- The pull deadline of a channel has been reached (R81). -/
def State.pullTimedOut (s : State) (c : Chan) : Bool :=
  match (s.pull.get c).record with
  | some rec => decide (rec.deadline ≤ s.now)
  | none => false

/-- TIMEOUT (R81): taken while PULLING, once the count has reached the deadline, at whatever place the
queue gives it (assumption log 6). -/
def execTimeout (c : Chan) (s : State) : Host.Outcome State Fault Refusal :=
  .next
    (if (s.chan.get c).state = .pulling ∧ s.pullTimedOut c = true then s.endWith c .timeout else s)

end Sys2Proof.Machine
end

