-- ==== Sys2Proof/Machine/Sizing.lean ====
section
/-!
DEFINITION. The Sizing Unit, the Indication Store and the re-screen step
(07_sizing_classification_and_the_indication_store.md, 08_re_screening.md).
-/

namespace Sys2Proof.Machine

/-! ## Sizing and ranking (R141 to R143) -/

/-- A record with its depth and out-of-curve flag under a curve (R141). -/
def sized (c : Curve) (r : Located) : Indication :=
  { r with depth := (depthOf c r.toFound).1, outOfCurve := (depthOf c r.toFound).2 }

/-- Tests 3 and 4 of R142. -/
def strongerOf (a b : Found) : Bool :=
  decide (b.amplitude < a.amplitude ∨ (a.amplitude = b.amplitude ∧ b.position < a.position))

/-- The first record is deeper than the second (R142). -/
def deeper (a b : Indication) : Bool :=
  match a.depth, b.depth with
  | .indefinite, .pct _ => true
  | .pct _, .indefinite => false
  | .indefinite, .indefinite => strongerOf a.toFound b.toFound
  | .pct x, .pct y => decide (y < x) || (decide (x = y) && strongerOf a.toFound b.toFound)

/-- Insertion into a list in order of `before`. -/
def insertBy (before : Indication → Indication → Bool) (a : Indication) :
    List Indication → List Indication
  | [] => [a]
  | b :: rest => if before b a then b :: insertBy before a rest else a :: b :: rest

/-- A list put in order of `before`. -/
def sortBy (before : Indication → Indication → Bool) : List Indication → List Indication
  | [] => []
  | a :: rest => insertBy before a (sortBy before rest)

/-- The records ranked from deepest to shallowest (R142). -/
def ranked (l : List Indication) : List Indication := sortBy deeper l

/-- The records in ascending position (R150). -/
def ascending (l : List Indication) : List Indication :=
  sortBy (fun a b => decide (a.position < b.position)) l

/-- The depth of the deepest record (R143). -/
def worstOf (l : List Indication) : Option Depth := (ranked l).head?.map Indication.depth

/-- The records a job keeps, in rank order: its 16 deepest (R143). -/
def keptOf (c : Curve) (records : List Located) : List Indication :=
  (ranked (records.map (sized c))).take Config.keptMax

/-! ## Classification (R144, R145) -/

/-- The four outcomes of comparing a worst depth with a threshold (R144). -/
inductive Compared where
  | greater | equal | less | unordered
  deriving DecidableEq, Repr

/-- The comparison of R144. -/
def Depth.compareTo (d : Depth) (threshold : Nat) : Compared :=
  match d with
  | .indefinite => .unordered
  | .pct n => if threshold < n then .greater else if n = threshold then .equal else .less

/-- At or above: GREATER or EQUAL (R144). -/
def Depth.atOrAbove (d : Depth) (threshold : Nat) : Bool :=
  match d.compareTo threshold with
  | .greater | .equal => true
  | .less | .unordered => false

/-- Rows 2 to 6 of R145. -/
def classifyDepth (st : Settings) (worst : Option Depth) : Status :=
  match worst with
  | none => .clear
  | some d =>
    if d.compareTo st.plug = .unordered then .unresolved .indefiniteDepth
    else if d.atOrAbove st.plug then .plug
    else if d.atOrAbove st.report then .reportable
    else .clear

/-- The classification of a job (R145). -/
def classify (st : Settings) (fault : Option PullFault) (worst : Option Depth) : Status :=
  match fault with
  | some f => .unresolved (.serviceFault f)
  | none => classifyDepth st worst

/-! ## The commit (R23, R130, R146, R152, R155) -/

/-- What a commit works out from its job, its settings, the tube's old list and the free count
(R143, R145, R152). -/
structure Sizing where
  stored : List Indication
  free : Nat
  worst : Option Depth
  status : Status
  truncated : Bool
  deriving DecidableEq, Repr

/-- The store part and the classification of a commit (R143, R145, R152). -/
def sizeJob (j : Job) (st : Settings) (old : List Indication) (free : Nat) : Sizing :=
  let kept := keptOf st.curve j.records
  let freed := free + old.length
  let m := min kept.length freed
  let worst := worstOf kept
  { stored := ascending (kept.take m)
    free := freed - m
    worst := worst
    status := classify st j.fault worst
    truncated := decide (m < j.found) }

/-- The tube record as a sizing commit writes it, its claim apart (R23). -/
def Tube.committed (tb : Tube) (j : Job) (z : Sizing) : Tube :=
  { tb with
    status := z.status
    attempts := 0
    worst := z.worst
    list := z.stored
    truncated := z.truncated
    suspect := false
    lastPull := some (j.chan, j.epoch) }

/-- A group after a commit of a tube on another channel: the tube is removed, the entries after it
close up (R130). -/
def leaveGroup (i : Nat) (group : List Nat) : List Nat := group.filter (fun k => k != i)

/-- A group after a commit of a tube on its own channel: an entry keeps its place, a new one is
appended (R130). -/
def joinGroup (i : Nat) (group : List Nat) : List Nat :=
  if group.contains i then group else group ++ [i]

/-- The unit of the job's channel: the tube in its group, CHECK_DUE when the append brings the group
to 512 (R128, R130). -/
def CalUnit.joined (u : CalUnit) (i : Nat) : CalUnit :=
  let u' := { u with group := joinGroup i u.group }
  if u.group.length < Config.groupMax ∧ Config.groupMax ≤ u'.group.length then u'.due else u'

/-- The groups after a commit of tube `i` on channel `c` (R130). -/
def groupsAfter (cal : Quad CalUnit) (c : Chan) (i : Nat) : Quad CalUnit :=
  Quad.ofFn (fun d =>
    if d = c then (cal.get d).joined i
    else { cal.get d with group := leaveGroup i (cal.get d).group })

/-- STORE_LOW to the stations attached when a commit lowers the free count below 512 (R155). -/
def State.warnStore (s : State) (before : Nat) : State :=
  if s.free < Config.storeLow ∧ s.free < before then
    { s with ports := s.ports.map PortState.tellStoreLow }
  else s

/-- The completed result record of a job (R90, R146). -/
def committedResult (j : Job) (z : Sizing) : TubeResult :=
  { chan := j.chan
    row := j.row
    col := j.col
    tag := j.tag
    outcome := .committed
    status := z.status
    fault := j.fault
    further := j.further
    truncated := z.truncated
    samples := j.samples
    thin := j.thin
    supports := j.supports
    found := j.found
    kept := z.stored.length
    worst := z.worst
    epoch := j.epoch }

/-- The map's part of the commit: the tube record, the store, the groups, the claim and STORE_LOW
(R23, R130, R146, R152). -/
def State.commitTube (s : State) (j : Job) (z : Sizing) : State :=
  let s1 : State :=
    { s with
      tubes := s.tubes.modify j.index (fun tb => tb.committed j z)
      free := z.free
      cal := groupsAfter s.cal j.chan j.index }
  (s1.dropClaim j.port j.tag).warnStore s.free

/-- The channel's part: HELD with the completed result, or the forced unbind when the job is orphaned
or step 3 of the detach course has passed its channel (R146, R147, R186). -/
def State.releaseChan (s : State) (j : Job) (z : Sizing) : State :=
  let ch := s.chan.get j.chan
  if j.orphan || ch.passed then s.forceUnbind j.chan
  else
    (s.setPull j.chan
        { s.pull.get j.chan with result := some (.tube (committedResult j z)) }).setChan j.chan
      { ch with state := .held }

/-- The sizing commit of the job in flight (R146). -/
def State.commitJob (s : State) (j : Job) (st : Settings) : State :=
  let s0 := s.setSizing { s.sizing with flight := none }
  match s.tubes[j.index]? with
  | none => s0
  | some tb =>
    let z := sizeJob j st tb.list s.free
    (s0.commitTube j z).releaseChan j z

/-- SIZING_COMMIT (R146): the completion of the job in flight. -/
def execSizingCommit (s : State) : Host.Outcome State Fault Refusal :=
  .next
    (match s.sizing.flight with
     | some (j, st) => s.commitJob j st
     | none => s)

/-- SIZING_JOB_BEGIN (R140): an idle unit takes the job at the head of the queue and reads its
settings. -/
def execSizingJobBegin (s : State) : Host.Outcome State Fault Refusal :=
  .next
    (match s.unitIdle, s.sizing.queue, s.plan.settings with
     | true, j :: rest, some st => s.setSizing { s.sizing with queue := rest, flight := some (j, st) }
     | _, _, _ => s)

/-! ## The re-screen step (R25, R157, R163 to R165) -/

/-- A stored record read again under a curve (R157). -/
def Indication.reread (c : Curve) (x : Indication) : Indication :=
  { x with depth := (depthOf c x.toFound).1, outOfCurve := (depthOf c x.toFound).2 }

/-- A tube a step passes over (R163). -/
def Tube.passedOver (tb : Tube) : Bool :=
  tb.claim.isSome ||
    (match tb.status with
     | .clear | .reportable | .plug | .unresolved .indefiniteDepth => false
     | _ => true)

/-- A tube record re-screened under a step's settings (R157, R163). -/
def Tube.rescreened (st : Settings) (tb : Tube) : Tube :=
  let list := tb.list.map (Indication.reread st.curve)
  { tb with
    list := list
    worst := worstOf list
    status := classifyDepth st (worstOf list) }

/-- A tube record after a step (R163). -/
def Tube.stepped (st : Settings) (tb : Tube) : Tube :=
  if tb.passedOver then tb else tb.rescreened st

/-- The pass completes: DONE, and RESCREEN_DONE to the REVIEW station (R165). -/
def State.completePass (s : State) : State :=
  { s with
    rescreen := { s.rescreen with phase := .done }
    ports := s.ports.map PortState.tellRescreenDone }

/-- The write of the step in flight: the tube at the cursor, the cursor, and the end of the step
(R163). -/
def State.writeStep (s : State) (st : Settings) : State :=
  let s1 : State :=
    { s with
      tubes := s.tubes.modify s.rescreen.cursor (Tube.stepped st)
      rescreen := { s.rescreen with cursor := s.rescreen.cursor + 1 }
      sizing := { s.sizing with step := none } }
  if s1.tubes.length ≤ s1.rescreen.cursor then s1.completePass else s1

/-- RESCREEN_STEP_BEGIN (R163): RUNNING, and the Sizing Unit idle with an empty queue. -/
def execRescreenStepBegin (s : State) : Host.Outcome State Fault Refusal :=
  .next
    (if s.passUnderWay && !s.jobsWaiting && s.unitIdle then
      match s.plan.settings with
      | some st => s.setSizing { s.sizing with step := some st }
      | none => s
     else s)

/-- RESCREEN_STEP_WRITE (R163): the write of the step in flight. -/
def execRescreenStepWrite (s : State) : Host.Outcome State Fault Refusal :=
  .next
    (match s.sizing.step with
     | some st => s.writeStep st
     | none => s)

/-- RESCREEN_START at the Re-screen Sequencer (R162). -/
def ownRescreenStart (_ : Unit) (_ : Port) (s : State) : Answer :=
  if s.planState ≠ .active then .refused .state
  else
    let s' := s.startPass
    .done s' (c1 s'.rescreenCode ++ c2 s'.rescreen.restarts ++ c2 s'.tubes.length)

/-- RESCREEN_START (R162). -/
def execRescreenStart (p : Port) (body : List Byte) (s : State) :
    Host.Outcome State Fault Refusal :=
  request p 0x1D body .review (readNone body) ownRescreenStart s

end Sys2Proof.Machine
end

