-- ==== Sys2Proof/Machine/Links.lean ====
section
/-!
DEFINITION. The station links (10_station_links.md): characters and the receive assembly, garbled and
unknown frames, replies and the link rate, breaks, attaching and detaching, and the parts of the detach
course.
-/

namespace Sys2Proof.Machine

/-! ## Frames the port itself refuses (R182) -/

/-- GARBLED_FRAME (R182): refused with GARBLED; code and body are not read. -/
def execGarbledFrame (p : Port) (code : Byte) (body : List Byte) (s : State) :
    Host.Outcome State Fault Refusal :=
  .next (s.deliver p ⟨code, body, true⟩ (fun _ => .refused .garbled))

/-- UNKNOWN_CODE (R182): refused with UNKNOWN. A term whose code names a request is ill-formed. -/
def execUnknownCode (p : Port) (code : Byte) (body : List Byte) (s : State) :
    Host.Outcome State Fault Refusal :=
  if namesRequest code then .fault .illFormedCommand
  else .next (s.deliver p ⟨code, body, false⟩ (fun _ => .refused .unknown))

/-! ## Characters (R179, R181, R183) -/

/-- The number of ones among the data bits of a character. -/
def onesOf (b : Byte) : Nat :=
  ((List.range 8).filter (fun i => b.toNat.testBit i)).length

/-- Parity error: the ones of data, mark and parity do not come to an odd number (R179). -/
def Character.parityError (ch : Character) : Bool :=
  decide ((onesOf ch.data + ch.mark.toNat + ch.parity.toNat) % 2 = 0)

/-- A parity error or a framing error, which is a stop bit at space (R179). -/
def Character.inError (ch : Character) : Bool := Character.parityError ch || !ch.stop

/-- A character as the E4 sends it: correct parity and a stop bit at mark (R179). -/
def sentCharacter (data : Byte) (mark : Bool) : Character :=
  { data := data
    mark := mark
    parity := decide ((onesOf data + mark.toNat) % 2 = 0)
    stop := true }

/-- The characters of a reply frame: lead, length, body (R183). -/
def Reply.characters (r : Reply) : List Character :=
  sentCharacter r.lead true :: sentCharacter (BitVec.ofNat 8 r.body.length) false
    :: r.body.map (fun b => sentCharacter b false)

/-- The assembly after a received character (R181). A frame that completes stands in WAITING, from
which a port with no reply in progress hands it on in the same step (`State.handOn`). -/
def Assembly.receive (a : Assembly) (ch : Character) : Assembly :=
  let err := Character.inError ch
  match a with
  | .waiting f => .waiting f
  | .hunt => if ch.mark then .length ch.data err else .hunt
  | .length code g =>
    if ch.mark then .length ch.data err
    else if 250 < ch.data.toNat then .waiting ⟨code, [], true⟩
    else if ch.data.toNat = 0 then .waiting ⟨code, [], g || err⟩
    else .body code ch.data.toNat [] (g || err)
  | .body code len got g =>
    if ch.mark then .length ch.data err
    else
      let got' := got ++ [ch.data]
      if len ≤ got'.length then .waiting ⟨code, got', g || err⟩
      else .body code len got' (g || err)

/-! ## Replies and the link rate (R180, R183) -/

/-- The port after the last stop bit of its reply: a new divider takes effect (R180). -/
def PortState.replySent (x : PortState) : PortState :=
  { x with reply := none, divider := x.nextDivider.getD x.divider, nextDivider := none }

/-- The rate in baud of a divider: 14,745,600 / (16 × (D + 1)), rounded half to even (R180). -/
def baud (d : Nat) : Nat := (roundHalfEven 14745600 (16 * ((d : Int) + 1))).toNat

/-- LINK_RATE at its port (R180). -/
def ownLinkRate (x : Byte) (p : Port) (s : State) : Answer :=
  if 127 < x.toNat then .refused .range
  else
    .done (s.setPort p { s.ports.get p with nextDivider := some x.toNat })
      (c1 x.toNat ++ c4 (baud x.toNat))

/-- LINK_RATE (R180). -/
def execLinkRate (p : Port) (body : List Byte) (s : State) : Host.Outcome State Fault Refusal :=
  request p 0x52 body .anyone (readOne body) ownLinkRate s

/-- A reply in progress sends its next character, when one is left. -/
def PortState.sendNext (x : PortState) : PortState :=
  match x.reply with
  | some r =>
    if r.sent < r.body.length + 2 then { x with reply := some { r with sent := r.sent + 1 } }
    else x
  | none => x

/-- Every reply in progress sends its next character. -/
def State.advanceReplies (s : State) : State := { s with ports := s.ports.map PortState.sendNext }

/-! ## Attaching (R185) -/

/-- The role and policy an ATTACH names; a policy given with REVIEW is ignored (R185). -/
def attachFields (role policy : Byte) : Option (Role × Option Policy) :=
  match role.toNat, policy.toNat with
  | 1, 0 => some (.crew, some .masked)
  | 1, 1 => some (.crew, some .unmasked)
  | 2, _ => some (.review, none)
  | _, _ => none

/-- A port other than `p` holds the REVIEW role. -/
def State.otherReview (s : State) (p : Port) : Bool :=
  four.any (fun q => decide (q ≠ p) && decide ((s.ports.get q).role = .review))

/-- ATTACH at the Station Table, in the order of checks of R185. -/
def ownAttach (x : Byte × Byte) (p : Port) (s : State) : Answer :=
  match attachFields x.1 x.2 with
  | none => .refused .range
  | some (role, policy) =>
    let q := s.ports.get p
    if q.role ≠ .none then .refused .state
    else if role = .review ∧ s.otherReview p = true then .refused .role
    else
      .done
        (s.setPort p
          { q with
            role := role, policy := policy, bound := FourSet.empty, notices := Notices.empty })
        (c1 p.val ++ c1 role.code ++ o1 (policy.map Policy.code) ++ c1 q.divider)

/-- ATTACH (R185). -/
def execAttach (p : Port) (body : List Byte) (s : State) : Host.Outcome State Fault Refusal :=
  request p 0x50 body .anyone (readTwo body) ownAttach s

/-! ## Detaching, and breaks (R184, R186) -/

/-- The claim of a tube is held by a queued or in-flight job (R186). -/
def State.jobHolds (s : State) (i : Nat) : Bool :=
  (s.sizing.queue ++ (s.sizing.flight.map Prod.fst).toList).any (fun j => decide (j.index = i))

/-- The claims of a port that no queued or in-flight job holds (R186). -/
def State.claimsWithoutJob (s : State) (p : Port) : Nat :=
  ((s.claims.get p).toList.filter (fun x =>
    match x with
    | some cl => !s.jobHolds cl.tube
    | none => false)).length

/-- The channels of a port's set that are SIZING (R186). -/
def State.sizingSet (s : State) (p : Port) : FourSet :=
  Quad.ofFn (fun c => s.holdsChan p c && decide ((s.chan.get c).state = .sizing))

/-- A port as the detach leaves it; the rate divider is kept (R178, R186). -/
def PortState.detached (x : PortState) : PortState :=
  { x with role := .none, policy := none, bound := FourSet.empty, notices := Notices.empty }

/-- A claim marked as the departed station's. -/
def Claim.depart (cl : Claim) : Claim := { cl with departed := true }

/-- The Station Table's action of a detach: the port detached, its notice set and set of channels
emptied, and the claims it holds marked as the departed station's (R186). -/
def State.detachPort (s : State) (p : Port) : State :=
  let s1 := s.setPort p (s.ports.get p).detached
  { s1 with
    claims := s1.claims.set p ((s1.claims.get p).map (fun x => x.map Claim.depart)) }

/-- DETACH at the Station Table (R186). -/
def ownDetach (_ : Unit) (p : Port) (s : State) : Answer :=
  .done (s.detachPort p) (c1 (s.claimsWithoutJob p) ++ setChar (s.sizingSet p))

/-- DETACH (R186). -/
def execDetach (p : Port) (body : List Byte) (s : State) : Host.Outcome State Fault Refusal :=
  request p 0x51 body .attached (readNone body) ownDetach s

/-- A port as a port reset leaves its line part (R178, R184). -/
def PortState.lineReset (x : PortState) : PortState :=
  { x with assembly := .hunt, reply := none, nextDivider := none, divider := 7, breakTaken := true }

/-- A port reset: the line part, and the Station Table's action of the detach when the port is
attached (R184). -/
def State.portReset (s : State) (p : Port) : State :=
  let s1 := s.setPort p (s.ports.get p).lineReset
  if (s.ports.get p).role = .none then s1 else s1.detachPort p

/-- BREAK (R184): a break that goes on after it has been taken is the same break. -/
def execLineBreak (p : Port) (s : State) : Host.Outcome State Fault Refusal :=
  .next (if (s.ports.get p).breakTaken then s else s.portReset p)

/-- LINE_RETURNED_TO_MARK (R184). -/
def execLineReturnedToMark (p : Port) (s : State) : Host.Outcome State Fault Refusal :=
  .next (s.setPort p { s.ports.get p with breakTaken := false })

/-! ## The parts of the detach course (R186) -/

/-- The channel is one of the departed station of a port. A second detach on a port while the course of
an earlier one still runs merges with it: one set of departed claims and channels, on which each part
acts and waits (DESIGN CHOICE, assumption log 31). -/
def State.departedFrom (s : State) (p : Port) (c : Chan) : Bool :=
  decide ((s.chan.get c).binding = some p) && s.departed c

/-- The departed channels of a port in one of the pull states given by `f`. -/
def State.departedIn (s : State) (p : Port) (f : PullState → Bool) : List Chan :=
  four.filter (fun c => s.departedFrom p c && f (s.chan.get c).state)

/-- Apply an operation to each of a list of channels in turn. -/
def overChans (op : State → Chan → State) : List Chan → State → State
  | [], s => s
  | c :: rest, s => overChans op rest (op s c)

/-- DETACH_PULL_ABORT (R186 step 1): each departed channel that is PULLING is aborted. -/
def execDetachPullAbort (p : Port) (s : State) : Host.Outcome State Fault Refusal :=
  .next (overChans State.abortPull (s.departedIn p (fun st => st = .pulling)) s)

/-- Step 1 has nothing left to do for a port. -/
def State.abortsDone (s : State) (p : Port) : Bool :=
  (s.departedIn p (fun st => st = .pulling)).isEmpty

/-- A departed station's claim whose in-pull marker is clear (R46 step 2). -/
def State.claimToRemove (s : State) (p : Port) (t : Tag) : Bool :=
  match s.slot p t with
  | some ⟨_, .leased _, true⟩ => true
  | _ => false

/-- Remove the departed station's claims that are not in pull, for a list of tags, with no notice
(R46). -/
def removeDeparted (p : Port) : List Tag → State → State
  | [], s => s
  | t :: rest, s => removeDeparted p rest (if s.claimToRemove p t then s.dropClaim p t else s)

/-- DETACH_CLAIM_REMOVAL (R186 step 2, R46), once step 1 is done. -/
def execDetachClaimRemoval (p : Port) (s : State) : Host.Outcome State Fault Refusal :=
  .next (if s.abortsDone p then removeDeparted p four s else s)

/-- Step 2 has nothing left to do for a port. -/
def State.removalsDone (s : State) (p : Port) : Bool := !four.any (s.claimToRemove p)

/-- FORCED_UNBIND (R65, R186 step 3) of a departed station's channel, once steps 1 and 2 are done. A
channel that is SIZING is passed, and is unbound at its job's commit. -/
def execForcedUnbind (c : Chan) (s : State) : Host.Outcome State Fault Refusal :=
  let ch := s.chan.get c
  .next
    (match ch.binding with
     | none => s
     | some p =>
       if s.departed c && s.abortsDone p && s.removalsDone p then
         if ch.state = .sizing then s.setChan c { ch with passed := true } else s.forceUnbind c
       else s)

/-- Steps 1 to 3 have nothing left to do for a port: each departed channel left is SIZING. -/
def State.unbindsDone (s : State) (p : Port) : Bool :=
  s.removalsDone p && (s.departedIn p (fun st => st ≠ .sizing)).isEmpty

/-- A job of a departed channel of a port is given its orphan mark (R147). -/
def State.markJob (s : State) (p : Port) (j : Job) : Job :=
  if s.departedFrom p j.chan then { j with orphan := true } else j

/-- ORPHAN_MARK (R147, R186 step 4), once steps 1 to 3 are done. -/
def execOrphanMark (p : Port) (s : State) : Host.Outcome State Fault Refusal :=
  .next
    (if s.unbindsDone p then
      s.setSizing
        { s.sizing with
          queue := s.sizing.queue.map (s.markJob p)
          flight := s.sizing.flight.map (fun x => (s.markJob p x.1, x.2)) }
     else s)

end Sys2Proof.Machine
end

