-- ==== Sys2Proof/Machine/PlanRequests.lean ====
section
/-!
DEFINITION. The Tube Map's requests (01_the_tube_map.md): the plan record, the row table, marks,
scope, repull orders and the plan states.
-/

namespace Sys2Proof.Machine

/-! ## The plan state check (R2) -/

/-- What the table of R2 gives a request in a plan state: taken, STATE, or taken unless locked. -/
inductive Gate where
  | taken | state | unlessLocked
  deriving DecidableEq, Repr

/-- The requests of R2 that are taken in DRAFT alone. -/
def gateDraft : PlanState → Gate
  | .draft => .taken
  | _ => .state

/-- The requests of R2 that are taken in DRAFT and, unless locked, in ACTIVE. -/
def gateEdit : PlanState → Gate
  | .draft => .taken
  | .active => .unlessLocked
  | _ => .state

/-- The requests of R2 that are taken in ACTIVE alone. -/
def gateActive : PlanState → Gate
  | .active => .taken
  | _ => .state

/-- PLAN_NEW's row of R2. -/
def gateNew : PlanState → Gate
  | .empty | .draft => .taken
  | .active => .state
  | .closed => .unlessLocked

/-- The plan state check of R2, then the request's own rule. -/
def gated (gate : PlanState → Gate) (s : State) (own : Answer) : Answer :=
  match gate s.planState with
  | .taken => own
  | .state => .refused .state
  | .unlessLocked => if s.lock then .refused .locked else own

/-! ## PLAN_NEW, PLAN_OPEN, PLAN_CLOSE, PLAN_LOCK -/

/-- The one action of an accepted PLAN_NEW (R3), with the interval expiry that the restored interval
causes (R127). -/
def State.newPlan (s : State) : State :=
  let s' : State :=
    { s with
      plan := Plan.default
      lock := false
      rows := []
      tubes := []
      free := Config.poolSize
      cal := s.cal.map (fun u => { u with group := [] })
      rescreen := Rescreen.reset
      planState := .draft }
  s'.takeIntervals

/-- PLAN_NEW at the Tube Map (R2, R3). -/
def ownPlanNew (_ : Unit) (_ : Port) (s : State) : Answer :=
  gated gateNew s
    (if s.anyCalInFlight then .refused .busy else .done s.newPlan [])

/-- PLAN_NEW (R3). -/
def execPlanNew (p : Port) (body : List Byte) (s : State) : Host.Outcome State Fault Refusal :=
  request p 0x10 body .review (readNone body) ownPlanNew s

/-- The plan holds the mix definition of its detection trace, where that is a mix (R4). -/
def detectionDefined (detection : Trace) (mixes : Nat) : Bool :=
  match detection with
  | .raw _ => true
  | .m1 => decide (1 ≤ mixes)
  | .m2 => decide (2 ≤ mixes)

/-- The plan is complete (R4). -/
def State.planComplete (s : State) : Bool :=
  !s.rows.isEmpty && s.plan.curve.isSome && s.plan.standard.isSome
    && detectionDefined s.plan.detection s.plan.mixes.length

/-- PLAN_OPEN at the Tube Map (R2, R4). -/
def ownPlanOpen (_ : Unit) (_ : Port) (s : State) : Answer :=
  gated gateDraft s
    (if s.planComplete then .done { s with planState := .active } (c2 s.tubes.length)
     else .refused .state)

/-- PLAN_OPEN (R4). -/
def execPlanOpen (p : Port) (body : List Byte) (s : State) : Host.Outcome State Fault Refusal :=
  request p 0x19 body .review (readNone body) ownPlanOpen s

/-- Something is in progress: a claim, a pull, a job or a pass (R5). -/
def State.inProgress (s : State) : Bool :=
  s.tubes.any (fun tb => tb.claim.isSome) || s.anyInFlight || s.jobsWaiting || s.passUnderWay

/-- PLAN_CLOSE at the Tube Map (R2, R5). -/
def ownPlanClose (_ : Unit) (_ : Port) (s : State) : Answer :=
  gated gateActive s
    (if s.inProgress then .refused .busy else .done { s with planState := .closed } [])

/-- PLAN_CLOSE (R5). -/
def execPlanClose (p : Port) (body : List Byte) (s : State) : Host.Outcome State Fault Refusal :=
  request p 0x1B body .review (readNone body) ownPlanClose s

/-- PLAN_LOCK at the Tube Map (R2, R12). -/
def ownPlanLock (_ : Unit) (_ : Port) (s : State) : Answer :=
  gated gateActive s (.done { s with lock := true } (c1 1))

/-- PLAN_LOCK (R12). -/
def execPlanLock (p : Port) (body : List Byte) (s : State) : Host.Outcome State Fault Refusal :=
  request p 0x1A body .review (readNone body) ownPlanLock s

/-! ## PLAN_SET, STANDARD_SET -/

/-- A plan name character, 20h to 7Eh (R1). -/
def nameChar (b : Byte) : Bool := decide (0x20 ≤ b.toNat ∧ b.toNat ≤ 0x7E)

/-- The name and the tube length lie in their ranges (R6). -/
def PlanSetBody.valid (x : PlanSetBody) : Bool :=
  decide (x.name.length ≤ 16) && x.name.all nameChar
    && decide (1000 ≤ x.tubeLength ∧ x.tubeLength ≤ 20000)

/-- PLAN_SET at the Tube Map (R2, R6). -/
def ownPlanSet (x : PlanSetBody) (_ : Port) (s : State) : Answer :=
  gated gateDraft s
    (if x.valid then
      .done (s.setPlan { s.plan with name := x.name, tubeLength := x.tubeLength }) []
     else .refused .range)

/-- PLAN_SET (R6). -/
def execPlanSet (p : Port) (body : List Byte) (s : State) : Host.Outcome State Fault Refusal :=
  request p 0x11 body .review (readPlanSet body) ownPlanSet s

/-- The descriptor meets the four conditions of R7. -/
def Standard.valid (d : Standard) : Bool :=
  decide (300 ≤ d.length ∧ d.length ≤ 2000 ∧ 5 ≤ d.half ∧ d.half ≤ 100)
    && decide (d.half ≤ d.hole ∧ d.half ≤ d.ring)
    && decide (d.hole + d.half + 10 ≤ d.length ∧ d.ring + d.half + 10 ≤ d.length)
    && decide (d.hole + 2 * d.half < d.ring ∨ d.ring + 2 * d.half < d.hole)

/-- STANDARD_SET at the Tube Map (R2, R7). -/
def ownStandardSet (d : Standard) (_ : Port) (s : State) : Answer :=
  gated gateDraft s
    (if s.anyCalInFlight then .refused .busy
     else if d.valid then .done (s.setPlan { s.plan with standard := some d }) []
     else .refused .range)

/-- STANDARD_SET (R7). -/
def execStandardSet (p : Port) (body : List Byte) (s : State) :
    Host.Outcome State Fault Refusal :=
  request p 0x12 body .review (readStandard body) ownStandardSet s

/-! ## CURVE_SET, LIMITS_SET, TRACES_SET -/

/-- Phases strictly ascend and depths do not increase from each point to the next (R8). -/
def ordered : List CurvePoint → Bool
  | a :: b :: rest => decide (a.phase < b.phase ∧ b.depth ≤ a.depth) && ordered (b :: rest)
  | _ => true

/-- The curve of a list of points, when the list meets the conditions of R8. -/
def curveOf (l : List CurvePoint) : Option Curve :=
  if l.length ≤ 8 ∧ l.all (fun q => decide (q.phase ≤ 1799 ∧ q.depth ≤ 100)) = true
      ∧ ordered l = true then
    match l with
    | a :: b :: rest => some ⟨a, b, rest⟩
    | _ => none
  else none

/-- CURVE_SET at the Tube Map (R2, R8, R148, R161). -/
def ownCurveSet (l : List CurvePoint) (_ : Port) (s : State) : Answer :=
  gated gateEdit s
    (match curveOf l with
     | some c => .done (s.setPlan { s.plan with curve := some c }).settingsChanged []
     | none => .refused .range)

/-- CURVE_SET (R8). -/
def execCurveSet (p : Port) (body : List Byte) (s : State) : Host.Outcome State Fault Refusal :=
  request p 0x15 body .review (readCurve body) ownCurveSet s

/-- A value clamped to a range. -/
def clampTo (lo hi x : Nat) : Nat := max lo (min hi x)

/-- The nine values as LIMITS_SET clamps them, in its two passes (R9). -/
def Limits.clamped (x : Limits) : Limits :=
  let openT := clampTo 100 10000 x.openT
  let plug := clampTo 1 100 x.plug
  { openT := openT
    closeT := clampTo 50 (openT - 1) x.closeT
    supportT := clampTo 500 20000 x.supportT
    report := clampTo 0 plug x.report
    plug := plug
    attemptLimit := clampTo 1 5 x.attemptLimit
    lease := clampTo 30 3600 x.lease
    pullLimit := clampTo 10 600 x.pullLimit
    calInterval := clampTo 30 480 x.calInterval }

/-- The nine values written into the plan record (R9). -/
def Plan.withLimits (pl : Plan) (x : Limits) : Plan :=
  { pl with
    openT := x.openT, closeT := x.closeT, supportT := x.supportT, report := x.report,
    plug := x.plug, attemptLimit := x.attemptLimit, lease := x.lease, pullLimit := x.pullLimit,
    calInterval := x.calInterval }

/-- The nine values in a reply, as in the request. -/
def Limits.body (x : Limits) : List Byte :=
  c2 x.openT ++ c2 x.closeT ++ c2 x.supportT ++ c2 x.report ++ c2 x.plug ++ c2 x.attemptLimit
    ++ c2 x.lease ++ c2 x.pullLimit ++ c2 x.calInterval

/-- LIMITS_SET at the Tube Map (R2, R9, R127, R148, R161). -/
def ownLimitsSet (x : Limits) (_ : Port) (s : State) : Answer :=
  gated gateEdit s
    (.done (s.setPlan (s.plan.withLimits x.clamped)).takeIntervals.settingsChanged x.clamped.body)

/-- LIMITS_SET (R9). -/
def execLimitsSet (p : Port) (body : List Byte) (s : State) : Host.Outcome State Fault Refusal :=
  request p 0x16 body .review (readLimits body) ownLimitsSet s

/-- A mix definition of two codes: raw traces, distinct (R11). -/
def mixDefOf (x : Byte × Byte) : Option MixDef :=
  match rawTraceOf x.1, rawTraceOf x.2 with
  | some a, some b => if a = b then none else some ⟨a, b⟩
  | _, _ => none

/-- All the definitions of a body, when each is one. -/
def mixDefsOf : List (Byte × Byte) → Option (List MixDef)
  | [] => some []
  | x :: rest =>
    match mixDefOf x, mixDefsOf rest with
    | some d, some l => some (d :: l)
    | _, _ => none

/-- What TRACES_SET writes. -/
structure Traces where
  detection : Trace
  support : Trace
  mixes : List MixDef
  deriving DecidableEq, Repr

/-- The traces of a body, when they pass check 2 of R11. -/
def TracesBody.traces (x : TracesBody) : Option Traces :=
  match detectionOf x.detection, supportOf x.support, mixDefsOf x.mixes with
  | some d, some u, some l => if l.length ≤ 2 then some ⟨d, u, l⟩ else none
  | _, _, _ => none

/-- A Calibration Unit after a change of definitions: a position whose definition is removed, changed
or gained is unlearned (R11, R133). -/
def CalUnit.retrace (old new : List MixDef) (u : CalUnit) : CalUnit :=
  { u with
    mix1 := if old[0]? = new[0]? then u.mix1 else none
    mix2 := if old[1]? = new[1]? then u.mix2 else none }

/-- The writes of an accepted TRACES_SET (R11). -/
def State.setTraces (s : State) (x : Traces) : State :=
  { s with
    plan := { s.plan with detection := x.detection, support := x.support, mixes := x.mixes }
    cal := s.cal.map (CalUnit.retrace s.plan.mixes x.mixes) }

/-- Check 1 of R11: what keeps TRACES_SET busy in the plan's state. -/
def State.tracesBusy (s : State) : Bool :=
  if s.planState = .active then s.anyInFlight || s.jobsWaiting else s.anyCalInFlight

/-- TRACES_SET at the Tube Map (R2, R11). -/
def ownTracesSet (x : TracesBody) (_ : Port) (s : State) : Answer :=
  gated gateEdit s
    (if s.tracesBusy then .refused .busy
     else match x.traces with
      | none => .refused .range
      | some t =>
        if s.planState = .active ∧ detectionDefined t.detection t.mixes.length = false then
          .refused .state
        else .done (s.setTraces t) [])

/-- TRACES_SET (R11). -/
def execTracesSet (p : Port) (body : List Byte) (s : State) : Host.Outcome State Fault Refusal :=
  request p 0x17 body .review (readTraces body) ownTracesSet s

/-! ## ROW_ADD -/

/-- Check 1 of R13. -/
def RowAddBody.inRange (x : RowAddBody) : Bool :=
  decide (1 ≤ x.row ∧ x.row ≤ 256 ∧ 1 ≤ x.first ∧ x.first ≤ 256 ∧ 1 ≤ x.last ∧ x.last ≤ 256
    ∧ x.first ≤ x.last ∧ x.supports ≤ 40)

/-- Check 2 of R13: the row number is above that of the last row defined. -/
def State.ascends (s : State) (row : Nat) : Bool :=
  match s.rows.getLast? with
  | some r => decide (r.row < row)
  | none => true

/-- The columns of a row. -/
def RowAddBody.columns (x : RowAddBody) : Nat := x.last - x.first + 1

/-- The tube records of `n` columns from `col` on, in ascending column order (R13). -/
def newTubes (row : Nat) : Nat → Nat → List Tube
  | _, 0 => []
  | col, n + 1 => Tube.created row col :: newTubes row (col + 1) n

/-- The row and its tube records appended (R13). -/
def State.addRow (s : State) (x : RowAddBody) : State :=
  { s with
    rows := s.rows ++ [⟨x.row, x.first, x.last, x.supports, s.tubes.length⟩]
    tubes := s.tubes ++ newTubes x.row x.first x.columns }

/-- ROW_ADD at the Tube Map (R2, R13). -/
def ownRowAdd (x : RowAddBody) (_ : Port) (s : State) : Answer :=
  gated gateDraft s
    (if !x.inRange then .refused .range
     else if !s.ascends x.row then .refused .order
     else if Config.mapCapacity < s.tubes.length + x.columns then .refused .full
     else .done (s.addRow x) (c2 s.tubes.length ++ c2 (s.tubes.length + x.columns)))

/-- ROW_ADD (R13). -/
def execRowAdd (p : Port) (body : List Byte) (s : State) : Host.Outcome State Fault Refusal :=
  request p 0x13 body .review (readRowAdd body) ownRowAdd s

/-! ## TUBE_MARK, SCOPE_SET, TUBE_REPULL -/

/-- The status a mark gives a tube, or none where it is refused with NOT_CLAIMABLE; the outer none is
a code that is no mark (R17). -/
def markStatus (mark : Byte) (now : Status) : Option (Option Status) :=
  match mark.toNat with
  | 0 => some (some .noTube)
  | 1 => some (some .priorPlug)
  | 2 => some (if now = .noTube ∨ now = .priorPlug then some .pending else none)
  | _ => none

/-- TUBE_MARK at the Tube Map (R2, R17). -/
def ownTubeMark (x : PlaceAnd) (_ : Port) (s : State) : Answer :=
  gated gateDraft s
    (if 2 < x.extra.toNat then .refused .range
     else match s.tubeAt x.place with
      | none => .refused .noTube
      | some (i, tb) =>
        match markStatus x.extra tb.status with
        | some (some st) =>
          .done (s.modTube i (fun tb => { tb with status := st }))
            (c1 tb.status.code ++ c1 st.code)
        | some none => .refused .notClaimable
        | none => .refused .range)

/-- TUBE_MARK (R17). -/
def execTubeMark (p : Port) (body : List Byte) (s : State) : Host.Outcome State Fault Refusal :=
  request p 0x14 body .review (readPlaceAnd body) ownTubeMark s

/-- The direction IN. -/
def dirIn : Nat := 0

/-- The direction OUT. -/
def dirOut : Nat := 1

/-- A tube that SCOPE_SET moves in a direction (R18). -/
def Tube.moves (tb : Tube) (dir : Nat) : Bool :=
  if dir = dirOut then decide (tb.status = .pending) && tb.claim.isNone
  else decide (tb.status = .outOfScope)

/-- A tube record after SCOPE_SET over a rectangle (R18). -/
def Tube.scoped (r : Rect) (dir : Nat) (tb : Tube) : Tube :=
  if r.holds tb && tb.moves dir then
    { tb with status := if dir = dirOut then .outOfScope else .pending }
  else tb

/-- The tubes SCOPE_SET changes (R18). -/
def scopeChanged (r : Rect) (dir : Nat) (tubes : List Tube) : Nat :=
  (tubes.filter (fun tb => r.holds tb && tb.moves dir)).length

/-- The tubes SCOPE_SET skips (R18). -/
def scopeSkipped (r : Rect) (dir : Nat) (tubes : List Tube) : Nat :=
  (tubes.filter (fun tb => r.holds tb && !tb.moves dir)).length

/-- SCOPE_SET at the Tube Map (R2, R18). -/
def ownScopeSet (x : RectAnd) (_ : Port) (s : State) : Answer :=
  gated gateEdit s
    (if x.rect.valid && decide (x.extra.toNat ≤ 1) then
      .done { s with tubes := s.tubes.map (Tube.scoped x.rect x.extra.toNat) }
        (c2 (scopeChanged x.rect x.extra.toNat s.tubes)
          ++ c2 (scopeSkipped x.rect x.extra.toNat s.tubes))
     else .refused .range)

/-- SCOPE_SET (R18). -/
def execScopeSet (p : Port) (body : List Byte) (s : State) : Host.Outcome State Fault Refusal :=
  request p 0x18 body .review (readScope body) ownScopeSet s

/-- TUBE_REPULL at the Tube Map (R2, R19). -/
def ownTubeRepull (x : Place) (_ : Port) (s : State) : Answer :=
  gated gateActive s
    (match s.tubeAt x with
     | none => .refused .noTube
     | some (i, tb) =>
       if tb.status.isDone then
         .done (s.modTube i (fun tb => { tb with status := .repull, attempts := 0 }))
           (c1 tb.status.code)
       else .refused .notClaimable)

/-- TUBE_REPULL (R19). -/
def execTubeRepull (p : Port) (body : List Byte) (s : State) :
    Host.Outcome State Fault Refusal :=
  request p 0x1C body .review (readPlace body) ownTubeRepull s

end Sys2Proof.Machine
end

