-- ==== Sys2Proof/Machine/Readout.lean ====
section
/-!
DEFINITION. STATUS and the readouts (09_results_and_map_readout.md).
-/

namespace Sys2Proof.Machine

/-! ## STATUS (R170, R171) -/

/-- RESULT_READY: the channels of the port's set that are HELD (R170). -/
def State.resultReady (s : State) (p : Port) : FourSet :=
  Quad.ofFn (fun c => s.holdsChan p c && decide ((s.chan.get c).state = .held))

/-- CHECK_DUE: the channels of the port's set that are CHECK_DUE (R170). -/
def State.checkDueSet (s : State) (p : Port) : FourSet :=
  Quad.ofFn (fun c => s.holdsChan p c && decide ((s.cal.get c).state = .checkDue))

/-- The body of the reply to STATUS (R171). -/
def statusBody (s : State) (p : Port) : List Byte :=
  let x := s.ports.get p
  c1 x.role.code ++ setChar x.bound ++ setChar (s.resultReady p) ++ setChar (s.checkDueSet p)
    ++ setChar x.notices.claimExpired ++ setChar x.notices.claimRevoked
    ++ flags x.notices.storeLow x.notices.rescreenDone false

/-- STATUS at the Station Table: the reply, and the latched items emptied (R171). -/
def ownStatus (_ : Unit) (p : Port) (s : State) : Answer :=
  .done (s.setPort p { s.ports.get p with notices := Notices.empty }) (statusBody s p)

/-- STATUS (R171). -/
def execStatus (p : Port) (body : List Byte) (s : State) : Host.Outcome State Fault Refusal :=
  request p 0x40 body .attached (readNone body) ownStatus s

/-! ## TUBE_READ, IND_READ (R173, R174) -/

/-- The lease remaining of a claim that is not in pull (R173). -/
def State.leaseRemaining (s : State) (cf : TubeClaim) : Option Nat :=
  match s.slot cf.port cf.tag with
  | some ⟨_, .leased d, _⟩ => some (d - s.now)
  | _ => none

/-- The channel whose group holds a tube (R173). -/
def State.groupOf (s : State) (i : Nat) : Option Chan :=
  four.find? (fun c => (s.cal.get c).group.contains i)

/-- The tube layout (R189). -/
def tubeBody (s : State) (i : Nat) (tb : Tube) : List Byte :=
  c2 i ++ c2 tb.row ++ c2 tb.col ++ c1 tb.status.code ++ o1 tb.status.reasonCode
    ++ o1 tb.status.faultCode ++ c1 tb.attempts
    ++ o1 (tb.claim.map (fun cf => cf.port.val)) ++ o1 (tb.claim.map (fun cf => cf.tag.val))
    ++ o1 (tb.claim.map (fun cf => cf.inPull.toNat)) ++ o2 (tb.claim.bind s.leaseRemaining)
    ++ depthChar tb.worst ++ c1 tb.list.length ++ flags tb.truncated tb.suspect false
    ++ o1 (tb.lastPull.map (fun x => x.1.val)) ++ o2 (tb.lastPull.map (fun x => x.2.toNat))
    ++ o1 ((s.groupOf i).map Fin.val)

/-- TUBE_READ at the Tube Map (R173). -/
def ownTubeRead (x : Place) (_ : Port) (s : State) : Answer :=
  match s.tubeAt x with
  | none => .refused .noTube
  | some (i, tb) => .done s (tubeBody s i tb)

/-- TUBE_READ (R173). -/
def execTubeRead (p : Port) (body : List Byte) (s : State) : Host.Outcome State Fault Refusal :=
  request p 0x41 body .attached (readPlace body) ownTubeRead s

/-- The indication layout (R189). -/
def Indication.body (x : Indication) : List Byte :=
  c2 x.position ++ o2 (x.support.map Prod.fst) ++ os4 (x.support.map Prod.snd)
    ++ c1 x.trace.code ++ c2 x.amplitude ++ c2 x.phase ++ depthChar (some x.depth)
    ++ flags x.clipped x.long x.outOfCurve

/-- IND_READ at the Tube Map, in the order of checks of R174. -/
def ownIndRead (x : PlaceAnd) (_ : Port) (s : State) : Answer :=
  let n := x.extra.toNat
  if n < 1 ∨ 16 < n then .refused .range
  else match s.tubeAt x.place with
    | none => .refused .noTube
    | some (_, tb) =>
      match tb.list[n - 1]? with
      | none => .refused .range
      | some r => .done s (c1 tb.list.length ++ r.body)

/-- IND_READ (R174). -/
def execIndRead (p : Port) (body : List Byte) (s : State) : Host.Outcome State Fault Refusal :=
  request p 0x42 body .attached (readPlaceAnd body) ownIndRead s

/-! ## LIST_READ (R175) -/

/-- Tubes with their indices, from an index on. -/
def indexed : Nat → List Tube → List (Nat × Tube)
  | _, [] => []
  | i, tb :: rest => (i, tb) :: indexed (i + 1) rest

/-- The entries of a LIST_READ: up to 27 tubes of a status from an index on (R175). -/
def listEntries (code start : Nat) (tubes : List Tube) : List (Nat × Tube) :=
  ((indexed start (tubes.drop start)).filter (fun x => decide (x.2.status.code = code))).take
    Config.listMax

/-- The next index of a LIST_READ (R175). -/
def nextIndex (entries : List (Nat × Tube)) (count : Nat) : Nat :=
  if entries.length = Config.listMax then
    match entries.getLast? with
    | some x => x.1 + 1
    | none => count
  else count

/-- An entry of nine characters (R189). -/
def entryBody (x : Nat × Tube) : List Byte :=
  c2 x.1 ++ c2 x.2.row ++ c2 x.2.col ++ o1 x.2.status.reasonCode ++ o1 x.2.status.faultCode
    ++ depthChar x.2.worst

/-- LIST_READ at the Tube Map (R175). -/
def ownListRead (x : ListBody) (_ : Port) (s : State) : Answer :=
  if 8 < x.status.toNat ∨ s.tubes.length < x.start then .refused .range
  else
    let entries := listEntries x.status.toNat x.start s.tubes
    .done s (c2 (nextIndex entries s.tubes.length) ++ c1 entries.length
      ++ entries.flatMap entryBody)

/-- LIST_READ (R175). -/
def execListRead (p : Port) (body : List Byte) (s : State) : Host.Outcome State Fault Refusal :=
  request p 0x43 body .attached (readList body) ownListRead s

/-! ## SUMMARY_READ, CHANNEL_READ (R176, R177) -/

/-- The tubes of a status code. -/
def statusCount (tubes : List Tube) (code : Nat) : Nat :=
  (tubes.filter (fun tb => decide (tb.status.code = code))).length

/-- The claims held: the filled slots (R176). -/
def State.claimsHeld (s : State) : Nat :=
  ((s.claims.toList.flatMap Quad.toList).filter Option.isSome).length

/-- The sizing jobs queued or in flight (R176). -/
def State.jobCount (s : State) : Nat := s.sizing.queue.length + s.sizing.flight.isSome.toNat

/-- A plan name padded with 00h to 16 characters (R189). -/
def paddedName (name : List Byte) : List Byte := (name ++ List.replicate 16 0x00).take 16

/-- The summary layout (R189). -/
def summaryBody (s : State) : List Byte :=
  c1 s.planState.code ++ flag s.lock ++ c1 s.plan.name.length ++ paddedName s.plan.name
    ++ c2 s.plan.tubeLength ++ c2 s.tubes.length
    ++ [0, 1, 2, 3, 4, 5, 6, 7, 8].flatMap (fun code => c2 (statusCount s.tubes code))
    ++ c1 s.claimsHeld ++ c2 s.free ++ c1 s.jobCount ++ c1 s.rescreenCode
    ++ c2 s.rescreen.cursor ++ c2 s.rescreen.restarts ++ flag s.rescreen.incomplete

/-- SUMMARY_READ (R176). -/
def ownSummaryRead (_ : Unit) (_ : Port) (s : State) : Answer := .done s (summaryBody s)

/-- SUMMARY_READ (R176). -/
def execSummaryRead (p : Port) (body : List Byte) (s : State) :
    Host.Outcome State Fault Refusal :=
  request p 0x44 body .attached (readNone body) ownSummaryRead s

/-- An orphaned job of a channel is queued or in flight (R177). -/
def State.orphaned (s : State) (c : Chan) : Bool :=
  (s.sizing.queue ++ (s.sizing.flight.map Prod.fst).toList).any
    (fun j => decide (j.chan = c) && j.orphan)

/-- The interval remaining of a CALIBRATED channel (R177). -/
def State.intervalRemaining (s : State) (c : Chan) : Option Nat :=
  let u := s.cal.get c
  if u.state = .calibrated then u.lastGood.map (fun g => g + 60 * s.plan.calInterval - s.now)
  else none

/-- The mix entry of a position: unlearned 0, learned 1 (R189). -/
def positionEntry (k : Option Coef) : List Byte := mixEntry k.isSome.toNat k

/-- The four dividers of a channel; FFFFh for off. -/
def dividerBody (slots : Quad (Option Nat)) : List Byte :=
  o2 slots.q0 ++ o2 slots.q1 ++ o2 slots.q2 ++ o2 slots.q3

/-- The channel layout (R189). -/
def channelBody (s : State) (c : Chan) : List Byte :=
  let ch := s.chan.get c
  let u := s.cal.get c
  c1 c.val ++ o1 (ch.binding.map Fin.val) ++ c1 ch.state.code ++ o1 (ch.kind.map PullKind.code)
    ++ flag (decide (ch.state = .sizing) && s.orphaned c) ++ dividerBody ch.slots
    ++ flag ch.probeOpen ++ c1 u.state.code
    ++ (match u.slots with
        | some q => setChar q
        | none => o1 none)
    ++ positionEntry u.mix1 ++ positionEntry u.mix2 ++ c2 u.epoch.toNat
    ++ o2 (s.intervalRemaining c) ++ c1 u.checkFaults ++ c2 u.group.length

/-- CHANNEL_READ (R177). -/
def ownChannelRead (x : Byte) (_ : Port) (s : State) : Answer :=
  match fin4 x with
  | none => .refused .range
  | some c => .done s (channelBody s c)

/-- CHANNEL_READ (R177). -/
def execChannelRead (p : Port) (body : List Byte) (s : State) :
    Host.Outcome State Fault Refusal :=
  request p 0x45 body .attached (readOne body) ownChannelRead s

end Sys2Proof.Machine
end

