-- ==== Sys2Proof/Machine/Frames.lean ====
section
/-!
DEFINITION. How a port hands on a complete frame by itself (R181, R182): the last character of a
frame and the last stop bit of a reply take the frame that stands complete, in the same step.
-/

namespace Sys2Proof.Machine

/-- A complete frame is taken as the request it holds: a garbled one first (its code and body are not
read), then by its code (R182, request codes of Frame and Record Formats). -/
def takeFrame (p : Port) (f : Frame) (s : State) : Host.Outcome State Fault Refusal :=
  if f.garbled then execGarbledFrame p f.code f.body s
  else
    match f.code.toNat with
    | 0x10 => execPlanNew p f.body s
    | 0x11 => execPlanSet p f.body s
    | 0x12 => execStandardSet p f.body s
    | 0x13 => execRowAdd p f.body s
    | 0x14 => execTubeMark p f.body s
    | 0x15 => execCurveSet p f.body s
    | 0x16 => execLimitsSet p f.body s
    | 0x17 => execTracesSet p f.body s
    | 0x18 => execScopeSet p f.body s
    | 0x19 => execPlanOpen p f.body s
    | 0x1A => execPlanLock p f.body s
    | 0x1B => execPlanClose p f.body s
    | 0x1C => execTubeRepull p f.body s
    | 0x1D => execRescreenStart p f.body s
    | 0x20 => execClaim p f.body s
    | 0x21 => execClaimNext p f.body s
    | 0x22 => execRelease p f.body s
    | 0x23 => execTubeRelease p f.body s
    | 0x30 => execBind p f.body s
    | 0x31 => execUnbind p f.body s
    | 0x32 => execFreqSet p f.body s
    | 0x33 => execCalStart p f.body s
    | 0x34 => execPullStart p f.body s
    | 0x35 => execPullEnd p f.body s
    | 0x36 => execPullAbort p f.body s
    | 0x37 => execResultTake p f.body s
    | 0x40 => execStatus p f.body s
    | 0x41 => execTubeRead p f.body s
    | 0x42 => execIndRead p f.body s
    | 0x43 => execListRead p f.body s
    | 0x44 => execSummaryRead p f.body s
    | 0x45 => execChannelRead p f.body s
    | 0x50 => execAttach p f.body s
    | 0x51 => execDetach p f.body s
    | 0x52 => execLinkRate p f.body s
    | _ => execUnknownCode p f.code f.body s

/-- A port with a complete frame and no reply in progress takes the frame (R181, R182). -/
def State.handOn (s : State) (p : Port) : Host.Outcome State Fault Refusal :=
  let x := s.ports.get p
  match x.assembly, x.reply with
  | .waiting f, none => takeFrame p f (s.setPort p { x with assembly := .hunt })
  | _, _ => .next s

/-- RECEIVED_CHARACTER (R181): a character that completes a frame while no reply is in progress hands
the frame on in the same step (assumption log 4). -/
def execReceivedCharacter (p : Port) (ch : Character) (s : State) :
    Host.Outcome State Fault Refusal :=
  let x := s.ports.get p
  (s.setPort p { x with assembly := x.assembly.receive ch }).handOn p

/-- REPLY_SENT (R180, R181): a frame that waits is handed on in the same step (assumption log 4). With
no reply in progress there is no such event (assumption log 2). -/
def execReplySent (p : Port) (s : State) : Host.Outcome State Fault Refusal :=
  let x := s.ports.get p
  if x.reply.isSome then (s.setPort p x.replySent).handOn p else .next s

end Sys2Proof.Machine
end

