-- ==== Sys2Proof/Machine/Resets.lean ====
section
/-!
DEFINITION. The resets of the part and the Time Base's tick with the expiries it brings
(R27, R28, R31, R37, R47, R66, R67, R113, R127, R137, R156, R166, R178).
-/

namespace Sys2Proof.Machine

/-- A port after warm reset; a break already taken stays taken until the line returns to mark
(R178, R184). -/
def PortState.warm (x : PortState) : PortState :=
  { PortState.reset with breakTaken := x.breakTaken }

/-- A Calibration Unit after warm reset: the epoch is kept (R113). -/
def CalUnit.warm (u : CalUnit) : CalUnit := { CalUnit.reset with epoch := u.epoch }

/-- Every channel's group invalidated, channel by channel (R28, R132). -/
def invalidateAll (cal : Quad CalUnit) (tubes : List Tube) : List Tube :=
  invalidateTubes (cal.toList.flatMap CalUnit.group) tubes

/-- The sequencer after warm reset (R166). -/
def Rescreen.warm (r : Rescreen) : Rescreen :=
  { r with phase := .idle, incomplete := r.incomplete || decide (r.phase = .underWay) }

/-- Warm reset: every port, channel, claim, job and sequencer is reset, and the map is kept. -/
def State.warm (s : State) : State :=
  { s with
    ports := s.ports.map PortState.warm
    tubes := (invalidateAll s.cal s.tubes).map (fun tb => { tb with claim := none })
    claims := Quad.fill (Quad.fill none)
    chan := Quad.fill Channel.reset
    pull := Quad.fill PullCtl.reset
    cal := s.cal.map CalUnit.warm
    sizing := SizingUnit.reset
    rescreen := s.rescreen.warm }

/-- WARM_RESET (R28, R47, R66). -/
def execWarmReset (s : State) : Host.Outcome State Fault Refusal := .next s.warm

/-- POWER_ON_RESET (R27): every block at its power-on value; the queue of commands is no part of the
E4 and is kept. -/
def execPowerOnReset (s : State) : Host.Outcome State Fault Refusal :=
  .next { State.reset with pending := s.pending }

/-! ## The Time Base (R31) -/

/-- The lease of slot `t` of port `p` expires when it has run out (R37). -/
def State.takeLease (s : State) (p : Port) (t : Tag) : State :=
  if s.leaseRunOut p t then s.expire p t else s

/-- Every lease that has run out expires, port by port and tag by tag (R37). -/
def State.takeLeases (s : State) : State :=
  four.foldl (fun s p => four.foldl (fun s t => s.takeLease p t) s) s

/-- TIME_BASE_TICK (R31): the seconds count, 32 bits wide, advances by 1, and the expiries of the
leases and of the calibration intervals that the new count reaches are taken with it (R37, R127;
assumption log 6). -/
def execTimeBaseTick (s : State) : Host.Outcome State Fault Refusal :=
  .next { s with seconds := s.seconds + 1 }.takeLeases.takeIntervals

end Sys2Proof.Machine
end

