-- ==== Sys2Proof/Machine/Dispatch.lean ====
section
/-!
DEFINITION. One arm for each command of the opcode table: its effect on everything but the queue.
-/

namespace Sys2Proof.Machine

def exec (i : Instr) (s : State) : Host.Outcome State Fault Refusal :=
  match i with
  | .planNew p body => Sys2Proof.Machine.execPlanNew p body s
  | .planSet p body => Sys2Proof.Machine.execPlanSet p body s
  | .standardSet p body => Sys2Proof.Machine.execStandardSet p body s
  | .rowAdd p body => Sys2Proof.Machine.execRowAdd p body s
  | .tubeMark p body => Sys2Proof.Machine.execTubeMark p body s
  | .curveSet p body => Sys2Proof.Machine.execCurveSet p body s
  | .limitsSet p body => Sys2Proof.Machine.execLimitsSet p body s
  | .tracesSet p body => Sys2Proof.Machine.execTracesSet p body s
  | .scopeSet p body => Sys2Proof.Machine.execScopeSet p body s
  | .planOpen p body => Sys2Proof.Machine.execPlanOpen p body s
  | .planLock p body => Sys2Proof.Machine.execPlanLock p body s
  | .planClose p body => Sys2Proof.Machine.execPlanClose p body s
  | .tubeRepull p body => Sys2Proof.Machine.execTubeRepull p body s
  | .rescreenStart p body => Sys2Proof.Machine.execRescreenStart p body s
  | .claim p body => Sys2Proof.Machine.execClaim p body s
  | .claimNext p body => Sys2Proof.Machine.execClaimNext p body s
  | .release p body => Sys2Proof.Machine.execRelease p body s
  | .tubeRelease p body => Sys2Proof.Machine.execTubeRelease p body s
  | .bind p body => Sys2Proof.Machine.execBind p body s
  | .unbind p body => Sys2Proof.Machine.execUnbind p body s
  | .freqSet p body => Sys2Proof.Machine.execFreqSet p body s
  | .calStart p body => Sys2Proof.Machine.execCalStart p body s
  | .pullStart p body => Sys2Proof.Machine.execPullStart p body s
  | .pullEnd p body => Sys2Proof.Machine.execPullEnd p body s
  | .pullAbort p body => Sys2Proof.Machine.execPullAbort p body s
  | .resultTake p body => Sys2Proof.Machine.execResultTake p body s
  | .status p body => Sys2Proof.Machine.execStatus p body s
  | .tubeRead p body => Sys2Proof.Machine.execTubeRead p body s
  | .indRead p body => Sys2Proof.Machine.execIndRead p body s
  | .listRead p body => Sys2Proof.Machine.execListRead p body s
  | .summaryRead p body => Sys2Proof.Machine.execSummaryRead p body s
  | .channelRead p body => Sys2Proof.Machine.execChannelRead p body s
  | .attach p body => Sys2Proof.Machine.execAttach p body s
  | .detach p body => Sys2Proof.Machine.execDetach p body s
  | .linkRate p body => Sys2Proof.Machine.execLinkRate p body s
  | .garbledFrame p code body => Sys2Proof.Machine.execGarbledFrame p code body s
  | .unknownCode p code body => Sys2Proof.Machine.execUnknownCode p code body s
  | .replySent p => Sys2Proof.Machine.execReplySent p s
  | .lineBreak p => Sys2Proof.Machine.execLineBreak p s
  | .warmReset => Sys2Proof.Machine.execWarmReset s
  | .powerOnReset => Sys2Proof.Machine.execPowerOnReset s
  | .timeBaseTick => Sys2Proof.Machine.execTimeBaseTick s
  | .leaseExpiry p t => Sys2Proof.Machine.execLeaseExpiry p t s
  | .timeout c => Sys2Proof.Machine.execTimeout c s
  | .calibrationIntervalExpiry c => Sys2Proof.Machine.execCalibrationIntervalExpiry c s
  | .settleCompletion c => Sys2Proof.Machine.execSettleCompletion c s
  | .encoderStep c dir => Sys2Proof.Machine.execEncoderStep c dir s
  | .encoderReverse c => Sys2Proof.Machine.execEncoderReverse c s
  | .demodulatorOutput c values => Sys2Proof.Machine.execDemodulatorOutput c values s
  | .coilOpen c => Sys2Proof.Machine.execCoilOpen c s
  | .coilRestored c => Sys2Proof.Machine.execCoilRestored c s
  | .sizingJobBegin => Sys2Proof.Machine.execSizingJobBegin s
  | .sizingCommit => Sys2Proof.Machine.execSizingCommit s
  | .rescreenStepBegin => Sys2Proof.Machine.execRescreenStepBegin s
  | .rescreenStepWrite => Sys2Proof.Machine.execRescreenStepWrite s
  | .detachPullAbort p => Sys2Proof.Machine.execDetachPullAbort p s
  | .detachClaimRemoval p => Sys2Proof.Machine.execDetachClaimRemoval p s
  | .forcedUnbind c => Sys2Proof.Machine.execForcedUnbind c s
  | .orphanMark p => Sys2Proof.Machine.execOrphanMark p s
  | .receivedCharacter p ch => Sys2Proof.Machine.execReceivedCharacter p ch s
  | .lineReturnedToMark p => Sys2Proof.Machine.execLineReturnedToMark p s

end Sys2Proof.Machine
end

