-- ==== Sys2Proof/Machine/Step.lean ====
section
/-!
DEFINITION. One step of the E4: the command at the front of the queue, or, when none waits, what the
links do by themselves.
-/

namespace Sys2Proof.Machine

/-- The step on an empty queue: every reply in progress sends one more character (assumption log
1). -/
def idle (s : State) : Host.Outcome State Fault Refusal := .next s.advanceReplies

/-- One step. -/
def step (s : State) : Host.Outcome State Fault Refusal :=
  match s.pending with
  | c :: rest => exec c { s with pending := rest }
  | [] => idle s

/-- The state with the command that a word spells at the front of its queue. -/
def State.withFetchWord (s : State) (nbits w : Nat) : State :=
  match decodeTableWord nbits w with
  | some c => { s with pending := c :: s.pending }
  | none => s

end Sys2Proof.Machine
end

