-- ==== Sys2Proof/Safety.lean ====
section
/-!
DEFINITION. The terms the claims use: when a port takes a frame at once, the answer it gives, and the
laws of the rules as properties of the state, with what it is for every step to keep one.
-/

namespace Sys2Proof.Machine

/-! ## Requests -/

/-- Port `p` takes the frame `f` at once: no reply is in progress, and no other frame waits (R181,
R182). -/
def State.takes (s : State) (p : Port) (f : Frame) : Prop :=
  (s.ports.get p).reply = none ∧ ∀ g, (s.ports.get p).assembly = .waiting g → g = f

/-- The state with port `p` in HUNT and a reply of a lead character and a body in progress, of which
nothing is sent yet (R182, R183). -/
def State.answered (s : State) (p : Port) (lead : Byte) (body : List Byte) : State :=
  { s with
    ports := s.ports.set p
      { s.ports.get p with assembly := .hunt, reply := some ⟨lead, body, 0⟩ } }

/-- The command is answered REFUSED with a reason code, and changes nothing else (R182). -/
def Refuses (i : Instr) (s : State) (p : Port) (code : Byte) : Prop :=
  exec i s = .next (s.answered p 0xF1 [code])

/-- No calibration pull is in flight on any channel (R49). -/
def State.noCalPull (s : State) : Prop :=
  ∀ c, ¬ ((s.chan.get c).state = .pulling
    ∧ ((s.chan.get c).kind = some .calFull ∨ (s.chan.get c).kind = some .calCheck))

/-- No pull is in flight on any channel (R49). -/
def State.noPull (s : State) : Prop :=
  ∀ c, (s.chan.get c).state ≠ .pulling ∧ (s.chan.get c).state ≠ .sizing

/-- No job is queued or in flight. -/
def State.noJob (s : State) : Prop := s.sizing.queue = [] ∧ s.sizing.flight = none

/-- The jobs queued or in flight. -/
def State.jobs (s : State) : List Job := s.sizing.queue ++ (s.sizing.flight.map Prod.fst).toList

/-- A number of steps, one after another, up to the first that is no next state. -/
def steps : Nat → State → Host.Outcome State Fault Refusal
  | 0, s => .next s
  | k + 1, s =>
    match step s with
    | .next t => steps k t
    | .fault r => .fault r
    | .refused r => .refused r

/-! ## Laws -/

/-- Every step keeps the property. -/
def Kept (law : State → Prop) : Prop := ∀ s t, law s → step s = .next t → law t

/-- The law of the indication store (R150): in-use and free records number 8,192, and no tube holds
more than 16, in ascending position. -/
def StoreLaw (s : State) : Prop :=
  s.free + (s.tubes.map (fun tb => tb.list.length)).sum = 8192
    ∧ ∀ tb ∈ s.tubes, tb.list.length ≤ 16
        ∧ tb.list.Pairwise (fun a b => a.position ≤ b.position)

/-- The law of the attempt count (R15). -/
def AttemptsLaw (s : State) : Prop := ∀ tb ∈ s.tubes, tb.attempts ≤ 5

/-- The law of claims (R30): a slot's tube names the slot with the slot's in-pull marker, a tube's
claim names a slot that names the tube, and outside ACTIVE every slot is empty (R42). -/
structure ClaimLaw (s : State) : Prop where
  slotTube : ∀ p t cl, s.slot p t = some cl →
    ∃ tb, s.tubes[cl.tube]? = some tb
      ∧ tb.claim = some ⟨p, t, decide (cl.hold = .inPull)⟩
  tubeSlot : ∀ i tb cf, s.tubes[i]? = some tb → tb.claim = some cf →
    ∃ cl, s.slot cf.port cf.tag = some cl ∧ cl.tube = i
  onlyActive : s.planState ≠ .active → ∀ p t, s.slot p t = none

/-- The law of roles (R178) with the Station Table's entries: the policy is present exactly for CREW,
at most two channels are bound and only to CREW, a slot's claim that is not a departed station's is a
CREW station's, and a detached port shows no latched notice (R30, R48, R170); with the law of claims, on
which the notices rest. -/
structure StationLaw (s : State) : Prop extends ClaimLaw s where
  oneReview : ∀ p q, (s.ports.get p).role = .review → (s.ports.get q).role = .review → p = q
  policy : ∀ p, (s.ports.get p).policy.isSome = decide ((s.ports.get p).role = .crew)
  bound : ∀ p, (s.ports.get p).bound.card ≤ 2
  boundCrew : ∀ p, (s.ports.get p).role ≠ .crew → (s.ports.get p).bound = FourSet.empty
  claimsCrew : ∀ p t cl, s.slot p t = some cl → cl.departed = false → (s.ports.get p).role = .crew
  notices : ∀ p, (s.ports.get p).role = .none → (s.ports.get p).notices = Notices.empty

/-- A slot holds an in-pull claim on a tube. -/
def State.pullsOn (s : State) (p : Port) (t : Tag) (i : Nat) : Prop :=
  ∃ d, s.slot p t = some ⟨i, .inPull, d⟩

/-- The tube pull of a PULLING channel. -/
def State.tubePull (s : State) (c : Chan) (p : Port) (t : Tag) (i : Nat) : Prop :=
  (s.chan.get c).state = .pulling
    ∧ ∃ rec tp, (s.pull.get c).record = some rec ∧ rec.tube = some tp
      ∧ rec.port = p ∧ tp.tag = t ∧ tp.index = i

/-- The laws that tie pulls, jobs, claims and statuses together: a tube pull in flight and a job are on
a tube whose claim is marked in pull, each on a slot of its own (R39, R49); a claimed tube is PENDING
or REPULL (R30); an excluded tube holds no claim and no record, nor does a PENDING tube or a tube of a
DRAFT hold a record (R16, R17, R18). -/
structure PullLaw (s : State) : Prop extends ClaimLaw s where
  pulls : ∀ c p t i, s.tubePull c p t i → s.pullsOn p t i
  jobs : ∀ j ∈ s.jobs, s.pullsOn j.port j.tag j.index
  pullsApart : ∀ c d p t i k, s.tubePull c p t i → s.tubePull d p t k → c = d
  jobsApart : s.jobs.Pairwise (fun j k => (j.port, j.tag) ≠ (k.port, k.tag))
  pullJob : ∀ c p t i, s.tubePull c p t i → ∀ j ∈ s.jobs, (j.port, j.tag) ≠ (p, t)
  claimedOpen : ∀ tb ∈ s.tubes, tb.claim.isSome = true → tb.status.isOpen = true
  unlisted : ∀ tb ∈ s.tubes,
    tb.status = .noTube ∨ tb.status = .priorPlug ∨ tb.status = .outOfScope
      ∨ tb.status = .pending → tb.list = []
  draft : s.planState = .draft → ∀ tb ∈ s.tubes, tb.list = []

/-- The law of a channel's items (R48, R49, R91, R138): binding, excitation, settle timer, probe-open
condition, kind and held result agree with the pull state; a port's set holds only channels bound to
it; a pull in flight has its record; and a job's channel is SIZING, with one job for a channel. -/
structure ChannelLaw (s : State) : Prop where
  binding : ∀ c, (s.chan.get c).binding.isSome = decide ((s.chan.get c).state ≠ .unbound)
  excited : ∀ c, (s.chan.get c).excited = (s.chan.get c).binding.isSome
  settle : ∀ c, (s.chan.get c).settle.isSome = decide ((s.chan.get c).state = .settling)
  probe : ∀ c, (s.chan.get c).state = .unbound → (s.chan.get c).probeOpen = false
  kind : ∀ c, (s.chan.get c).kind.isSome
    = decide ((s.chan.get c).state = .pulling ∨ (s.chan.get c).state = .sizing
        ∨ (s.chan.get c).state = .held)
  held : ∀ c, (s.pull.get c).result.isSome = decide ((s.chan.get c).state = .held)
  sets : ∀ p c, s.holdsChan p c = true → (s.chan.get c).binding = some p
  record : ∀ c, (s.chan.get c).state = .pulling →
    ∃ rec, (s.pull.get c).record = some rec ∧ (s.chan.get c).kind = some rec.kind
      ∧ rec.tube.isSome = decide (rec.kind = .tube)
  sizing : ∀ c, (s.chan.get c).state = .sizing → (s.chan.get c).kind = some .tube
  jobs : ∀ j ∈ s.jobs, (s.chan.get j.chan).state = .sizing
  oneJob : (s.jobs.map Job.chan).Nodup

/-- The law of group tubes: a tube that a calibration group lists is done or REPULL, and outside ACTIVE
and CLOSED every group is empty (R3, R16, R24, R129, R130); with the laws it rests on. -/
structure GroupLaw (s : State) : Prop extends PullLaw s where
  members : ∀ c i, i ∈ (s.cal.get c).group → ∃ tb, s.tubes[i]? = some tb
    ∧ (tb.status.isDone = true ∨ tb.status = .repull)
  inPlan : s.planState ≠ .active → s.planState ≠ .closed → ∀ c, (s.cal.get c).group = []

/-- The law of times that run: the deadline of every lease lies ahead (R37, R173), so does the due count
of every CALIBRATED channel, which has a last good time (R127, R177), and a lease and an interval in
force last (R9). -/
structure TimeLaw (s : State) : Prop where
  leases : ∀ p t i d b, s.slot p t = some ⟨i, .leased d, b⟩ → s.now < d
  intervals : ∀ c, (s.cal.get c).state = .calibrated →
    ∃ g, (s.cal.get c).lastGood = some g ∧ s.now < g + 60 * s.plan.calInterval
  inForce : 1 ≤ s.plan.lease ∧ 1 ≤ s.plan.calInterval

/-- The laws of calibrated pulls and of calibration groups (R70, R114, R129), with what they rest
on. -/
structure CalLaw (s : State) : Prop extends ChannelLaw s where
  calibrated : ∀ c, ((s.chan.get c).kind = some .tube
      ∧ ((s.chan.get c).state = .pulling ∨ (s.chan.get c).state = .sizing)) →
    (s.cal.get c).state ≠ .uncalibrated ∧ (s.cal.get c).group.length < 512
  uncalibrated : ∀ c, (s.cal.get c).state = .uncalibrated → (s.cal.get c).group = []
  room : ∀ c, (s.cal.get c).state = .calibrated → (s.cal.get c).group.length < 512
  size : ∀ c, (s.cal.get c).group.length ≤ 512
  full : ∀ c, (s.chan.get c).state = .pulling → (s.chan.get c).kind = some .calFull →
    (s.cal.get c).group = []
  once : ∀ c, (s.cal.get c).group.Nodup
  apart : ∀ c d, c ≠ d → List.Disjoint (s.cal.get c).group (s.cal.get d).group

/-- A curve that CURVE_SET accepts (R8). -/
def Curve.valid (c : Curve) : Prop := curveOf c.points = some c

/-- A depth is INDEFINITE or 0 to 100. -/
def Depth.inRange : Depth → Prop
  | .indefinite => True
  | .pct d => d ≤ 100

/-- The law of computed values (R105), as far as values are stored: phases lie in 0 to 1,799 tenths,
depths are INDEFINITE or 0 to 100, and every curve in use is one that CURVE_SET accepts. -/
structure ValueLaw (s : State) : Prop where
  curve : ∀ c, s.plan.curve = some c → c.valid
  flight : ∀ j st, s.sizing.flight = some (j, st) → st.curve.valid
  step : ∀ st, s.sizing.step = some st → st.curve.valid
  buffer : ∀ c, ∀ f ∈ (s.pull.get c).buffer, f.phase < 1800
  jobs : ∀ j ∈ s.jobs, ∀ r ∈ j.records, r.phase < 1800
  stored : ∀ tb ∈ s.tubes, ∀ x ∈ tb.list, x.phase < 1800 ∧ x.depth.inRange
  worst : ∀ tb ∈ s.tubes, ∀ d, tb.worst = some d → d.inRange

/-- The plan lock is set in ACTIVE and CLOSED alone (R2, R12). -/
def LockLaw (s : State) : Prop := s.lock = true → s.planState = .active ∨ s.planState = .closed

/-- R13, R14: rows stand in strictly ascending number, each row's tubes stand one after another from
its first index in ascending column, every tube stands in its row, and there are at most 32,768. -/
structure RowLaw (s : State) : Prop where
  ascending : s.rows.Pairwise (fun a b => a.row < b.row)
  tubesOf : ∀ r ∈ s.rows, r.first ≤ r.last ∧ ∀ k, k ≤ r.last - r.first →
    ∃ tb, s.tubes[r.firstIndex + k]? = some tb ∧ tb.row = r.row ∧ tb.col = r.first + k
  rowOf : ∀ i tb, s.tubes[i]? = some tb → ∃ r ∈ s.rows, r.row = tb.row ∧ r.first ≤ tb.col
    ∧ tb.col ≤ r.last ∧ i = r.firstIndex + (tb.col - r.first)
  count : s.tubes.length ≤ 32768

/-- The tubes that CLAIM_NEXT may grant, of one status (R34). -/
def Candidate (s : State) (r : Rect) (st : Status) (i : Nat) : Prop :=
  ∃ tb, s.tubes[i]? = some tb ∧ r.firstRow ≤ tb.row ∧ tb.row ≤ r.lastRow
    ∧ r.firstCol ≤ tb.col ∧ tb.col ≤ r.lastCol ∧ tb.status = st ∧ tb.claim = none

/-- The state after a grant of tube `i` in tag `t` of port `p`, with its reply (R35). -/
def Granted (s : State) (p : Port) (t : Tag) (i : Nat) (tb : Tube) : State :=
  State.answered
    { s with
      claims := s.claims.set p
        ((s.claims.get p).set t (some ⟨i, .leased (s.now + s.plan.lease), false⟩))
      tubes := s.tubes.set i { tb with claim := some ⟨p, t, false⟩ } }
    p 0xF0
    (c1 t.val ++ c2 tb.row ++ c2 tb.col ++ c2 i ++ c1 tb.status.code ++ c1 tb.attempts
      ++ flag tb.suspect ++ c2 s.plan.lease)

end Sys2Proof.Machine
end

