-- ==== Sys2Proof/Certificates/Slice0/Obligations.lean ====
section
/-!
DEFINITION. The statements for the provers. Each says what a rule of the manual says of the machine;
a rule number in a docstring is a rule of spec/, a log number a row of notes/assumptions/. -/

open Sys2Proof Sys2Proof.Machine

/-! ## The machine as a whole -/

/-- One step runs the command at the front of the queue on the state with the queue's rest. -/
def Obligations.StepRunsTheFrontCommand : Prop :=
  ∀ (c : Instr) (rest : List Instr) (s : State), s.pending = c :: rest →
    step s = exec c { s with pending := rest }

/-- No command touches the queue: what waits behind a command is what waits after it. That the queue is
no part of the E4, so that WARM_RESET and POWER_ON_RESET leave it too, is the model's choice (log 28). -/
def Obligations.CommandsLeaveTheQueue : Prop :=
  ∀ (c : Instr) (s t : State), exec c s = .next t → t.pending = s.pending

/-- Every command of the E4 goes on from every state: no fault and no refusal of the model (the E4 has
no machine fault; a refused request is an answer, R182). The one stop of the model: a term UNKNOWN_CODE
whose code names a request is no command of the E4, and it faults (log 27, the model's choice). That an
event whose condition fails goes on with nothing changed, and what a command makes of a state no run
reaches, are the model's choices too (logs 2 and 25). -/
def Obligations.EveryCommandGoesOn : Prop :=
  (∀ (c : Instr) (s : State), c.wellFormed = true → ∃ t, exec c s = .next t)
  ∧ ∀ (p : Port) (code : Byte) (body : List Byte) (s : State), namesRequest code = true →
    exec (.unknownCode p code body) s = .fault .illFormedCommand

/-- R182, R183: a request that is taken leaves its port in HUNT with exactly one reply, DONE or
REFUSED; a refused one carries one reason code, 01h to 19h, and changes no other state. -/
def Obligations.RefusedRequestsChangeNothing : Prop :=
  ∀ (i : Instr) (p : Port) (f : Frame) (s : State),
    i.wellFormed = true → frameOfCommand i = some (p, f) → s.takes p f →
    ∃ t r, exec i s = .next t ∧ (t.ports.get p).assembly = .hunt
      ∧ (t.ports.get p).reply = some r ∧ r.sent = 0
      ∧ (r.lead = 0xF0
          ∨ (∃ code : Byte, 1 ≤ code.toNat ∧ code.toNat ≤ 25 ∧ t = s.answered p 0xF1 [code]))

/-- R181: while a reply is in progress a complete frame waits in WAITING and nothing else happens; a
second frame is not kept. The step in which it is noted is the model's (log 3). -/
def Obligations.FramesWaitWhileAReplyIsSent : Prop :=
  ∀ (i : Instr) (p : Port) (f : Frame) (s : State),
    i.wellFormed = true → frameOfCommand i = some (p, f) → (s.ports.get p).reply.isSome = true →
    ((∀ g, (s.ports.get p).assembly ≠ .waiting g) →
      exec i s
        = .next { s with ports := s.ports.set p { s.ports.get p with assembly := .waiting f } })
    ∧ (∀ g, (s.ports.get p).assembly = .waiting g → exec i s = .next s)

/-- R182, R187, R189: the first four checks of a frame in their order. A garbled frame is refused with
GARBLED, whatever its code and body; a code that names no request with UNKNOWN, attached or not; the
Station Table refuses a detached port everything but ATTACH and LINK_RATE, and a CREW station the
fourteen requests of the plan, with ROLE; then, from every station that passes the Station Table, a
body of another length than its layout gives is refused with RANGE: for the fixed layouts their length,
for PLAN_SET, CURVE_SET and TRACES_SET the length that the count in the body gives, a body too short for
its count included. -/
def Obligations.FramesAreCheckedInOrder : Prop :=
  ∀ (s : State) (p : Port) (code : Byte) (body : List Byte),
    (s.takes p ⟨code, body, true⟩ → Refuses (.garbledFrame p code body) s p 0x01)
    ∧ (s.takes p ⟨code, body, false⟩ → namesRequest code = false →
        Refuses (.unknownCode p code body) s p 0x02)
    ∧ (s.takes p ⟨code, body, false⟩ → ∀ i, requestOfCode p code body = some i →
        let passes : Prop := (s.ports.get p).role = .review
          ∨ (s.ports.get p).role = .crew ∧ 0x20 ≤ code.toNat
          ∨ code.toNat = 0x50 ∨ code.toNat = 0x52
        let count (k : Nat) : Nat := ((body[k]?).map (fun b => b.toNat)).getD 0
        ((s.ports.get p).role = .none → code.toNat ≠ 0x50 → code.toNat ≠ 0x52 →
          Refuses i s p 0x03)
        ∧ ((s.ports.get p).role = .crew → code.toNat ≤ 0x1D → Refuses i s p 0x03)
        ∧ (passes → ∀ n,
            (code.toNat, n) ∈ [(0x10, 0), (0x12, 7), (0x13, 7), (0x14, 5), (0x16, 18), (0x18, 9),
              (0x19, 0), (0x1A, 0), (0x1B, 0), (0x1C, 4), (0x1D, 0), (0x20, 5), (0x21, 9),
              (0x22, 1), (0x23, 4), (0x30, 1), (0x31, 1), (0x32, 9), (0x33, 2), (0x34, 2),
              (0x35, 2), (0x36, 1), (0x37, 1), (0x40, 0), (0x41, 4), (0x42, 5), (0x43, 3),
              (0x44, 0), (0x45, 1), (0x50, 2), (0x51, 0), (0x52, 1)] →
            body.length ≠ n → Refuses i s p 0x06)
        ∧ (passes →
            (code.toNat = 0x11 ∧ body.length ≠ 3 + count 0
              ∨ code.toNat = 0x15 ∧ body.length ≠ 1 + 3 * count 0
              ∨ code.toNat = 0x17 ∧ body.length ≠ 3 + 2 * count 2) → Refuses i s p 0x06))

/-- R179, R181, R182: the characters of a request's frame, received one after another on a port in
HUNT with no reply in progress, run exactly the request's command, in the step of the last character.
That this step is the one that takes the frame is the model's reading (log 4). -/
def Obligations.SentFrameIsTakenAsItsCommand : Prop :=
  ∀ (i : Instr) (p : Port) (f : Frame) (s : State),
    i.wellFormed = true → frameOfCommand i = some (p, f) → f.garbled = false →
    (s.ports.get p).assembly = .hunt → (s.ports.get p).reply = none →
    let characters := sentCharacter f.code true :: sentCharacter (BitVec.ofNat 8 f.body.length) false
      :: f.body.map (fun b => sentCharacter b false)
    steps characters.length { s with pending := characters.map (Instr.receivedCharacter p) }
      = exec i { s with pending := [] }

/-! ## Station links -/

/-- R179, R181: what the receive assembly makes of a character, row by row; a parity error is an even
number of ones, a framing error a stop bit at space. A frame that completes waits in WAITING while a
reply is in progress; with none it is handed on: the step is that of the frame's command, the port in
HUNT. Nothing else of the machine changes. That the step of the last character takes the frame is log
4; that a character may come while a break stands is log 11. -/
def Obligations.ReceivedCharactersBuildFrames : Prop :=
  ∀ (s : State) (p : Port) (ch : Character) (err : Bool),
    err = (decide (((List.range 8).countP (fun n => ch.data.toNat.testBit n) + ch.mark.toNat
      + ch.parity.toNat) % 2 = 0) || !ch.stop) →
    let x := s.ports.get p
    let becomes (a : Assembly) : Prop :=
      exec (.receivedCharacter p ch) s
        = .next { s with ports := s.ports.set p { x with assembly := a } }
    let completes (f : Frame) : Prop :=
      (x.reply.isSome = true → becomes (.waiting f))
      ∧ (x.reply = none → ∀ i, i.wellFormed = true → frameOfCommand i = some (p, f) →
          exec (.receivedCharacter p ch) s
            = exec i { s with ports := s.ports.set p { x with assembly := .hunt } })
    ((∃ f, x.assembly = .waiting f) → x.reply.isSome = true → becomes x.assembly)
    ∧ ((∀ f, x.assembly ≠ .waiting f) → ch.mark = true → becomes (.length ch.data err))
    ∧ (x.assembly = .hunt → ch.mark = false → becomes .hunt)
    ∧ (∀ code g, x.assembly = .length code g → ch.mark = false →
        (250 < ch.data.toNat → completes ⟨code, [], true⟩)
        ∧ (ch.data.toNat = 0 → completes ⟨code, [], g || err⟩)
        ∧ (0 < ch.data.toNat → ch.data.toNat ≤ 250 →
            becomes (.body code ch.data.toNat [] (g || err))))
    ∧ (∀ code len got g, x.assembly = .body code len got g → ch.mark = false →
        (got.length + 1 < len → becomes (.body code len (got ++ [ch.data]) (g || err)))
        ∧ (len ≤ got.length + 1 → completes ⟨code, got ++ [ch.data], g || err⟩))

/-- R180, R181: LINK_RATE answers with the new divider and the rate in baud and leaves the divider as it
is; the divider changes when that reply is sent; a divider above 127 is refused with RANGE. A frame that
waits for the reply is handed on when it has been sent. That the rate is rounded half to even is log 14;
that REPLY_SENT with no reply in progress changes nothing is log 2. -/
def Obligations.LinkRateTakesEffectAfterItsReply : Prop :=
  ∀ (s : State) (p : Port) (d : Byte),
    let x := s.ports.get p
    let freed : PortState :=
      { x with reply := none, divider := x.nextDivider.getD x.divider, nextDivider := none }
    (s.takes p ⟨0x52, [d], false⟩ → 127 < d.toNat → Refuses (.linkRate p [d]) s p 0x06)
    ∧ (s.takes p ⟨0x52, [d], false⟩ → d.toNat ≤ 127 →
        ∃ rate : Nat, exec (.linkRate p [d]) s
            = .next (State.answered
                { s with ports := s.ports.set p { x with nextDivider := some d.toNat } }
                p 0xF0 (c1 d.toNat ++ c4 rate))
          ∧ (2 * (rate : Int) * (d.toNat + 1) - 2 * 921600).natAbs ≤ d.toNat + 1)
    ∧ (x.reply.isSome = true → (∀ f, x.assembly ≠ .waiting f) →
        exec (.replySent p) s = .next { s with ports := s.ports.set p freed })
    ∧ (∀ i f, x.reply.isSome = true → x.assembly = .waiting f → i.wellFormed = true →
        frameOfCommand i = some (p, f) →
        exec (.replySent p) s
          = exec i { s with ports := s.ports.set p { freed with assembly := .hunt } })
    ∧ (x.reply = none → exec (.replySent p) s = .next s)

/-- R185: ATTACH writes the role and the policy, with an empty notice set and an empty set of
channels, and answers port, role, policy and divider; a role or policy out of range is refused with
RANGE, an attached port with STATE and a second REVIEW station with ROLE, in that order. That the policy
of a REVIEW station is answered as FFh is the model's reading (log 16). -/
def Obligations.AttachGivesARole : Prop :=
  (∀ (s : State) (p : Port) (a b : Byte) (role : Role) (policy : Option Policy),
    s.takes p ⟨0x50, [a, b], false⟩ →
    ((a.toNat = 1 ∧ b.toNat = 0 ∧ role = .crew ∧ policy = some .masked)
      ∨ (a.toNat = 1 ∧ b.toNat = 1 ∧ role = .crew ∧ policy = some .unmasked)
      ∨ (a.toNat = 2 ∧ role = .review ∧ policy = none)) →
    ((s.ports.get p).role = .none →
      (role = .review → ∀ q, q ≠ p → (s.ports.get q).role ≠ .review) →
      exec (.attach p [a, b]) s
        = .next (State.answered
            { s with
              ports := s.ports.set p
                { s.ports.get p with
                  role := role, policy := policy, bound := FourSet.empty
                  notices := Notices.empty } }
            p 0xF0
            ([BitVec.ofNat 8 p.val, a, (if role = .crew then b else 0xFF)]
              ++ c1 (s.ports.get p).divider)))
    ∧ ((s.ports.get p).role ≠ .none → Refuses (.attach p [a, b]) s p 0x04)
    ∧ ((s.ports.get p).role = .none → role = .review →
        (∃ q, q ≠ p ∧ (s.ports.get q).role = .review) → Refuses (.attach p [a, b]) s p 0x03))
  ∧ ∀ (s : State) (p : Port) (a b : Byte), s.takes p ⟨0x50, [a, b], false⟩ →
      ¬ (a.toNat = 1 ∧ b.toNat ≤ 1 ∨ a.toNat = 2) → Refuses (.attach p [a, b]) s p 0x06

/-- R186, the Station Table's action: the port is detached with empty notice set and set of channels,
its divider kept, and its claims become the departed station's. The reply counts the claims that no
job holds and names the channels in SIZING. -/
def Obligations.DetachLeavesTheStation : Prop :=
  ∀ (s : State) (p : Port), s.takes p ⟨0x51, [], false⟩ → (s.ports.get p).role ≠ .none →
    exec (.detach p []) s
      = .next (State.answered
          { s with
            ports := s.ports.set p
              { s.ports.get p with
                role := .none, policy := none, bound := FourSet.empty
                notices := Notices.empty }
            claims := s.claims.set p
              ((s.claims.get p).map
                (fun x => x.map (fun cl => { cl with departed := true }))) }
          p 0xF0
          (c1 (four.countP (fun t => decide (∃ cl, (s.claims.get p).get t = some cl
                ∧ ∀ j ∈ s.jobs, j.index ≠ cl.tube)))
            ++ setChar (Quad.ofFn (fun c => (s.ports.get p).bound.get c
                && decide ((s.chan.get c).state = .sizing)))))

/-- R184: a break resets the port, drops its frame, its reply and a rate not yet in effect, and
detaches an attached station; while the line has not returned to mark it is the same break. -/
def Obligations.BreakResetsThePort : Prop :=
  ∀ (s : State) (p : Port),
    ((s.ports.get p).breakTaken = false →
      exec (.lineBreak p) s
        = .next { s with
            ports := s.ports.set p
              { divider := 7, nextDivider := none, assembly := .hunt, reply := none
                breakTaken := true, role := .none
                policy := if (s.ports.get p).role = .none then (s.ports.get p).policy else none
                bound :=
                  if (s.ports.get p).role = .none then (s.ports.get p).bound else FourSet.empty
                notices :=
                  if (s.ports.get p).role = .none then (s.ports.get p).notices
                  else Notices.empty }
            claims := s.claims.set p
              (if (s.ports.get p).role = .none then s.claims.get p
               else (s.claims.get p).map
                (fun x => x.map (fun cl => { cl with departed := true }))) })
    ∧ ((s.ports.get p).breakTaken = true → exec (.lineBreak p) s = .next s)
    ∧ exec (.lineReturnedToMark p) s
        = .next { s with ports := s.ports.set p { s.ports.get p with breakTaken := false } }

/-! ## The plan and the map -/

/-- R2: the plan states in which the Tube Map refuses each of its requests: with STATE where the plan's
state does not take it, and with LOCKED where the state takes it but the lock forbids it. -/
def Obligations.PlanStatesGateTheMapRequests : Prop :=
  ∀ (i : Instr) (p : Port) (code : Byte) (body : List Byte) (s : State),
    requestOfCode p code body = some i → s.takes p ⟨code, body, false⟩ →
    (s.ports.get p).role = .review →
    (code.toNat = 0x10 → body = [] →
      (s.planState = .active → Refuses i s p 0x04)
      ∧ (s.planState = .closed → s.lock = true → Refuses i s p 0x05))
    ∧ ((code.toNat = 0x11 ∧ (readPlanSet body).isSome = true
          ∨ code.toNat = 0x12 ∧ body.length = 7 ∨ code.toNat = 0x13 ∧ body.length = 7
          ∨ code.toNat = 0x14 ∧ body.length = 5 ∨ code.toNat = 0x19 ∧ body = []) →
        s.planState ≠ .draft → Refuses i s p 0x04)
    ∧ ((code.toNat = 0x15 ∧ (readCurve body).isSome = true
          ∨ code.toNat = 0x16 ∧ body.length = 18
          ∨ code.toNat = 0x17 ∧ (readTraces body).isSome = true
          ∨ code.toNat = 0x18 ∧ body.length = 9) →
        (s.planState = .empty ∨ s.planState = .closed → Refuses i s p 0x04)
        ∧ (s.planState = .active → s.lock = true → Refuses i s p 0x05))
    ∧ ((code.toNat = 0x1A ∧ body = [] ∨ code.toNat = 0x1B ∧ body = []
          ∨ code.toNat = 0x1C ∧ body.length = 4) →
        s.planState ≠ .active → Refuses i s p 0x04)

/-- R3 with R127: PLAN_NEW starts a plan in DRAFT from the defaults, empties the map, the store and
every group, sets the sequencer IDLE, and takes the interval expiry that 240 minutes cause; it is
refused with BUSY while a calibration pull is in flight. -/
def Obligations.PlanNewStartsADraft : Prop :=
  ∀ (s : State) (p : Port), s.takes p ⟨0x10, [], false⟩ → (s.ports.get p).role = .review →
    (s.planState = .empty ∨ s.planState = .draft ∨ s.planState = .closed ∧ s.lock = false) →
    (s.noCalPull →
      exec (.planNew p []) s
        = .next (State.answered
            { s with
              planState := .draft
              plan :=
                { name := [], tubeLength := 12000, curve := none, openT := 500, closeT := 300
                  supportT := 2000, report := 20, plug := 40, attemptLimit := 3, lease := 600
                  pullLimit := 120, calInterval := 240, detection := .raw .f1d
                  support := .raw .f4a, mixes := [], standard := none }
              lock := false
              rows := []
              tubes := []
              free := 8192
              rescreen := ⟨.idle, 0, 0, false⟩
              cal := s.cal.map (fun u =>
                if u.state = .calibrated
                    ∧ u.lastGood.any (fun g => decide (g + 60 * 240 ≤ s.now)) = true then
                  { u with group := [], state := .checkDue }
                else { u with group := [] }) }
            p 0xF0 []))
    ∧ (¬ s.noCalPull → Refuses (.planNew p []) s p 0x10)

/-- R4, R5, R12: PLAN_OPEN makes a complete DRAFT ACTIVE and answers the tube count, and an incomplete
one is refused with STATE; PLAN_CLOSE makes ACTIVE CLOSED, and a claim, a pull, a job or a pass under
way refuses it with BUSY; PLAN_LOCK sets the lock in ACTIVE, whether it is clear or set. Nothing else
changes. -/
def Obligations.PlanStatesAreMoved : Prop :=
  ∀ (s : State) (p : Port), (s.ports.get p).role = .review →
    let complete : Prop := s.rows ≠ [] ∧ s.plan.curve ≠ none ∧ s.plan.standard ≠ none
      ∧ (s.plan.detection = .m1 → 1 ≤ s.plan.mixes.length)
      ∧ (s.plan.detection = .m2 → 2 ≤ s.plan.mixes.length)
    let quiet : Prop := (∀ tb ∈ s.tubes, tb.claim = none) ∧ s.noPull ∧ s.noJob
      ∧ s.rescreen.phase ≠ .underWay
    (s.planState = .draft → s.takes p ⟨0x19, [], false⟩ →
      (complete → exec (.planOpen p []) s
        = .next (State.answered { s with planState := .active } p 0xF0 (c2 s.tubes.length)))
      ∧ (¬ complete → Refuses (.planOpen p []) s p 0x04))
    ∧ (s.planState = .active → s.takes p ⟨0x1B, [], false⟩ →
      (quiet → exec (.planClose p []) s
        = .next (State.answered { s with planState := .closed } p 0xF0 []))
      ∧ (¬ quiet → Refuses (.planClose p []) s p 0x10))
    ∧ (s.planState = .active → s.takes p ⟨0x1A, [], false⟩ →
      exec (.planLock p []) s = .next (State.answered { s with lock := true } p 0xF0 [1]))

/-- R6, R7: PLAN_SET writes the name and the tube length together, and is refused with RANGE when one
lies outside its range; STANDARD_SET is refused with BUSY while a calibration pull is in flight, then
with RANGE when the descriptor fails one of its four conditions, and otherwise replaces the whole
descriptor. -/
def Obligations.PlanSetAndStandardSetWriteTheRecord : Prop :=
  (∀ (s : State) (p : Port) (name : List Byte) (lo hi : Byte), name.length ≤ 247 →
    let body := BitVec.ofNat 8 name.length :: (name ++ [lo, hi])
    let length := lo.toNat + 256 * hi.toNat
    s.takes p ⟨0x11, body, false⟩ → (s.ports.get p).role = .review → s.planState = .draft →
    let fits : Prop := name.length ≤ 16 ∧ (∀ b ∈ name, 0x20 ≤ b.toNat ∧ b.toNat ≤ 0x7E)
      ∧ 1000 ≤ length ∧ length ≤ 20000
    (fits →
      exec (.planSet p body) s
        = .next (State.answered
            { s with plan := { s.plan with name := name, tubeLength := length } } p 0xF0 []))
    ∧ (¬ fits → Refuses (.planSet p body) s p 0x06))
  ∧ (∀ (s : State) (p : Port) (l0 l1 h0 h1 r0 r1 w : Byte),
    let body := [l0, l1, h0, h1, r0, r1, w]
    let length := l0.toNat + 256 * l1.toNat
    let hole := h0.toNat + 256 * h1.toNat
    let ring := r0.toNat + 256 * r1.toNat
    let half := w.toNat
    s.takes p ⟨0x12, body, false⟩ → (s.ports.get p).role = .review → s.planState = .draft →
    let fits : Prop := 300 ≤ length ∧ length ≤ 2000 ∧ 5 ≤ half ∧ half ≤ 100
      ∧ half ≤ hole ∧ half ≤ ring
      ∧ hole + half + 10 ≤ length ∧ ring + half + 10 ≤ length
      ∧ 2 * half < ((hole : Int) - ring).natAbs
    (¬ s.noCalPull → Refuses (.standardSet p body) s p 0x10)
    ∧ (s.noCalPull → ¬ fits → Refuses (.standardSet p body) s p 0x06)
    ∧ (s.noCalPull → fits →
        exec (.standardSet p body) s
          = .next (State.answered
              { s with plan := { s.plan with standard := some ⟨length, hole, ring, half⟩ } }
              p 0xF0 [])))

/-- R8, R148, R161: CURVE_SET replaces the whole curve when its points number 2 to 8, lie in range,
ascend strictly in phase and do not rise in depth, and is refused with RANGE otherwise. In ACTIVE the
same action starts or restarts the re-screen, ends a step in flight and begins a job in flight again
under the new curve; in DRAFT it does not. That the job begins again (R148), where R8 lets a begun job
keep its curve, is the model's reading (log 30). -/
def Obligations.CurveSetReplacesTheCurve : Prop :=
  ∀ (s : State) (p : Port) (points : List CurvePoint), points.length ≤ 83 →
    (∀ q ∈ points, q.phase < 65536 ∧ q.depth < 256) →
    let body := c1 points.length ++ points.flatMap (fun q => c2 q.phase ++ c1 q.depth)
    s.takes p ⟨0x15, body, false⟩ → (s.ports.get p).role = .review →
    (s.planState = .draft ∨ s.planState = .active ∧ s.lock = false) →
    let fits : Prop := 2 ≤ points.length ∧ points.length ≤ 8
      ∧ (∀ q ∈ points, q.phase ≤ 1799 ∧ q.depth ≤ 100)
      ∧ points.Pairwise (fun a b => a.phase < b.phase ∧ b.depth ≤ a.depth)
    (¬ fits → Refuses (.curveSet p body) s p 0x06)
    ∧ (fits → ∀ a b rest, points = a :: b :: rest →
      (s.planState = .draft →
        exec (.curveSet p body) s
          = .next (State.answered
              { s with plan := { s.plan with curve := some ⟨a, b, rest⟩ } } p 0xF0 []))
      ∧ (s.planState = .active →
        exec (.curveSet p body) s
          = .next (State.answered
              { s with
                plan := { s.plan with curve := some ⟨a, b, rest⟩ }
                rescreen :=
                  { phase := .underWay, cursor := 0
                    restarts :=
                      if s.rescreen.phase = .underWay then min (s.rescreen.restarts + 1) 65535
                      else 0
                    incomplete := false }
                sizing :=
                  { s.sizing with
                    step := none
                    flight := s.sizing.flight.map
                      (fun x => (x.1, ⟨⟨a, b, rest⟩, s.plan.report, s.plan.plug⟩)) } }
              p 0xF0 [])))

/-- R9, R127, R148, R161: LIMITS_SET clamps its nine values in two passes, writes them together and
answers them; it takes the interval expiry that the new interval causes. In DRAFT it does nothing else;
in ACTIVE, unlocked, it also starts or restarts the re-screen, ends a step in flight and begins a job in
flight again under the new thresholds. That the job begins again, where R10 lets begun work keep its
value, is the model's reading (log 30). -/
def Obligations.LimitsSetClampsInTwoPasses : Prop :=
  ∀ (s : State) (p : Port) (x y : Limits),
    (x.openT < 65536 ∧ x.closeT < 65536 ∧ x.supportT < 65536 ∧ x.report < 65536 ∧ x.plug < 65536
      ∧ x.attemptLimit < 65536 ∧ x.lease < 65536 ∧ x.pullLimit < 65536 ∧ x.calInterval < 65536) →
    let body (v : Limits) := c2 v.openT ++ c2 v.closeT ++ c2 v.supportT ++ c2 v.report ++ c2 v.plug
      ++ c2 v.attemptLimit ++ c2 v.lease ++ c2 v.pullLimit ++ c2 v.calInterval
    s.takes p ⟨0x16, body x, false⟩ → (s.ports.get p).role = .review →
    y.openT = min 10000 (max 100 x.openT) → y.supportT = min 20000 (max 500 x.supportT) →
    y.plug = min 100 (max 1 x.plug) → y.attemptLimit = min 5 (max 1 x.attemptLimit) →
    y.lease = min 3600 (max 30 x.lease) → y.pullLimit = min 600 (max 10 x.pullLimit) →
    y.calInterval = min 480 (max 30 x.calInterval) →
    y.closeT = min (y.openT - 1) (max 50 x.closeT) → y.report = min y.plug x.report →
    let plan' : Plan :=
      { s.plan with
        openT := y.openT, closeT := y.closeT, supportT := y.supportT, report := y.report
        plug := y.plug, attemptLimit := y.attemptLimit, lease := y.lease
        pullLimit := y.pullLimit, calInterval := y.calInterval }
    let cal' := s.cal.map (fun u =>
      if u.state = .calibrated
          ∧ u.lastGood.any (fun g => decide (g + 60 * y.calInterval ≤ s.now)) = true then
        { u with state := .checkDue }
      else u)
    (s.planState = .draft →
      exec (.limitsSet p (body x)) s
        = .next (State.answered { s with plan := plan', cal := cal' } p 0xF0 (body y)))
    ∧ (s.planState = .active → s.lock = false → ∀ curve, s.plan.curve = some curve →
      exec (.limitsSet p (body x)) s
        = .next (State.answered
            { s with
              plan := plan'
              cal := cal'
              rescreen :=
                { phase := .underWay, cursor := 0
                  restarts :=
                    if s.rescreen.phase = .underWay then min (s.rescreen.restarts + 1) 65535
                    else 0
                  incomplete := false }
              sizing :=
                { s.sizing with
                  step := none
                  flight := s.sizing.flight.map (fun x => (x.1, ⟨curve, y.report, y.plug⟩)) } }
            p 0xF0 (body y)))

/-- R11, R133: TRACES_SET writes the trace selections and the definitions, and unlearns on every
channel each mix position whose definition is removed, changed or gained; it is refused with BUSY
while a pull or a job (in DRAFT, a calibration pull) stands in the way, then with RANGE when a trace
selection or a definition is none the rule allows or the definitions number more than two, and then in
ACTIVE with STATE when it does not define its detection mix. -/
def Obligations.TracesSetUnlearnsChangedMixes : Prop :=
  (∀ (s : State) (p : Port) (detection support : Trace) (mixes : List MixDef),
    detection ∈ [.raw .f1d, .raw .f2d, .raw .f3d, .raw .f4d, .m1, .m2] →
    support ∈ [.raw .f1a, .raw .f2a, .raw .f3a, .raw .f4a] →
    mixes.length ≤ 2 → (∀ d ∈ mixes, d.primary ≠ d.secondary) →
    let body := c1 detection.code ++ c1 support.code ++ c1 mixes.length
      ++ mixes.flatMap (fun d => c1 (rawCode d.primary) ++ c1 (rawCode d.secondary))
    s.takes p ⟨0x17, body, false⟩ → (s.ports.get p).role = .review →
    (s.planState = .draft ∨ s.planState = .active ∧ s.lock = false) →
    let quiet : Prop := if s.planState = .active then s.noPull ∧ s.noJob else s.noCalPull
    let defined : Prop := (detection = .m1 → 1 ≤ mixes.length) ∧ (detection = .m2 → 2 ≤ mixes.length)
    (¬ quiet → Refuses (.tracesSet p body) s p 0x10)
    ∧ (quiet → s.planState = .active → ¬ defined → Refuses (.tracesSet p body) s p 0x04)
    ∧ (quiet → (s.planState = .active → defined) →
        exec (.tracesSet p body) s
          = .next (State.answered
              { s with
                plan :=
                  { s.plan with detection := detection, support := support, mixes := mixes }
                cal := s.cal.map (fun u =>
                  { u with
                    mix1 := if s.plan.mixes[0]? = mixes[0]? then u.mix1 else none
                    mix2 := if s.plan.mixes[1]? = mixes[1]? then u.mix2 else none }) }
              p 0xF0 [])))
  ∧ ∀ (s : State) (p : Port) (a b : Byte) (pairs : List (Byte × Byte)), pairs.length ≤ 123 →
    let body := [a, b] ++ c1 pairs.length ++ pairs.flatMap (fun x => [x.1, x.2])
    s.takes p ⟨0x17, body, false⟩ → (s.ports.get p).role = .review →
    (s.planState = .draft ∨ s.planState = .active ∧ s.lock = false) →
    let quiet : Prop := if s.planState = .active then s.noPull ∧ s.noJob else s.noCalPull
    let fits : Prop := a.toNat ∈ [0, 2, 4, 6, 8, 9] ∧ b.toNat ∈ [1, 3, 5, 7] ∧ pairs.length ≤ 2
      ∧ ∀ x ∈ pairs, x.1.toNat ≤ 7 ∧ x.2.toNat ≤ 7 ∧ x.1 ≠ x.2
    (¬ quiet → Refuses (.tracesSet p body) s p 0x10)
    ∧ (quiet → ¬ fits → Refuses (.tracesSet p body) s p 0x06)

/-- R13, R15: ROW_ADD checks RANGE, ORDER and FULL in that order, and otherwise appends the row entry
and one new tube record for each column, in ascending column order. -/
def Obligations.RowAddAppendsTheRowAndItsTubes : Prop :=
  ∀ (s : State) (p : Port) (r0 r1 f0 f1 l0 l1 n : Byte),
    let body := [r0, r1, f0, f1, l0, l1, n]
    let row := r0.toNat + 256 * r1.toNat
    let first := f0.toNat + 256 * f1.toNat
    let last := l0.toNat + 256 * l1.toNat
    s.takes p ⟨0x13, body, false⟩ → (s.ports.get p).role = .review → s.planState = .draft →
    let inRange : Prop := 1 ≤ row ∧ row ≤ 256 ∧ 1 ≤ first ∧ first ≤ 256 ∧ 1 ≤ last ∧ last ≤ 256
      ∧ first ≤ last ∧ n.toNat ≤ 40
    let ascends : Prop := ∀ r, s.rows.getLast? = some r → r.row < row
    let count := s.tubes.length + (last - first + 1)
    (¬ inRange → Refuses (.rowAdd p body) s p 0x06)
    ∧ (inRange → ¬ ascends → Refuses (.rowAdd p body) s p 0x07)
    ∧ (inRange → ascends → 32768 < count → Refuses (.rowAdd p body) s p 0x08)
    ∧ (inRange → ascends → count ≤ 32768 →
        exec (.rowAdd p body) s
          = .next (State.answered
              { s with
                rows := s.rows ++ [⟨row, first, last, n.toNat, s.tubes.length⟩]
                tubes := s.tubes ++ (List.range (last - first + 1)).map (fun k =>
                  { row := row, col := first + k, status := .pending, attempts := 0, claim := none
                    worst := none, list := [], truncated := false, suspect := false
                    lastPull := none }) }
              p 0xF0 (c2 s.tubes.length ++ c2 count)))

/-- R17: TUBE_MARK in DRAFT, with its refusals in their order; a mark changes the status alone. -/
def Obligations.TubeMarkSetsTheStatus : Prop :=
  ∀ (s : State) (p : Port) (r0 r1 k0 k1 m : Byte),
    let body := [r0, r1, k0, k1, m]
    let place : Place := ⟨r0.toNat + 256 * r1.toNat, k0.toNat + 256 * k1.toNat⟩
    s.takes p ⟨0x14, body, false⟩ → (s.ports.get p).role = .review → s.planState = .draft →
    (2 < m.toNat → Refuses (.tubeMark p body) s p 0x06)
    ∧ (m.toNat ≤ 2 → s.tubeAt place = none → Refuses (.tubeMark p body) s p 0x09)
    ∧ (∀ i tb, s.tubeAt place = some (i, tb) →
        (m.toNat = 2 → tb.status = .pending ∨ tb.status = .outOfScope →
          Refuses (.tubeMark p body) s p 0x0A)
        ∧ (∀ st, m.toNat = 0 ∧ st = .noTube ∨ m.toNat = 1 ∧ st = .priorPlug
            ∨ m.toNat = 2 ∧ (tb.status = .noTube ∨ tb.status = .priorPlug) ∧ st = .pending →
          exec (.tubeMark p body) s
            = .next (State.answered
                { s with tubes := s.tubes.set i { tb with status := st } }
                p 0xF0 (c1 tb.status.code ++ c1 st.code))))

/-- R18: SCOPE_SET moves, over its rectangle, PENDING tubes without a claim out of scope or
OUT_OF_SCOPE tubes in, leaves every other tube as it was, and answers how many changed and how many
were skipped. -/
def Obligations.ScopeSetMovesARectangle : Prop :=
  ∀ (s : State) (p : Port) (a0 a1 b0 b1 d0 d1 e0 e1 dir : Byte),
    let body := [a0, a1, b0, b1, d0, d1, e0, e1, dir]
    let firstRow := a0.toNat + 256 * a1.toNat
    let lastRow := b0.toNat + 256 * b1.toNat
    let firstCol := d0.toNat + 256 * d1.toNat
    let lastCol := e0.toNat + 256 * e1.toNat
    s.takes p ⟨0x18, body, false⟩ → (s.ports.get p).role = .review →
    (s.planState = .draft ∨ s.planState = .active ∧ s.lock = false) →
    let fits : Prop := 1 ≤ firstRow ∧ firstRow ≤ lastRow ∧ lastRow ≤ 256
      ∧ 1 ≤ firstCol ∧ firstCol ≤ lastCol ∧ lastCol ≤ 256 ∧ dir.toNat ≤ 1
    let inside (tb : Tube) : Bool := decide (firstRow ≤ tb.row ∧ tb.row ≤ lastRow
      ∧ firstCol ≤ tb.col ∧ tb.col ≤ lastCol)
    let moved (tb : Tube) : Bool :=
      if dir.toNat = 1 then decide (tb.status = .pending ∧ tb.claim = none)
      else decide (tb.status = .outOfScope)
    (¬ fits → Refuses (.scopeSet p body) s p 0x06)
    ∧ (fits →
        exec (.scopeSet p body) s
          = .next (State.answered
              { s with
                tubes := s.tubes.map (fun tb =>
                  if inside tb && moved tb then
                    { tb with status := if dir.toNat = 1 then .outOfScope else .pending }
                  else tb) }
              p 0xF0
              (c2 (s.tubes.countP (fun tb => inside tb && moved tb))
                ++ c2 (s.tubes.countP (fun tb => inside tb && !moved tb)))))

/-- R19: TUBE_REPULL makes a done tube REPULL with attempts 0 and changes nothing else, locked or
not; a place that names no tube and a tube that is not done are refused. -/
def Obligations.TubeRepullSendsADoneTubeBack : Prop :=
  ∀ (s : State) (p : Port) (r0 r1 k0 k1 : Byte),
    let body := [r0, r1, k0, k1]
    let place : Place := ⟨r0.toNat + 256 * r1.toNat, k0.toNat + 256 * k1.toNat⟩
    s.takes p ⟨0x1C, body, false⟩ → (s.ports.get p).role = .review → s.planState = .active →
    (s.tubeAt place = none → Refuses (.tubeRepull p body) s p 0x09)
    ∧ (∀ i tb, s.tubeAt place = some (i, tb) →
        let done : Prop := tb.status = .clear ∨ tb.status = .reportable ∨ tb.status = .plug
          ∨ ∃ why, tb.status = .unresolved why
        (¬ done → Refuses (.tubeRepull p body) s p 0x0A)
        ∧ (done →
          exec (.tubeRepull p body) s
            = .next (State.answered
                { s with tubes := s.tubes.set i { tb with status := .repull, attempts := 0 } }
                p 0xF0 (c1 tb.status.code))))

/-- R13, R14: every step keeps the layout of rows and tubes, and in a laid-out map a row and column
name exactly the tube record that holds them. -/
def Obligations.RowAndColumnNameOneTube : Prop :=
  Kept RowLaw ∧ ∀ (s : State) (pl : Place) (i : Nat) (tb : Tube), RowLaw s →
    (s.tubeAt pl = some (i, tb) ↔ s.tubes[i]? = some tb ∧ tb.row = pl.row ∧ tb.col = pl.col)

/-! ## Claims -/

/-- R33, R35: CLAIM makes its seven checks in order; when all pass it grants: the slot and the tube's
claim field are written together, and nothing else changes. -/
def Obligations.ClaimGrantsAnOpenTube : Prop :=
  ∀ (s : State) (p : Port) (tag r0 r1 k0 k1 : Byte),
    let body := [tag, r0, r1, k0, k1]
    let place : Place := ⟨r0.toNat + 256 * r1.toNat, k0.toNat + 256 * k1.toNat⟩
    s.takes p ⟨0x20, body, false⟩ → (s.ports.get p).role ≠ .none →
    (s.planState ≠ .active → Refuses (.claim p body) s p 0x04)
    ∧ (s.planState = .active → (s.ports.get p).role ≠ .crew → Refuses (.claim p body) s p 0x03)
    ∧ (s.planState = .active → (s.ports.get p).role = .crew → 3 < tag.toNat →
        Refuses (.claim p body) s p 0x06)
    ∧ (s.planState = .active → (s.ports.get p).role = .crew → ∀ t : Tag, tag.toNat = t.val →
        (s.slot p t ≠ none → Refuses (.claim p body) s p 0x0C)
        ∧ (s.slot p t = none → s.tubeAt place = none → Refuses (.claim p body) s p 0x09)
        ∧ (s.slot p t = none → ∀ i tb, s.tubeAt place = some (i, tb) →
            (tb.status ≠ .pending → tb.status ≠ .repull → Refuses (.claim p body) s p 0x0A)
            ∧ (tb.status = .pending ∨ tb.status = .repull →
                (tb.claim ≠ none → Refuses (.claim p body) s p 0x0B)
                ∧ (tb.claim = none → exec (.claim p body) s = .next (Granted s p t i tb)))))

/-- R34, R35: CLAIM_NEXT grants the lowest REPULL candidate of its rectangle, or else the lowest
PENDING one, and is refused with NONE_LEFT when there is neither; before that it is refused with STATE
outside ACTIVE, with ROLE to a station that is not CREW, with RANGE for a tag or a rectangle out of
range, and with TAG_BUSY when the slot of the tag holds a claim, in that order. -/
def Obligations.ClaimNextGrantsTheLowestCandidate : Prop :=
  (∀ (s : State) (p : Port) (tag a0 a1 b0 b1 d0 d1 e0 e1 : Byte) (t : Tag),
    let body := [tag, a0, a1, b0, b1, d0, d1, e0, e1]
    let r : Rect := ⟨a0.toNat + 256 * a1.toNat, b0.toNat + 256 * b1.toNat,
      d0.toNat + 256 * d1.toNat, e0.toNat + 256 * e1.toNat⟩
    s.takes p ⟨0x21, body, false⟩ → (s.ports.get p).role = .crew → s.planState = .active →
    tag.toNat = t.val → s.slot p t = none →
    1 ≤ r.firstRow → r.firstRow ≤ r.lastRow → r.lastRow ≤ 256 →
    1 ≤ r.firstCol → r.firstCol ≤ r.lastCol → r.lastCol ≤ 256 →
    (∀ i tb, s.tubes[i]? = some tb →
      (Candidate s r .repull i ∧ (∀ j, j < i → ¬ Candidate s r .repull j)
        ∨ (∀ j, ¬ Candidate s r .repull j) ∧ Candidate s r .pending i
          ∧ ∀ j, j < i → ¬ Candidate s r .pending j) →
      exec (.claimNext p body) s = .next (Granted s p t i tb))
    ∧ ((∀ j, ¬ Candidate s r .repull j ∧ ¬ Candidate s r .pending j) →
        Refuses (.claimNext p body) s p 0x0F))
  ∧ ∀ (s : State) (p : Port) (tag a0 a1 b0 b1 d0 d1 e0 e1 : Byte),
    let body := [tag, a0, a1, b0, b1, d0, d1, e0, e1]
    let firstRow := a0.toNat + 256 * a1.toNat
    let lastRow := b0.toNat + 256 * b1.toNat
    let firstCol := d0.toNat + 256 * d1.toNat
    let lastCol := e0.toNat + 256 * e1.toNat
    let fits : Prop := tag.toNat ≤ 3 ∧ 1 ≤ firstRow ∧ firstRow ≤ lastRow ∧ lastRow ≤ 256
      ∧ 1 ≤ firstCol ∧ firstCol ≤ lastCol ∧ lastCol ≤ 256
    s.takes p ⟨0x21, body, false⟩ → (s.ports.get p).role ≠ .none →
    (s.planState ≠ .active → Refuses (.claimNext p body) s p 0x04)
    ∧ (s.planState = .active → (s.ports.get p).role ≠ .crew → Refuses (.claimNext p body) s p 0x03)
    ∧ (s.planState = .active → (s.ports.get p).role = .crew → ¬ fits →
        Refuses (.claimNext p body) s p 0x06)
    ∧ (s.planState = .active → (s.ports.get p).role = .crew → fits → ∀ t : Tag,
        tag.toNat = t.val → s.slot p t ≠ none → Refuses (.claimNext p body) s p 0x0C)

/-- R42, R43, R45: RELEASE empties the station's slot and removes the tube's claim field, with no
notice; TUBE_RELEASE takes a claimed tube back in the same way and adds the tag to the CLAIM_REVOKED
notice of the claim's port (not for a departed station's claim). Their refusals in their order. That
a departed station's claim stands in the port's slot for RELEASE is log 8. -/
def Obligations.ReleasesEndTheClaim : Prop :=
  (∀ (s : State) (p : Port) (tag : Byte), s.takes p ⟨0x22, [tag], false⟩ →
    (s.ports.get p).role ≠ .none →
    ((s.ports.get p).role ≠ .crew → Refuses (.release p [tag]) s p 0x03)
    ∧ ((s.ports.get p).role = .crew → 3 < tag.toNat → Refuses (.release p [tag]) s p 0x06)
    ∧ ((s.ports.get p).role = .crew → ∀ t : Tag, tag.toNat = t.val →
        (s.slot p t = none → Refuses (.release p [tag]) s p 0x0D)
        ∧ (∀ i d, s.slot p t = some ⟨i, .inPull, d⟩ → Refuses (.release p [tag]) s p 0x0E)
        ∧ (∀ i deadline d tb, s.slot p t = some ⟨i, .leased deadline, d⟩ →
            s.tubes[i]? = some tb →
            exec (.release p [tag]) s
              = .next (State.answered
                  { s with
                    claims := s.claims.set p ((s.claims.get p).set t none)
                    tubes := s.tubes.set i { tb with claim := none } }
                  p 0xF0 (c2 tb.row ++ c2 tb.col)))))
  ∧ (∀ (s : State) (p : Port) (r0 r1 k0 k1 : Byte),
    let body := [r0, r1, k0, k1]
    let place : Place := ⟨r0.toNat + 256 * r1.toNat, k0.toNat + 256 * k1.toNat⟩
    s.takes p ⟨0x23, body, false⟩ → (s.ports.get p).role ≠ .none →
    ((s.ports.get p).role ≠ .review → Refuses (.tubeRelease p body) s p 0x03)
    ∧ ((s.ports.get p).role = .review →
        (s.tubeAt place = none → Refuses (.tubeRelease p body) s p 0x09)
        ∧ (∀ i tb, s.tubeAt place = some (i, tb) →
            (tb.claim = none → Refuses (.tubeRelease p body) s p 0x0D)
            ∧ (∀ q t, tb.claim = some ⟨q, t, true⟩ → Refuses (.tubeRelease p body) s p 0x0E)
            ∧ (∀ q t deadline departed, tb.claim = some ⟨q, t, false⟩ →
                s.slot q t = some ⟨i, .leased deadline, departed⟩ →
                exec (.tubeRelease p body) s
                  = .next (State.answered
                      { s with
                        claims := s.claims.set q ((s.claims.get q).set t none)
                        tubes := s.tubes.set i { tb with claim := none }
                        ports :=
                          if departed then s.ports
                          else s.ports.set q
                            { s.ports.get q with
                              notices :=
                                { (s.ports.get q).notices with
                                  claimRevoked :=
                                    (s.ports.get q).notices.claimRevoked.set t true } } }
                      p 0xF0 (c1 q.val ++ c1 t.val))))))

/-- R37, R45: once the count has reached the deadline of a claim that is not in pull, the expiry
empties the slot, removes the claim field and adds the tag to CLAIM_EXPIRED of the port (not for a
departed station's claim); the tube is otherwise as it was. A claim in pull does not expire, and
before the deadline nothing happens (logs 2 and 6). That a claim keeps its departed mark after a pull of
the port's new station is log 32. -/
def Obligations.LeaseExpiryEndsTheClaim : Prop :=
  ∀ (s : State) (p : Port) (t : Tag) (i : Nat) (departed : Bool),
    (∀ deadline tb, s.slot p t = some ⟨i, .leased deadline, departed⟩ → s.tubes[i]? = some tb →
      deadline ≤ s.now →
      exec (.leaseExpiry p t) s
        = .next { s with
            claims := s.claims.set p ((s.claims.get p).set t none)
            tubes := s.tubes.set i { tb with claim := none }
            ports :=
              if departed then s.ports
              else s.ports.set p
                { s.ports.get p with
                  notices :=
                    { (s.ports.get p).notices with
                      claimExpired := (s.ports.get p).notices.claimExpired.set t true } } })
    ∧ (∀ deadline, s.slot p t = some ⟨i, .leased deadline, departed⟩ → s.now < deadline →
        exec (.leaseExpiry p t) s = .next s)
    ∧ (s.slot p t = some ⟨i, .inPull, departed⟩ → exec (.leaseExpiry p t) s = .next s)

/-! ## Probe channels -/

/-- A Calibration Unit without its calibration; its epoch, group and capture stay (R122, R132,
R133). -/
def Uncalibrated (u : CalUnit) : CalUnit :=
  { u with
    state := .uncalibrated, slots := none, gains := noGains, mix1 := none, mix2 := none
    lastGood := none, checkFaults := 0 }

/-- The settle time of R54 for slots whose largest divider is `low`. -/
def SettleOf (slots : Quad (Option Nat)) (low : Nat) : Prop :=
  (∃ i, slots.get i = some low) ∧ ∀ i d, slots.get i = some d → d ≤ low

/-- R51, R54: BIND writes the binding and the port's set, starts the excitation with the present slots
and enters SETTLING for 256 periods of the lowest active frequency; its refusals in their order. -/
def Obligations.BindStartsTheSettle : Prop :=
  ∀ (s : State) (p : Port) (b : Byte), s.takes p ⟨0x30, [b], false⟩ →
    (s.ports.get p).role ≠ .none →
    ((s.ports.get p).role ≠ .crew → Refuses (.bind p [b]) s p 0x03)
    ∧ ((s.ports.get p).role = .crew → 3 < b.toNat → Refuses (.bind p [b]) s p 0x06)
    ∧ ((s.ports.get p).role = .crew → ∀ c : Chan, b.toNat = c.val →
        ((s.chan.get c).binding ≠ none → Refuses (.bind p [b]) s p 0x10)
        ∧ ((s.chan.get c).binding = none → 2 ≤ (s.ports.get p).bound.card →
            Refuses (.bind p [b]) s p 0x08)
        ∧ ((s.chan.get c).binding = none → (s.ports.get p).bound.card < 2 →
            ∀ low, SettleOf (s.chan.get c).slots low →
            exec (.bind p [b]) s
              = .next (State.answered
                  { s with
                    ports := s.ports.set p
                      { s.ports.get p with bound := (s.ports.get p).bound.set c true }
                    chan := s.chan.set c
                      { s.chan.get c with
                        binding := some p, excited := true, state := .settling
                        settle := some (256 * (low + 1)) } }
                  p 0xF0
                  (c1 c.val ++ (s.chan.get c).slots.toList.flatMap o2 ++ c4 (256 * (low + 1))))))

/-- R52 to R54, R133: UNBIND of a SETTLING or READY channel with an empty group stops the excitation,
removes the binding and the calibration, and keeps the slots; FREQ_SET writes all four slots, starts a
new settle and removes the calibration. Their refusals in their order; a channel or divider out of
range, two slots alike and no slot on are refused with RANGE. FFFFh is an off slot (R188). -/
def Obligations.UnbindAndFreqSetDropTheCalibration : Prop :=
  (∀ (s : State) (p : Port) (b : Byte), s.takes p ⟨0x31, [b], false⟩ →
    (s.ports.get p).role ≠ .none →
    ((s.ports.get p).role ≠ .crew → Refuses (.unbind p [b]) s p 0x03)
    ∧ ((s.ports.get p).role = .crew → 3 < b.toNat → Refuses (.unbind p [b]) s p 0x06)
    ∧ ((s.ports.get p).role = .crew → ∀ c : Chan, b.toNat = c.val →
        (s.holdsChan p c = false → Refuses (.unbind p [b]) s p 0x11)
        ∧ (s.holdsChan p c = true →
            ((s.chan.get c).state = .pulling ∨ (s.chan.get c).state = .sizing →
              Refuses (.unbind p [b]) s p 0x10)
            ∧ ((s.chan.get c).state = .held → Refuses (.unbind p [b]) s p 0x15)
            ∧ ((s.chan.get c).state = .settling ∨ (s.chan.get c).state = .ready →
                ((s.cal.get c).group ≠ [] → Refuses (.unbind p [b]) s p 0x16)
                ∧ ((s.cal.get c).group = [] → (s.chan.get c).binding = some p →
                    exec (.unbind p [b]) s
                      = .next (State.answered
                          { s with
                            ports := s.ports.set p
                              { s.ports.get p with bound := (s.ports.get p).bound.set c false }
                            chan := s.chan.set c
                              { s.chan.get c with
                                binding := none, state := .unbound, kind := none
                                excited := false, settle := none, probeOpen := false
                                waiting := [], passed := false }
                            cal := s.cal.set c (Uncalibrated (s.cal.get c)) }
                          p 0xF0 [b]))))))
  ∧ (∀ (s : State) (p : Port) (b : Byte) (slots : Quad (Option Nat)),
    (∀ i d, slots.get i = some d → d < 65535) →
    let body := b :: slots.toList.flatMap o2
    s.takes p ⟨0x32, body, false⟩ → (s.ports.get p).role ≠ .none →
    let fits : Prop := b.toNat ≤ 3 ∧ (∀ i d, slots.get i = some d → d ≤ 999)
      ∧ (∀ i j d, slots.get i = some d → slots.get j = some d → i = j) ∧ (∃ i, slots.get i ≠ none)
    ((s.ports.get p).role ≠ .crew → Refuses (.freqSet p body) s p 0x03)
    ∧ ((s.ports.get p).role = .crew → ¬ fits → Refuses (.freqSet p body) s p 0x06)
    ∧ ((s.ports.get p).role = .crew → fits → ∀ c : Chan, b.toNat = c.val →
        (s.holdsChan p c = false → Refuses (.freqSet p body) s p 0x11)
        ∧ (s.holdsChan p c = true →
            ((s.chan.get c).state = .pulling ∨ (s.chan.get c).state = .sizing →
              Refuses (.freqSet p body) s p 0x10)
            ∧ ((s.chan.get c).state = .held → Refuses (.freqSet p body) s p 0x15)
            ∧ ((s.chan.get c).state = .settling ∨ (s.chan.get c).state = .ready →
                ((s.cal.get c).group ≠ [] → Refuses (.freqSet p body) s p 0x16)
                ∧ ((s.cal.get c).group = [] → ∀ low, SettleOf slots low →
                    exec (.freqSet p body) s
                      = .next (State.answered
                          { s with
                            chan := s.chan.set c
                              { s.chan.get c with
                                slots := slots, excited := true, state := .settling
                                settle := some (256 * (low + 1)) }
                            cal := s.cal.set c (Uncalibrated (s.cal.get c)) }
                          p 0xF0 (slots.toList.flatMap o2 ++ c4 (256 * (low + 1)))))))))

/-- R54, R63: the settle completion makes a SETTLING channel READY and stops its timer, and is no
event in another state; a coil event in SETTLING, READY, SIZING or HELD changes the probe-open
condition alone, and in UNBOUND nothing; COIL_RESTORED clears it in PULLING too. That these events are
none outside the states that have them, and then change nothing, is the model's choice (log 2). -/
def Obligations.SettleAndCoilEvents : Prop :=
  ∀ (s : State) (c : Chan),
    ((s.chan.get c).state = .settling → (s.chan.get c).settle ≠ none →
      exec (.settleCompletion c) s
        = .next { s with
            chan := s.chan.set c { s.chan.get c with state := .ready, settle := none } })
    ∧ ((s.chan.get c).state ≠ .settling → exec (.settleCompletion c) s = .next s)
    ∧ ((s.chan.get c).state ≠ .unbound → (s.chan.get c).state ≠ .pulling →
        exec (.coilOpen c) s
          = .next { s with chan := s.chan.set c { s.chan.get c with probeOpen := true } })
    ∧ ((s.chan.get c).state ≠ .unbound →
        exec (.coilRestored c) s
          = .next { s with chan := s.chan.set c { s.chan.get c with probeOpen := false } })
    ∧ ((s.chan.get c).state = .unbound →
        exec (.coilOpen c) s = .next s ∧ exec (.coilRestored c) s = .next s)

/-- R57, R58, R62: an encoder step moves the position of a PULLING channel by 1; toward the near end
it lowers the lowest position with it, and a multiple of 10 below the last due position, not below 0,
becomes due and waits; toward the far end, more than 1,000 counts above the lowest position, it makes
the reverse report. In every other state it changes nothing. -/
def Obligations.EncoderStepsMoveThePosition : Prop :=
  ∀ (s : State) (c : Chan) (dir : EncoderDir),
    ((s.chan.get c).state ≠ .pulling → exec (.encoderStep c dir) s = .next s)
    ∧ ((s.chan.get c).state = .pulling →
        let ch := s.chan.get c
        (∀ x, x = ch.position - 1 → 0 ≤ x → x % 10 = 0 → x < ch.lastDue →
          exec (.encoderStep c .near) s
            = .next { s with
                chan := s.chan.set c
                  { ch with
                    position := x, lowest := min ch.lowest x, lastDue := x
                    waiting := ch.waiting ++ [x] } })
        ∧ (∀ x, x = ch.position - 1 → (x < 0 ∨ x % 10 ≠ 0 ∨ ch.lastDue ≤ x) →
          exec (.encoderStep c .near) s
            = .next { s with
                chan := s.chan.set c { ch with position := x, lowest := min ch.lowest x } })
        ∧ (∀ x, x = ch.position + 1 → x ≤ ch.lowest + 1000 →
          exec (.encoderStep c .far) s
            = .next { s with chan := s.chan.set c { ch with position := x } })
        ∧ (∀ x, x = ch.position + 1 → ch.lowest + 1000 < x →
          exec (.encoderStep c .far) s
            = .next { s with
                chan := s.chan.set c { ch with position := x, reverseReported := true } }))

/-! ## Pulls -/

/-- The channel items a start presets to a length in millimetres (R57). -/
def Preset (ch : Channel) (kind : PullKind) (mm : Nat) : Channel :=
  { ch with
    state := .pulling, kind := some kind, position := 20 * mm, lowest := 20 * mm
    lastDue := 20 * mm, waiting := [], thin := 0, reverseReported := false }

/-- A Pull Controller with a pull record and every working item at its starting value (R67). -/
def Started (rec : PullRecord) : PullCtl :=
  { record := some rec, samples := 0, null := .absent, armed := true, supports := 0
    supportAt := [], detector := .armed, buffer := [], found := 0, latch := [], result := none }

/-- R69: the eleven checks of PULL_START in their order, the last of them for a raw detection trace and
for a mix; a mix that is not learned, or of which a trace belongs to a slot that is off, is NO_MIX. -/
def Obligations.PullStartChecksInOrder : Prop :=
  ∀ (s : State) (p : Port) (a b : Byte), s.takes p ⟨0x34, [a, b], false⟩ →
    (s.ports.get p).role ≠ .none →
    ((s.ports.get p).role ≠ .crew → Refuses (.pullStart p [a, b]) s p 0x03)
    ∧ ((s.ports.get p).role = .crew → 3 < a.toNat ∨ 3 < b.toNat →
        Refuses (.pullStart p [a, b]) s p 0x06)
    ∧ ((s.ports.get p).role = .crew → ∀ (t : Tag) (c : Chan), a.toNat = t.val → b.toNat = c.val →
        let ch := s.chan.get c
        let u := s.cal.get c
        (s.holdsChan p c = false → Refuses (.pullStart p [a, b]) s p 0x11)
        ∧ (s.holdsChan p c = true →
            (ch.state = .settling → Refuses (.pullStart p [a, b]) s p 0x12)
            ∧ (ch.state = .pulling ∨ ch.state = .sizing → Refuses (.pullStart p [a, b]) s p 0x10)
            ∧ (ch.state = .held → Refuses (.pullStart p [a, b]) s p 0x15)
            ∧ (ch.state = .ready →
                (ch.probeOpen = true → Refuses (.pullStart p [a, b]) s p 0x18)
                ∧ (ch.probeOpen = false →
                    (u.state = .uncalibrated
                      ∨ (∃ r, s.plan.detection = .raw r ∧ ch.slots.get r.slot = none)
                      ∨ (∃ r, s.plan.support = .raw r ∧ ch.slots.get r.slot = none) →
                      Refuses (.pullStart p [a, b]) s p 0x13)
                    ∧ (u.state = .checkDue →
                        (∀ r, s.plan.detection = .raw r → ch.slots.get r.slot ≠ none) →
                        (∀ r, s.plan.support = .raw r → ch.slots.get r.slot ≠ none) →
                        Refuses (.pullStart p [a, b]) s p 0x14)
                    ∧ (u.state = .calibrated →
                        (∀ r, s.plan.support = .raw r → ch.slots.get r.slot ≠ none) →
                        (s.plan.detection = .m1 ∧ u.mix1 = none
                          ∨ s.plan.detection = .m2 ∧ u.mix2 = none
                          ∨ (∃ m, (s.plan.detection = .m1 ∧ s.plan.mixes[0]? = some m
                              ∨ s.plan.detection = .m2 ∧ s.plan.mixes[1]? = some m)
                            ∧ (ch.slots.get m.primary.slot = none
                              ∨ ch.slots.get m.secondary.slot = none)) →
                          Refuses (.pullStart p [a, b]) s p 0x17)
                        ∧ ((∃ r, s.plan.detection = .raw r ∧ ch.slots.get r.slot ≠ none)
                          ∨ (∃ m, (s.plan.detection = .m1 ∧ s.plan.mixes[0]? = some m ∧ u.mix1 ≠ none
                              ∨ s.plan.detection = .m2 ∧ s.plan.mixes[1]? = some m ∧ u.mix2 ≠ none)
                            ∧ ch.slots.get m.primary.slot ≠ none
                            ∧ ch.slots.get m.secondary.slot ≠ none) →
                          (s.slot p t = none ∨ ∃ i d, s.slot p t = some ⟨i, .inPull, d⟩) →
                          Refuses (.pullStart p [a, b]) s p 0x0D))))))

/-- R38, R70: an accepted PULL_START marks the claim in pull in its slot and in the tube's claim
field, presets the channel from the tube length, fills the pull record from the plan, the station and
the epoch, and sets every working item; nothing else changes. That a departed station's claim stands in
the port's slot is log 8; that it keeps its departed mark in the pull is log 32. -/
def Obligations.PullStartBeginsAPull : Prop :=
  ∀ (s : State) (p : Port) (a b : Byte) (t : Tag) (c : Chan) (i deadline : Nat) (d : Bool)
    (tb : Tube) (policy : Policy) (mix : Option MixDef),
    s.takes p ⟨0x34, [a, b], false⟩ → (s.ports.get p).role = .crew →
    (s.ports.get p).policy = some policy →
    a.toNat = t.val → b.toNat = c.val → s.holdsChan p c = true → (s.chan.get c).state = .ready →
    (s.chan.get c).probeOpen = false → (s.cal.get c).state = .calibrated →
    (∀ r, s.plan.support = .raw r → (s.chan.get c).slots.get r.slot ≠ none) →
    ((∃ r, s.plan.detection = .raw r ∧ (s.chan.get c).slots.get r.slot ≠ none ∧ mix = none)
      ∨ (∃ m, s.plan.detection = .m1 ∧ s.plan.mixes[0]? = some m ∧ (s.cal.get c).mix1 ≠ none
          ∧ (s.chan.get c).slots.get m.primary.slot ≠ none
          ∧ (s.chan.get c).slots.get m.secondary.slot ≠ none ∧ mix = some m)
      ∨ (∃ m, s.plan.detection = .m2 ∧ s.plan.mixes[1]? = some m ∧ (s.cal.get c).mix2 ≠ none
          ∧ (s.chan.get c).slots.get m.primary.slot ≠ none
          ∧ (s.chan.get c).slots.get m.secondary.slot ≠ none ∧ mix = some m)) →
    s.slot p t = some ⟨i, .leased deadline, d⟩ → s.tubes[i]? = some tb →
    exec (.pullStart p [a, b]) s
      = .next (State.answered
          { s with
            claims := s.claims.set p ((s.claims.get p).set t (some ⟨i, .inPull, d⟩))
            tubes := s.tubes.set i { tb with claim := some ⟨p, t, true⟩ }
            chan := s.chan.set c (Preset (s.chan.get c) .tube s.plan.tubeLength)
            pull := s.pull.set c (Started
              { kind := .tube, port := p, epoch := (s.cal.get c).epoch
                deadline := s.now + s.plan.pullLimit
                tube := some
                  { tag := t, index := i, row := tb.row, col := tb.col, policy := policy
                    openT := s.plan.openT, closeT := s.plan.closeT
                    supportT := s.plan.supportT, detection := s.plan.detection
                    support := s.plan.support, mix := mix } }) }
          p 0xF0
          ([b, a] ++ c2 tb.row ++ c2 tb.col ++ c1 tb.status.code ++ c1 tb.attempts
            ++ c2 (s.cal.get c).epoch.toNat ++ c2 s.plan.pullLimit))

/-- R116, R117: CAL_START makes its ten checks in their order; accepted, it presets the channel from the
standard, fills the pull record and starts the capture with the descriptor and, for FULL, the mix
definitions; the calibration itself and the group stay. That the kind character of the reply is the one
of the request is the model's reading (log 15). -/
def Obligations.CalStartBeginsACalibrationPull : Prop :=
  (∀ (s : State) (p : Port) (b k : Byte), s.takes p ⟨0x33, [b, k], false⟩ →
    (s.ports.get p).role ≠ .none →
    ((s.ports.get p).role ≠ .crew → Refuses (.calStart p [b, k]) s p 0x03)
    ∧ ((s.ports.get p).role = .crew → 3 < b.toNat ∨ 1 < k.toNat →
        Refuses (.calStart p [b, k]) s p 0x06)
    ∧ ((s.ports.get p).role = .crew → ∀ c : Chan, b.toNat = c.val → k.toNat ≤ 1 →
        let ch := s.chan.get c
        (s.holdsChan p c = false → Refuses (.calStart p [b, k]) s p 0x11)
        ∧ (s.holdsChan p c = true →
            (ch.state = .settling → Refuses (.calStart p [b, k]) s p 0x12)
            ∧ (ch.state = .pulling ∨ ch.state = .sizing → Refuses (.calStart p [b, k]) s p 0x10)
            ∧ (ch.state = .held → Refuses (.calStart p [b, k]) s p 0x15)
            ∧ (ch.state = .ready → ch.probeOpen = true →
                Refuses (.calStart p [b, k]) s p 0x18))))
  ∧ ∀ (s : State) (p : Port) (b k : Byte) (c : Chan) (kind : PullKind),
    s.takes p ⟨0x33, [b, k], false⟩ → (s.ports.get p).role = .crew → b.toNat = c.val →
    (k.toNat = 0 ∧ kind = .calFull ∨ k.toNat = 1 ∧ kind = .calCheck) →
    s.holdsChan p c = true → (s.chan.get c).state = .ready → (s.chan.get c).probeOpen = false →
    (s.plan.standard = none → Refuses (.calStart p [b, k]) s p 0x04)
    ∧ (∀ sd, s.plan.standard = some sd →
        (kind = .calFull → (s.cal.get c).group ≠ [] → Refuses (.calStart p [b, k]) s p 0x16)
        ∧ (kind = .calCheck → (s.cal.get c).state = .uncalibrated →
            Refuses (.calStart p [b, k]) s p 0x13)
        ∧ ((kind = .calFull → (s.cal.get c).group = []) →
            (kind = .calCheck → (s.cal.get c).state ≠ .uncalibrated) →
            exec (.calStart p [b, k]) s
              = .next (State.answered
                  { s with
                    chan := s.chan.set c (Preset (s.chan.get c) kind sd.length)
                    pull := s.pull.set c (Started
                      { kind := kind, port := p, epoch := (s.cal.get c).epoch
                        deadline := s.now + s.plan.pullLimit, tube := none })
                    cal := s.cal.set c
                      { s.cal.get c with
                        capture :=
                          { standard := some sd
                            mixes := if kind = .calFull then s.plan.mixes else []
                            nulls := [], hole := [], ring := [] } } }
                  p 0xF0
                  ([b, k] ++ c2 (s.cal.get c).epoch.toNat ++ c2 sd.length
                    ++ c2 (2 * (sd.hole - sd.half)) ++ c2 (2 * (sd.hole + sd.half))
                    ++ c2 (2 * (sd.ring - sd.half)) ++ c2 (2 * (sd.ring + sd.half))
                    ++ c2 s.plan.pullLimit))))

/-- What discards an open window and the buffer of a Pull Controller (R79, R83, R85); the detector of
a discarded window is ARMED (log 17). -/
def Discarded (k : PullCtl) (latch : List PullFault) (result : Option Result) : PullCtl :=
  { k with
    detector := if k.detector = .blocked then .blocked else .armed
    buffer := [], latch := latch, result := result }

/-- R40, R85, R89: PULL_ABORT of a tube pull keeps the claim with a new full lease and leaves the tube
otherwise as it was; of a calibration pull it empties the capture; either way the channel is READY
with no result. It is refused with ROLE, RANGE or NOT_BOUND in that order, and outside PULLING with STATE
or ENDED. That a claim marked departed keeps its mark is log 32. -/
def Obligations.PullAbortKeepsTheClaim : Prop :=
  (∀ (s : State) (p : Port) (b : Byte), s.takes p ⟨0x36, [b], false⟩ →
    (s.ports.get p).role ≠ .none →
    ((s.ports.get p).role ≠ .crew → Refuses (.pullAbort p [b]) s p 0x03)
    ∧ ((s.ports.get p).role = .crew → 3 < b.toNat → Refuses (.pullAbort p [b]) s p 0x06)
    ∧ ((s.ports.get p).role = .crew → ∀ c : Chan, b.toNat = c.val → s.holdsChan p c = false →
        Refuses (.pullAbort p [b]) s p 0x11))
  ∧ ∀ (s : State) (p : Port) (b : Byte) (c : Chan) (rec : PullRecord),
    s.takes p ⟨0x36, [b], false⟩ → (s.ports.get p).role = .crew → b.toNat = c.val →
    s.holdsChan p c = true →
    ((s.chan.get c).state = .settling ∨ (s.chan.get c).state = .ready →
      Refuses (.pullAbort p [b]) s p 0x04)
    ∧ ((s.chan.get c).state = .sizing ∨ (s.chan.get c).state = .held →
      Refuses (.pullAbort p [b]) s p 0x19)
    ∧ ((s.chan.get c).state = .pulling → (s.pull.get c).record = some rec →
        (s.pull.get c).result = none →
        (∀ tp d tb, rec.tube = some tp →
          s.slot rec.port tp.tag = some ⟨tp.index, .inPull, d⟩ → s.tubes[tp.index]? = some tb →
          exec (.pullAbort p [b]) s
            = .next (State.answered
                { s with
                  pull := s.pull.set c (Discarded (s.pull.get c) [] none)
                  chan := s.chan.set c
                    { s.chan.get c with state := .ready, kind := none, waiting := [] }
                  claims := s.claims.set rec.port ((s.claims.get rec.port).set tp.tag
                    (some ⟨tp.index, .leased (s.now + s.plan.lease), d⟩))
                  tubes := s.tubes.set tp.index
                    { tb with claim := some ⟨rec.port, tp.tag, false⟩ } }
                p 0xF0 ([b] ++ c2 (s.pull.get c).samples)))
        ∧ (rec.tube = none →
          exec (.pullAbort p [b]) s
            = .next (State.answered
                { s with
                  pull := s.pull.set c (Discarded (s.pull.get c) [] none)
                  chan := s.chan.set c
                    { s.chan.get c with state := .ready, kind := none, waiting := [] }
                  cal := s.cal.set c { s.cal.get c with capture := Capture.empty } }
                p 0xF0 ([b] ++ c2 (s.pull.get c).samples))))

/-- The tube result record of an error-type end (R90). -/
def FaultedRecord (c : Chan) (rec : PullRecord) (tp : TubePull) (k : PullCtl) (thin : Nat)
    (f : PullFault) (more : Bool) (status : Status) : Result :=
  .tube
    { chan := c, row := tp.row, col := tp.col, tag := tp.tag, outcome := .faulted
      status := status, fault := some f, further := more, truncated := false
      samples := k.samples, thin := thin, supports := k.supports, found := k.found, kept := 0
      worst := none, epoch := rec.epoch }

/-- The state after an error-type end of the tube pull of channel `c` on a latch whose reported fault
is `f`, the tube being `tb` and the claim departed or not (R22, R83, R88). -/
def ErrorEnded (s : State) (c : Chan) (rec : PullRecord) (tp : TubePull) (tb : Tube) (d : Bool)
    (latch : List PullFault) (f : PullFault) : State :=
  let again : Bool := decide (tb.attempts + 1 < s.plan.attemptLimit)
  let status : Status := if again then .repull else .unresolved .attempts
  { s with
    tubes := s.tubes.set tp.index
      { tb with
        attempts := min (tb.attempts + 1) 5
        status := status
        claim := if again then some ⟨rec.port, tp.tag, false⟩ else none }
    claims := s.claims.set rec.port ((s.claims.get rec.port).set tp.tag
      (if again then some ⟨tp.index, .leased (s.now + s.plan.lease), d⟩ else none))
    pull := s.pull.set c
      (Discarded (s.pull.get c) latch
        (some (FaultedRecord c rec tp (s.pull.get c) (s.chan.get c).thin f
          (decide (1 < latch.length)) status)))
    chan := s.chan.set c { s.chan.get c with state := .held, waiting := [] } }

/-- A tube pull is in flight on channel `c` with nothing in its fault latch, on a tube of the map whose
claim is in pull (R49). -/
def InTubePull (s : State) (c : Chan) (rec : PullRecord) (tp : TubePull) (tb : Tube) (d : Bool) :
    Prop :=
  (s.chan.get c).state = .pulling ∧ (s.pull.get c).record = some rec ∧ rec.tube = some tp
    ∧ (s.pull.get c).latch = [] ∧ s.tubes[tp.index]? = some tb
    ∧ s.slot rec.port tp.tag = some ⟨tp.index, .inPull, d⟩

/-- A tube list with the tubes of a group written as an invalidation does (R24). -/
def InvalidatedTubes (group : List Nat) (tubes : List Tube) : List Tube :=
  tubes.mapIdx (fun i tb =>
    if i ∈ group then { tb with status := .repull, suspect := true } else tb)

/-- What an end judges of a calibration pull: the unit and the tubes it leaves, less the emptied capture,
and what the result record says of it (R119 to R125). -/
structure Judgement where
  unit : CalUnit
  tubes : List Tube
  outcome : CalOutcome
  reason : Option CalReason
  traces : List TraceEntry
  mixes : List MixOutcome
  invalidated : Nat

/-- The state after the end of the calibration pull of channel `c` on a judgement: the unit and the tubes
written, the capture empty, the channel HELD with its result record (R119, R136). -/
def JudgedAs (s : State) (c : Chan) (rec : PullRecord) (x : Judgement) : State :=
  let k := s.pull.get c
  let faulted : Bool := decide (x.outcome = .faulted)
  { s with
    tubes := x.tubes
    cal := s.cal.set c { x.unit with capture := Capture.empty }
    chan := s.chan.set c { s.chan.get c with state := .held, waiting := [] }
    pull := s.pull.set c
      { k with
        result := some (.cal
          { chan := c, kind := rec.kind, outcome := x.outcome, reason := x.reason
            fault := if faulted then k.latch.head? else none
            further := faulted && decide (1 < k.latch.length), samples := k.samples
            thin := (s.chan.get c).thin, traces := x.traces, mixes := x.mixes
            checkFaults := x.unit.checkFaults, invalidated := x.invalidated
            state := x.unit.state, epoch := x.unit.epoch }) } }

/-- How the calibration pull of channel `c` is judged, its samples and latch as the state has them. A
faulted one, whose latch holds a fault, and a short one, whose samples have not passed both windows, lose
the calibration (FULL), or raise the check-fault count to 1 and become CHECK_DUE, and are invalidated at
count 1 (CHECK). Measured: a CHECK whose traces all pass empties the group, raises the epoch and is
CALIBRATED, one that fails is invalidated; a FULL whose traces all pass is CALIBRATED under a new epoch
with its gains, rotations and mixes, one that fails loses the calibration (R119, R121 to R125, R132). -/
def JudgedBy (s : State) (c : Chan) (rec : PullRecord) (x : Judgement) : Prop :=
  let u := s.cal.get c
  let k := s.pull.get c
  let slots := (s.chan.get c).slots
  let checks := checkEntries u
  let traces := fullEntries slots u.capture
  let gains := gainsOf traces
  let learned := [learnPosition gains u.capture u.capture.mixes[0]?,
    learnPosition gains u.capture u.capture.mixes[1]?]
  let measured : Prop := ∃ sd, u.capture.standard = some sd
    ∧ 2 * sd.length ≤ 2 * (sd.hole - sd.half) + k.samples
    ∧ 2 * sd.length ≤ 2 * (sd.ring - sd.half) + k.samples
  let unmeasured (outcome : CalOutcome) (reason : Option CalReason) : Prop :=
    k.latch ≠ [] ∧ outcome = .faulted ∧ reason = none
    ∨ k.latch = [] ∧ ¬ measured ∧ outcome = .short ∧ reason = some .short
  let lost (outcome : CalOutcome) (reason : Option CalReason) (entries : List TraceEntry) :=
    x = ⟨Uncalibrated u, s.tubes, outcome, reason, entries, [], 0⟩
  let invalid (outcome : CalOutcome) (reason : Option CalReason) (entries : List TraceEntry) :=
    x = ⟨{ Uncalibrated u with group := [] }, InvalidatedTubes u.group s.tubes, outcome, reason,
      entries, [], u.group.length⟩
  let fails (entries : List TraceEntry) (why : CalReason) : Prop :=
    ∃ before e after, entries = before ++ e :: after ∧ (∀ y ∈ before, y.failed = none)
      ∧ e.failed = some why
  (rec.kind = .calFull ∧ ∃ outcome reason, unmeasured outcome reason ∧ lost outcome reason [])
  ∨ (rec.kind = .calCheck ∧ u.checkFaults = 0 ∧ ∃ outcome reason, unmeasured outcome reason
      ∧ x = ⟨{ u with
            state := if u.state = .calibrated then .checkDue else u.state
            checkFaults := 1 }, s.tubes, outcome, reason, [], [], 0⟩)
  ∨ (rec.kind = .calCheck ∧ u.checkFaults ≠ 0 ∧ ∃ outcome reason, unmeasured outcome reason
      ∧ invalid outcome reason [])
  ∨ (rec.kind = .calCheck ∧ k.latch = [] ∧ measured ∧ (∀ e ∈ checks, e.failed = none)
      ∧ x = ⟨{ u with
            group := [], epoch := u.epoch + 1, state := .calibrated, lastGood := some s.now
            checkFaults := 0 }, s.tubes, .passed, none, checks, [], 0⟩)
  ∨ (rec.kind = .calCheck ∧ k.latch = [] ∧ measured
      ∧ ∃ why, fails checks why ∧ invalid .failed (some why) checks)
  ∨ (rec.kind = .calFull ∧ k.latch = [] ∧ measured ∧ (∀ e ∈ traces, e.failed = none)
      ∧ x = ⟨{ u with
            state := .calibrated
            slots := some (slots.map Option.isSome)
            gains := gains
            mix1 := (learned.head?).bind MixOutcome.coef
            mix2 := (learned.getLast?).bind MixOutcome.coef
            epoch := u.epoch + 1, lastGood := some s.now, checkFaults := 0 },
          s.tubes, .passed, none, traces, learned, 0⟩)
  ∨ (rec.kind = .calFull ∧ k.latch = [] ∧ measured
      ∧ ∃ why, fails traces why ∧ lost .failed (some why) traces)

/-- A calibration pull is in flight on channel `c` with nothing in its fault latch (R49). -/
def InCalPull (s : State) (c : Chan) (rec : PullRecord) : Prop :=
  (s.chan.get c).state = .pulling ∧ (s.pull.get c).record = some rec ∧ rec.tube = none
    ∧ (s.pull.get c).latch = [] ∧ rec.kind ≠ .tube

/-- R22, R40, R41, R63, R81, R83, R88, R90: a coil-open event, the reverse report and the pull deadline
each end a tube pull on their fault: attempts rise, and below the limit the tube is REPULL with its
claim kept on a new lease, at the limit UNRESOLVED/ATTEMPTS with its claim removed; the channel is HELD
with the result record, and nothing else changes. The same three end a calibration pull FAULTED (R119,
R122, R125): it is judged with the fault in its latch. Without a reverse report, before the deadline, or
on a channel that is not PULLING, ENCODER_REVERSE and TIMEOUT change nothing (log 2). -/
def Obligations.FaultsEndATubePull : Prop :=
  (∀ (s : State) (c : Chan) (rec : PullRecord) (tp : TubePull) (tb : Tube) (d : Bool),
    InTubePull s c rec tp tb d → tb.attempts ≤ 5 → 1 ≤ s.plan.attemptLimit →
    s.plan.attemptLimit ≤ 5 →
    (∀ s' : State, s' = { s with chan := s.chan.set c { s.chan.get c with probeOpen := true } } →
      exec (.coilOpen c) s = .next (ErrorEnded s' c rec tp tb d [.probeOpen] .probeOpen))
    ∧ ((s.chan.get c).reverseReported = true →
        exec (.encoderReverse c) s
          = .next (ErrorEnded s c rec tp tb d [.encoderReverse] .encoderReverse))
    ∧ (rec.deadline ≤ s.now →
        exec (.timeout c) s = .next (ErrorEnded s c rec tp tb d [.timeout] .timeout)))
  ∧ (∀ (s : State) (c : Chan) (rec : PullRecord), InCalPull s c rec →
    let latched (f : PullFault) (s : State) : State :=
      { s with pull := s.pull.set c { s.pull.get c with latch := [f] } }
    (∀ s' x, s' = latched .probeOpen
          { s with chan := s.chan.set c { s.chan.get c with probeOpen := true } } →
        JudgedBy s' c rec x → exec (.coilOpen c) s = .next (JudgedAs s' c rec x))
    ∧ (∀ x, (s.chan.get c).reverseReported = true → JudgedBy (latched .encoderReverse s) c rec x →
        exec (.encoderReverse c) s = .next (JudgedAs (latched .encoderReverse s) c rec x))
    ∧ (∀ x, rec.deadline ≤ s.now → JudgedBy (latched .timeout s) c rec x →
        exec (.timeout c) s = .next (JudgedAs (latched .timeout s) c rec x)))
  ∧ ∀ (s : State) (c : Chan),
    ((s.chan.get c).state ≠ .pulling ∨ (s.chan.get c).reverseReported = false →
      exec (.encoderReverse c) s = .next s)
    ∧ ((s.chan.get c).state ≠ .pulling
        ∨ (∀ rec, (s.pull.get c).record = some rec → s.now < rec.deadline) →
      exec (.timeout c) s = .next s)

/-- The state after a non-error end of the tube pull of channel `c` with its Pull Controller at `k`:
the located job at the tail of the queue, and the channel SIZING (R84, R138). -/
def JobQueued (s : State) (c : Chan) (rec : PullRecord) (tp : TubePull) (k : PullCtl)
    (latch : List PullFault) : State :=
  { s with
    pull := s.pull.set c { k with latch := latch }
    chan := s.chan.set c { s.chan.get c with state := .sizing, waiting := [] }
    sizing :=
      { s.sizing with
        queue := s.sizing.queue ++
          [{ chan := c, port := rec.port, tag := tp.tag, index := tp.index, row := tp.row
             col := tp.col, epoch := rec.epoch
             records := k.buffer.map (locate k.supports k.supportAt)
             found := k.found, fault := latch.head?, further := decide (1 < latch.length)
             samples := k.samples, thin := (s.chan.get c).thin, supports := k.supports
             orphan := false }] } }

/-- The null after `n` more samples of the same raw values, of which the last is number `samples + n`, at
most 16: the sums of the calibrated values of each trace that is active and calibrated, and at sample 16
the null vectors of the sums (R71, R95). -/
def NullAfter (u : CalUnit) (raw : RawSample) (z : Null) (samples n : Nat) : Null :=
  let before (r : RawTrace) : Vec :=
    match z with
    | .summing sums => (sums.get r).getD ⟨0, 0⟩
    | _ => ⟨0, 0⟩
  let sum (r : RawTrace) : Option Vec :=
    match u.gains.get r, raw.get r with
    | some g, some v =>
      some ⟨(before r).x + n * (calibrate g v).value.x, (before r).y + n * (calibrate g v).value.y⟩
    | _, _ => none
  if samples + n < 16 then .summing (Eight.ofFn sum)
  else .formed (Eight.ofFn (fun r => (sum r).map nullOfSum))

/-- The calibrated, nulled value of a raw trace at a sample from 17 on (R72, R94, R96). -/
def NulledValue (u : CalUnit) (z : Null) (raw : RawSample) (r : RawTrace) (x : Sig) : Prop :=
  ∃ g v n, u.gains.get r = some g ∧ raw.get r = some v ∧ z.vector r = some n
    ∧ x = nulled (calibrate g v) n

/-- The value of the detection or support trace at a sample from 17 on: of a raw trace its nulled value,
of a mix that of the pull record's definition under the position's coefficient (R72, R98). -/
def TraceValue (u : CalUnit) (tp : TubePull) (z : Null) (raw : RawSample) (trace : Trace) (x : Sig) :
    Prop :=
  match trace with
  | .raw r => NulledValue u z raw r x
  | .m1 => ∃ m k a b, tp.mix = some m ∧ u.mix1 = some k ∧ NulledValue u z raw m.primary a
      ∧ NulledValue u z raw m.secondary b ∧ x = mixValue k a b
  | .m2 => ∃ m k a b, tp.mix = some m ∧ u.mix2 = some k ∧ NulledValue u z raw m.primary a
      ∧ NulledValue u z raw m.secondary b ∧ x = mixValue k a b

/-- What the detector of a Pull Controller makes of the detection value `v` at a step (R74 to R76). -/
def Detects (tp : TubePull) (pos : Nat) (v : Sig) (k k' : PullCtl) : Prop :=
  let size : Int := v.value.x * v.value.x + v.value.y * v.value.y
  let sample : WindowSample := ⟨pos, v.value, v.clipped⟩
  let same : Prop := k'.found = k.found ∧ k'.buffer = k.buffer
  let close (ws : List WindowSample) (long : Bool) : Prop :=
    k'.found = k.found + 1 ∧ k'.buffer = offer k.buffer (recordOf ws tp.detection long)
  match k.detector with
  | .armed => same ∧ k'.detector = if (tp.openT : Int) * tp.openT ≤ size then .opened [sample]
      else .armed
  | .blocked => same ∧ k'.detector = if size < (tp.closeT : Int) * tp.closeT then .armed else .blocked
  | .opened ws =>
    if size < (tp.closeT : Int) * tp.closeT then
      k'.detector = .armed ∧ close (ws ++ [sample]) false
    else if ws.length + 1 = 256 then k'.detector = .blocked ∧ close (ws ++ [sample]) true
    else same ∧ k'.detector = .opened (ws ++ [sample])

/-- What a Pull Controller makes of one sample at a step: the null up to sample 16, and from sample 17 on
the support counter on the support value, the detector on the detection value, and SATURATED latched
where, under UNMASKED, a clipped value stands in an open window (R71 to R76, R78). -/
def SampleOf (u : CalUnit) (tp : TubePull) (raw : RawSample) (pos : Nat) (k k' : PullCtl) : Prop :=
  k'.record = k.record ∧ k'.samples = k.samples + 1 ∧ k'.result = k.result
  ∧ (k.samples < 16 →
      k' = { k with samples := k.samples + 1, null := NullAfter u raw k.null k.samples 1 })
  ∧ (16 ≤ k.samples → k'.null = k.null ∧ ∃ v w, TraceValue u tp k.null raw tp.detection v
      ∧ TraceValue u tp k.null raw tp.support w
      ∧ Detects tp pos v k k'
      ∧ (let size : Int := w.value.x * w.value.x + w.value.y * w.value.y
         let crosses : Prop := k.armed = true ∧ (tp.supportT : Int) * tp.supportT ≤ size
         (crosses → k'.armed = false ∧ k'.supports = k.supports + 1
           ∧ k'.supportAt
             = if k.supportAt.length < 64 then k.supportAt ++ [pos] else k.supportAt)
         ∧ (¬ crosses → k'.supports = k.supports ∧ k'.supportAt = k.supportAt
           ∧ k'.armed
             = (k.armed || decide (4 * size < (tp.supportT : Int) * tp.supportT))))
      ∧ (let open_ : Prop := (∃ ws, k.detector = .opened ws)
           ∨ k.detector = .armed
             ∧ (tp.openT : Int) * tp.openT ≤ v.value.x * v.value.x + v.value.y * v.value.y
         (tp.policy = .unmasked ∧ v.clipped = true ∧ open_ → k'.latch = k.latch ++ [.saturated])
         ∧ (¬ (tp.policy = .unmasked ∧ v.clipped = true ∧ open_) → k'.latch = k.latch)))

/-- What a Pull Controller makes of the samples of one output, at the positions waiting in their order: a
latched fault stops the processing of the remaining ones, which raise the samples taken as handed on
(R64, R68). -/
def Samples (u : CalUnit) (tp : TubePull) (raw : RawSample) : List Int → PullCtl → PullCtl → Prop
  | [], k, k' => k' = k
  | x :: rest, k, k' =>
    (k.latch ≠ [] ∧ k' = { k with samples := k.samples + (rest.length + 1) })
    ∨ (k.latch = [] ∧ ∃ m, SampleOf u tp raw (x / 10).toNat k m ∧ Samples u tp raw rest m k')

/-- R56, R60, R61, R64, R68, R71 to R79, R118, R119: an output is discarded outside PULLING and with no
position waiting; otherwise it becomes one sample for each waiting position, the thin-data count rises
by the number filled, and the positions waiting are emptied. In a tube pull the samples are processed in
turn up to a latched fault; the thin-data limit latches OVERSPEED; a latched fault ends the pull,
OVERSPEED reported before SATURATED; and otherwise the sample of position 0 ends it by its end check, a
support mismatch, with the open indication closed and the job queued. A calibration pull captures the
null and window samples, and is judged when the thin-data limit is reached or position 0 was sampled;
that its Pull Controller keeps no null, counts no support and opens no window, and counts the samples
alone, is the model's reading (log 19). That the samples taken count those left unprocessed too, as
handed on (R64), is log 22. -/
def Obligations.OutputsSampleTheWaitingPositions : Prop :=
  ∀ (s : State) (c : Chan) (values : Eight Raw),
    let ch := s.chan.get c
    let k := s.pull.get c
    let u := s.cal.get c
    let n := ch.waiting.length
    let thin := ch.thin + (n - 1)
    let raw : RawSample := Eight.ofFn (fun r =>
      if (ch.slots.get r.slot).isSome then some (values.get r) else none)
    (ch.state ≠ .pulling ∨ ch.waiting = [] → exec (.demodulatorOutput c values) s = .next s)
    ∧ (∀ rec tp tb d, InTubePull s c rec tp tb d → ch.waiting ≠ [] →
        (k.samples + n ≤ 16 → thin < 64 → 0 ∉ ch.waiting →
          exec (.demodulatorOutput c values) s
            = .next { s with
                chan := s.chan.set c { ch with waiting := [], thin := thin }
                pull := s.pull.set c
                  { k with samples := k.samples + n
                           null := NullAfter u raw k.null k.samples n } })
        ∧ (tp.policy = .masked → 64 ≤ thin → 1 ≤ s.plan.attemptLimit → s.plan.attemptLimit ≤ 5 →
            ∃ k', k'.record = k.record ∧ k'.samples = k.samples + n ∧ k'.result = k.result
              ∧ exec (.demodulatorOutput c values) s
                = .next (ErrorEnded
                    { s with
                      chan := s.chan.set c { ch with waiting := [], thin := thin }
                      pull := s.pull.set c k' }
                    c rec tp tb d [.overspeed] .overspeed))
        ∧ (∀ k', Samples u tp raw ch.waiting k k' →
            let latch := if 64 ≤ thin then k'.latch ++ [.overspeed] else k'.latch
            let s' : State :=
              { s with
                chan := s.chan.set c { ch with waiting := [], thin := thin }
                pull := s.pull.set c { k' with latch := latch } }
            (latch = [] → 0 ∉ ch.waiting → exec (.demodulatorOutput c values) s = .next s')
            ∧ (1 ≤ s.plan.attemptLimit → s.plan.attemptLimit ≤ 5 →
                (64 ≤ thin → exec (.demodulatorOutput c values) s
                  = .next (ErrorEnded s' c rec tp tb d latch .overspeed))
                ∧ (thin < 64 → k'.latch ≠ [] → exec (.demodulatorOutput c values) s
                  = .next (ErrorEnded s' c rec tp tb d latch .saturated)))
            ∧ (∀ row, latch = [] → 0 ∈ ch.waiting →
                s.rows.find? (fun r => r.row == tp.row) = some row →
                let closed := k'.closeOpen tp.detection
                exec (.demodulatorOutput c values) s
                  = .next (JobQueued s' c rec tp closed
                      (if row.supports ≠ 0 ∧ closed.supports ≠ row.supports then
                        [.supportMismatch] else [])))))
    ∧ (∀ rec sd x, ch.state = .pulling → k.record = some rec → rec.tube = none → k.latch = [] →
        ch.waiting = [x] → 0 < x → ch.thin < 64 → u.capture.standard = some sd →
        let step := (x / 10).toNat
        let inWindow (centre : Nat) : Bool :=
          decide (2 * (centre - sd.half) ≤ step ∧ step ≤ 2 * (centre + sd.half))
        exec (.demodulatorOutput c values) s
          = .next { s with
              chan := s.chan.set c { ch with waiting := [] }
              pull := s.pull.set c { k with samples := k.samples + 1 }
              cal := s.cal.set c
                { u with
                  capture :=
                    { u.capture with
                      nulls := if k.samples < 16 then u.capture.nulls ++ [raw]
                        else u.capture.nulls
                      hole := if inWindow sd.hole then u.capture.hole ++ [raw]
                        else u.capture.hole
                      ring := if inWindow sd.ring then u.capture.ring ++ [raw]
                        else u.capture.ring } } })
    ∧ (∀ rec sd, InCalPull s c rec → ch.waiting ≠ [] → u.capture.standard = some sd →
        let within (centre : Nat) : Nat := ch.waiting.countP (fun x =>
          decide (2 * (centre - sd.half) ≤ (x / 10).toNat ∧ (x / 10).toNat ≤ 2 * (centre + sd.half)))
        let s' : State :=
          { s with
            chan := s.chan.set c { ch with waiting := [], thin := thin }
            pull := s.pull.set c
              { k with samples := k.samples + n, latch := if 64 ≤ thin then [.overspeed] else [] }
            cal := s.cal.set c
              { u with
                capture :=
                  { u.capture with
                    nulls := u.capture.nulls ++ List.replicate (min n (16 - k.samples)) raw
                    hole := u.capture.hole ++ List.replicate (within sd.hole) raw
                    ring := u.capture.ring ++ List.replicate (within sd.ring) raw } } }
        (thin < 64 → 0 ∉ ch.waiting → exec (.demodulatorOutput c values) s = .next s')
        ∧ (64 ≤ thin ∨ 0 ∈ ch.waiting → ∀ x, JudgedBy s' c rec x →
            exec (.demodulatorOutput c values) s = .next (JudgedAs s' c rec x)))

/-- R72 to R76, R78: from sample 17 on, one waiting position gives the detection and the support value
of that sample, calibrated and nulled (here of raw traces); the support counter counts an armed
crossing of the threshold and re-arms below its half; the detector opens, closes, force-closes at 256
and unblocks by its table; and under MASKED a clipped mark ends nothing. -/
def Obligations.SamplesReachCounterAndDetector : Prop :=
  ∀ (s : State) (c : Chan) (values : Eight Raw) (rec : PullRecord) (tp : TubePull) (tb : Tube)
    (d : Bool) (x : Int) (a b : RawTrace) (ga gb : GainRot) (za zb : Vec),
    InTubePull s c rec tp tb d → (s.chan.get c).waiting = [x] → 0 < x → (s.chan.get c).thin < 64 →
    16 ≤ (s.pull.get c).samples → tp.policy = .masked → tp.detection = .raw a →
    tp.support = .raw b →
    ((s.chan.get c).slots.get a.slot).isSome = true → ((s.chan.get c).slots.get b.slot).isSome = true →
    (s.cal.get c).gains.get a = some ga → (s.cal.get c).gains.get b = some gb →
    (s.pull.get c).null.vector a = some za → (s.pull.get c).null.vector b = some zb →
    let k := s.pull.get c
    let pos := (x / 10).toNat
    let v := nulled (calibrate ga (values.get a)) za
    let w := nulled (calibrate gb (values.get b)) zb
    let size (y : Vec) : Int := y.x * y.x + y.y * y.y
    let window := { position := pos, value := v.value, clipped := v.clipped : WindowSample }
    ∃ k', exec (.demodulatorOutput c values) s
        = .next { s with
            chan := s.chan.set c { s.chan.get c with waiting := [] }
            pull := s.pull.set c k' }
      ∧ k'.samples = k.samples + 1 ∧ k'.record = k.record ∧ k'.null = k.null
      ∧ k'.result = k.result ∧ k'.latch = []
      ∧ (k.armed = true → (tp.supportT : Int) * tp.supportT ≤ size w.value →
          k'.armed = false ∧ k'.supports = k.supports + 1
            ∧ k'.supportAt
              = if k.supportAt.length < 64 then k.supportAt ++ [pos] else k.supportAt)
      ∧ (k.armed = true → size w.value < (tp.supportT : Int) * tp.supportT →
          k'.armed = true ∧ k'.supports = k.supports ∧ k'.supportAt = k.supportAt)
      ∧ (k.armed = false →
          k'.armed = decide (4 * size w.value < (tp.supportT : Int) * tp.supportT)
            ∧ k'.supports = k.supports ∧ k'.supportAt = k.supportAt)
      ∧ (k.detector = .armed →
          k'.found = k.found ∧ k'.buffer = k.buffer
            ∧ k'.detector = if (tp.openT : Int) * tp.openT ≤ size v.value then .opened [window]
                else .armed)
      ∧ (k.detector = .blocked →
          k'.found = k.found ∧ k'.buffer = k.buffer
            ∧ k'.detector = if size v.value < (tp.closeT : Int) * tp.closeT then .armed
                else .blocked)
      ∧ (∀ ws, k.detector = .opened ws →
          let ws' := ws ++ [window]
          let closes : Prop := size v.value < (tp.closeT : Int) * tp.closeT
          (closes → k'.detector = .armed ∧ k'.found = k.found + 1
            ∧ k'.buffer = offer k.buffer (recordOf ws' (.raw a) false))
          ∧ (¬ closes → ws'.length = 256 → k'.detector = .blocked ∧ k'.found = k.found + 1
            ∧ k'.buffer = offer k.buffer (recordOf ws' (.raw a) true))
          ∧ (¬ closes → ws'.length ≠ 256 → k'.detector = .opened ws' ∧ k'.found = k.found
            ∧ k'.buffer = k.buffer))

/-- R79, R80, R82 to R84: PULL_END of a tube pull closes an open indication, makes the end checks,
and ends as an error-type end on SHORT_PULL, or else queues the job with the service fault RESTRICTED
or SUPPORT_MISMATCH or none; it is refused with ROLE, RANGE or NOT_BOUND in that order, and outside
PULLING with STATE or ENDED. -/
def Obligations.PullEndMakesTheEndChecks : Prop :=
  (∀ (s : State) (p : Port) (b flag : Byte), s.takes p ⟨0x35, [b, flag], false⟩ →
    (s.ports.get p).role ≠ .none →
    ((s.ports.get p).role ≠ .crew → Refuses (.pullEnd p [b, flag]) s p 0x03)
    ∧ ((s.ports.get p).role = .crew → 3 < b.toNat ∨ 1 < flag.toNat →
        Refuses (.pullEnd p [b, flag]) s p 0x06)
    ∧ ((s.ports.get p).role = .crew → ∀ c : Chan, b.toNat = c.val → flag.toNat ≤ 1 →
        s.holdsChan p c = false → Refuses (.pullEnd p [b, flag]) s p 0x11))
  ∧ ∀ (s : State) (p : Port) (b flag : Byte) (c : Chan),
    s.takes p ⟨0x35, [b, flag], false⟩ → (s.ports.get p).role = .crew → b.toNat = c.val →
    flag.toNat ≤ 1 → s.holdsChan p c = true →
    ((s.chan.get c).state = .settling ∨ (s.chan.get c).state = .ready →
      Refuses (.pullEnd p [b, flag]) s p 0x04)
    ∧ ((s.chan.get c).state = .sizing ∨ (s.chan.get c).state = .held →
      Refuses (.pullEnd p [b, flag]) s p 0x19)
    ∧ (∀ rec tp tb d row, InTubePull s c rec tp tb d →
        s.rows.find? (fun r => r.row == tp.row) = some row → 1 ≤ s.plan.attemptLimit →
        s.plan.attemptLimit ≤ 5 →
        let k := (s.pull.get c).closeOpen tp.detection
        let mismatch : List PullFault :=
          if row.supports ≠ 0 ∧ k.supports ≠ row.supports then [.supportMismatch] else []
        let short : Prop := 4000 < (s.chan.get c).lowest
        let sent := c2 (s.pull.get c).samples
        (flag.toNat = 1 →
          exec (.pullEnd p [b, flag]) s
            = .next (State.answered (JobQueued s c rec tp k (.restricted :: mismatch))
                p 0xF0 (4 :: sent)))
        ∧ (flag.toNat = 0 → ¬ short →
          exec (.pullEnd p [b, flag]) s
            = .next (State.answered (JobQueued s c rec tp k mismatch) p 0xF0 (4 :: sent)))
        ∧ (flag.toNat = 0 → short →
          exec (.pullEnd p [b, flag]) s
            = .next (State.answered
                (ErrorEnded { s with pull := s.pull.set c k } c rec tp tb d
                  (.shortPull :: mismatch) .shortPull)
                p 0xF0 (5 :: sent))))

/-- R75 to R77, R79, R84: the record of a window has the position of its centre sample, of an even number
the earlier of the two in the middle, the amplitude and phase of its peak-to-peak vector, and the clipped
mark of any of its samples; an indication still open at an end closes with its record, not LONG. A record
offered to a buffer of fewer than 24 is appended; of the 25 at a full buffer
exactly one is dropped, of the smallest amplitude and the one that closed last among several, and the
others stay in order. Each buffered record is located at the nearest support counted, of two equally
near at the lower one, by its number from the near end and its signed offset; with no support it has
no location. -/
def Obligations.RecordsAreBufferedAndLocated : Prop :=
  (∀ (w : List WindowSample) (trace : Trace) (long : Bool) (centre : WindowSample),
    w[(w.length - 1) / 2]? = some centre →
    let v := peakVector (w.map (fun y => y.value))
    recordOf w trace long
      = { position := centre.position, trace := trace
          amplitude := amplitudeOf (v.x * v.x + v.y * v.y).toNat, phase := phaseOf v
          clipped := decide (∃ y ∈ w, y.clipped = true), long := long })
  ∧ (∀ (k : PullCtl) (trace : Trace),
    (∀ w, k.detector = .opened w →
      k.closeOpen trace
        = { k with
            found := k.found + 1, buffer := offer k.buffer (recordOf w trace false)
            detector := .armed })
    ∧ ((∀ w, k.detector ≠ .opened w) → k.closeOpen trace = k))
  ∧ (∀ (buffer : List Found) (f : Found),
    (buffer.length < 24 → offer buffer f = buffer ++ [f])
    ∧ (buffer.length = 24 → ∃ before dropped after,
        buffer ++ [f] = before ++ dropped :: after ∧ offer buffer f = before ++ after
        ∧ (∀ g ∈ before, dropped.amplitude ≤ g.amplitude)
        ∧ (∀ g ∈ after, dropped.amplitude < g.amplitude)))
  ∧ (∀ (n : Nat) (supportAt : List Nat) (f : Found), supportAt.length ≤ n →
    (locate n supportAt f).toFound = f
    ∧ (supportAt = [] → (locate n supportAt f).support = none)
    ∧ (supportAt ≠ [] → ∃ (k at_ : Nat), supportAt[k]? = some at_
        ∧ (locate n supportAt f).support = some (n - k, (f.position : Int) - at_)
        ∧ ∀ other ∈ supportAt,
            ((f.position : Int) - at_).natAbs ≤ ((f.position : Int) - other).natAbs
            ∧ (((f.position : Int) - at_).natAbs = ((f.position : Int) - other).natAbs →
                at_ ≤ other)))

/-- R106 to R111, R118 to R125, R132, R136: a calibration pull that PULL_END ends is judged by its
samples, as JudgedBy says; the channel is HELD with its result record (its further-faults flag clear
unless FAULTED, log 33) and the capture is empty; every such pull is judged in exactly one way. What the
judgement reads: the traces of a FULL are those of the active slots in their order, each derived from
the raw values of the hole window with its three checks, its gain step and its rotation; those of a
CHECK are the calibrated ones, each measured over the calibrated, nulled values of the hole window with
its three tests; a mix is fitted over the ring window with its four checks, and is absent where a trace
of its definition has no gain. -/
def Obligations.CalibrationPullsAreJudged : Prop :=
  (∀ (s : State) (p : Port) (b flag : Byte) (c : Chan) (rec : PullRecord),
    s.takes p ⟨0x35, [b, flag], false⟩ → (s.ports.get p).role = .crew → b.toNat = c.val →
    flag.toNat ≤ 1 → s.holdsChan p c = true → InCalPull s c rec →
    ∃! x, JudgedBy s c rec x
      ∧ exec (.pullEnd p [b, flag]) s
        = .next (State.answered (JudgedAs s c rec x) p 0xF0 (5 :: c2 (s.pull.get c).samples)))
  ∧ (∀ (slots : Quad (Option Nat)) (k : Capture),
      (fullEntries slots k).map (fun e => e.trace)
          = [.f1d, .f1a, .f2d, .f2a, .f3d, .f3a, .f4d, .f4a].filter
              (fun r => (slots.get r.slot).isSome)
      ∧ ∀ e ∈ fullEntries slots k,
          let raws := k.hole.filterMap (fun x => x.get e.trace)
          let v := peakVector (raws.map (fun r => ⟨r.x.toInt, r.y.toInt⟩))
          let size : Int := v.x * v.x + v.y * v.y
          let clipped : Prop := ∃ r ∈ raws, r.x.toInt = -32768 ∨ r.x.toInt = 32767
            ∨ r.y.toInt = -32768 ∨ r.y.toInt = 32767
          e.amplitude = amplitudeOf size.toNat ∧ e.phase = phaseOf v
          ∧ (clipped → e.failed = some .clipped)
          ∧ (¬ clipped → size < 250000 → e.failed = some .weak)
          ∧ (¬ clipped → 1600000000 < size → e.failed = some .strong)
          ∧ (¬ clipped → 250000 ≤ size → size ≤ 1600000000 → e.failed = none)
          ∧ e.written = if e.failed = none then some ⟨gainOf size.toNat, rotationOf v⟩ else none)
  ∧ (∀ u : CalUnit,
      (checkEntries u).map (fun e => e.trace)
          = [.f1d, .f1a, .f2d, .f2a, .f3d, .f3a, .f4d, .f4a].filter
              (fun r => (u.gains.get r).isSome)
      ∧ ∀ e ∈ checkEntries u, ∀ g, u.gains.get e.trace = some g →
          let sigs := capturedValues g e.trace u.capture u.capture.hole
          let v := peakVector (sigs.map (fun y => y.value))
          let clipped : Prop := ∃ y ∈ sigs, y.clipped = true
          let far : Prop := e.amplitude < 9000 ∨ 11000 < e.amplitude
          let turned : Prop := e.phase < 350 ∨ 450 < e.phase
          e.amplitude = amplitudeOf (v.x * v.x + v.y * v.y).toNat ∧ e.phase = phaseOf v
          ∧ e.written = none
          ∧ (clipped → e.failed = some .clipped)
          ∧ (¬ clipped → far → e.failed = some .amplitude)
          ∧ (¬ clipped → ¬ far → turned → e.failed = some .phase)
          ∧ (¬ clipped → ¬ far → ¬ turned → e.failed = none))
  ∧ (∀ (g : GainRot) (r : RawTrace) (k : Capture) (samples : List RawSample),
      let values (l : List RawSample) := (l.filterMap (fun x => x.get r)).map (calibrate g)
      let sum : Vec := ⟨((values k.nulls).map (fun y => y.value.x)).sum,
        ((values k.nulls).map (fun y => y.value.y)).sum⟩
      capturedValues g r k samples = (values samples).map (fun y => nulled y (nullOfSum sum)))
  ∧ (∀ (gains : Eight (Option GainRot)) (k : Capture),
      learnPosition gains k none = .noDefinition
      ∧ ∀ d : MixDef,
          (gains.get d.primary = none ∨ gains.get d.secondary = none →
            learnPosition gains k (some d) = .absent)
          ∧ ∀ g h, gains.get d.primary = some g → gains.get d.secondary = some h →
            learnPosition gains k (some d)
              = learnMix ((capturedValues g d.primary k k.ring).zip
                  (capturedValues h d.secondary k k.ring)))
  ∧ (∀ w : List (Sig × Sig),
      let sum (f : Vec → Vec → Int) : Int := (w.map (fun x => f x.1.value x.2.value)).sum
      let real := sum (fun p q => p.x * q.x + p.y * q.y)
      let imag := sum (fun p q => p.y * q.x - p.x * q.y)
      let norm := sum (fun _ q => q.x * q.x + q.y * q.y)
      let clipped : Prop := ∃ x ∈ w, x.1.clipped = true ∨ x.2.clipped = true
      let weak : Prop := ∀ x ∈ w,
        x.2.value.x * x.2.value.x + x.2.value.y * x.2.value.y < 40000
      (clipped → learnMix w = .ill)
      ∧ (¬ clipped → weak → learnMix w = .weak)
      ∧ (¬ clipped → ¬ weak → ∃ k : Coef,
          2 * (4096 * real - k.a * norm).natAbs ≤ norm.natAbs
          ∧ (2 * (4096 * real - k.a * norm).natAbs = norm.natAbs → k.a % 2 = 0)
          ∧ 2 * (4096 * imag - k.b * norm).natAbs ≤ norm.natAbs
          ∧ (2 * (4096 * imag - k.b * norm).natAbs = norm.natAbs → k.b % 2 = 0)
          ∧ let left (x : Sig × Sig) : Int :=
              (4096 * x.1.value.x - k.a * x.2.value.x + k.b * x.2.value.y) ^ 2
                + (4096 * x.1.value.y - k.a * x.2.value.y - k.b * x.2.value.x) ^ 2
            let fits : Prop := k.a * k.a + k.b * k.b ≤ 1073741824
              ∧ ∀ x ∈ w, ∃ y ∈ w, 25 * left x
                  ≤ 4096 ^ 2 * (y.1.value.x * y.1.value.x + y.1.value.y * y.1.value.y)
            (fits → learnMix w = .learned k) ∧ (¬ fits → learnMix w = .ill)))

/-! ## Sizing and re-screening -/

/-- R139, R140, R161 to R163: an idle Sizing Unit begins the job at the head of the queue under the
settings in force; a re-screen step begins only in RUNNING, with the unit idle and the queue empty;
RESCREEN_START, in ACTIVE and with any curve or none, starts or restarts the pass at cursor 0 and ends a
step in flight. What cannot begin is no event and changes nothing, which is the model's choice (log 2);
so it is in a plan without a curve, which no run in ACTIVE reaches (log 25). -/
def Obligations.JobsAndStepsBeginWhenTheUnitIsIdle : Prop :=
  (∀ (s : State) (curve : Curve), s.plan.curve = some curve →
    let settings : Settings := ⟨curve, s.plan.report, s.plan.plug⟩
    let idle : Prop := s.sizing.flight = none ∧ s.sizing.step = none
    (∀ j rest, idle → s.sizing.queue = j :: rest →
      exec .sizingJobBegin s
        = .next { s with
            sizing := { queue := rest, flight := some (j, settings), step := none } })
    ∧ (¬ idle ∨ s.sizing.queue = [] → exec .sizingJobBegin s = .next s)
    ∧ (idle → s.sizing.queue = [] → s.rescreen.phase = .underWay →
      exec .rescreenStepBegin s
        = .next { s with sizing := { queue := [], flight := none, step := some settings } })
    ∧ (¬ idle ∨ s.sizing.queue ≠ [] ∨ s.rescreen.phase ≠ .underWay →
      exec .rescreenStepBegin s = .next s))
  ∧ (∀ s : State, s.plan.curve = none →
      exec .sizingJobBegin s = .next s ∧ exec .rescreenStepBegin s = .next s)
  ∧ ∀ (s : State) (p : Port), s.takes p ⟨0x1D, [], false⟩ → (s.ports.get p).role = .review →
      (s.planState ≠ .active → Refuses (.rescreenStart p []) s p 0x04)
      ∧ (s.planState = .active → ∀ restarts code,
          restarts = (if s.rescreen.phase = .underWay then min (s.rescreen.restarts + 1) 65535
            else 0) →
          code = (if s.sizing.queue = [] ∧ s.sizing.flight = none then 1 else 2) →
          exec (.rescreenStart p []) s
            = .next (State.answered
                { s with
                  rescreen :=
                    { phase := .underWay, cursor := 0, restarts := restarts
                      incomplete := false }
                  sizing := { s.sizing with step := none } }
                p 0xF0 (code :: (c2 restarts ++ c2 s.tubes.length))))

/-- The order of R142: the first record is deeper than the second. -/
def Deeper (a b : Indication) : Prop :=
  (a.depth = .indefinite ∧ b.depth ≠ .indefinite)
  ∨ (∃ x y, a.depth = .pct x ∧ b.depth = .pct y ∧ y < x)
  ∨ (a.depth = b.depth ∧ b.amplitude < a.amplitude)
  ∨ (a.depth = b.depth ∧ a.amplitude = b.amplitude ∧ b.position < a.position)

/-- R141 to R145: a job's records are sized through the curve, INDEFINITE where clipped; of records
at distinct positions the 16 deepest are kept in the order of depth, and the classification is the
first row of the table that holds. -/
def Obligations.JobsKeepTheDeepestAndClassify : Prop :=
  (∀ (st : Settings) (records : List Located), (records.map (fun r => r.position)).Nodup →
    let kept := keptOf st.curve records
    kept.length = min 16 records.length
    ∧ kept.Pairwise Deeper
    ∧ (∀ x ∈ kept, ∃ r ∈ records, x.toLocated = r
        ∧ (r.clipped = true → x.depth = .indefinite ∧ x.outOfCurve = false)
        ∧ (r.clipped = false →
            x.depth = .pct (st.curve.read r.phase).1 ∧ x.outOfCurve = (st.curve.read r.phase).2))
    ∧ (∀ r ∈ records, (∀ x ∈ kept, x.toLocated ≠ r) → ∀ x ∈ kept, Deeper x (sized st.curve r))
    ∧ (worstOf kept = kept.head?.map (fun x => x.depth)))
  ∧ (∀ (st : Settings) (fault : Option PullFault) (worst : Option Depth), st.report ≤ st.plug →
      classify st fault worst
        = match fault, worst with
          | some f, _ => .unresolved (.serviceFault f)
          | none, none => .clear
          | none, some .indefinite => .unresolved .indefiniteDepth
          | none, some (.pct n) =>
            if st.plug ≤ n then .plug else if st.report ≤ n then .reportable else .clear)

/-- R23, R41, R130, R146, R147, R152, R155: the commit of a job whose claim is in pull. The store
frees the old list and takes the deepest kept records, in ascending position; the tube record, its
claim and slot, the groups and CHECK_DUE at 512, and STORE_LOW are written in the same action; the
channel is HELD with the result, or, for an orphaned job, unbound with its group invalidated; so it is
where step 3 of the detach course has passed the channel and step 4 has not yet reached the job (R186,
log 7). -/
def Obligations.SizingCommitWritesTheTube : Prop :=
  ∀ (s : State) (j : Job) (st : Settings) (tb : Tube) (d : Bool),
    s.sizing.flight = some (j, st) → s.tubes[j.index]? = some tb →
    s.slot j.port j.tag = some ⟨j.index, .inPull, d⟩ →
    let kept := keptOf st.curve j.records
    let free := s.free + tb.list.length
    let m := min kept.length free
    let u := s.cal.get j.chan
    let group := if j.index ∈ u.group then u.group else u.group ++ [j.index]
    ∃ t stored, exec .sizingCommit s = .next t
      ∧ stored.Perm (kept.take m) ∧ stored.Pairwise (fun a b => a.position ≤ b.position)
      ∧ t.free = free - m
      ∧ t.sizing = { s.sizing with flight := none }
      ∧ t.claims = s.claims.set j.port ((s.claims.get j.port).set j.tag none)
      ∧ (∀ p, t.ports.get p
          = { s.ports.get p with
              notices :=
                if (s.ports.get p).role ≠ .none ∧ t.free < 512 ∧ t.free < s.free then
                  { (s.ports.get p).notices with storeLow := true }
                else (s.ports.get p).notices
              bound :=
                if (j.orphan = true ∨ (s.chan.get j.chan).passed = true)
                    ∧ (s.chan.get j.chan).binding = some p then
                  (s.ports.get p).bound.set j.chan false
                else (s.ports.get p).bound })
      ∧ (∀ c, c ≠ j.chan → t.chan.get c = s.chan.get c ∧ t.pull.get c = s.pull.get c
          ∧ t.cal.get c
            = { s.cal.get c with group := (s.cal.get c).group.filter (fun i => i != j.index) })
      ∧ t.planState = s.planState ∧ t.plan = s.plan ∧ t.lock = s.lock ∧ t.rows = s.rows
      ∧ t.seconds = s.seconds ∧ t.rescreen = s.rescreen ∧ t.pending = s.pending
      ∧ (∀ committed : Tube, committed =
          { tb with
            status := classify st j.fault (worstOf kept), attempts := 0, claim := none
            worst := worstOf kept, list := stored, truncated := decide (m < j.found)
            suspect := false, lastPull := some (j.chan, j.epoch) } →
        (j.orphan = false → (s.chan.get j.chan).passed = false →
          t.tubes = s.tubes.set j.index committed
          ∧ t.chan.get j.chan = { s.chan.get j.chan with state := .held }
          ∧ t.cal.get j.chan
            = { u with
                group := group
                state := if u.state = .calibrated ∧ u.group.length < 512 ∧ 512 ≤ group.length
                  then .checkDue else u.state }
          ∧ t.pull.get j.chan
            = { s.pull.get j.chan with
                result := some (.tube
                  { chan := j.chan, row := j.row, col := j.col, tag := j.tag
                    outcome := .committed, status := committed.status, fault := j.fault
                    further := j.further, truncated := committed.truncated
                    samples := j.samples, thin := j.thin, supports := j.supports
                    found := j.found, kept := m, worst := committed.worst
                    epoch := j.epoch }) })
        ∧ (j.orphan = true ∨ (s.chan.get j.chan).passed = true →
          t.tubes = InvalidatedTubes group (s.tubes.set j.index committed)
          ∧ t.chan.get j.chan
            = { s.chan.get j.chan with
                binding := none, state := .unbound, kind := none, excited := false
                settle := none, probeOpen := false, waiting := [], passed := false }
          ∧ t.cal.get j.chan = { Uncalibrated u with group := [] }
          ∧ t.pull.get j.chan = { s.pull.get j.chan with result := none }))

/-- R25, R157, R163, R165: the write of a step in flight passes over a tube that holds a claim or is
not judged, and otherwise reads its records again under the step's settings and classifies it; the
cursor rises and the step ends; at the tube count the pass is DONE and the REVIEW station is told. The
worst depth of the list read again is the depth of the record that no other is deeper than (R142), and
there is none exactly for an empty list. -/
def Obligations.RescreenStepRereadsTheTube : Prop :=
  (∀ list : List Indication,
    (worstOf list = none ↔ list = [])
    ∧ ∀ d, worstOf list = some d → ∃ x ∈ list, x.depth = d ∧ ∀ y ∈ list, ¬ Deeper y x)
  ∧ ∀ (s : State) (st : Settings) (tb : Tube), s.sizing.step = some st → st.report ≤ st.plug →
    s.tubes[s.rescreen.cursor]? = some tb →
    let judged : Prop := tb.status = .clear ∨ tb.status = .reportable ∨ tb.status = .plug
      ∨ tb.status = .unresolved .indefiniteDepth
    let list := tb.list.map (fun x =>
      { x with
        depth := if x.clipped then .indefinite else .pct (st.curve.read x.phase).1
        outOfCurve := if x.clipped then false else (st.curve.read x.phase).2 })
    let tb' : Tube :=
      { tb with
        list := list, worst := worstOf list
        status :=
          match worstOf list with
          | none => .clear
          | some .indefinite => .unresolved .indefiniteDepth
          | some (.pct n) =>
            if st.plug ≤ n then .plug else if st.report ≤ n then .reportable else .clear }
    let last : Prop := s.rescreen.cursor + 1 = s.tubes.length
    exec .rescreenStepWrite s
      = .next { s with
          tubes := if tb.claim = none ∧ judged then s.tubes.set s.rescreen.cursor tb' else s.tubes
          rescreen :=
            { s.rescreen with
              cursor := s.rescreen.cursor + 1
              phase := if last then .done else s.rescreen.phase }
          sizing := { s.sizing with step := none }
          ports := s.ports.map (fun x =>
            if last ∧ x.role = .review then
              { x with notices := { x.notices with rescreenDone := true } }
            else x) }

/-! ## Results, status and readouts -/

/-- A number that may be absent, as a field of `width` characters holds it: all ones when absent
(R188). -/
def Maybe (width : Nat) (n : Option Nat) : List Byte :=
  if width = 1 then c1 (n.getD 255) else c2 (n.getD 65535)

/-- A depth character: 0 to 100, INDEFINITE 254, absent 255 (R188). -/
def DepthChar : Option Depth → List Byte
  | some (.pct d) => c1 d
  | some .indefinite => c1 254
  | none => c1 255

/-- A signed number of four characters, 80000000h when absent (R188). -/
def Signed4 : Option Int → List Byte
  | some n => c4 (BitVec.ofInt 32 n).toNat
  | none => [0, 0, 0, 0x80]

/-- A bit of a flags character. -/
def Bit (b : Bool) (weight : Nat) : Nat := if b then weight else 0

/-- The number of a fault code (R189). -/
def FaultNumber : PullFault → Nat
  | .probeOpen => 1
  | .overspeed => 2
  | .saturated => 3
  | .encoderReverse => 4
  | .timeout => 5
  | .shortPull => 6
  | .restricted => 7
  | .supportMismatch => 8

/-- The status, reason and fault characters of a tube (R189). -/
def StatusChars : Status → List Byte
  | .noTube => [0, 255, 255]
  | .priorPlug => [1, 255, 255]
  | .outOfScope => [2, 255, 255]
  | .pending => [3, 255, 255]
  | .repull => [4, 255, 255]
  | .clear => [5, 255, 255]
  | .reportable => [6, 255, 255]
  | .plug => [7, 255, 255]
  | .unresolved .indefiniteDepth => [8, 0, 255]
  | .unresolved .attempts => [8, 2, 255]
  | .unresolved (.serviceFault f) => [8, 1, BitVec.ofNat 8 (FaultNumber f)]

/-- The trace character of a record (R189). -/
def TraceChar : Trace → Byte
  | .raw .f1d => 0
  | .raw .f1a => 1
  | .raw .f2d => 2
  | .raw .f2a => 3
  | .raw .f3d => 4
  | .raw .f3a => 5
  | .raw .f4d => 6
  | .raw .f4a => 7
  | .m1 => 8
  | .m2 => 9

/-- The number of a trace outcome or calibration reason that is no pass (R189). -/
def ReasonNumber : CalReason → Nat
  | .clipped => 1
  | .weak => 2
  | .strong => 3
  | .amplitude => 4
  | .phase => 5
  | .short => 6

/-- A trace entry of R189, item by item; a pass is 0. -/
def TraceItems (e : TraceEntry) : List Byte :=
  [TraceChar (.raw e.trace)] ++ c4 e.amplitude ++ c2 e.phase
    ++ c1 (match e.failed with
      | none => 0
      | some why => ReasonNumber why)
    ++ Maybe 2 (e.written.map (fun g => g.gain)) ++ Maybe 2 (e.written.map (fun g => g.rotation))

/-- A mix entry of a calibration result, item by item: both coefficients are absent unless the mix is
learned (R189). -/
def MixItems : MixOutcome → List Byte
  | .learned k => c1 1 ++ Signed4 (some k.a) ++ Signed4 (some k.b)
  | .absent => c1 2 ++ Signed4 none ++ Signed4 none
  | .weak => c1 3 ++ Signed4 none ++ Signed4 none
  | .ill => c1 4 ++ Signed4 none ++ Signed4 none
  | .noDefinition => c1 5 ++ Signed4 none ++ Signed4 none

/-- The character of a pull kind (R189). -/
def KindChar : PullKind → List Byte
  | .tube => c1 0
  | .calFull => c1 1
  | .calCheck => c1 2

/-- The layouts of a tube result and of a calibration result of R189, item by item. -/
def ResultItems : Result → List Byte
  | .tube r =>
    c1 0 ++ c1 r.chan.val ++ c2 r.row ++ c2 r.col ++ c1 r.tag.val
      ++ c1 (match r.outcome with
        | .committed => 0
        | .faulted => 1)
      ++ (StatusChars r.status).take 2 ++ Maybe 1 (r.fault.map FaultNumber)
      ++ c1 (Bit r.further 1 + Bit r.truncated 2) ++ c2 r.samples ++ c2 r.thin ++ c2 r.supports
      ++ c2 r.found ++ c1 r.kept ++ DepthChar r.worst ++ c2 r.epoch.toNat
  | .cal r =>
    KindChar r.kind ++ c1 r.chan.val
      ++ c1 (match r.outcome with
        | .passed => 0
        | .failed => 1
        | .faulted => 2
        | .short => 3)
      ++ Maybe 1 (r.reason.map ReasonNumber) ++ Maybe 1 (r.fault.map FaultNumber)
      ++ c1 (Bit r.further 1) ++ c2 r.samples ++ c2 r.thin ++ c1 r.checkFaults ++ c2 r.invalidated
      ++ c1 (match r.state with
        | .uncalibrated => 0
        | .calibrated => 1
        | .checkDue => 2)
      ++ c2 r.epoch.toNat ++ c1 r.traces.length ++ r.traces.flatMap TraceItems
      ++ c1 r.mixes.length ++ r.mixes.flatMap MixItems

/-- R168, R171, R189: RESULT_TAKE answers a HELD channel's record item by item, 24 characters for a tube
pull and 18 + 12 t + 9 x for a calibration pull of t trace entries and x mix entries (its further-faults
flag, absent unless FAULTED, a bit 0 that is then clear, is log 33), discards it and makes the channel
READY; STATUS answers the role, the channels and the notice set, with the reflecting items formed from
the channels, and empties the latched ones. RESULT_TAKE is refused with ROLE, RANGE or NOT_BOUND in that
order, and on a channel that is not HELD with STATE or BUSY. -/
def Obligations.ResultsAndNoticesAreTaken : Prop :=
  (∀ (s : State) (p : Port) (b : Byte), s.takes p ⟨0x37, [b], false⟩ →
    (s.ports.get p).role ≠ .none →
    ((s.ports.get p).role ≠ .crew → Refuses (.resultTake p [b]) s p 0x03)
    ∧ ((s.ports.get p).role = .crew → 3 < b.toNat → Refuses (.resultTake p [b]) s p 0x06)
    ∧ ((s.ports.get p).role = .crew → ∀ c : Chan, b.toNat = c.val → s.holdsChan p c = false →
        Refuses (.resultTake p [b]) s p 0x11))
  ∧ ∀ (s : State) (p : Port),
    (∀ (b : Byte) (c : Chan) (r : Result), s.takes p ⟨0x37, [b], false⟩ →
      (s.ports.get p).role = .crew → b.toNat = c.val → s.holdsChan p c = true →
      ((s.chan.get c).state = .settling ∨ (s.chan.get c).state = .ready →
        Refuses (.resultTake p [b]) s p 0x04)
      ∧ ((s.chan.get c).state = .pulling ∨ (s.chan.get c).state = .sizing →
        Refuses (.resultTake p [b]) s p 0x10)
      ∧ ((s.chan.get c).state = .held → (s.pull.get c).result = some r →
        exec (.resultTake p [b]) s
          = .next (State.answered
              { s with
                pull := s.pull.set c { s.pull.get c with result := none }
                chan := s.chan.set c { s.chan.get c with state := .ready, kind := none } }
              p 0xF0 (ResultItems r))))
    ∧ (s.takes p ⟨0x40, [], false⟩ → (s.ports.get p).role ≠ .none →
        let x := s.ports.get p
        exec (.status p []) s
          = .next (State.answered
              { s with
                ports := s.ports.set p
                  { x with
                    notices :=
                      { claimExpired := FourSet.empty, claimRevoked := FourSet.empty
                        storeLow := false, rescreenDone := false } } }
              p 0xF0
              ([(if x.role = .crew then 1 else 2)]
                ++ setChar x.bound
                ++ setChar (Quad.ofFn (fun c =>
                    x.bound.get c && decide ((s.chan.get c).state = .held)))
                ++ setChar (Quad.ofFn (fun c =>
                    x.bound.get c && decide ((s.cal.get c).state = .checkDue)))
                ++ setChar x.notices.claimExpired ++ setChar x.notices.claimRevoked
                ++ flags x.notices.storeLow x.notices.rescreenDone false)))
    ∧ (∀ r : TubeResult, (ResultItems (.tube r)).length = 24)
    ∧ (∀ r : CalResult,
        (ResultItems (.cal r)).length = 18 + 12 * r.traces.length + 9 * r.mixes.length)

/-- The tube layout of R173 and R189, item by item. -/
def TubeItems (s : State) (i : Nat) (tb : Tube) : List Byte :=
  let lease : Option Nat :=
    match tb.claim with
    | some cf =>
      match s.slot cf.port cf.tag with
      | some ⟨_, .leased deadline, _⟩ => some (deadline - s.now)
      | _ => none
    | none => none
  let group : Option Nat :=
    if i ∈ (s.cal.get 0).group then some 0
    else if i ∈ (s.cal.get 1).group then some 1
    else if i ∈ (s.cal.get 2).group then some 2
    else if i ∈ (s.cal.get 3).group then some 3
    else none
  c2 i ++ c2 tb.row ++ c2 tb.col ++ StatusChars tb.status ++ c1 tb.attempts
    ++ Maybe 1 (tb.claim.map (fun cf => cf.port.val))
    ++ Maybe 1 (tb.claim.map (fun cf => cf.tag.val))
    ++ Maybe 1 (tb.claim.map (fun cf => if cf.inPull then 1 else 0))
    ++ Maybe 2 lease ++ DepthChar tb.worst ++ c1 tb.list.length
    ++ c1 (Bit tb.truncated 1 + Bit tb.suspect 2)
    ++ Maybe 1 (tb.lastPull.map (fun x => x.1.val))
    ++ Maybe 2 (tb.lastPull.map (fun x => x.2.toNat))
    ++ Maybe 1 group

/-- The indication layout of R174 and R189, item by item. -/
def IndicationItems (x : Indication) : List Byte :=
  c2 x.position ++ Maybe 2 (x.support.map (fun at_ => at_.1))
    ++ Signed4 (x.support.map (fun at_ => at_.2)) ++ [TraceChar x.trace] ++ c2 x.amplitude
    ++ c2 x.phase ++ DepthChar (some x.depth)
    ++ c1 (Bit x.clipped 1 + Bit x.long 2 + Bit x.outOfCurve 4)

/-- The summary layout of R176 and R189, item by item. -/
def SummaryItems (s : State) : List Byte :=
  let count (f : Status → Bool) : List Byte := c2 (s.tubes.countP (fun tb => f tb.status))
  c1 (match s.planState with
      | .empty => 0
      | .draft => 1
      | .active => 2
      | .closed => 3)
    ++ c1 (Bit s.lock 1) ++ c1 s.plan.name.length
    ++ (s.plan.name ++ List.replicate 16 0).take 16 ++ c2 s.plan.tubeLength
    ++ c2 s.tubes.length
    ++ count (fun st => decide (st = .noTube)) ++ count (fun st => decide (st = .priorPlug))
    ++ count (fun st => decide (st = .outOfScope)) ++ count (fun st => decide (st = .pending))
    ++ count (fun st => decide (st = .repull)) ++ count (fun st => decide (st = .clear))
    ++ count (fun st => decide (st = .reportable)) ++ count (fun st => decide (st = .plug))
    ++ count (fun st =>
      match st with
      | .unresolved _ => true
      | _ => false)
    ++ c1 ((four.flatMap (fun p => four.map (fun t => (p, t)))).countP
        (fun x => (s.slot x.1 x.2).isSome))
    ++ c2 s.free ++ c1 s.jobs.length
    ++ c1 (match s.rescreen.phase with
      | .idle => 0
      | .underWay => if s.jobs = [] then 1 else 2
      | .done => 3)
    ++ c2 s.rescreen.cursor ++ c2 s.rescreen.restarts ++ c1 (Bit s.rescreen.incomplete 1)

/-- The channel layout of R177 and R189, item by item. -/
def ChannelItems (s : State) (c : Chan) : List Byte :=
  let ch := s.chan.get c
  let u := s.cal.get c
  let orphan : Bool := decide (ch.state = .sizing ∧ ∃ j ∈ s.jobs, j.chan = c ∧ j.orphan = true)
  let remaining : Option Nat :=
    if u.state = .calibrated then u.lastGood.map (fun g => g + 60 * s.plan.calInterval - s.now)
    else none
  let mix (k : Option Coef) : List Byte :=
    c1 (Bit k.isSome 1) ++ Signed4 (k.map (fun k => k.a)) ++ Signed4 (k.map (fun k => k.b))
  c1 c.val ++ Maybe 1 (ch.binding.map (fun p => p.val))
    ++ c1 (match ch.state with
      | .unbound => 0
      | .settling => 1
      | .ready => 2
      | .pulling => 3
      | .sizing => 4
      | .held => 5)
    ++ Maybe 1 (ch.kind.map (fun kind =>
      match kind with
      | .tube => 0
      | .calFull => 1
      | .calCheck => 2))
    ++ c1 (Bit orphan 1)
    ++ Maybe 2 (ch.slots.get 0) ++ Maybe 2 (ch.slots.get 1) ++ Maybe 2 (ch.slots.get 2)
    ++ Maybe 2 (ch.slots.get 3) ++ c1 (Bit ch.probeOpen 1)
    ++ c1 (match u.state with
      | .uncalibrated => 0
      | .calibrated => 1
      | .checkDue => 2)
    ++ Maybe 1 (u.slots.map (fun q =>
      Bit (q.get 0) 1 + Bit (q.get 1) 2 + Bit (q.get 2) 4 + Bit (q.get 3) 8))
    ++ mix u.mix1 ++ mix u.mix2 ++ c2 u.epoch.toNat ++ Maybe 2 remaining ++ c1 u.checkFaults
    ++ c2 u.group.length

/-- R172 to R177, R188, R189: each readout is accepted from every attached station, writes no state but
its port's reply, and answers the items of its layout in their order: 22, 16, 51 and 41 characters, and
for LIST_READ up to 27 entries. A place that names no tube is refused with NO_TUBE, and a place in the
list, a status, a starting index or a channel out of range with RANGE. While the times that run lie
ahead (TimeLaw, which every step keeps), the lease remaining of a claim that is not in pull and the
interval remaining of a CALIBRATED channel are at least 1. -/
def Obligations.ReadoutsWriteNoState : Prop :=
  (∀ (s : State) (p : Port), (s.ports.get p).role ≠ .none →
    (∀ r0 r1 k0 k1 : Byte, s.takes p ⟨0x41, [r0, r1, k0, k1], false⟩ →
      let place : Place := ⟨r0.toNat + 256 * r1.toNat, k0.toNat + 256 * k1.toNat⟩
      (s.tubeAt place = none → Refuses (.tubeRead p [r0, r1, k0, k1]) s p 0x09)
      ∧ ∀ i tb, s.tubeAt place = some (i, tb) →
        (TubeItems s i tb).length = 22
        ∧ exec (.tubeRead p [r0, r1, k0, k1]) s = .next (s.answered p 0xF0 (TubeItems s i tb)))
    ∧ (∀ r0 r1 k0 k1 n : Byte, s.takes p ⟨0x42, [r0, r1, k0, k1, n], false⟩ →
      let place : Place := ⟨r0.toNat + 256 * r1.toNat, k0.toNat + 256 * k1.toNat⟩
      (n.toNat < 1 ∨ 16 < n.toNat → Refuses (.indRead p [r0, r1, k0, k1, n]) s p 0x06)
      ∧ (1 ≤ n.toNat → n.toNat ≤ 16 →
        (s.tubeAt place = none → Refuses (.indRead p [r0, r1, k0, k1, n]) s p 0x09)
        ∧ ∀ i tb, s.tubeAt place = some (i, tb) →
          (tb.list.length < n.toNat → Refuses (.indRead p [r0, r1, k0, k1, n]) s p 0x06)
          ∧ ∀ x, tb.list[n.toNat - 1]? = some x →
            (IndicationItems x).length = 15
            ∧ exec (.indRead p [r0, r1, k0, k1, n]) s
              = .next (s.answered p 0xF0 (c1 tb.list.length ++ IndicationItems x))))
    ∧ (∀ st a b : Byte, s.takes p ⟨0x43, [st, a, b], false⟩ →
      let start := a.toNat + 256 * b.toNat
      (8 < st.toNat ∨ s.tubes.length < start → Refuses (.listRead p [st, a, b]) s p 0x06)
      ∧ (st.toNat ≤ 8 → start ≤ s.tubes.length →
        ∃ entries : List (Nat × Tube),
          entries.length ≤ 27
          ∧ (entries.map Prod.fst).Pairwise (· < ·)
          ∧ (∀ x ∈ entries, start ≤ x.1 ∧ s.tubes[x.1]? = some x.2
              ∧ (StatusChars x.2.status).head? = some st)
          ∧ (∀ i tb, start ≤ i → s.tubes[i]? = some tb → (StatusChars tb.status).head? = some st →
              (∃ x ∈ entries, x.1 = i) ∨ entries.length = 27 ∧ ∀ x ∈ entries, x.1 < i)
          ∧ ∃ next, next = (if entries.length = 27 then
                (entries.getLast?.map (fun x => x.1 + 1)).getD 0 else s.tubes.length)
            ∧ exec (.listRead p [st, a, b]) s
              = .next (s.answered p 0xF0
                  (c2 next ++ c1 entries.length ++ entries.flatMap (fun x =>
                    c2 x.1 ++ c2 x.2.row ++ c2 x.2.col ++ (StatusChars x.2.status).drop 1
                      ++ DepthChar x.2.worst)))))
    ∧ (s.takes p ⟨0x44, [], false⟩ →
        (SummaryItems s).length = 51
        ∧ exec (.summaryRead p []) s = .next (s.answered p 0xF0 (SummaryItems s)))
    ∧ (∀ b : Byte, s.takes p ⟨0x45, [b], false⟩ →
        (∀ c : Chan, b.toNat = c.val →
          (ChannelItems s c).length = 41
          ∧ exec (.channelRead p [b]) s = .next (s.answered p 0xF0 (ChannelItems s c)))
        ∧ (3 < b.toNat → Refuses (.channelRead p [b]) s p 0x06)))
  ∧ ∀ s : State, TimeLaw s →
      (∀ p t i deadline d, s.slot p t = some ⟨i, .leased deadline, d⟩ → 1 ≤ deadline - s.now)
      ∧ (∀ c, (s.cal.get c).state = .calibrated → ∃ g, (s.cal.get c).lastGood = some g
          ∧ 1 ≤ g + 60 * s.plan.calInterval - s.now)

/-! ## Time and resets -/

/-- The lease of a claim in slot `t` of port `p`, not in pull, has its deadline at or before a count. -/
def DueBy (s : State) (p : Port) (t : Tag) (count : Nat) : Bool :=
  match s.slot p t with
  | some ⟨_, .leased deadline, _⟩ => decide (deadline ≤ count)
  | _ => false

/-- R31, R37, R45, R127, R128: a tick raises the Time Base count, 32 bits wide, by one second, and with
it are taken the expiries that the new count reaches: each lease due ends, its slot emptied and its
tube's claim field removed, with its tag added to CLAIM_EXPIRED of a station that has not departed; each
CALIBRATED channel whose last good time + 60 × the interval in force is reached becomes CHECK_DUE;
nothing else changes. The expiry of an interval that still stands makes a CALIBRATED channel CHECK_DUE
and changes nothing else. That the count wraps is log 5; that the tick takes the expiries is the model's
reading (log 6); that an expiry before its time changes nothing is the model's choice (log 2). -/
def Obligations.TimeMakesAChannelCheckDue : Prop :=
  ∀ (s : State) (c : Chan),
    (s.seconds.toNat < 4294967295 →
      let count := s.seconds.toNat + 1
      ∃ t, exec .timeBaseTick s = .next t ∧ t.seconds.toNat = count
        ∧ t = { s with
            seconds := t.seconds, claims := t.claims, tubes := t.tubes, ports := t.ports
            cal := s.cal.map (fun u =>
              if u.state = .calibrated
                  ∧ u.lastGood.any (fun g => decide (g + 60 * s.plan.calInterval ≤ count)) = true
              then { u with state := .checkDue } else u) }
        ∧ (∀ p u, t.slot p u = if DueBy s p u count then none else s.slot p u)
        ∧ t.tubes.length = s.tubes.length
        ∧ (∀ i tb, s.tubes[i]? = some tb →
            ((∃ p u cl, DueBy s p u count = true ∧ s.slot p u = some cl ∧ cl.tube = i) →
              t.tubes[i]? = some { tb with claim := none })
            ∧ ((∀ p u cl, DueBy s p u count = true → s.slot p u = some cl → cl.tube ≠ i) →
              t.tubes[i]? = some tb))
        ∧ (∀ p, ∃ told : FourSet,
            (∀ u, told.get u = true ↔ (s.ports.get p).notices.claimExpired.get u = true
              ∨ DueBy s p u count = true ∧ ∃ cl, s.slot p u = some cl ∧ cl.departed = false)
            ∧ t.ports.get p
              = { s.ports.get p with
                  notices := { (s.ports.get p).notices with claimExpired := told } }))
    ∧ (∀ good, (s.cal.get c).state = .calibrated → (s.cal.get c).lastGood = some good →
        (good + 60 * s.plan.calInterval ≤ s.now →
          exec (.calibrationIntervalExpiry c) s
            = .next { s with cal := s.cal.set c { s.cal.get c with state := .checkDue } })
        ∧ (s.now < good + 60 * s.plan.calInterval →
          exec (.calibrationIntervalExpiry c) s = .next s))
    ∧ ((s.cal.get c).state ≠ .calibrated →
        exec (.calibrationIntervalExpiry c) s = .next s)

/-- R1, R28, R47, R66, R113, R137, R156, R166, R178 and R27: warm reset keeps the plan, the rows, the
store, the Time Base and the epochs, removes every claim, writes the tubes of every group as an
invalidation does, and brings every port, channel, controller, unit and the sequencer to their reset
values, with the incomplete flag set where a pass was under way; power-on reset brings every item of
every block to its power-on value, the plan record to its defaults (R1). The queue of commands is no
part of the E4 (log 28), a break still stands after a warm reset (log 10), and the values of the model's
own items (no next divider, no passed mark, no reverse report) are its choice (log 26). -/
def Obligations.ResetsLeaveTheResetValues : Prop :=
  ∀ s : State,
    exec .warmReset s
      = .next
          { planState := s.planState, plan := s.plan, lock := s.lock, rows := s.rows
            seconds := s.seconds, free := s.free, pending := s.pending
            ports := s.ports.map (fun x =>
              { divider := 7, nextDivider := none, assembly := .hunt, reply := none
                breakTaken := x.breakTaken, role := .none, policy := none
                bound := FourSet.empty, notices := Notices.empty })
            tubes := s.tubes.mapIdx (fun i tb =>
              if ∃ c, i ∈ (s.cal.get c).group then
                { tb with status := .repull, suspect := true, claim := none }
              else { tb with claim := none })
            claims := ⟨⟨none, none, none, none⟩, ⟨none, none, none, none⟩,
              ⟨none, none, none, none⟩, ⟨none, none, none, none⟩⟩
            chan := Quad.fill
              { binding := none, state := .unbound, kind := none
                slots := ⟨some 1, some 3, some 9, some 39⟩, excited := false, settle := none
                probeOpen := false, position := 0, lowest := 0, lastDue := 0, waiting := []
                thin := 0, reverseReported := false, passed := false }
            pull := Quad.fill
              { record := none, samples := 0, null := .absent, armed := true, supports := 0
                supportAt := [], detector := .armed, buffer := [], found := 0, latch := []
                result := none }
            cal := s.cal.map (fun u =>
              { state := .uncalibrated, slots := none, gains := noGains, mix1 := none
                mix2 := none, epoch := u.epoch, lastGood := none, checkFaults := 0
                group := [], capture := ⟨none, [], [], [], []⟩ })
            sizing := ⟨[], none, none⟩
            rescreen :=
              { s.rescreen with
                phase := .idle
                incomplete :=
                  s.rescreen.incomplete || decide (s.rescreen.phase = .underWay) } }
    ∧ exec .powerOnReset s = .next { State.reset with pending := s.pending }
    ∧ exec .powerOnReset s
      = .next
          { planState := .empty
            plan :=
              { name := [], tubeLength := 12000, curve := none, openT := 500, closeT := 300
                supportT := 2000, report := 20, plug := 40, attemptLimit := 3, lease := 600
                pullLimit := 120, calInterval := 240, detection := .raw .f1d
                support := .raw .f4a, mixes := [], standard := none }
            lock := false, rows := [], tubes := [], seconds := 0, free := 8192
            pending := s.pending
            ports := Quad.fill
              { divider := 7, nextDivider := none, assembly := .hunt, reply := none
                breakTaken := false, role := .none, policy := none
                bound := ⟨false, false, false, false⟩
                notices :=
                  { claimExpired := ⟨false, false, false, false⟩
                    claimRevoked := ⟨false, false, false, false⟩
                    storeLow := false, rescreenDone := false } }
            claims := Quad.fill ⟨none, none, none, none⟩
            chan := Quad.fill
              { binding := none, state := .unbound, kind := none
                slots := ⟨some 1, some 3, some 9, some 39⟩, excited := false, settle := none
                probeOpen := false, position := 0, lowest := 0, lastDue := 0, waiting := []
                thin := 0, reverseReported := false, passed := false }
            pull := Quad.fill
              { record := none, samples := 0, null := .absent, armed := true, supports := 0
                supportAt := [], detector := .armed, buffer := [], found := 0, latch := []
                result := none }
            cal := Quad.fill
              { state := .uncalibrated, slots := none, gains := noGains, mix1 := none
                mix2 := none, epoch := 0, lastGood := none, checkFaults := 0
                group := [], capture := ⟨none, [], [], [], []⟩ }
            sizing := ⟨[], none, none⟩
            rescreen := ⟨.idle, 0, 0, false⟩ }

/-- R46, R65, R85, R89, R132, R134, R147, R186: the parts of the detach course, each once the earlier
parts have nothing left to do for the port. Step 1 aborts every departed PULLING channel: a tube pull's
claim stays on a new lease, a calibration pull's capture is emptied. Step 2 empties the slots of
departed claims that are not in pull and removes their tubes' claim fields, with no notice. Step 3
unbinds a departed channel that is not SIZING, discards its result and invalidates its group, and passes
one that is SIZING. Step 4 marks the jobs of departed channels. A part whose turn has not come, or that
has nothing to do, changes nothing. What the passed mark stands for and how a part finds its turn are
log 7, that a part with nothing to do is no event is log 2, that a second detach merges its course with
one that still runs is log 31, and that step 2 ends a claim the new station had put in pull is log 32. -/
def Obligations.DetachCourseFreesTheStation : Prop :=
  ∀ (s : State) (p : Port),
    let departed (c : Chan) : Prop := (s.chan.get c).binding = some p ∧ s.holdsChan p c = false
    let pulls (c : Chan) : Prop := departed c ∧ (s.chan.get c).state = .pulling
    let step1 : Prop := ∀ c, ¬ pulls c
    let ends (t : Tag) : Prop := ∃ i deadline, s.slot p t = some ⟨i, .leased deadline, true⟩
    let step2 : Prop := step1 ∧ ∀ t, ¬ ends t
    let step3 : Prop := step2 ∧ ∀ c, departed c → (s.chan.get c).state = .sizing
    (PullLaw s → ChannelLaw s →
      ∃ t, exec (.detachPullAbort p) s = .next t
        ∧ t = { s with
            pull := t.pull, chan := t.chan, cal := t.cal, claims := t.claims, tubes := t.tubes }
        ∧ t.tubes.length = s.tubes.length
        ∧ (∀ c, pulls c →
            t.pull.get c = Discarded (s.pull.get c) [] none
            ∧ t.chan.get c = { s.chan.get c with state := .ready, kind := none, waiting := [] }
            ∧ t.cal.get c = if (s.chan.get c).kind = some .tube then s.cal.get c
                else { s.cal.get c with capture := Capture.empty })
        ∧ (∀ c, ¬ pulls c → t.pull.get c = s.pull.get c ∧ t.chan.get c = s.chan.get c
            ∧ t.cal.get c = s.cal.get c)
        ∧ (∀ c q u i d tb, pulls c → s.tubePull c q u i → s.slot q u = some ⟨i, .inPull, d⟩ →
            s.tubes[i]? = some tb →
            t.slot q u = some ⟨i, .leased (s.now + s.plan.lease), d⟩
            ∧ t.tubes[i]? = some { tb with claim := some ⟨q, u, false⟩ })
        ∧ (∀ q u, (∀ c i, pulls c → ¬ s.tubePull c q u i) → t.slot q u = s.slot q u)
        ∧ (∀ i tb, (∀ c q u, pulls c → ¬ s.tubePull c q u i) → s.tubes[i]? = some tb →
            t.tubes[i]? = some tb))
    ∧ (step1 → exec (.detachPullAbort p) s = .next s)
    ∧ (step1 → ∃ t, exec (.detachClaimRemoval p) s = .next t
        ∧ t = { s with claims := t.claims, tubes := t.tubes }
        ∧ (∀ q u, (q = p ∧ ends u → t.slot q u = none)
            ∧ (¬ (q = p ∧ ends u) → t.slot q u = s.slot q u))
        ∧ t.tubes.length = s.tubes.length
        ∧ (∀ i tb, s.tubes[i]? = some tb →
            ((∃ u deadline, s.slot p u = some ⟨i, .leased deadline, true⟩) →
              t.tubes[i]? = some { tb with claim := none })
            ∧ ((∀ u deadline, s.slot p u ≠ some ⟨i, .leased deadline, true⟩) →
              t.tubes[i]? = some tb))
        ∧ (ClaimLaw s → ClaimLaw t))
    ∧ (¬ step1 → exec (.detachClaimRemoval p) s = .next s)
    ∧ (∀ c, departed c → step2 →
        ((s.chan.get c).state ≠ .sizing →
          exec (.forcedUnbind c) s
            = .next { s with
                pull := s.pull.set c { s.pull.get c with result := none }
                chan := s.chan.set c
                  { s.chan.get c with
                    binding := none, state := .unbound, kind := none, excited := false
                    settle := none, probeOpen := false, waiting := [], passed := false }
                tubes := InvalidatedTubes (s.cal.get c).group s.tubes
                cal := s.cal.set c { Uncalibrated (s.cal.get c) with group := [] } })
        ∧ ((s.chan.get c).state = .sizing →
          exec (.forcedUnbind c) s
            = .next { s with chan := s.chan.set c { s.chan.get c with passed := true } }))
    ∧ (∀ c, (s.chan.get c).binding = none ∨ (s.chan.get c).binding = some p
          ∧ (s.holdsChan p c = true ∨ ¬ step2) →
        exec (.forcedUnbind c) s = .next s)
    ∧ (step3 →
        exec (.orphanMark p) s
          = .next { s with
              sizing :=
                { s.sizing with
                  queue := s.sizing.queue.map (fun j =>
                    if (s.chan.get j.chan).binding = some p ∧ s.holdsChan p j.chan = false then
                      { j with orphan := true }
                    else j)
                  flight := s.sizing.flight.map (fun x =>
                    (if (s.chan.get x.1.chan).binding = some p
                        ∧ s.holdsChan p x.1.chan = false then
                      { x.1 with orphan := true }
                     else x.1, x.2)) } })
    ∧ (¬ step3 → exec (.orphanMark p) s = .next s)

/-! ## Signal arithmetic -/

/-- `q` is `n / d` rounded half to even, for a positive `d` (R93). -/
def RoundsTo (n d q : Int) : Prop :=
  2 * (n - q * d).natAbs ≤ d.natAbs ∧ (2 * (n - q * d).natAbs = d.natAbs → q % 2 = 0)

/-- `y` is the value of rounded components `p` and `q` clamped to ±20,000 mV, clipped where `mark` is or
where a clamp acts (R94, R96 to R98). -/
def ClampsTo (p q : Int) (mark : Bool) (y : Sig) : Prop :=
  let clamp (x : Int) : Int := max (-20000) (min 20000 x)
  y.value = ⟨clamp p, clamp q⟩ ∧ y.clipped = (mark || decide (clamp p ≠ p ∨ clamp q ≠ q))

/-- R92 to R98, R100 to R103, R105 to R107: the figures of the signal arithmetic. A calibrated component
is the exact one g × (X cos θ − Y sin θ) or g × (X sin θ + Y cos θ) rounded, to within a thousandth
beyond the half, and at rotation 0 exactly half to even; a null component is the sum of 16 divided by
16, a mix component the complex difference over 4,096, both half to even; calibrated, nulled and mixed
components are clamped to ±20,000 mV with the clipped mark. The peak-to-peak vector is that of the first
pair of greatest distance, the amplitude its rounded length; the folded phase and the rotation are those
of the angle rounded to tenths, to within a thousandth beyond the half; the gain step is 2,560,000 over
the length, half to even. A depth read from a curve that CURVE_SET accepts is the first depth at or
below the first point, the last at or above the last, with the flag set exactly beyond them, and between
two points it is the interpolation rounded half to even. That the rounding of an irrational figure is
that of the exact value is log 12. -/
def Obligations.ComputedValuesLieInTheirRanges : Prop :=
  (∀ (g : GainRot) (r : Raw) (null : Vec) (k : Coef) (a b : Sig),
    ∀ v ∈ [calibrate g r, nulled a null, mixValue k a b],
      -20000 ≤ v.value.x ∧ v.value.x ≤ 20000 ∧ -20000 ≤ v.value.y ∧ v.value.y ≤ 20000)
  ∧ (∀ (g : GainRot) (r : Raw), g.gain ≤ 16384 → g.rotation < 3600 →
      let scale : ℝ := (g.gain : ℝ) / 256
      let angle : ℝ := (g.rotation : ℝ) * Real.pi / 1800
      let x : Int := r.x.toInt
      let y : Int := r.y.toInt
      ∃ p q : Int,
        |(p : ℝ) - scale * (x * Real.cos angle - y * Real.sin angle)| ≤ 1 / 2 + 1 / 1000
        ∧ |(q : ℝ) - scale * (x * Real.sin angle + y * Real.cos angle)| ≤ 1 / 2 + 1 / 1000
        ∧ (g.rotation = 0 → RoundsTo (g.gain * x) 256 p ∧ RoundsTo (g.gain * y) 256 q)
        ∧ ClampsTo p q (decide (x = -32768 ∨ x = 32767 ∨ y = -32768 ∨ y = 32767)) (calibrate g r))
  ∧ (∀ sum : Vec, RoundsTo sum.x 16 (nullOfSum sum).x ∧ RoundsTo sum.y 16 (nullOfSum sum).y)
  ∧ (∀ (a : Sig) (null : Vec),
      ClampsTo (a.value.x - null.x) (a.value.y - null.y) a.clipped (nulled a null))
  ∧ (∀ (k : Coef) (a b : Sig), ∃ p q : Int,
      RoundsTo (4096 * a.value.x - (k.a * b.value.x - k.b * b.value.y)) 4096 p
      ∧ RoundsTo (4096 * a.value.y - (k.a * b.value.y + k.b * b.value.x)) 4096 q
      ∧ ClampsTo p q (a.clipped || b.clipped) (mixValue k a b))
  ∧ (∀ w : List Vec,
      let size (u v : Vec) : Int := (v.x - u.x) ^ 2 + (v.y - u.y) ^ 2
      (w.length ≤ 1 → peakVector w = ⟨0, 0⟩)
      ∧ (2 ≤ w.length → ∃ (i j : Nat) (u v : Vec), i < j ∧ w[i]? = some u ∧ w[j]? = some v
          ∧ peakVector w = ⟨v.x - u.x, v.y - u.y⟩
          ∧ ∀ (i' j' : Nat) (u' v' : Vec), i' < j' → w[i']? = some u' → w[j']? = some v' →
              size u' v' ≤ size u v
              ∧ (size u' v' = size u v → i < i' ∨ i = i' ∧ j ≤ j')))
  ∧ (∀ e : Nat, e ≤ 8589672450 →
      let k : Int := amplitudeOf e
      (e = 0 → k = 0) ∧ (e ≠ 0 → 1 ≤ k ∧ (2 * k - 1) ^ 2 < 4 * e ∧ 4 * e < (2 * k + 1) ^ 2))
  ∧ (∀ e : Nat, 250000 ≤ e → e ≤ 1600000000 →
      let g : Int := gainOf e
      64 ≤ g ∧ (2 * g - 1) ^ 2 * e ≤ 5120000 ^ 2 ∧ 5120000 ^ 2 ≤ (2 * g + 1) ^ 2 * e
      ∧ ((2 * g - 1) ^ 2 * e = 5120000 ^ 2 ∨ (2 * g + 1) ^ 2 * e = 5120000 ^ 2 → g % 2 = 0))
  ∧ (∀ v : Vec, phaseOf v < 1800 ∧ rotationOf v < 3600)
  ∧ phaseOf ⟨0, 0⟩ = 0
  ∧ (∀ (v : Vec) (length angle : ℝ), 0 < length → 0 ≤ angle → angle < Real.pi →
      ((v.x : ℝ) = length * Real.cos angle ∧ (v.y : ℝ) = length * Real.sin angle
        ∨ (v.x : ℝ) = -(length * Real.cos angle) ∧ (v.y : ℝ) = -(length * Real.sin angle)) →
      ∃ tenths : Nat, tenths ≤ 1800
        ∧ |(tenths : ℝ) - angle * 1800 / Real.pi| ≤ 1 / 2 + 1 / 1000
        ∧ phaseOf v = tenths % 1800 ∧ rotationOf v = (4000 - tenths) % 3600)
  ∧ (∀ (c : Curve) (p : Nat), c.valid →
      (c.read p).1 ≤ 100
      ∧ (p ≤ c.first.phase → c.read p = (c.first.depth, decide (p < c.first.phase)))
      ∧ (∀ last, c.points.getLast? = some last → last.phase ≤ p →
          c.read p = (last.depth, decide (last.phase < p)))
      ∧ (∀ i a b, c.points[i]? = some a → c.points[i + 1]? = some b → a.phase ≤ p →
          p < b.phase →
          (c.read p).2 = false
          ∧ let n : Int := a.depth * ((b.phase : Int) - a.phase)
              + ((p : Int) - a.phase) * ((b.depth : Int) - a.depth)
            let w : Int := (b.phase : Int) - a.phase
            2 * (n - (c.read p).1 * w).natAbs ≤ w.natAbs
            ∧ (2 * (n - (c.read p).1 * w).natAbs = w.natAbs → (c.read p).1 % 2 = 0)))

/-! ## Laws that every step keeps -/

/-- Every law below holds of the state after power-on reset. -/
def Obligations.LawsHoldAtReset : Prop :=
  StoreLaw State.reset ∧ AttemptsLaw State.reset ∧ RowLaw State.reset ∧ LockLaw State.reset
    ∧ StationLaw State.reset ∧ GroupLaw State.reset ∧ CalLaw State.reset ∧ ValueLaw State.reset
    ∧ TimeLaw State.reset

/-- R150, R15, R12, R37, R127, R129: every step keeps the law of the indication store, the law of the
attempt count, that of the lock, that of group tubes, and that of times that run; and while the lock is
set, a command other than power-on reset leaves it set, leaves the whole plan record as it is, and leaves
the tube count and the set of OUT_OF_SCOPE tubes as they are. -/
def Obligations.StoreAttemptAndLockLawsAreKept : Prop :=
  Kept StoreLaw ∧ Kept AttemptsLaw ∧ Kept LockLaw ∧ Kept GroupLaw ∧ Kept TimeLaw
  ∧ ∀ (c : Instr) (s t : State), LockLaw s → s.lock = true → c ≠ .powerOnReset →
      exec c s = .next t →
      t.lock = true ∧ t.plan = s.plan
      ∧ (GroupLaw s → t.tubes.length = s.tubes.length
          ∧ ∀ i : Nat, (∃ tb : Tube, s.tubes[i]? = some tb ∧ tb.status = .outOfScope)
              ↔ (∃ tb : Tube, t.tubes[i]? = some tb ∧ tb.status = .outOfScope))

/-- R178, R30, R48, R170: every step keeps the law of roles and of the Station Table's entries, which
rests on the law of claims. -/
def Obligations.StationLawIsKept : Prop := Kept StationLaw

/-- R30: every step keeps the law of claims. -/
def Obligations.ClaimLawIsKept : Prop := Kept ClaimLaw

/-- R16, R30, R39, R49: every step keeps the laws that tie pulls, jobs, claims and statuses
together. -/
def Obligations.PullLawIsKept : Prop := Kept PullLaw

/-- R48, R49, R91, R138: every step keeps the law of a channel's items and of the sizing queue. -/
def Obligations.ChannelLawIsKept : Prop := Kept ChannelLaw

/-- R70, R114, R129: every step keeps the laws of calibrated pulls and of calibration groups. -/
def Obligations.CalLawIsKept : Prop := Kept CalLaw

/-- R105: every step keeps the law of computed values. -/
def Obligations.ValueLawIsKept : Prop := Kept ValueLaw
end

