-- ==== Sys2Proof/Laws/State.lean ====
section
/-!
SUPPORT. The small lemmas of the state: reading a register after a write of one, and each field of the
state after each named write, so that no proof unfolds a record update.
-/

namespace Sys2Proof

@[simp] theorem Quad.get_set_same {α : Type} (q : Quad α) (i : Fin 4) (x : α) :
    (q.set i x).get i = x := by
  revert i; simp [Fin.forall_fin_succ, Quad.get, Quad.set]

theorem Quad.get_set_ne {α : Type} (q : Quad α) {i j : Fin 4} (x : α) (h : j ≠ i) :
    (q.set i x).get j = q.get j := by
  revert i j; simp [Fin.forall_fin_succ, Quad.get, Quad.set]

theorem Quad.get_set {α : Type} (q : Quad α) (i j : Fin 4) (x : α) :
    (q.set i x).get j = if j = i then x else q.get j := by
  by_cases h : j = i
  · subst h; simp
  · simp [h, Quad.get_set_ne]

@[simp] theorem Quad.set_get {α : Type} (q : Quad α) (i : Fin 4) : q.set i (q.get i) = q := by
  revert i; simp [Fin.forall_fin_succ, Quad.get, Quad.set]

@[simp] theorem Quad.set_set {α : Type} (q : Quad α) (i : Fin 4) (x y : α) :
    (q.set i x).set i y = q.set i y := by
  revert i; simp [Fin.forall_fin_succ, Quad.set]

@[simp] theorem Quad.get_fill {α : Type} (x : α) (i : Fin 4) : (Quad.fill x).get i = x := by
  revert i; simp [Fin.forall_fin_succ, Quad.get, Quad.fill]

@[simp] theorem Quad.get_map {α β : Type} (f : α → β) (q : Quad α) (i : Fin 4) :
    (q.map f).get i = f (q.get i) := by
  revert i; simp [Fin.forall_fin_succ, Quad.get, Quad.map]

@[simp] theorem Quad.get_ofFn {α : Type} (f : Fin 4 → α) (i : Fin 4) :
    (Quad.ofFn f).get i = f i := by
  revert i; simp [Fin.forall_fin_succ, Quad.get, Quad.ofFn]

theorem Quad.ext_get {α : Type} {q r : Quad α} (h : ∀ i, q.get i = r.get i) : q = r := by
  cases q; cases r
  have h0 := h 0; have h1 := h 1; have h2 := h 2; have h3 := h 3
  simp_all [Quad.get]

theorem Quad.mem_toList {α : Type} (q : Quad α) (x : α) : x ∈ q.toList ↔ ∃ i, q.get i = x := by
  simp [Quad.toList, Fin.exists_fin_succ, Quad.get, eq_comm]

theorem mem_four (i : Fin 4) : i ∈ four := by
  revert i; simp [Fin.forall_fin_succ, four]

end Sys2Proof

namespace Sys2Proof.Machine

variable (s : State)

@[simp] theorem State.setPort_ports (p : Port) (x : PortState) :
    (s.setPort p x).ports = s.ports.set p x := rfl
@[simp] theorem State.setPort_planState (p : Port) (x : PortState) :
    (s.setPort p x).planState = s.planState := rfl
@[simp] theorem State.setPort_plan (p : Port) (x : PortState) :
    (s.setPort p x).plan = s.plan := rfl
@[simp] theorem State.setPort_lock (p : Port) (x : PortState) :
    (s.setPort p x).lock = s.lock := rfl
@[simp] theorem State.setPort_rows (p : Port) (x : PortState) :
    (s.setPort p x).rows = s.rows := rfl
@[simp] theorem State.setPort_tubes (p : Port) (x : PortState) :
    (s.setPort p x).tubes = s.tubes := rfl
@[simp] theorem State.setPort_claims (p : Port) (x : PortState) :
    (s.setPort p x).claims = s.claims := rfl
@[simp] theorem State.setPort_seconds (p : Port) (x : PortState) :
    (s.setPort p x).seconds = s.seconds := rfl
@[simp] theorem State.setPort_chan (p : Port) (x : PortState) :
    (s.setPort p x).chan = s.chan := rfl
@[simp] theorem State.setPort_pull (p : Port) (x : PortState) :
    (s.setPort p x).pull = s.pull := rfl
@[simp] theorem State.setPort_cal (p : Port) (x : PortState) :
    (s.setPort p x).cal = s.cal := rfl
@[simp] theorem State.setPort_sizing (p : Port) (x : PortState) :
    (s.setPort p x).sizing = s.sizing := rfl
@[simp] theorem State.setPort_free (p : Port) (x : PortState) :
    (s.setPort p x).free = s.free := rfl
@[simp] theorem State.setPort_rescreen (p : Port) (x : PortState) :
    (s.setPort p x).rescreen = s.rescreen := rfl
@[simp] theorem State.setPort_pending (p : Port) (x : PortState) :
    (s.setPort p x).pending = s.pending := rfl

@[simp] theorem State.setChan_ports (c : Chan) (x : Channel) :
    (s.setChan c x).ports = s.ports := rfl
@[simp] theorem State.setChan_planState (c : Chan) (x : Channel) :
    (s.setChan c x).planState = s.planState := rfl
@[simp] theorem State.setChan_plan (c : Chan) (x : Channel) :
    (s.setChan c x).plan = s.plan := rfl
@[simp] theorem State.setChan_lock (c : Chan) (x : Channel) :
    (s.setChan c x).lock = s.lock := rfl
@[simp] theorem State.setChan_rows (c : Chan) (x : Channel) :
    (s.setChan c x).rows = s.rows := rfl
@[simp] theorem State.setChan_tubes (c : Chan) (x : Channel) :
    (s.setChan c x).tubes = s.tubes := rfl
@[simp] theorem State.setChan_claims (c : Chan) (x : Channel) :
    (s.setChan c x).claims = s.claims := rfl
@[simp] theorem State.setChan_seconds (c : Chan) (x : Channel) :
    (s.setChan c x).seconds = s.seconds := rfl
@[simp] theorem State.setChan_chan (c : Chan) (x : Channel) :
    (s.setChan c x).chan = s.chan.set c x := rfl
@[simp] theorem State.setChan_pull (c : Chan) (x : Channel) :
    (s.setChan c x).pull = s.pull := rfl
@[simp] theorem State.setChan_cal (c : Chan) (x : Channel) :
    (s.setChan c x).cal = s.cal := rfl
@[simp] theorem State.setChan_sizing (c : Chan) (x : Channel) :
    (s.setChan c x).sizing = s.sizing := rfl
@[simp] theorem State.setChan_free (c : Chan) (x : Channel) :
    (s.setChan c x).free = s.free := rfl
@[simp] theorem State.setChan_rescreen (c : Chan) (x : Channel) :
    (s.setChan c x).rescreen = s.rescreen := rfl
@[simp] theorem State.setChan_pending (c : Chan) (x : Channel) :
    (s.setChan c x).pending = s.pending := rfl

@[simp] theorem State.setPull_ports (c : Chan) (x : PullCtl) :
    (s.setPull c x).ports = s.ports := rfl
@[simp] theorem State.setPull_planState (c : Chan) (x : PullCtl) :
    (s.setPull c x).planState = s.planState := rfl
@[simp] theorem State.setPull_plan (c : Chan) (x : PullCtl) :
    (s.setPull c x).plan = s.plan := rfl
@[simp] theorem State.setPull_lock (c : Chan) (x : PullCtl) :
    (s.setPull c x).lock = s.lock := rfl
@[simp] theorem State.setPull_rows (c : Chan) (x : PullCtl) :
    (s.setPull c x).rows = s.rows := rfl
@[simp] theorem State.setPull_tubes (c : Chan) (x : PullCtl) :
    (s.setPull c x).tubes = s.tubes := rfl
@[simp] theorem State.setPull_claims (c : Chan) (x : PullCtl) :
    (s.setPull c x).claims = s.claims := rfl
@[simp] theorem State.setPull_seconds (c : Chan) (x : PullCtl) :
    (s.setPull c x).seconds = s.seconds := rfl
@[simp] theorem State.setPull_chan (c : Chan) (x : PullCtl) :
    (s.setPull c x).chan = s.chan := rfl
@[simp] theorem State.setPull_pull (c : Chan) (x : PullCtl) :
    (s.setPull c x).pull = s.pull.set c x := rfl
@[simp] theorem State.setPull_cal (c : Chan) (x : PullCtl) :
    (s.setPull c x).cal = s.cal := rfl
@[simp] theorem State.setPull_sizing (c : Chan) (x : PullCtl) :
    (s.setPull c x).sizing = s.sizing := rfl
@[simp] theorem State.setPull_free (c : Chan) (x : PullCtl) :
    (s.setPull c x).free = s.free := rfl
@[simp] theorem State.setPull_rescreen (c : Chan) (x : PullCtl) :
    (s.setPull c x).rescreen = s.rescreen := rfl
@[simp] theorem State.setPull_pending (c : Chan) (x : PullCtl) :
    (s.setPull c x).pending = s.pending := rfl

@[simp] theorem State.setCal_ports (c : Chan) (x : CalUnit) :
    (s.setCal c x).ports = s.ports := rfl
@[simp] theorem State.setCal_planState (c : Chan) (x : CalUnit) :
    (s.setCal c x).planState = s.planState := rfl
@[simp] theorem State.setCal_plan (c : Chan) (x : CalUnit) :
    (s.setCal c x).plan = s.plan := rfl
@[simp] theorem State.setCal_lock (c : Chan) (x : CalUnit) :
    (s.setCal c x).lock = s.lock := rfl
@[simp] theorem State.setCal_rows (c : Chan) (x : CalUnit) :
    (s.setCal c x).rows = s.rows := rfl
@[simp] theorem State.setCal_tubes (c : Chan) (x : CalUnit) :
    (s.setCal c x).tubes = s.tubes := rfl
@[simp] theorem State.setCal_claims (c : Chan) (x : CalUnit) :
    (s.setCal c x).claims = s.claims := rfl
@[simp] theorem State.setCal_seconds (c : Chan) (x : CalUnit) :
    (s.setCal c x).seconds = s.seconds := rfl
@[simp] theorem State.setCal_chan (c : Chan) (x : CalUnit) :
    (s.setCal c x).chan = s.chan := rfl
@[simp] theorem State.setCal_pull (c : Chan) (x : CalUnit) :
    (s.setCal c x).pull = s.pull := rfl
@[simp] theorem State.setCal_cal (c : Chan) (x : CalUnit) :
    (s.setCal c x).cal = s.cal.set c x := rfl
@[simp] theorem State.setCal_sizing (c : Chan) (x : CalUnit) :
    (s.setCal c x).sizing = s.sizing := rfl
@[simp] theorem State.setCal_free (c : Chan) (x : CalUnit) :
    (s.setCal c x).free = s.free := rfl
@[simp] theorem State.setCal_rescreen (c : Chan) (x : CalUnit) :
    (s.setCal c x).rescreen = s.rescreen := rfl
@[simp] theorem State.setCal_pending (c : Chan) (x : CalUnit) :
    (s.setCal c x).pending = s.pending := rfl

@[simp] theorem State.setSlot_ports (p : Port) (t : Tag) (x : Option Claim) :
    (s.setSlot p t x).ports = s.ports := rfl
@[simp] theorem State.setSlot_planState (p : Port) (t : Tag) (x : Option Claim) :
    (s.setSlot p t x).planState = s.planState := rfl
@[simp] theorem State.setSlot_plan (p : Port) (t : Tag) (x : Option Claim) :
    (s.setSlot p t x).plan = s.plan := rfl
@[simp] theorem State.setSlot_lock (p : Port) (t : Tag) (x : Option Claim) :
    (s.setSlot p t x).lock = s.lock := rfl
@[simp] theorem State.setSlot_rows (p : Port) (t : Tag) (x : Option Claim) :
    (s.setSlot p t x).rows = s.rows := rfl
@[simp] theorem State.setSlot_tubes (p : Port) (t : Tag) (x : Option Claim) :
    (s.setSlot p t x).tubes = s.tubes := rfl
@[simp] theorem State.setSlot_claims (p : Port) (t : Tag) (x : Option Claim) :
    (s.setSlot p t x).claims = s.claims.set p ((s.claims.get p).set t x) := rfl
@[simp] theorem State.setSlot_seconds (p : Port) (t : Tag) (x : Option Claim) :
    (s.setSlot p t x).seconds = s.seconds := rfl
@[simp] theorem State.setSlot_chan (p : Port) (t : Tag) (x : Option Claim) :
    (s.setSlot p t x).chan = s.chan := rfl
@[simp] theorem State.setSlot_pull (p : Port) (t : Tag) (x : Option Claim) :
    (s.setSlot p t x).pull = s.pull := rfl
@[simp] theorem State.setSlot_cal (p : Port) (t : Tag) (x : Option Claim) :
    (s.setSlot p t x).cal = s.cal := rfl
@[simp] theorem State.setSlot_sizing (p : Port) (t : Tag) (x : Option Claim) :
    (s.setSlot p t x).sizing = s.sizing := rfl
@[simp] theorem State.setSlot_free (p : Port) (t : Tag) (x : Option Claim) :
    (s.setSlot p t x).free = s.free := rfl
@[simp] theorem State.setSlot_rescreen (p : Port) (t : Tag) (x : Option Claim) :
    (s.setSlot p t x).rescreen = s.rescreen := rfl
@[simp] theorem State.setSlot_pending (p : Port) (t : Tag) (x : Option Claim) :
    (s.setSlot p t x).pending = s.pending := rfl

@[simp] theorem State.modTube_ports (i : Nat) (f : Tube → Tube) :
    (s.modTube i f).ports = s.ports := rfl
@[simp] theorem State.modTube_planState (i : Nat) (f : Tube → Tube) :
    (s.modTube i f).planState = s.planState := rfl
@[simp] theorem State.modTube_plan (i : Nat) (f : Tube → Tube) :
    (s.modTube i f).plan = s.plan := rfl
@[simp] theorem State.modTube_lock (i : Nat) (f : Tube → Tube) :
    (s.modTube i f).lock = s.lock := rfl
@[simp] theorem State.modTube_rows (i : Nat) (f : Tube → Tube) :
    (s.modTube i f).rows = s.rows := rfl
@[simp] theorem State.modTube_tubes (i : Nat) (f : Tube → Tube) :
    (s.modTube i f).tubes = s.tubes.modify i f := rfl
@[simp] theorem State.modTube_claims (i : Nat) (f : Tube → Tube) :
    (s.modTube i f).claims = s.claims := rfl
@[simp] theorem State.modTube_seconds (i : Nat) (f : Tube → Tube) :
    (s.modTube i f).seconds = s.seconds := rfl
@[simp] theorem State.modTube_chan (i : Nat) (f : Tube → Tube) :
    (s.modTube i f).chan = s.chan := rfl
@[simp] theorem State.modTube_pull (i : Nat) (f : Tube → Tube) :
    (s.modTube i f).pull = s.pull := rfl
@[simp] theorem State.modTube_cal (i : Nat) (f : Tube → Tube) :
    (s.modTube i f).cal = s.cal := rfl
@[simp] theorem State.modTube_sizing (i : Nat) (f : Tube → Tube) :
    (s.modTube i f).sizing = s.sizing := rfl
@[simp] theorem State.modTube_free (i : Nat) (f : Tube → Tube) :
    (s.modTube i f).free = s.free := rfl
@[simp] theorem State.modTube_rescreen (i : Nat) (f : Tube → Tube) :
    (s.modTube i f).rescreen = s.rescreen := rfl
@[simp] theorem State.modTube_pending (i : Nat) (f : Tube → Tube) :
    (s.modTube i f).pending = s.pending := rfl

@[simp] theorem State.setPlan_ports (x : Plan) :
    (s.setPlan x).ports = s.ports := rfl
@[simp] theorem State.setPlan_planState (x : Plan) :
    (s.setPlan x).planState = s.planState := rfl
@[simp] theorem State.setPlan_plan (x : Plan) :
    (s.setPlan x).plan = x := rfl
@[simp] theorem State.setPlan_lock (x : Plan) :
    (s.setPlan x).lock = s.lock := rfl
@[simp] theorem State.setPlan_rows (x : Plan) :
    (s.setPlan x).rows = s.rows := rfl
@[simp] theorem State.setPlan_tubes (x : Plan) :
    (s.setPlan x).tubes = s.tubes := rfl
@[simp] theorem State.setPlan_claims (x : Plan) :
    (s.setPlan x).claims = s.claims := rfl
@[simp] theorem State.setPlan_seconds (x : Plan) :
    (s.setPlan x).seconds = s.seconds := rfl
@[simp] theorem State.setPlan_chan (x : Plan) :
    (s.setPlan x).chan = s.chan := rfl
@[simp] theorem State.setPlan_pull (x : Plan) :
    (s.setPlan x).pull = s.pull := rfl
@[simp] theorem State.setPlan_cal (x : Plan) :
    (s.setPlan x).cal = s.cal := rfl
@[simp] theorem State.setPlan_sizing (x : Plan) :
    (s.setPlan x).sizing = s.sizing := rfl
@[simp] theorem State.setPlan_free (x : Plan) :
    (s.setPlan x).free = s.free := rfl
@[simp] theorem State.setPlan_rescreen (x : Plan) :
    (s.setPlan x).rescreen = s.rescreen := rfl
@[simp] theorem State.setPlan_pending (x : Plan) :
    (s.setPlan x).pending = s.pending := rfl

@[simp] theorem State.setSizing_ports (x : SizingUnit) :
    (s.setSizing x).ports = s.ports := rfl
@[simp] theorem State.setSizing_planState (x : SizingUnit) :
    (s.setSizing x).planState = s.planState := rfl
@[simp] theorem State.setSizing_plan (x : SizingUnit) :
    (s.setSizing x).plan = s.plan := rfl
@[simp] theorem State.setSizing_lock (x : SizingUnit) :
    (s.setSizing x).lock = s.lock := rfl
@[simp] theorem State.setSizing_rows (x : SizingUnit) :
    (s.setSizing x).rows = s.rows := rfl
@[simp] theorem State.setSizing_tubes (x : SizingUnit) :
    (s.setSizing x).tubes = s.tubes := rfl
@[simp] theorem State.setSizing_claims (x : SizingUnit) :
    (s.setSizing x).claims = s.claims := rfl
@[simp] theorem State.setSizing_seconds (x : SizingUnit) :
    (s.setSizing x).seconds = s.seconds := rfl
@[simp] theorem State.setSizing_chan (x : SizingUnit) :
    (s.setSizing x).chan = s.chan := rfl
@[simp] theorem State.setSizing_pull (x : SizingUnit) :
    (s.setSizing x).pull = s.pull := rfl
@[simp] theorem State.setSizing_cal (x : SizingUnit) :
    (s.setSizing x).cal = s.cal := rfl
@[simp] theorem State.setSizing_sizing (x : SizingUnit) :
    (s.setSizing x).sizing = x := rfl
@[simp] theorem State.setSizing_free (x : SizingUnit) :
    (s.setSizing x).free = s.free := rfl
@[simp] theorem State.setSizing_rescreen (x : SizingUnit) :
    (s.setSizing x).rescreen = s.rescreen := rfl
@[simp] theorem State.setSizing_pending (x : SizingUnit) :
    (s.setSizing x).pending = s.pending := rfl

/-! ## The tag slots -/

theorem State.slot_setSlot (p q : Port) (t u : Tag) (x : Option Claim) :
    (s.setSlot p t x).slot q u = if q = p ∧ u = t then x else s.slot q u := by
  by_cases h : q = p
  · subst h; by_cases k : u = t <;> simp [State.slot, k, Quad.get_set]
  · simp [State.slot, h, Quad.get_set]

@[simp] theorem State.slot_setPort (p q : Port) (t : Tag) (x : PortState) :
    (s.setPort p x).slot q t = s.slot q t := rfl
@[simp] theorem State.slot_setChan (c : Chan) (p : Port) (t : Tag) (x : Channel) :
    (s.setChan c x).slot p t = s.slot p t := rfl
@[simp] theorem State.slot_setPull (c : Chan) (p : Port) (t : Tag) (x : PullCtl) :
    (s.setPull c x).slot p t = s.slot p t := rfl
@[simp] theorem State.slot_setCal (c : Chan) (p : Port) (t : Tag) (x : CalUnit) :
    (s.setCal c x).slot p t = s.slot p t := rfl
@[simp] theorem State.slot_modTube (i : Nat) (f : Tube → Tube) (p : Port) (t : Tag) :
    (s.modTube i f).slot p t = s.slot p t := rfl
@[simp] theorem State.slot_setPlan (x : Plan) (p : Port) (t : Tag) :
    (s.setPlan x).slot p t = s.slot p t := rfl
@[simp] theorem State.slot_setSizing (x : SizingUnit) (p : Port) (t : Tag) :
    (s.setSizing x).slot p t = s.slot p t := rfl

end Sys2Proof.Machine
end

