-- ==== Sys2Proof/Laws/Ops.lean ====
section
/-!
SUPPORT. What the shared operations do, each said once: how a port takes a request and answers it, the
writes of the claim field with its slot, invalidation, unbinding, and the ends of a pull. A proof
cites these and does not unfold the operation.
-/

namespace Sys2Proof.Machine

variable {s : State}

/-! ## Taking a request and answering it -/

theorem State.answer_refused (p : Port) (why : RefusalCode) :
    s.answer p (.refused why) = s.answered p 0xF1 [why.code] := rfl

theorem State.answer_done (p : Port) (s' : State) (body : List Byte) :
    s.answer p (.done s' body) = s'.answered p 0xF0 body := rfl

/-- A port that takes a frame answers it. -/
theorem State.deliver_takes {p : Port} {f : Frame} (h : s.takes p f) (ask : State → Answer) :
    s.deliver p f ask = s.answer p (ask s) := by
  obtain ⟨hr, ha⟩ := h
  cases hx : (s.ports.get p).assembly with
  | waiting g => simp [State.deliver, hr, hx, ha g hx]
  | hunt | length | body => simp [State.deliver, hr, hx]

/-- What becomes of a complete frame: it is answered, it waits behind a reply in progress, or it is
discarded because another one waits. -/
theorem State.deliver_cases (s : State) (p : Port) (f : Frame) (ask : State → Answer) :
    (s.takes p f ∧ s.deliver p f ask = s.answer p (ask s))
    ∨ ((s.ports.get p).reply.isSome = true ∧ (∀ g, (s.ports.get p).assembly ≠ .waiting g)
        ∧ s.deliver p f ask = s.setPort p { s.ports.get p with assembly := .waiting f })
    ∨ ((∃ g, (s.ports.get p).assembly = .waiting g) ∧ s.deliver p f ask = s) := by
  cases ha : (s.ports.get p).assembly with
  | waiting g =>
    cases hr : (s.ports.get p).reply <;> by_cases h : g = f <;>
      simp [State.deliver, State.takes, ha, hr, h]
  | hunt | length | body =>
    cases hr : (s.ports.get p).reply <;> simp [State.deliver, State.takes, ha, hr]

/-- The three checks of R182 that stand before a request's owner, in their order. -/
theorem checked_cases {α : Type} (p : Port) (rights : Rights) (fields : Option α)
    (owner : α → Port → State → Answer) (s : State) :
    (rights.allows (s.ports.get p).role = false
        ∧ checked p rights fields owner s = .refused .role)
    ∨ (rights.allows (s.ports.get p).role = true ∧ fields = none
        ∧ checked p rights fields owner s = .refused .range)
    ∨ (rights.allows (s.ports.get p).role = true ∧ ∃ x, fields = some x
        ∧ checked p rights fields owner s = owner x p s) := by
  unfold checked
  cases rights.allows (s.ports.get p).role <;> cases fields <;> simp

/-- A request that its port takes is answered as its checks and its owner say. -/
theorem request_takes {α : Type} {p : Port} {code : Byte} {body : List Byte}
    (h : s.takes p ⟨code, body, false⟩) (rights : Rights) (fields : Option α)
    (owner : α → Port → State → Answer) :
    request p code body rights fields owner s
      = .next (s.answer p (checked p rights fields owner s)) := by
  rw [request, State.deliver_takes h]

/-- A request that its port takes, from a station that may issue it and with a body of its layout, is
answered by its owner. -/
theorem request_owner {α : Type} {p : Port} {code : Byte} {body : List Byte} {rights : Rights}
    {fields : Option α} {x : α} (h : s.takes p ⟨code, body, false⟩)
    (hr : rights.allows (s.ports.get p).role = true) (hx : fields = some x)
    (owner : α → Port → State → Answer) :
    request p code body rights fields owner s = .next (s.answer p (owner x p s)) := by
  subst hx
  rw [request_takes h]
  exact congrArg _ (congrArg _ (if_pos hr))

theorem Rights.attached_allows {r : Role} (h : r ≠ .none) : Rights.attached.allows r = true :=
  decide_eq_true h

/-- What the table of R2 makes of a request, by the plan state and the lock. -/
theorem gated_cases (gate : PlanState → Gate) (s : State) (own : Answer) :
    (gate s.planState = .state ∧ gated gate s own = .refused .state)
    ∨ (gate s.planState = .unlessLocked ∧ s.lock = true ∧ gated gate s own = .refused .locked)
    ∨ ((gate s.planState = .taken ∨ gate s.planState = .unlessLocked ∧ s.lock = false)
        ∧ gated gate s own = own) := by
  unfold gated
  cases gate s.planState <;> cases s.lock <;> simp

/-! ## Tubes -/

theorem modify_of_get {α : Type} {l : List α} {i : Nat} {x : α} (f : α → α) (h : l[i]? = some x) :
    l.modify i f = l.set i (f x) := by
  simp [List.modify_eq_set_getElem?, h]

theorem State.modTube_of_get {i : Nat} {tb : Tube} (f : Tube → Tube) (h : s.tubes[i]? = some tb) :
    s.modTube i f = { s with tubes := s.tubes.set i (f tb) } := by
  rw [State.modTube, modify_of_get f h]

/-- A place that names a tube names a record of the map, at the index given. -/
theorem State.tubeAt_get {pl : Place} {i : Nat} {tb : Tube} (h : s.tubeAt pl = some (i, tb)) :
    s.tubes[i]? = some tb := by
  unfold State.tubeAt at h
  split at h
  · simp only [Option.map_eq_some_iff, Prod.mk.injEq] at h
    obtain ⟨x, hx, rfl, rfl⟩ := h
    exact hx
  · cases h

/-- The first index found is the lowest whose record satisfies the test. -/
theorem firstIndex_eq_some {f : Tube → Bool} {l : List Tube} {k i : Nat} :
    firstIndex f k l = some i
      ↔ k ≤ i ∧ (∃ tb, l[i - k]? = some tb ∧ f tb = true)
        ∧ ∀ j tb, l[j]? = some tb → f tb = true → i ≤ k + j := by
  induction l generalizing k with
  | nil => simp [firstIndex]
  | cons a l ih =>
    rw [firstIndex]
    by_cases ha : f a = true
    · simp only [ha, if_true, Option.some.injEq]
      constructor
      · rintro rfl
        exact ⟨le_refl _, ⟨a, by simp, ha⟩, fun j tb _ _ => by omega⟩
      · rintro ⟨hk, -, h⟩
        have := h 0 a (by simp) ha
        omega
    · simp only [ha, Bool.false_eq_true, if_false, ih]
      constructor
      · rintro ⟨hk, ⟨tb, ht, hf⟩, h⟩
        refine ⟨by omega, ⟨tb, ?_, hf⟩, ?_⟩
        · rw [show i - k = (i - (k + 1)) + 1 by omega]; simpa using ht
        · intro j tb hj hf
          cases j with
          | zero => simp at hj; subst hj; exact absurd hf ha
          | succ j => have := h j tb (by simpa using hj) hf; omega
      · rintro ⟨hk, ⟨tb, ht, hf⟩, h⟩
        have hne : i ≠ k := by
          rintro rfl; simp at ht; subst ht; exact ha hf
        refine ⟨by omega, ⟨tb, ?_, hf⟩, ?_⟩
        · rw [show i - k = (i - (k + 1)) + 1 by omega] at ht; simpa using ht
        · intro j tb hj hf
          have := h (j + 1) tb (by simpa using hj) hf; omega

theorem firstIndex_eq_none {f : Tube → Bool} {l : List Tube} {k : Nat} :
    firstIndex f k l = none ↔ ∀ tb ∈ l, f tb = false := by
  induction l generalizing k with
  | nil => simp [firstIndex]
  | cons a l ih =>
    rw [firstIndex]
    by_cases ha : f a = true <;> simp [ha, ih]

/-! ## The claim field and its slot -/

variable {p : Port} {t : Tag} {i : Nat} {hold : Hold} {d : Bool} {tb : Tube}

/-- A grant of a tube of the map. -/
theorem State.grant_eq (ht : s.tubes[i]? = some tb) :
    s.grant p t i
      = { s with
          claims := s.claims.set p
            ((s.claims.get p).set t (some ⟨i, .leased (s.now + s.plan.lease), false⟩))
          tubes := s.tubes.set i { tb with claim := some ⟨p, t, false⟩ } } := by
  rw [State.grant, State.modTube_of_get _ (show (s.setSlot p t _).tubes[i]? = some tb from ht)]
  rfl

/-- The marker set on a claim whose tube is in the map. -/
theorem State.markInPull_eq (h : s.slot p t = some ⟨i, hold, d⟩) (ht : s.tubes[i]? = some tb) :
    s.markInPull p t
      = { s with
          claims := s.claims.set p ((s.claims.get p).set t (some ⟨i, .inPull, d⟩))
          tubes := s.tubes.set i { tb with claim := some ⟨p, t, true⟩ } } := by
  simp only [State.markInPull, h]
  rw [State.modTube_of_get _ (show (s.setSlot p t _).tubes[i]? = some tb from ht)]
  rfl

/-- The claim kept on a new full lease. -/
theorem State.keepClaim_eq (h : s.slot p t = some ⟨i, hold, d⟩) (ht : s.tubes[i]? = some tb) :
    s.keepClaim p t
      = { s with
          claims := s.claims.set p
            ((s.claims.get p).set t (some ⟨i, .leased (s.now + s.plan.lease), d⟩))
          tubes := s.tubes.set i { tb with claim := some ⟨p, t, false⟩ } } := by
  simp only [State.keepClaim, h]
  rw [State.modTube_of_get _ (show (s.setSlot p t _).tubes[i]? = some tb from ht)]
  rfl

/-- The claim ended. -/
theorem State.dropClaim_eq (h : s.slot p t = some ⟨i, hold, d⟩) (ht : s.tubes[i]? = some tb) :
    s.dropClaim p t
      = { s with
          claims := s.claims.set p ((s.claims.get p).set t none)
          tubes := s.tubes.set i { tb with claim := none } } := by
  simp only [State.dropClaim, h]
  rw [State.modTube_of_get _ (show (s.setSlot p t _).tubes[i]? = some tb from ht)]
  rfl

/-- A claim write on an empty slot does nothing. -/
theorem State.claimOps_of_empty (h : s.slot p t = none) :
    s.markInPull p t = s ∧ s.keepClaim p t = s ∧ s.dropClaim p t = s := by
  simp [State.markInPull, State.keepClaim, State.dropClaim, h]

/-- The error-type fault commit below the attempt limit: one attempt more, REPULL, the claim kept. -/
theorem State.errorCommit_below (h : s.slot p t = some ⟨i, hold, d⟩) (ht : s.tubes[i]? = some tb)
    (hl : attemptsAfter tb.attempts < s.plan.attemptLimit) :
    s.errorCommit p t i
      = { s with
          claims := s.claims.set p
            ((s.claims.get p).set t (some ⟨i, .leased (s.now + s.plan.lease), d⟩))
          tubes := s.tubes.set i
            { tb with
              attempts := attemptsAfter tb.attempts, status := .repull
              claim := some ⟨p, t, false⟩ } } := by
  have hlt : i < s.tubes.length := (List.getElem?_eq_some_iff.1 ht).1
  simp only [State.errorCommit, ht, errorStatus, if_neg (Nat.not_le.2 hl)]
  rw [State.modTube_of_get _ ht, State.keepClaim_eq (i := i) (hold := hold) (d := d) (by exact h)
    (by simp only [List.getElem?_set_self hlt]; rfl)]
  simp [Nat.not_le.2 hl, State.now]

/-- The error-type fault commit at the attempt limit: one attempt more, UNRESOLVED, the claim ended. -/
theorem State.errorCommit_at (h : s.slot p t = some ⟨i, hold, d⟩) (ht : s.tubes[i]? = some tb)
    (hl : s.plan.attemptLimit ≤ attemptsAfter tb.attempts) :
    s.errorCommit p t i
      = { s with
          claims := s.claims.set p ((s.claims.get p).set t none)
          tubes := s.tubes.set i
            { tb with
              attempts := attemptsAfter tb.attempts, status := .unresolved .attempts
              claim := none } } := by
  have hlt : i < s.tubes.length := (List.getElem?_eq_some_iff.1 ht).1
  simp only [State.errorCommit, ht, errorStatus, if_pos hl]
  rw [State.modTube_of_get _ ht, State.dropClaim_eq (i := i) (hold := hold) (d := d) (by exact h)
    (by simp only [List.getElem?_set_self hlt]; rfl)]
  simp [hl]

/-! ## Invalidation -/

theorem invalidateTubes_length (g : List Nat) (l : List Tube) :
    (invalidateTubes g l).length = l.length := by
  induction g generalizing l with
  | nil => rfl
  | cons i g ih => simp [invalidateTubes, ih]

/-- An invalidation writes the tubes of the group, each REPULL and suspect, and no other. -/
theorem invalidateTubes_get (g : List Nat) (l : List Tube) (i : Nat) :
    (invalidateTubes g l)[i]?
      = (l[i]?).map (fun tb => if i ∈ g then tb.invalidated else tb) := by
  induction g generalizing l with
  | nil => simp [invalidateTubes]
  | cons k g ih =>
    rw [invalidateTubes, ih, List.getElem?_modify]
    cases l[i]? with
    | none => rfl
    | some tb =>
      by_cases h1 : i = k
      · subst h1; by_cases h2 : i ∈ g <;> simp [h2, Tube.invalidated]
      · have h3 : k ≠ i := fun h => h1 h.symm
        simp [h1, h3]

theorem invalidateTubes_eq_mapIdx (g : List Nat) (l : List Tube) :
    invalidateTubes g l
      = l.mapIdx (fun i tb => if i ∈ g then tb.invalidated else tb) := by
  apply List.ext_getElem?
  intro i
  simp [invalidateTubes_get]

/-! ## Unbinding -/

/-- An unbind of a channel whose binding is `p`: the channel, and the set of the port. -/
theorem State.unbindChan_of_bound {c : Chan} {p : Port} (h : (s.chan.get c).binding = some p) :
    s.unbindChan c
      = { s with
          chan := s.chan.set c (s.chan.get c).unbound
          ports := s.ports.set p
            { s.ports.get p with bound := (s.ports.get p).bound.set c false } } := by
  simp [State.unbindChan, h, State.setPort, State.setChan]

theorem State.unbindChan_of_free {c : Chan} (h : (s.chan.get c).binding = none) :
    s.unbindChan c = s.setChan c (s.chan.get c).unbound := by
  simp [State.unbindChan, h]

/-! ## A change of the settings -/

/-- A job in flight begins again under the curve and thresholds of the plan. -/
theorem State.restartJob_of_curve {c : Curve} (h : s.plan.curve = some c) :
    s.restartJob
      = { s with
          sizing :=
            { s.sizing with
              flight := s.sizing.flight.map (fun x => (x.1, ⟨c, s.plan.report, s.plan.plug⟩)) } } := by
  obtain ⟨ports, planState, plan, lock, rows, tubes, claims, seconds, chan, pull, cal,
    ⟨queue, flight, step⟩, free, rescreen, pending⟩ := s
  simp only at h
  cases flight <;> simp [State.restartJob, Plan.settings, h, State.setSizing]

theorem State.restartJob_of_none (h : s.plan.curve = none) : s.restartJob = s := by
  unfold State.restartJob; simp [Plan.settings, h]

/-- What CURVE_SET and LIMITS_SET start in ACTIVE, when a curve is present. -/
theorem State.settingsChanged_active {c : Curve} (ha : s.planState = .active)
    (h : s.plan.curve = some c) :
    s.settingsChanged
      = { s with
          rescreen :=
            { phase := .underWay
              cursor := 0
              restarts :=
                if s.rescreen.phase = .underWay then min (s.rescreen.restarts + 1) 65535 else 0
              incomplete := false }
          sizing :=
            { s.sizing with
              step := none
              flight :=
                s.sizing.flight.map (fun x => (x.1, ⟨c, s.plan.report, s.plan.plug⟩)) } } := by
  rw [State.settingsChanged, if_pos ha, State.restartJob_of_curve h]
  rfl

theorem State.settingsChanged_other (ha : s.planState ≠ .active) : s.settingsChanged = s := by
  rw [State.settingsChanged, if_neg ha]

/-! ## The latch -/

theorem reported_nil : reported [] = none := rfl

theorem reported_single (f : PullFault) : reported [f] = some f := rfl

/-- The reported fault is one of the latch, of lowest rank number. -/
theorem reported_eq_some {l : List PullFault} {f : PullFault} (h : reported l = some f) :
    f ∈ l ∧ ∀ g ∈ l, f.rank ≤ g.rank := by
  induction l generalizing f with
  | nil => cases h
  | cons a l ih =>
    rw [reported] at h
    cases hr : reported l with
    | none =>
      rw [hr] at h
      simp at h; subst h
      cases l with
      | nil => simp
      | cons b l =>
        rw [reported] at hr
        split at hr
        · split at hr <;> cases hr
        · cases hr
    | some g =>
      rw [hr] at h
      have ⟨hm, hle⟩ := ih hr
      by_cases hc : a.rank ≤ g.rank
      · simp [hc] at h; subst h
        refine ⟨by simp, ?_⟩
        intro x hx
        rcases List.mem_cons.1 hx with rfl | hx
        · exact le_refl _
        · exact hc.trans (hle x hx)
      · simp [hc] at h; subst h
        refine ⟨by simp [hm], ?_⟩
        intro x hx
        rcases List.mem_cons.1 hx with rfl | hx
        · omega
        · exact hle x hx

end Sys2Proof.Machine
end

