-- ==== Sys2Proof/Laws/Courses.lean ====
section
/-!
SUPPORT. What the operations do that take one thing after another: a port that hands on a frame, the
leases that a tick ends, and the parts of the detach course, each said once for the whole course.
-/

namespace Sys2Proof.Machine

variable {s : State}

/-! ## Handing on a frame -/

/-- Taking a frame runs the command the frame holds. -/
theorem takeFrame_eq (p : Port) (f : Frame) (s : State) :
    takeFrame p f s = exec (commandOfFrame p f) s := by
  obtain ⟨code, body, g⟩ := f
  cases g with
  | true => rfl
  | false =>
    simp only [takeFrame, commandOfFrame, requestOfCode, Bool.false_eq_true, if_false]
    generalize code.toNat = n
    split <;> first | rfl | simp_all [exec]

/-- A port with a complete frame and no reply in progress runs the command its frame holds. -/
theorem State.handOn_waiting {p : Port} {f : Frame} (ha : (s.ports.get p).assembly = .waiting f)
    (hr : (s.ports.get p).reply = none) :
    s.handOn p = exec (commandOfFrame p f)
      (s.setPort p { s.ports.get p with assembly := .hunt }) := by
  simp only [State.handOn, ha, hr]
  exact takeFrame_eq ..

/-- A port with no complete frame, or with a reply in progress, hands nothing on. -/
theorem State.handOn_idle {p : Port} (h : (∀ f, (s.ports.get p).assembly ≠ .waiting f)
    ∨ (s.ports.get p).reply.isSome = true) : s.handOn p = .next s := by
  unfold State.handOn
  cases ha : (s.ports.get p).assembly <;> cases hr : (s.ports.get p).reply <;> simp_all

/-! ## The end of several claims -/

/-- The slots, tubes and ports after the claims of the slots in `ends` have ended, with CLAIM_EXPIRED
where `told` says so; nothing else differs. -/
structure ClaimsEnded (ends told : Port → Tag → Prop) (s t : State) : Prop where
  slots : ∀ p u, (ends p u → t.slot p u = none) ∧ (¬ ends p u → t.slot p u = s.slot p u)
  count : t.tubes.length = s.tubes.length
  tubes : ∀ i tb, s.tubes[i]? = some tb →
    ((∃ p u cl, ends p u ∧ s.slot p u = some cl ∧ cl.tube = i) →
      t.tubes[i]? = some { tb with claim := none })
    ∧ ((∀ p u cl, ends p u → s.slot p u = some cl → cl.tube ≠ i) → t.tubes[i]? = some tb)
  ports : ∀ p, ∃ q : FourSet,
    (∀ u, q.get u = true ↔ ((s.ports.get p).notices.claimExpired.get u = true ∨ told p u))
    ∧ t.ports.get p
      = { s.ports.get p with notices := { (s.ports.get p).notices with claimExpired := q } }
  rest : t = { s with claims := t.claims, tubes := t.tubes, ports := t.ports }

theorem ClaimsEnded.refl (s : State) : ClaimsEnded (fun _ _ => False) (fun _ _ => False) s s where
  slots := by simp
  count := rfl
  tubes := by simp
  ports := fun p => ⟨(s.ports.get p).notices.claimExpired, by simp, rfl⟩
  rest := rfl

theorem ClaimsEnded.trans {e f o n : Port → Tag → Prop} {s t r : State} (h : ClaimsEnded e o s t)
    (k : ClaimsEnded f n t r) :
    ClaimsEnded (fun p u => e p u ∨ f p u) (fun p u => o p u ∨ n p u) s r where
  slots := by
    intro p u
    refine ⟨?_, fun hn => ?_⟩
    · rintro (he | hf)
      · by_cases hf : f p u
        · exact (k.slots p u).1 hf
        · rw [(k.slots p u).2 hf, (h.slots p u).1 he]
      · exact (k.slots p u).1 hf
    · rw [(k.slots p u).2 (fun x => hn (.inr x)), (h.slots p u).2 (fun x => hn (.inl x))]
  count := k.count.trans h.count
  tubes := by
    intro i tb ht
    by_cases he : ∃ p u cl, e p u ∧ s.slot p u = some cl ∧ cl.tube = i
    · have h1 := (h.tubes i tb ht).1 he
      refine ⟨fun _ => ?_, fun hn => ?_⟩
      · by_cases hf : ∃ p u cl, f p u ∧ t.slot p u = some cl ∧ cl.tube = i
        · exact (k.tubes i _ h1).1 hf
        · exact (k.tubes i _ h1).2 (fun p u cl a b c => hf ⟨p, u, cl, a, b, c⟩)
      · obtain ⟨p, u, cl, a, b, c⟩ := he
        exact absurd c (hn p u cl (.inl a) b)
    · have h1 := (h.tubes i tb ht).2 (fun p u cl a b c => he ⟨p, u, cl, a, b, c⟩)
      refine ⟨?_, fun hn => ?_⟩
      · rintro ⟨p, u, cl, a, b, c⟩
        have hne : ¬ e p u := fun x => he ⟨p, u, cl, x, b, c⟩
        refine (k.tubes i _ h1).1 ⟨p, u, cl, a.resolve_left hne, ?_, c⟩
        rw [(h.slots p u).2 hne, b]
      · refine (k.tubes i _ h1).2 (fun p u cl a b c => ?_)
        by_cases x : e p u
        · rw [(h.slots p u).1 x] at b; cases b
        · rw [(h.slots p u).2 x] at b
          exact hn p u cl (.inr a) b c
  ports := by
    intro p
    obtain ⟨q, hq, hp⟩ := h.ports p
    obtain ⟨q', hq', hp'⟩ := k.ports p
    refine ⟨q', fun u => ?_, ?_⟩
    · rw [hq', hp]; simp only [hq]; tauto
    · rw [hp', hp]
  rest := by
    refine k.rest.trans ?_
    rw [h.rest]

/-- The end of one claim, with or without its notice. -/
theorem ClaimsEnded.drop (s : State) (p : Port) (u : Tag) (told : Bool)
    (h : told = true → (s.slot p u).isSome = true) :
    ClaimsEnded (fun q v => q = p ∧ v = u ∧ (s.slot p u).isSome = true)
      (fun q v => q = p ∧ v = u ∧ told = true) s
      (if told then (s.dropClaim p u).addExpired p u else s.dropClaim p u) := by
  have one : ClaimsEnded (fun q v => q = p ∧ v = u ∧ (s.slot p u).isSome = true)
      (fun _ _ => False) s (s.dropClaim p u) := by
    cases hs : s.slot p u with
    | none =>
      rw [(State.claimOps_of_empty hs).2.2]
      simpa using ClaimsEnded.refl s
    | some cl =>
      have hd : s.dropClaim p u
          = (s.setSlot p u none).modTube cl.tube (fun tb => { tb with claim := none }) := by
        simp only [State.dropClaim, hs]
      rw [hd]
      refine ⟨fun q v => ?_, by simp, fun i tb ht => ?_, fun q =>
        ⟨(s.ports.get q).notices.claimExpired, by simp, rfl⟩, rfl⟩
      · simp only [State.slot_modTube, State.slot_setSlot]
        constructor
        · rintro ⟨rfl, rfl, _⟩; simp
        · intro hn; rw [if_neg (fun x => hn ⟨x.1, x.2, rfl⟩)]
      · simp only [State.modTube_tubes, State.setSlot_tubes, List.getElem?_modify, ht]
        constructor
        · rintro ⟨q, v, cl', ⟨rfl, rfl, _⟩, h1, h2⟩
          rw [hs] at h1; cases h1; simp [h2]
        · intro hn
          simp [hn p u cl ⟨rfl, rfl, rfl⟩ hs]
  cases told with
  | false => simpa using one
  | true =>
    have two : ClaimsEnded (fun _ _ => False) (fun q v => q = p ∧ v = u) (s.dropClaim p u)
        ((s.dropClaim p u).addExpired p u) := by
      refine ⟨by simp [State.addExpired], rfl, by simp [State.addExpired], fun q => ?_, rfl⟩
      by_cases hq : q = p
      · subst hq
        refine ⟨((s.dropClaim q u).ports.get q).notices.claimExpired.set u true, fun v => ?_, ?_⟩
        · rw [Quad.get_set]; split <;> simp_all
        · simp [State.addExpired]
      · refine ⟨((s.dropClaim p u).ports.get q).notices.claimExpired, by simp [hq], ?_⟩
        simp [State.addExpired, Quad.get_set, hq]
    simpa using one.trans two

/-- The leases of a list of slots taken one after another: those that have run out end, and the
stations that have not departed are told. -/
theorem State.takeLeases_list (l : List (Port × Tag)) : ∀ s : State,
    ClaimsEnded (fun p u => (p, u) ∈ l ∧ s.leaseRunOut p u = true)
      (fun p u => (p, u) ∈ l ∧ s.leaseRunOut p u = true ∧ s.departedClaim p u = false) s
      (l.foldl (fun s x => s.takeLease x.1 x.2) s) := by
  induction l with
  | nil => intro s; simpa using ClaimsEnded.refl s
  | cons x rest ih =>
    intro s
    obtain ⟨p, u⟩ := x
    simp only [List.foldl_cons]
    by_cases hd : s.leaseRunOut p u = true
    · have hsome : (s.slot p u).isSome = true := by
        unfold State.leaseRunOut at hd
        split at hd
        · simp_all
        · cases hd
      have h1 := ClaimsEnded.drop s p u (!s.departedClaim p u) (fun _ => hsome)
      have ht : s.takeLease p u
          = if (!s.departedClaim p u) = true then (s.dropClaim p u).addExpired p u
            else s.dropClaim p u := by
        rw [State.takeLease, if_pos hd, State.expire]
        cases s.departedClaim p u <;> rfl
      rw [← ht] at h1
      have h2 := h1.trans (ih (s.takeLease p u))
      have hnow : (s.takeLease p u).now = s.now := by rw [h1.rest]; rfl
      have hslot : ∀ q v, ¬ (q = p ∧ v = u) → (s.takeLease p u).slot q v = s.slot q v :=
        fun q v hn => (h1.slots q v).2 (fun x => hn ⟨x.1, x.2.1⟩)
      have hnone : (s.takeLease p u).slot p u = none := (h1.slots p u).1 ⟨rfl, rfl, hsome⟩
      have e1 : (fun q v => (q = p ∧ v = u ∧ (s.slot p u).isSome = true)
            ∨ ((q, v) ∈ rest ∧ (s.takeLease p u).leaseRunOut q v = true))
          = (fun q v => (q, v) ∈ (p, u) :: rest ∧ s.leaseRunOut q v = true) := by
        funext q v
        by_cases hx : q = p ∧ v = u
        · obtain ⟨rfl, rfl⟩ := hx
          simp [hd, hsome]
        · simp only [State.leaseRunOut, hslot q v hx, hnow, List.mem_cons, Prod.mk.injEq, hx]
          simp
          tauto
      have e2 : (fun q v => (q = p ∧ v = u ∧ (!s.departedClaim p u) = true)
            ∨ ((q, v) ∈ rest ∧ (s.takeLease p u).leaseRunOut q v = true
              ∧ (s.takeLease p u).departedClaim q v = false))
          = (fun q v => (q, v) ∈ (p, u) :: rest ∧ s.leaseRunOut q v = true
              ∧ s.departedClaim q v = false) := by
        funext q v
        by_cases hx : q = p ∧ v = u
        · obtain ⟨rfl, rfl⟩ := hx
          have hr : (s.takeLease q v).leaseRunOut q v = false := by simp [State.leaseRunOut, hnone]
          simp [hd, hr]
        · simp only [State.leaseRunOut, State.departedClaim, hslot q v hx, hnow, List.mem_cons,
            Prod.mk.injEq, hx]
          simp
          tauto
      rw [e1, e2] at h2
      exact h2
    · have ht : s.takeLease p u = s := by simp [State.takeLease, hd]
      rw [ht]
      have := ih s
      have e1 : (fun q v => (q, v) ∈ (p, u) :: rest ∧ s.leaseRunOut q v = true)
          = (fun q v => (q, v) ∈ rest ∧ s.leaseRunOut q v = true) := by
        funext q v; simp; rintro h rfl rfl; exact absurd h hd
      have e2 : (fun q v => (q, v) ∈ (p, u) :: rest ∧ s.leaseRunOut q v = true
            ∧ s.departedClaim q v = false)
          = (fun q v => (q, v) ∈ rest ∧ s.leaseRunOut q v = true ∧ s.departedClaim q v = false) := by
        funext q v; simp; rintro h _ rfl rfl; exact absurd h hd
      rw [e1, e2]
      exact this

/-- The leases that have run out end together. -/
theorem State.takeLeases_ended (s : State) :
    ClaimsEnded (fun p u => s.leaseRunOut p u = true)
      (fun p u => s.leaseRunOut p u = true ∧ s.departedClaim p u = false) s s.takeLeases := by
  have h := State.takeLeases_list (four.flatMap (fun p => four.map (fun u => (p, u)))) s
  have hm : ∀ p u : Fin 4, (p, u) ∈ four.flatMap (fun p => four.map (fun u => (p, u))) := by decide
  simp only [hm, true_and] at h
  exact h

/-- The claims of a departed station that are not in pull end, for a list of tags, with no notice. -/
theorem removeDeparted_list (p : Port) (l : List Tag) : ∀ s : State,
    ClaimsEnded (fun q u => q = p ∧ u ∈ l ∧ s.claimToRemove p u = true) (fun _ _ => False) s
      (removeDeparted p l s) := by
  induction l with
  | nil => intro s; simpa [removeDeparted] using ClaimsEnded.refl s
  | cons u rest ih =>
    intro s
    simp only [removeDeparted]
    by_cases hd : s.claimToRemove p u = true
    · have hsome : (s.slot p u).isSome = true := by
        unfold State.claimToRemove at hd
        split at hd
        · simp_all
        · cases hd
      have h1 : ClaimsEnded (fun q v => q = p ∧ v = u ∧ (s.slot p u).isSome = true)
          (fun q v => q = p ∧ v = u ∧ false = true) s (s.dropClaim p u) :=
        ClaimsEnded.drop s p u false (by simp)
      rw [if_pos hd]
      have h2 := h1.trans (ih (s.dropClaim p u))
      have hslot : ∀ v, v ≠ u → (s.dropClaim p u).slot p v = s.slot p v :=
        fun v hn => (h1.slots p v).2 (fun x => hn x.2.1)
      have e1 : (fun q v => (q = p ∧ v = u ∧ (s.slot p u).isSome = true)
            ∨ (q = p ∧ v ∈ rest ∧ (s.dropClaim p u).claimToRemove p v = true))
          = (fun q v => q = p ∧ v ∈ u :: rest ∧ s.claimToRemove p v = true) := by
        funext q v
        by_cases hx : v = u
        · subst hx; simp [hd, hsome]; tauto
        · simp [State.claimToRemove, hslot v hx, hx]
      rw [e1] at h2
      simpa using h2
    · rw [if_neg hd]
      have e1 : (fun q v => q = p ∧ v ∈ u :: rest ∧ s.claimToRemove p v = true)
          = (fun q v => q = p ∧ v ∈ rest ∧ s.claimToRemove p v = true) := by
        funext q v; simp; rintro _ h rfl; exact absurd h hd
      rw [e1]
      exact ih s

/-- The claims of a departed station that are not in pull end together, with no notice. -/
theorem removeDeparted_ended (p : Port) (s : State) :
    ClaimsEnded (fun q u => q = p ∧ s.claimToRemove p u = true) (fun _ _ => False) s
      (removeDeparted p four s) := by
  simpa [mem_four] using removeDeparted_list p four s

end Sys2Proof.Machine
end

