-- ==== Sys2Proof/Laws/Operands.lean ====
section
/-!
SUPPORT. The readers of request bodies: each answers none for a body of another length than its fixed
layout gives.
-/

namespace Sys2Proof.Machine

variable {l : List Byte}

theorem readNone_length (h : l.length ≠ 0) : readNone l = none := by
  unfold readNone; split <;> simp_all

theorem readOne_length (h : l.length ≠ 1) : readOne l = none := by
  unfold readOne; split <;> simp_all

theorem readTwo_length (h : l.length ≠ 2) : readTwo l = none := by
  unfold readTwo; split <;> simp_all

theorem readPlace_length (h : l.length ≠ 4) : readPlace l = none := by
  unfold readPlace; split <;> simp_all

theorem readPlaceAnd_length (h : l.length ≠ 5) : readPlaceAnd l = none := by
  unfold readPlaceAnd; split <;> simp_all

theorem readTagPlace_length (h : l.length ≠ 5) : readTagPlace l = none := by
  unfold readTagPlace; split <;> simp_all

theorem readScope_length (h : l.length ≠ 9) : readScope l = none := by
  unfold readScope; split <;> simp_all

theorem readClaimNext_length (h : l.length ≠ 9) : readClaimNext l = none := by
  unfold readClaimNext; split <;> simp_all

theorem readStandard_length (h : l.length ≠ 7) : readStandard l = none := by
  unfold readStandard; split <;> simp_all

theorem readRowAdd_length (h : l.length ≠ 7) : readRowAdd l = none := by
  unfold readRowAdd; split <;> simp_all

theorem readLimits_length (h : l.length ≠ 18) : readLimits l = none := by
  unfold readLimits; split <;> simp_all

theorem readFreq_length (h : l.length ≠ 9) : readFreq l = none := by
  unfold readFreq; split <;> simp_all

theorem readList_length (h : l.length ≠ 3) : readList l = none := by
  unfold readList; split <;> simp_all

/-- A character that holds a number of 0 to 3 reads as that number. -/
theorem fin4_of_val {b : Byte} {i : Fin 4} (h : b.toNat = i.val) : fin4 b = some i := by
  unfold fin4; rw [h]; clear h; revert i; decide

/-- A character above 3 is no channel, tag or port number. -/
theorem fin4_of_gt {b : Byte} (h : 3 < b.toNat) : fin4 b = none := by
  unfold fin4; split <;> first | omega | rfl

end Sys2Proof.Machine
end

