-- ==== Sys2Proof/Laws/Values.lean ====
section
/-!
SUPPORT. What the arithmetic and the readers and writers of numbers deliver: rounding, clamps,
magnitudes, curve readings, and the bodies that carry numbers, points and definitions.
-/

namespace Sys2Proof.Machine

/-- A number of one character is read back. -/
theorem toNat_ofNat8 (n : Nat) (h : n < 256) : (BitVec.ofNat 8 n).toNat = n := Nat.mod_eq_of_lt (show n < 2^8 from h)

/-- The character of a number read from one character is that character. -/
theorem c1_of_toNat {b : Byte} {c : Fin 4} (h : b.toNat = c.val) : c1 c.val = [b] := by
  simp only [c1, ← h, BitVec.ofNat_toNat]; simp

/-- A number of two characters is read back. -/
theorem num2_c2 (n : Nat) (h : n < 65536) : num2 (BitVec.ofNat 8 n) (BitVec.ofNat 8 (n / 256)) = n := by
  simp only [num2, BitVec.toNat_ofNat]; omega

/-- A trace of the values a function gives. -/
theorem Eight.get_ofFn {α} (f : RawTrace → α) (r) : (Eight.ofFn f).get r = f r := by cases r <;> rfl

/-- Mapping after a write writes the mapped value. -/
theorem Quad.map_set {α β} (f : α → β) (q : Quad α) (i x) : (q.set i x).map f = (q.map f).set i (f x) := by
  revert i; simp [Fin.forall_fin_succ, Quad.set, Quad.map]

/-- R93: the rounded quotient is at most half a step away, and even at a half. -/
theorem roundHalfEven_nearest (n d : Int) (hd : 0 < d) : 
  (2 * (n - roundHalfEven n d * d)).natAbs ≤ d.natAbs ∧ ((2 * (n - roundHalfEven n d * d)).natAbs = d.natAbs → roundHalfEven n d % 2 = 0) := by
  have h1 := Int.emod_nonneg n (by omega : d ≠ 0)
  have h2 := Int.emod_lt_of_pos n hd
  have h3 := Int.mul_ediv_add_emod n d
  simp only [roundHalfEven]
  generalize n / d = q at *
  generalize n % d = r at *
  subst h3
  have e1 : d * q + r - q * d = r := by ring
  have e2 : d * q + r - (q+1) * d = r - d := by ring
  split
  · rw [e1]; omega
  · split
    · rw [e2]; omega
    · split
      · rw [e1]; omega
      · rw [e2]; omega

/-- A quotient between two grid points rounds to between them. -/
theorem roundHalfEven_between (n d : Int) (hd : 0 < d) (lo hi : Int) (h1 : lo * d ≤ n) (h2 : n ≤ hi * d) : lo ≤ roundHalfEven n d ∧ roundHalfEven n d ≤ hi := by
  have := roundHalfEven_nearest n d hd
  constructor
  · by_contra hc
    have : (roundHalfEven n d + 1) * d ≤ lo * d := by apply mul_le_mul_of_nonneg_right <;> omega
    rw [add_mul, one_mul] at this
    have e : 2 * (n - roundHalfEven n d * d) ≥ 2 * d := by omega
    have := (roundHalfEven_nearest n d hd).1
    omega
  · by_contra hc
    have : (hi + 1) * d ≤ roundHalfEven n d * d := by apply mul_le_mul_of_nonneg_right <;> omega
    rw [add_mul, one_mul] at this
    have e : 2 * (roundHalfEven n d * d - n) ≥ 2 * d := by omega
    have := (roundHalfEven_nearest n d hd).1
    omega

/-- R94: a clamped component lies in ±20,000. -/
theorem clampMv_range (x : Int) : -20000 ≤ clampMv x ∧ clampMv x ≤ 20000 := by
  unfold clampMv Config.clampLimit; omega

/-- R99: the comparisons of squared magnitudes, in integers. -/
theorem magSq_compare (v : Vec) (t : Nat) : (t * t ≤ magSq v ↔ (t:Int) * t ≤ v.x * v.x + v.y * v.y) ∧ (magSq v < t * t ↔ v.x * v.x + v.y * v.y < (t:Int) * t) ∧ (4 * magSq v < t * t ↔ 4 * (v.x * v.x + v.y * v.y) < (t:Int) * t) := by
  have h : 0 ≤ v.x * v.x + v.y * v.y :=
    add_nonneg (mul_self_nonneg _) (mul_self_nonneg _)
  have hh : ((magSq v : Nat) : Int) = v.x * v.x + v.y * v.y := by simp [magSq, h]
  have ht : ((t * t : Nat) : Int) = (t : Int) * t := by push_cast; ring
  rw [← hh, ← ht]
  refine ⟨?_, ?_, ?_⟩ <;> omega

/-- R103: the depth between neighbouring points of an ordered curve, and beyond its last. -/
theorem depthAlong_reads (p : Nat) (a : CurvePoint) (rest : List CurvePoint) (hle : a.phase ≤ p) (ho : (a :: rest).Pairwise (fun a b => a.phase < b.phase ∧ b.depth ≤ a.depth)) (hb : ∀ q ∈ a :: rest, q.depth ≤ 100) :
   (depthAlong p a rest).1 ≤ 100
   ∧ (∀ last, (a :: rest).getLast? = some last → last.phase ≤ p → depthAlong p a rest = (last.depth, decide (last.phase < p)))
   ∧ (∀ (i : Nat) x y, (a :: rest)[i]? = some x → (a :: rest)[i+1]? = some y → x.phase ≤ p → p < y.phase → 
        depthAlong p a rest = ((roundHalfEven ((x.depth : Int) * ((y.phase : Int) - x.phase) + ((p : Int) - x.phase) * ((y.depth : Int) - x.depth)) ((y.phase : Int) - x.phase)).toNat, false)) := by
  induction rest generalizing a with
  | nil =>
    refine ⟨hb a (by simp), ?_, ?_⟩
    · intro last h1 h2; simp at h1; subst h1; rfl
    · intro i x y h1 h2; simp at h2
  | cons b rest ih =>
    rw [List.pairwise_cons] at ho
    have hab := ho.1 b (by simp)
    rw [depthAlong]
    by_cases hp : p < b.phase
    · rw [if_pos hp]
      refine ⟨?_, ?_, ?_⟩
      · have := roundHalfEven_between ((a.depth : Int) * ((b.phase : Int) - a.phase) + ((p : Int) - a.phase) * ((b.depth : Int) - a.depth)) ((b.phase : Int) - a.phase) (by omega) 0 100 ?_ ?_
        · simp only; omega
        · have e1 : ((p : Int) - a.phase) * ((a.depth : Int) - b.depth) ≤ ((b.phase : Int) - a.phase) * a.depth := by
            apply mul_le_mul <;> omega
          nlinarith
        · have e1 : 0 ≤ ((p : Int) - a.phase) * ((a.depth : Int) - b.depth) := by apply mul_nonneg <;> omega
          have e2 : (a.depth : Int) * ((b.phase : Int) - a.phase) ≤ 100 * ((b.phase : Int) - a.phase) := by
            apply mul_le_mul_of_nonneg_right
            · have := hb a (by simp); omega
            · omega
          nlinarith
      · intro last h1 h2
        exfalso
        have hm : last ∈ b :: rest := by
          rw [List.getLast?_cons_cons] at h1; exact List.mem_of_getLast? h1
        rcases List.mem_cons.1 hm with rfl | hm
        · omega
        · rw [List.pairwise_cons] at ho; have := ho.2.1 last hm; omega
      · intro i x y h1 h2 h3 h4
        cases i with
        | zero => simp at h1 h2; subst h1; subst h2; rfl
        | succ i =>
          exfalso
          simp at h1
          have hm := List.mem_of_getElem? h1
          rcases List.mem_cons.1 hm with rfl | hm
          · omega
          · rw [List.pairwise_cons] at ho; have := ho.2.1 x hm; omega
    · rw [if_neg hp]
      obtain ⟨i1, i2, i3⟩ := ih b (by omega) ho.2 (fun q hq => hb q (by simp [List.mem_cons.1 hq]))
      refine ⟨i1, ?_, ?_⟩
      · intro last h1 h2; rw [List.getLast?_cons_cons] at h1; exact i2 last h1 h2
      · intro i x y h1 h2 h3 h4
        cases i with
        | zero => simp at h1 h2; subst h1; subst h2; omega
        | succ i => exact i3 i x y (by simpa using h1) (by simpa using h2) h3 h4

/-- R8: the check of order is that of every pair of points. -/
theorem ordered_iff (l : List CurvePoint) : ordered l = true ↔ l.Pairwise (fun a b => a.phase < b.phase ∧ b.depth ≤ a.depth) := by
  induction l with
  | nil => simp [ordered]
  | cons a l ih =>
    cases l with
    | nil => simp [ordered]
    | cons b l =>
      rw [ordered, Bool.and_eq_true, ih]
      simp only [decide_eq_true_iff, List.pairwise_cons, List.mem_cons, forall_eq_or_imp]
      constructor
      · rintro ⟨h, h1, h2⟩
        refine ⟨⟨h, ?_⟩, h1, h2⟩
        intro x hx; have := h1 x hx; omega
      · rintro ⟨⟨h, _⟩, h1, h2⟩; exact ⟨h, h1, h2⟩

/-- The points of a curve body are read back. -/
theorem readPoints_points (points : List CurvePoint) (hb : ∀ q ∈ points, q.phase < 65536 ∧ q.depth < 256) :
   readPoints (points.flatMap (fun q => c2 q.phase ++ c1 q.depth)) = some points := by
  induction points with
  | nil => rfl
  | cons a l ih =>
    have h := hb a (by simp)
    have ih := ih (fun q hq => hb q (by simp [hq]))
    simp only [List.flatMap_cons, c2, c1, List.cons_append, List.nil_append, readPoints] at ih ⊢
    rw [ih]
    simp [num2_c2 _ h.1, Nat.mod_eq_of_lt h.2]

/-- A curve point takes three characters. -/
theorem length_points (points : List CurvePoint) :
   (points.flatMap (fun q => c2 q.phase ++ c1 q.depth)).length = 3 * points.length := by
  induction points with
  | nil => rfl
  | cons a l ih => simp [c2, c1] at ih ⊢; omega

/-- The code of a raw trace is read back. -/
theorem rawTraceOf_rawCode (r : RawTrace) : rawTraceOf (BitVec.ofNat 8 (rawCode r)) = some r := by cases r <;> rfl

/-- The mix definitions of a body are read back. -/
theorem readPairs_mixDefs (mixes : List MixDef) (hd : ∀ d ∈ mixes, d.primary ≠ d.secondary) : ∃ l, readPairs (mixes.flatMap (fun d => c1 (rawCode d.primary) ++ c1 (rawCode d.secondary))) = some l ∧ mixDefsOf l = some mixes := by
  induction mixes with
  | nil => exact ⟨[], rfl, rfl⟩
  | cons d l ih =>
    obtain ⟨l', h1, h2⟩ := ih (fun d hd' => hd d (by simp [hd']))
    refine ⟨(BitVec.ofNat 8 (rawCode d.primary), BitVec.ofNat 8 (rawCode d.secondary)) :: l', ?_, ?_⟩
    · simp only [List.flatMap_cons, c1, List.cons_append, List.nil_append, readPairs] at h1 ⊢
      rw [h1]; rfl
    · simp [mixDefsOf, mixDefOf, rawTraceOf_rawCode, h2, hd d (by simp)]

/-- A mix definition takes two characters. -/
theorem length_mixDefs (mixes : List MixDef) : (mixes.flatMap (fun d => c1 (rawCode d.primary) ++ c1 (rawCode d.secondary))).length = 2 * mixes.length := by
  induction mixes with
  | nil => rfl
  | cons d l ih => simp [c1] at ih ⊢; omega

/-- R13: the tubes of a new row, in ascending column. -/
theorem newTubes_eq (row first n) : newTubes row first n = (List.range n).map (fun k => Tube.created row (first + k)) := by
  induction n generalizing first with
  | zero => rfl
  | succ n ih => 
    rw [newTubes, ih, List.range_succ_eq_map]; simp
    intro a ha; congr 1; omega

/-- The dividers of the active slots. -/
theorem mem_dividers (slots : Quad (Option Nat)) (d) : d ∈ dividers slots ↔ ∃ i, slots.get i = some d := by
  simp [dividers, Quad.mem_toList]

/-- R53: no two active slots hold the same divider. -/
theorem dividers_nodup_iff (slots : Quad (Option Nat)) : (dividers slots).Nodup ↔ ∀ i j d, slots.get i = some d → slots.get j = some d → i = j := by
  obtain ⟨a, b, c, d⟩ := slots
  simp only [Fin.forall_fin_succ, Quad.get, dividers, Quad.toList]
  cases a <;> cases b <;> cases c <;> cases d <;> simp [Fin.ext_iff] <;> grind

end Sys2Proof.Machine
end

