-- ==== Sys2Proof/Laws/Records.lean ====
section
/-!
SUPPORT. What the records of a pull, a job and a readout do: the pull buffer and location, the ranking
of a job, the scan of a readout, the samples of a step, and the frames of commands.
-/

namespace Sys2Proof.Machine

/-- A calibration pull in flight on some channel. -/
theorem anyCalInFlight_iff (s : State) : s.anyCalInFlight = true ↔ ¬ s.noCalPull := by
  simp only [State.anyCalInFlight, State.noCalPull, List.any_eq_true, Quad.mem_toList, not_forall, not_not, Channel.calInFlight]
  constructor
  · rintro ⟨x, ⟨i, rfl⟩, h⟩; exact ⟨i, by simpa using h⟩
  · rintro ⟨i, h⟩; exact ⟨_, ⟨i, rfl⟩, by simpa using h⟩

/-- A pull in flight on some channel. -/
theorem anyInFlight_iff (s : State) : s.anyInFlight = true ↔ ¬ s.noPull := by
  simp only [State.anyInFlight, State.noPull, List.any_eq_true, Quad.mem_toList, not_forall, Channel.inFlight]
  constructor
  · rintro ⟨x, ⟨i, rfl⟩, h⟩; exact ⟨i, by simp at h; tauto⟩
  · rintro ⟨i, h⟩; refine ⟨_, ⟨i, rfl⟩, ?_⟩; simp; tauto

/-- A job queued or in flight. -/
theorem jobsWaiting_iff (s : State) : s.jobsWaiting = true ↔ ¬ s.noJob := by
  simp [State.jobsWaiting, State.noJob]
  cases s.sizing.flight <;> simp

/-- R77: the smallest amplitude of a full buffer and the record offered to it. -/
theorem leastAmplitude_least (l : List Found) (m : Nat) : leastAmplitude l m ≤ m ∧ (∀ g ∈ l, leastAmplitude l m ≤ g.amplitude) ∧ (leastAmplitude l m = m ∨ ∃ g ∈ l, g.amplitude = leastAmplitude l m) := by
  induction l generalizing m with
  | nil => simp [leastAmplitude]
  | cons f l ih =>
    obtain ⟨h1, h2, h3⟩ := ih (min f.amplitude m)
    refine ⟨by rw [leastAmplitude]; omega, ?_, ?_⟩
    · intro g hg; rw [leastAmplitude]; rcases List.mem_cons.1 hg with rfl | hg
      · omega
      · exact h2 g hg
    · rw [leastAmplitude]
      rcases h3 with h3 | ⟨g, hg, h3⟩
      · by_cases hh : f.amplitude ≤ m
        · right; exact ⟨f, by simp, by omega⟩
        · left; omega
      · right; exact ⟨g, by simp [hg], h3⟩

/-- R77: of the records of an amplitude the last is dropped, the others kept in order. -/
theorem dropLastOf_drops (a : Nat) (l : List Found) (h : ∃ g ∈ l, g.amplitude = a) : ∃ b d r, l = b ++ d :: r ∧ dropLastOf a l = b ++ r ∧ d.amplitude = a ∧ ∀ g ∈ r, g.amplitude ≠ a := by
  induction l with
  | nil => simp at h
  | cons f l ih =>
    rw [dropLastOf]
    by_cases hr : l.any (fun g => g.amplitude == a) = true
    · rw [if_pos hr]
      obtain ⟨b, d, r, h1, h2, h3, h4⟩ := ih (by simpa using hr)
      exact ⟨f :: b, d, r, by rw [h1]; rfl, by rw [h2]; rfl, h3, h4⟩
    · rw [if_neg hr]
      have hf : f.amplitude = a := by
        obtain ⟨g, hg, hga⟩ := h
        rcases List.mem_cons.1 hg with rfl | hg
        · exact hga
        · exact absurd (by simpa using ⟨g, hg, hga⟩) hr
      rw [if_pos hf]
      exact ⟨[], f, l, rfl, rfl, hf, by simpa using hr⟩

/-- R84: the nearest numbered support, of two equally near the lower. -/
theorem nearest_spec (pos : Nat) (l : List (Nat × Nat)) : (l = [] → nearest pos l = none) ∧ (l ≠ [] → ∃ x, nearest pos l = some x ∧ x ∈ l ∧ ∀ y ∈ l, distance pos x.2 ≤ distance pos y.2 ∧ (distance pos x.2 = distance pos y.2 → x.2 ≤ y.2)) := by
  induction l with
  | nil => simp [nearest]
  | cons a l ih =>
    refine ⟨by simp, fun _ => ?_⟩
    rw [nearest]
    by_cases hl : l = []
    · rw [ih.1 hl]; exact ⟨a, rfl, by simp, by simp [hl]⟩
    · obtain ⟨y, hy, hm, hle⟩ := ih.2 hl
      rw [hy]; simp only
      split
      · rename_i hc
        refine ⟨a, rfl, by simp, ?_⟩
        intro z hz; rcases List.mem_cons.1 hz with rfl | hz
        · omega
        · have := hle z hz; omega
      · rename_i hc
        refine ⟨y, rfl, by simp [hm], ?_⟩
        intro z hz; rcases List.mem_cons.1 hz with rfl | hz
        · omega
        · exact hle z hz

/-- R84: supports are numbered down from the number counted. -/
theorem numbered_getElem? (n : Nat) (l : List Nat) (k) : (numbered n l)[k]? = (l[k]?).map (fun p => (n - k, p)) := by
  induction l generalizing n k with
  | nil => simp [numbered]
  | cons a l ih =>
    cases k with
    | zero => simp [numbered]
    | succ k => simp [numbered, ih, Nat.sub_sub, Nat.add_comm]

/-- No trace failed. -/
theorem firstFailure_eq_none (l : List TraceEntry) : (firstFailure l = none ↔ ∀ e ∈ l, e.failed = none) := by
  induction l with
  | nil => simp [firstFailure]
  | cons e l ih => rw [firstFailure]; cases h : e.failed <;> simp [h, ih]

/-- The reason is that of the first failing trace. -/
theorem firstFailure_eq_some (b : List TraceEntry) (e : TraceEntry) (a) (why) (h : ∀ x ∈ b, x.failed = none) (he : e.failed = some why) : firstFailure (b ++ e :: a) = some why := by
  induction b with
  | nil => simp [firstFailure, he]
  | cons x b ih => simp only [List.cons_append]; rw [firstFailure, h x (by simp)]; exact ih (fun x hx => h x (by simp [hx]))

/-- Insertion keeps the records. -/
theorem insertBy_perm (f) (a) (l : List Indication) : (insertBy f a l).Perm (a :: l) := by
  induction l with
  | nil => exact List.Perm.refl _
  | cons b l ih =>
    rw [insertBy]; split
    · exact (List.Perm.cons b ih).trans (List.Perm.swap a b l)
    · exact List.Perm.refl _

/-- Sorting keeps the records. -/
theorem sortBy_perm (f) (l : List Indication) : (sortBy f l).Perm l := by
  induction l with
  | nil => exact List.Perm.refl _
  | cons a l ih => rw [sortBy]; exact (insertBy_perm f a _).trans (List.Perm.cons a ih)

/-- Insertion keeps an order that the test decides. -/
theorem insertBy_sorted (f : Indication → Indication → Bool) (R : Indication → Indication → Prop)
   (a) (l : List Indication) (hl : l.Pairwise R) (h1 : ∀ b ∈ l, f b a = true → R b a) (h2 : ∀ b ∈ l, f b a = false → R a b) (ht : ∀ x y z, R x y → R y z → R x z) : (insertBy f a l).Pairwise R := by
  induction l with
  | nil => simp [insertBy]
  | cons b l ih =>
    rw [List.pairwise_cons] at hl
    rw [insertBy]; split
    · rename_i hb
      rw [List.pairwise_cons]
      refine ⟨?_, ih hl.2 (fun b hb => h1 b (by simp [hb])) (fun b hb => h2 b (by simp [hb]))⟩
      intro x hx
      rcases List.mem_cons.1 ((insertBy_perm f a l).mem_iff.1 hx) with rfl | hx
      · exact h1 b (by simp) hb
      · exact hl.1 x hx
    · rename_i hb
      have hb' : R a b := h2 b (by simp) (by simpa using hb)
      rw [List.pairwise_cons, List.pairwise_cons]
      refine ⟨?_, hl⟩
      intro x hx
      rcases List.mem_cons.1 hx with rfl | hx
      · exact hb'
      · exact ht _ _ _ hb' (hl.1 x hx)

/-- R150: the stored list is in ascending position. -/
theorem ascending_sorted (l : List Indication) : (ascending l).Pairwise (fun a b => a.position ≤ b.position) := by
  induction l with
  | nil => simp [ascending, sortBy]
  | cons a l ih =>
    apply insertBy_sorted _ _ _ _ ih
    · intro b _ h; simp at h; omega
    · intro b _ h; simp at h; omega
    · intro x y z; omega

/-- A signed optional number takes four characters. -/
theorem os4_length (x) : (os4 x).length = 4 := by cases x <;> rfl

/-- A mix entry takes nine characters. -/
theorem mixEntry_length (n k) : (mixEntry n k).length = 9 := by simp [mixEntry, c1, os4_length]

/-- The tube layout takes 22 characters. -/
theorem tubeBody_length (s i tb) : (tubeBody s i tb).length = 22 := by
  have hd : ∀ d, (depthChar d).length = 1 := by intro d; unfold depthChar; split <;> rfl
  simp [tubeBody, c1, c2, o1, o2, flags, hd]

/-- The channel layout takes 41 characters. -/
theorem channelBody_length (s c) : (channelBody s c).length = 41 := by
  simp only [channelBody, List.length_append, mixEntry_length, positionEntry]
  cases (s.cal.get c).slots <;> simp [c1, c2, o1, o2, flag, dividerBody, setChar]

/-- The indexed tubes of a scan. -/
theorem mem_indexed (i : Nat) (l : List Tube) (x) : x ∈ indexed i l ↔ i ≤ x.1 ∧ l[x.1 - i]? = some x.2 := by
  induction l generalizing i with
  | nil => simp [indexed]
  | cons a l ih =>
    rw [indexed, List.mem_cons, ih]
    obtain ⟨k, tb⟩ := x
    simp only [Prod.mk.injEq]
    constructor
    · rintro (⟨rfl, rfl⟩ | ⟨h1, h2⟩)
      · simp
      · refine ⟨by omega, ?_⟩
        rw [show k - i = (k - (i+1)) + 1 by omega]; simpa using h2
    · rintro ⟨h1, h2⟩
      by_cases hk : k = i
      · subst hk; simp at h2; simp [h2]
      · right; refine ⟨by omega, ?_⟩
        rw [show k - i = (k - (i+1)) + 1 by omega] at h2; simpa using h2

/-- The scan goes in ascending index. -/
theorem indexed_ascending (i : Nat) (l : List Tube) : ((indexed i l).map Prod.fst).Pairwise (· < ·) := by
  induction l generalizing i with
  | nil => simp [indexed]
  | cons a l ih =>
    rw [indexed, List.map_cons, List.pairwise_cons]
    refine ⟨?_, ih _⟩
    intro b hb
    obtain ⟨x, hx, rfl⟩ := List.mem_map.1 hb
    have := ((mem_indexed _ _ _).1 hx).1; omega

/-- R68, R71, R72: one sample raises the samples taken by 1, whatever its value. -/
theorem tubeSample_samples (u tp raw) (k : PullCtl) (pos : Nat) :
    (k.tubeSample u tp raw pos).samples = k.samples + 1 := by
  unfold PullCtl.tubeSample PullCtl.countSupport PullCtl.detect PullCtl.saturate PullCtl.close
  dsimp only
  repeat' split
  all_goals rfl

/-- R64, R68: a step raises the samples taken by the number of samples handed on, processed or not. -/
theorem tubeStep_samples (u tp raw) : ∀ (l : List Nat) (k : PullCtl),
    (tubeStep u tp raw l k).samples = k.samples + l.length
  | [], _ => rfl
  | pos :: rest, k => by
    unfold tubeStep
    split
    · rw [tubeStep_samples u tp raw rest, tubeSample_samples, List.length_cons]; omega
    · rfl

/-- R68, R78: under MASKED a step latches nothing and counts its samples. -/
theorem tubeStep_masked {u tp raw} : ∀ (l : List Nat) (k : PullCtl), k.latch = [] → tp.policy = .masked →
   (tubeStep u tp raw l k).latch = [] ∧ (tubeStep u tp raw l k).samples = k.samples + l.length ∧ (tubeStep u tp raw l k).record = k.record ∧ (tubeStep u tp raw l k).result = k.result := by
  intro l
  induction l with
  | nil => intro k h _; simp [tubeStep, h]
  | cons pos l ih =>
    intro k h hp
    have h1 : (k.tubeSample u tp raw pos).latch = [] ∧ (k.tubeSample u tp raw pos).samples = k.samples + 1 ∧ (k.tubeSample u tp raw pos).record = k.record ∧ (k.tubeSample u tp raw pos).result = k.result := by
      have hc : ∀ (k : PullCtl) pos v th, (k.countSupport pos v th).latch = k.latch ∧ (k.countSupport pos v th).samples = k.samples ∧ (k.countSupport pos v th).record = k.record ∧ (k.countSupport pos v th).result = k.result := by
        intro k pos v th; unfold PullCtl.countSupport; split <;> split <;> simp
      have hs : ∀ (k : PullCtl) x, k.saturate tp.policy x = k := by
        intro k x; simp [PullCtl.saturate, hp]
      have hd : ∀ (k : PullCtl) pos x, (k.detect tp pos x).latch = k.latch ∧ (k.detect tp pos x).samples = k.samples ∧ (k.detect tp pos x).record = k.record ∧ (k.detect tp pos x).result = k.result := by
        intro k pos x; unfold PullCtl.detect; simp only [hs]
        split
        · split <;> simp
        · split
          · simp [PullCtl.close]
          · split <;> simp [PullCtl.close]
        · split <;> simp
      unfold PullCtl.tubeSample
      simp only
      split
      · simp [h]
      · split <;> split <;> simp [hc, hd, h]
    have := ih _ h1.1 hp
    rw [tubeStep, h]; simp only [List.isEmpty_nil, if_true]
    rw [this.1, this.2.1, this.2.2.1, this.2.2.2, h1.2.1, h1.2.2.1, h1.2.2.2]
    simp; omega

/-- R71: in the null stage a step changes the sample count and the null alone. -/
theorem tubeStep_null {u tp raw} : ∀ (l : List Nat) (k : PullCtl), k.latch = [] → k.samples + l.length ≤ 16 →
   ∃ z, tubeStep u tp raw l k = { k with samples := k.samples + l.length, null := z } ∧ (∀ pos, l = [pos] → z = k.null.add (k.samples + 1) (calibrateAll u.gains raw)) := by
  intro l
  induction l with
  | nil => intro k h _; exact ⟨k.null, by simp [tubeStep], by simp⟩
  | cons pos l ih =>
    intro k h hl
    rw [List.length_cons] at hl
    rw [tubeStep, h]; simp only [List.isEmpty_nil, if_true]
    have e : k.tubeSample u tp raw pos = { k with samples := k.samples + 1, null := k.null.add (k.samples + 1) (calibrateAll u.gains raw) } := by
      unfold PullCtl.tubeSample; simp only; rw [if_pos (show k.samples + 1 ≤ 16 by omega)]
    rw [e]
    obtain ⟨z, hz, _⟩ := ih { k with samples := k.samples + 1, null := k.null.add (k.samples + 1) (calibrateAll u.gains raw) } h
      (show k.samples + 1 + l.length ≤ 16 by omega)
    rw [hz]
    refine ⟨z, ?_, ?_⟩
    · rw [List.length_cons, show k.samples + (l.length + 1) = k.samples + 1 + l.length by omega]
      simp only [h]
    · rintro pos' hp; simp at hp; obtain ⟨rfl, rfl⟩ := hp
      simp [tubeStep] at hz; exact hz.symm

/-- R179: a character the E4 sends is in no error. -/
theorem sentCharacter_inError (d m) : Character.inError (sentCharacter d m) = false := by
  simp [Character.inError, Character.parityError, sentCharacter]
  by_cases h : (onesOf d + m.toNat) % 2 = 0 <;> simp [h] <;> omega

/-- A command that arrives as a frame is the command its frame asks for. -/
theorem commandOfFrame_of_command {i p f} (hw : i.wellFormed = true) (h : frameOfCommand i = some (p, f)) : commandOfFrame p f = i := by
  cases i <;> simp [frameOfCommand] at h <;> obtain ⟨rfl, rfl⟩ := h <;> try rfl
  rename_i code body
  simp [Instr.wellFormed] at hw
  simp only [commandOfFrame]
  have hc : code = BitVec.ofFin code.toFin := rfl
  generalize code.toFin = n at hc
  subst hc
  match n with
  | ⟨n, hn⟩ =>
  have h1 := hw.1
  clear hw
  interval_cases n <;> first | rfl | (exact absurd (show true = false from h1) (by simp))

/-- A command that arrives as a frame fits a frame. -/
theorem frameOfCommand_fits {i p f} (hw : i.wellFormed = true) (h : frameOfCommand i = some (p, f)) : f.body.length ≤ 250 := by
  cases i <;> simp [frameOfCommand] at h <;> obtain ⟨rfl, rfl⟩ := h <;> simp_all [Instr.wellFormed, bodyFits]

end Sys2Proof.Machine
end

