-- ==== Sys2Proof/Laws/Trig.lean ====
section
/-!
SUPPORT. How near the trigonometric factors of Signal Arithmetic are to the exact cosines and sines, and
what its searches and its rounding find. A proof about calibrated values, phases, gains and amplitudes
cites these and unfolds no search.
-/

namespace Sys2Proof.Machine

/-- A pair of 2^-192 steps as a complex number. -/
noncomputable def scaled (a : Int × Int) : ℂ := ⟨(a.1 : ℝ) / 2 ^ 192, (a.2 : ℝ) / 2 ^ 192⟩

theorem floor_close (n : Int) : |((n / trigOne : Int) : ℝ) - (n : ℝ) / 2 ^ 192| ≤ 1 := by
  have hp : (0 : ℝ) < 2 ^ 192 := by positivity
  have e : ((trigOne : Int) : ℝ) = 2 ^ 192 := by norm_num [trigOne]
  have h := Int.mul_ediv_add_emod n trigOne
  have h0 := Int.emod_nonneg n (show trigOne ≠ 0 by norm_num [trigOne])
  have h1 := Int.emod_lt_of_pos n (show 0 < trigOne by norm_num [trigOne])
  have h' : (2 ^ 192 : ℝ) * ((n / trigOne : Int) : ℝ) + ((n % trigOne : Int) : ℝ) = n := by
    rw [← e]; exact_mod_cast h
  have h0' : (0 : ℝ) ≤ ((n % trigOne : Int) : ℝ) := by exact_mod_cast h0
  have h1' : ((n % trigOne : Int) : ℝ) < 2 ^ 192 := by rw [← e]; exact_mod_cast h1
  have hd : (n : ℝ) / 2 ^ 192 = ((n / trigOne : Int) : ℝ) + ((n % trigOne : Int) : ℝ) / 2 ^ 192 := by
    rw [← h']; field_simp
  rw [hd, abs_le]
  have := div_nonneg h0' hp.le
  have := (div_lt_one hp).2 h1'
  constructor <;> linarith

theorem norm_le_abs_add (z : ℂ) : ‖z‖ ≤ |z.re| + |z.im| := Complex.norm_le_abs_re_add_abs_im z

theorem cmul_close (a b : Int × Int) :
    ‖scaled (cmul a b) - scaled a * scaled b‖ ≤ 2 / 2 ^ 192 := by
  have h1 := floor_close (a.1 * b.1 - a.2 * b.2)
  have h2 := floor_close (a.1 * b.2 + a.2 * b.1)
  refine (norm_le_abs_add _).trans ?_
  have hp : (0 : ℝ) < 2 ^ 192 := by positivity
  have er : (scaled (cmul a b) - scaled a * scaled b).re
      = ((((a.1 * b.1 - a.2 * b.2) / trigOne : Int) : ℝ)
          - ((a.1 * b.1 - a.2 * b.2 : Int) : ℝ) / 2 ^ 192) / 2 ^ 192 := by
    simp only [scaled, cmul, Complex.sub_re, Complex.mul_re]; push_cast; field_simp; try ring
  have ei : (scaled (cmul a b) - scaled a * scaled b).im
      = ((((a.1 * b.2 + a.2 * b.1) / trigOne : Int) : ℝ)
          - ((a.1 * b.2 + a.2 * b.1 : Int) : ℝ) / 2 ^ 192) / 2 ^ 192 := by
    simp only [scaled, cmul, Complex.sub_im, Complex.mul_im]; push_cast; field_simp; try ring
  rw [er, ei, abs_div, abs_div, abs_of_pos hp, ← add_div]
  gcongr
  linarith

/-- The factor of a product stays near the product of what its factors are near. -/
theorem cmul_near {a b : Int × Int} {z w : ℂ} {d e : ℝ} (hz : ‖z‖ = 1) (hw : ‖w‖ = 1)
    (ha : ‖scaled a - z‖ ≤ d) (hb : ‖scaled b - w‖ ≤ e) :
    ‖scaled (cmul a b) - z * w‖ ≤ d + e + d * e + 2 / 2 ^ 192 := by
  have hc := cmul_close a b
  have key : scaled (cmul a b) - z * w
      = (scaled (cmul a b) - scaled a * scaled b) + (scaled a - z) * (scaled b - w)
        + z * (scaled b - w) + (scaled a - z) * w := by ring
  rw [key]
  have h1 : ‖(scaled a - z) * (scaled b - w)‖ ≤ d * e := by
    rw [norm_mul]; exact mul_le_mul ha hb (norm_nonneg _) ((norm_nonneg _).trans ha)
  have h2 : ‖z * (scaled b - w)‖ ≤ e := by rw [norm_mul, hz, one_mul]; exact hb
  have h3 : ‖(scaled a - z) * w‖ ≤ d := by rw [norm_mul, hw, mul_one]; exact ha
  calc _ ≤ _ := norm_add_le _ _
    _ ≤ _ := add_le_add (norm_add_le _ _) le_rfl
    _ ≤ _ := add_le_add (add_le_add (norm_add_le _ _) le_rfl) le_rfl
    _ ≤ _ := by linarith

theorem cpow_near (n : Nat) : ∀ (j : Nat) (base acc : Int × Int) (z w : ℂ) (e : ℝ), j < 2 ^ n →
    ‖z‖ = 1 → ‖w‖ = 1 → 0 ≤ e → e * 4 ^ n ≤ 1 / 2 → 4 / 2 ^ 192 ≤ e →
    ‖scaled base - z‖ ≤ e → ‖scaled acc - w‖ ≤ e →
    ‖scaled (cpow n j base acc) - z ^ j * w‖ ≤ e * 4 ^ n := by
  induction n with
  | zero =>
    intro j base acc z w e hj hz hw _ _ _ _ ha
    have : j = 0 := by simpa using hj
    subst this
    simpa [cpow] using ha
  | succ n ih =>
    intro j base acc z w e hj hz hw he hb hu h1 h2
    have h4 : (1 : ℝ) ≤ 4 ^ n := one_le_pow₀ (by norm_num)
    have hsmall : e ≤ 1 / 8 := by
      have : e * 4 ^ (n + 1) = 4 * (e * 4 ^ n) := by ring
      nlinarith
    have hgrow : e + e + e * e + 2 / 2 ^ 192 ≤ 4 * e := by
      have h3 : (2 : ℝ) / 2 ^ 192 ≤ e := le_trans (by norm_num) hu
      nlinarith
    have hsq := (cmul_near hz hz h1 h1).trans hgrow
    have hz2 : ‖z * z‖ = 1 := by rw [norm_mul, hz, one_mul]
    have hb' : 4 * e * 4 ^ n ≤ 1 / 2 := by
      have : 4 * e * 4 ^ n = e * 4 ^ (n + 1) := by ring
      linarith
    have hj2 : j / 2 < 2 ^ n := by rw [pow_succ] at hj; omega
    have hu' : 4 / 2 ^ 192 ≤ 4 * e := by linarith
    have e4 : 4 * e * 4 ^ n = e * 4 ^ (n + 1) := by ring
    simp only [cpow]
    by_cases hodd : j % 2 = 1
    · rw [if_pos hodd]
      have hacc : ‖scaled (cmul acc base) - w * z‖ ≤ 4 * e := (cmul_near hw hz h2 h1).trans hgrow
      have hw' : ‖w * z‖ = 1 := by rw [norm_mul, hz, hw, one_mul]
      have := ih (j / 2) (cmul base base) (cmul acc base) (z * z) (w * z) (4 * e) hj2 hz2 hw'
        (by linarith) hb' hu' hsq hacc
      rw [e4] at this
      have ez : (z * z) ^ (j / 2) * (w * z) = z ^ j * w := by
        conv_rhs => rw [show j = 2 * (j / 2) + 1 by omega, pow_succ, pow_mul, sq]
        ring
      rwa [ez] at this
    · rw [if_neg hodd]
      have := ih (j / 2) (cmul base base) acc (z * z) w (4 * e) hj2 hz2 hw
        (by linarith) hb' hu' hsq (h2.trans (by linarith))
      rw [e4] at this
      have ez : (z * z) ^ (j / 2) * w = z ^ j * w := by
        conv_rhs => rw [show j = 2 * (j / 2) by omega, pow_mul, sq]
      rwa [ez] at this

/-- One step of 0.05 degrees is near its exact value. -/
theorem unitStep_close :
    ‖scaled unitStep - Complex.exp ((Real.pi / 3600 : ℝ) * Complex.I)‖ ≤ 1 / 10 ^ 20 := by
  have hlo : (3.14159265358979323846 / 3600 : ℝ) ≤ Real.pi / 3600 := by
    have := Real.pi_gt_d20; linarith
  have hhi : Real.pi / 3600 ≤ (3.14159265358979323847 / 3600 : ℝ) := by
    have := Real.pi_lt_d20; linarith
  generalize Real.pi / 3600 = x at *
  have h0 : (0 : ℝ) ≤ x := le_trans (by norm_num) hlo
  have hn : ‖((x : ℝ) : ℂ) * Complex.I‖ = x := by
    rw [norm_mul, Complex.norm_I, mul_one, Complex.norm_real, Real.norm_of_nonneg h0]
  have hb := Complex.exp_bound (x := ((x : ℝ) : ℂ) * Complex.I) (n := 6)
    (by rw [hn]; exact hhi.trans (by norm_num)) (by norm_num)
  rw [hn] at hb
  have hsum : ∑ m ∈ Finset.range 6, (((x : ℝ) : ℂ) * Complex.I) ^ m / (m.factorial : ℂ)
      = ⟨1 - x ^ 2 / 2 + x ^ 4 / 24, x - x ^ 3 / 6 + x ^ 5 / 120⟩ := by
    have h2 : Complex.I ^ 2 = -1 := Complex.I_sq
    have h3 : Complex.I ^ 3 = -Complex.I := by rw [pow_succ, h2]; ring
    have h4 : Complex.I ^ 4 = 1 := Complex.I_pow_four
    have h5 : Complex.I ^ 5 = Complex.I := by rw [pow_succ, h4]; ring
    simp only [Finset.sum_range_succ, Finset.sum_range_zero, mul_pow, h2, h3, h4, h5,
      Nat.factorial]
    apply Complex.ext
    · simp [← Complex.ofReal_pow]; ring
    · simp [← Complex.ofReal_pow]; ring
  have p2l := pow_le_pow_left₀ (by norm_num) hlo 2
  have p3l := pow_le_pow_left₀ (by norm_num) hlo 3
  have p4l := pow_le_pow_left₀ (by norm_num) hlo 4
  have p5l := pow_le_pow_left₀ (by norm_num) hlo 5
  have p2h := pow_le_pow_left₀ h0 hhi 2
  have p3h := pow_le_pow_left₀ h0 hhi 3
  have p4h := pow_le_pow_left₀ h0 hhi 4
  have p5h := pow_le_pow_left₀ h0 hhi 5
  have p6h := pow_le_pow_left₀ h0 hhi 6
  rw [hsum] at hb
  have hd : ‖scaled unitStep
      - (⟨1 - x ^ 2 / 2 + x ^ 4 / 24, x - x ^ 3 / 6 + x ^ 5 / 120⟩ : ℂ)‖ ≤ 8 / 10 ^ 21 := by
    refine (norm_le_abs_add _).trans ?_
    have hre : |(scaled unitStep
        - (⟨1 - x ^ 2 / 2 + x ^ 4 / 24, x - x ^ 3 / 6 + x ^ 5 / 120⟩ : ℂ)).re| ≤ 4 / 10 ^ 21 := by
      simp only [scaled, unitStep, Complex.sub_re]
      rw [abs_le]
      norm_num at p2l p3l p4l p5l p2h p3h p4h p5h ⊢
      constructor <;> linarith
    have him : |(scaled unitStep
        - (⟨1 - x ^ 2 / 2 + x ^ 4 / 24, x - x ^ 3 / 6 + x ^ 5 / 120⟩ : ℂ)).im| ≤ 4 / 10 ^ 21 := by
      simp only [scaled, unitStep, Complex.sub_im]
      rw [abs_le]
      norm_num at p2l p3l p4l p5l p2h p3h p4h p5h hlo hhi ⊢
      constructor <;> linarith
    linarith
  have he : x ^ 6 * (Nat.succ 6 * ((Nat.factorial 6 : ℝ) * 6)⁻¹) ≤ 1 / 10 ^ 21 := by
    norm_num [Nat.factorial] at p6h ⊢
    linarith
  have tri := norm_sub_le_norm_sub_add_norm_sub (scaled unitStep)
    (⟨1 - x ^ 2 / 2 + x ^ 4 / 24, x - x ^ 3 / 6 + x ^ 5 / 120⟩ : ℂ) (Complex.exp ((x : ℝ) * Complex.I))
  rw [norm_sub_rev (⟨1 - x ^ 2 / 2 + x ^ 4 / 24, x - x ^ 3 / 6 + x ^ 5 / 120⟩ : ℂ)] at tri
  linarith [hb.trans he]

/-- The factors of `j` steps of 0.05 degrees are near their exact values. -/
theorem rot_close (j : Nat) (hj : j < 8192) :
    ‖scaled (rot j) - Complex.exp ((j * Real.pi / 3600 : ℝ) * Complex.I)‖ ≤ 1 / 10 ^ 12 := by
  have h := cpow_near 13 j unitStep (trigOne, 0) (Complex.exp ((Real.pi / 3600 : ℝ) * Complex.I)) 1
    (1 / 10 ^ 20) hj (Complex.norm_exp_ofReal_mul_I _) norm_one (by norm_num) (by norm_num)
    (by norm_num) unitStep_close (by
      have : scaled (trigOne, 0) = 1 := by
        apply Complex.ext <;> norm_num [scaled, trigOne]
      rw [this, sub_self, norm_zero]; norm_num)
  rw [mul_one, ← Complex.exp_nat_mul] at h
  have e : (j : ℂ) * (((Real.pi / 3600 : ℝ) : ℂ) * Complex.I)
      = ((j * Real.pi / 3600 : ℝ) : ℂ) * Complex.I := by push_cast; ring
  rw [e] at h
  exact h.trans (by norm_num)

/-- The cosine and sine that `rot` gives, in steps of 2^-192, are near the exact ones. -/
theorem rot_near (j : Nat) (hj : j < 8192) :
    |((rot j).1 : ℝ) / 2 ^ 192 - Real.cos (j * Real.pi / 3600)| ≤ 1 / 10 ^ 12
    ∧ |((rot j).2 : ℝ) / 2 ^ 192 - Real.sin (j * Real.pi / 3600)| ≤ 1 / 10 ^ 12 := by
  have h := rot_close j hj
  have hr := (Complex.abs_re_le_norm _).trans h
  have hi := (Complex.abs_im_le_norm _).trans h
  rw [Complex.sub_re, Complex.exp_ofReal_mul_I_re] at hr
  rw [Complex.sub_im, Complex.exp_ofReal_mul_I_im] at hi
  exact ⟨hr, hi⟩

/-! ## Rounding and searching -/

/-- Rounding that carries the error of `rot` is within a hair of the half. -/
theorem roundTrig_near (n d : Int) (hd : 0 < d) :
    |(roundTrig n d : ℝ) - n / d| ≤ 1 / 2 + 1 / 2 ^ 100 := by
  have hp : (0 : ℝ) < d := by exact_mod_cast hd
  have h := Int.mul_ediv_add_emod n d
  have h0 := Int.emod_nonneg n hd.ne'
  have h1 := Int.emod_lt_of_pos n hd
  have hn : (n : ℝ) / d = ((n / d : Int) : ℝ) + ((n % d : Int) : ℝ) / d := by
    have : (d : ℝ) * ((n / d : Int) : ℝ) + ((n % d : Int) : ℝ) = n := by exact_mod_cast h
    rw [← this]; field_simp
  simp only [roundTrig]
  generalize n / d = q at *
  generalize n % d = r at *
  have near : ∀ z : Int, (z = q ∧ (2 * r - d) * 2 ^ 100 ≤ d) ∨ (z = q + 1 ∧ (d - 2 * r) * 2 ^ 100 ≤ d) →
      |(z : ℝ) - n / d| ≤ 1 / 2 + 1 / 2 ^ 100 := by
    intro z hz
    have hr0 : (0 : ℝ) ≤ (r : ℝ) / d := div_nonneg (by exact_mod_cast h0) hp.le
    have hr1 : (r : ℝ) / d ≤ 1 := (div_le_one hp).2 (by exact_mod_cast h1.le)
    rw [hn]
    rcases hz with ⟨rfl, hz⟩ | ⟨rfl, hz⟩
    · have hz' : ((2 * r - d) * 2 ^ 100 : ℝ) ≤ d := by exact_mod_cast hz
      have : (r : ℝ) / d ≤ 1 / 2 + 1 / 2 ^ 100 := by
        rw [div_le_iff₀ hp]; norm_num at hz' ⊢; linarith
      rw [abs_le]; constructor <;> linarith
    · have hz' : ((d - 2 * r) * 2 ^ 100 : ℝ) ≤ d := by exact_mod_cast hz
      have : 1 / 2 - 1 / 2 ^ 100 ≤ (r : ℝ) / d := by
        rw [le_div_iff₀ hp]; norm_num at hz' ⊢; linarith
      push_cast
      rw [abs_le]; constructor <;> linarith
  apply near
  split
  · split <;> omega
  · split <;> omega

/-- The bit by bit square root is the integer square root. -/
theorem isqrtFrom_spec (n b : Nat) : ∀ r, r * r ≤ n → n < (r + 2 ^ b) * (r + 2 ^ b) →
    isqrtFrom n b r * isqrtFrom n b r ≤ n
      ∧ n < (isqrtFrom n b r + 1) * (isqrtFrom n b r + 1) := by
  induction b with
  | zero => intro r h1 h2; exact ⟨h1, by simpa [isqrtFrom] using h2⟩
  | succ b ih =>
    intro r h1 h2
    simp only [isqrtFrom]
    split
    · exact ih _ ‹_› (by rw [pow_succ] at h2; rwa [add_assoc, ← Nat.mul_two])
    · exact ih _ h1 (by omega)

/-- `isqrt` is the integer square root below 2^64. -/
theorem isqrt_spec (n : Nat) (h : n < 2 ^ 64) :
    isqrt n * isqrt n ≤ n ∧ n < (isqrt n + 1) * (isqrt n + 1) :=
  isqrtFrom_spec n 32 0 (Nat.zero_le _) (by norm_num at h ⊢; exact h)

/-- The search for tenths ends at a count whose lower boundary the angle is above, or at 0, and whose upper
boundary it is not above, or at 1,800. -/
theorem tenthsFrom_spec (v : Vec) (b : Nat) : ∀ r,
    (r = 0 ∨ r ≤ 1800 ∧ angleAbove v (2 * r - 1) = true) →
    ¬ (r + 2 ^ b ≤ 1800 ∧ angleAbove v (2 * (r + 2 ^ b) - 1) = true) →
    (tenthsFrom v b r = 0
        ∨ tenthsFrom v b r ≤ 1800 ∧ angleAbove v (2 * tenthsFrom v b r - 1) = true)
      ∧ ¬ (tenthsFrom v b r + 1 ≤ 1800 ∧ angleAbove v (2 * (tenthsFrom v b r + 1) - 1) = true) := by
  induction b with
  | zero => intro r h1 h2; exact ⟨h1, by simpa [tenthsFrom] using h2⟩
  | succ b ih =>
    intro r h1 h2
    simp only [tenthsFrom]
    split
    · exact ih _ (.inr ‹_›) (by rw [pow_succ] at h2; rwa [add_assoc, ← Nat.mul_two])
    · exact ih _ h1 ‹_›

/-- What `angleAbove` says of a vector of known length and angle, to within the error of `rot`. -/
theorem angleAbove_near (v : Vec) (j : Nat) (hj : j < 8192) (length angle : ℝ) (hl : 0 < length)
    (hx : (v.x : ℝ) = length * Real.cos angle) (hy : (v.y : ℝ) = length * Real.sin angle) :
    (angleAbove v j = true → -(2 / 10 ^ 12) ≤ Real.sin (angle - j * Real.pi / 3600))
    ∧ (angleAbove v j = false → Real.sin (angle - j * Real.pi / 3600) ≤ 2 / 10 ^ 12) := by
  obtain ⟨hc, hs⟩ := rot_near j hj
  generalize (j * Real.pi / 3600 : ℝ) = q at *
  have hp : (0 : ℝ) < 2 ^ 192 := by positivity
  have cross : ((v.y * (rot j).1 - v.x * (rot j).2 : Int) : ℝ) / (length * 2 ^ 192)
      = Real.sin angle * (((rot j).1 : ℝ) / 2 ^ 192) - Real.cos angle * (((rot j).2 : ℝ) / 2 ^ 192) := by
    push_cast; rw [hx, hy]; field_simp
  have hsin := abs_le.1 (Real.abs_sin_le_one angle)
  have hcos := abs_le.1 (Real.abs_cos_le_one angle)
  have d1 : |Real.sin angle * (((rot j).1 : ℝ) / 2 ^ 192 - Real.cos q)| ≤ 1 / 10 ^ 12 := by
    rw [abs_mul]
    calc _ ≤ 1 * (1 / 10 ^ 12) := mul_le_mul (Real.abs_sin_le_one _) hc (abs_nonneg _) zero_le_one
      _ = _ := one_mul _
  have d2 : |Real.cos angle * (((rot j).2 : ℝ) / 2 ^ 192 - Real.sin q)| ≤ 1 / 10 ^ 12 := by
    rw [abs_mul]
    calc _ ≤ 1 * (1 / 10 ^ 12) := mul_le_mul (Real.abs_cos_le_one _) hs (abs_nonneg _) zero_le_one
      _ = _ := one_mul _
  have e : Real.sin (angle - q)
      = ((v.y * (rot j).1 - v.x * (rot j).2 : Int) : ℝ) / (length * 2 ^ 192)
        - Real.sin angle * (((rot j).1 : ℝ) / 2 ^ 192 - Real.cos q)
        + Real.cos angle * (((rot j).2 : ℝ) / 2 ^ 192 - Real.sin q) := by
    rw [cross, Real.sin_sub]; ring
  rw [abs_le] at d1 d2
  have hlp : 0 < length * 2 ^ 192 := mul_pos hl hp
  constructor
  · intro h
    have h' : 0 < v.y * (rot j).1 - v.x * (rot j).2 := by simpa [angleAbove] using h
    have : (0 : ℝ) < ((v.y * (rot j).1 - v.x * (rot j).2 : Int) : ℝ) / (length * 2 ^ 192) :=
      div_pos (by exact_mod_cast h') hlp
    rw [e]; linarith
  · intro h
    have h' : v.y * (rot j).1 - v.x * (rot j).2 ≤ 0 := by simpa [angleAbove] using h
    have : ((v.y * (rot j).1 - v.x * (rot j).2 : Int) : ℝ) / (length * 2 ^ 192) ≤ 0 :=
      div_nonpos_of_nonpos_of_nonneg (by exact_mod_cast h') hlp.le
    rw [e]; linarith

end Sys2Proof.Machine
end

