-- ==== Sys2Proof/Tests/Slice0.lean ====
section
/-!
SUPPORT. Tests. Expected results are the manual's worked examples and tables, or worked by hand from
its rules; each test names its source. The last part shows, for each obligation with hypotheses, a
concrete case that meets them.
-/

namespace Sys2Proof.Tests

open Sys2Proof.Machine

set_option Elab.async false

/-! ## Which terms are commands (R181, R182) -/

theorem test_body_of_251_is_ill_formed :
    (Instr.planSet 0 (List.replicate 251 0)).wellFormed = false := by decide +kernel
theorem test_body_of_250_is_well_formed :
    (Instr.planSet 0 (List.replicate 250 0)).wellFormed = true := by decide +kernel
theorem test_garbled_body_of_251_is_ill_formed :
    (Instr.garbledFrame 0 0x10 (List.replicate 251 0)).wellFormed = false := by decide +kernel
theorem test_unknown_code_that_names_a_request_is_ill_formed :
    (Instr.unknownCode 0 0x52 []).wellFormed = false := by decide
theorem test_unknown_code_that_names_none_is_well_formed :
    (Instr.unknownCode 0 0x1E []).wellFormed = true := by decide

/-! ## From frames to commands (R182, code table) -/

theorem test_code_13h_is_row_add :
    commandOfFrame 2 ⟨0x13, [1], false⟩ = .rowAdd 2 [1] := by decide
theorem test_code_34h_is_pull_start :
    commandOfFrame 1 ⟨0x34, [0, 3], false⟩ = .pullStart 1 [0, 3] := by decide
theorem test_code_3Fh_names_no_request :
    commandOfFrame 1 ⟨0x3F, [], false⟩ = .unknownCode 1 0x3F [] := by decide
theorem test_garbled_mark_comes_before_the_code :
    commandOfFrame 1 ⟨0x40, [], true⟩ = .garbledFrame 1 0x40 [] := by decide
theorem test_no_word_spells_a_command : decodeTableWord 16 0x40 = none := by decide

/-! ## Sample states -/

/-- A port with the REVIEW station. -/
def review : PortState := { PortState.reset with role := .review }

/-- A port with a CREW station under MASKED and its set of channels. -/
def crew (bound : FourSet) : PortState :=
  { PortState.reset with role := .crew, policy := some .masked, bound := bound }

/-- The set of channel 0 alone. -/
def onlyZero : FourSet := ⟨true, false, false, false⟩

/-- The curve of the worked examples (Sizing; Signal Arithmetic). -/
def curve : Curve := ⟨⟨400, 100⟩, ⟨700, 60⟩, [⟨1100, 20⟩, ⟨1500, 0⟩]⟩

/-- The standard of the worked example of the Calibration chapter. -/
def standard : Standard := ⟨1000, 600, 300, 20⟩

/-- A channel bound to port 1, in a pull state with a pull kind. -/
def boundChan (st : PullState) (kind : Option PullKind) : Channel :=
  { Channel.reset with
    binding := some 1, state := st, kind := kind, excited := true
    settle := if st = .settling then some 10240 else none }

/-- A calibrated unit with gain 1 and rotation 0 on every trace. -/
def calibrated : CalUnit :=
  { CalUnit.reset with
    state := .calibrated, slots := some (Quad.fill true)
    gains := Eight.ofFn (fun _ => some ⟨256, 0⟩), lastGood := some 0 }

/-- A REVIEW station on port 0, CREW stations on ports 1 and 2, channel 0 bound to port 1; rows and
marks of the worked example of The Tube Map. -/
def world (ps : PlanState) (ch : Channel) (u : CalUnit) : State :=
  { State.reset with
    planState := ps
    plan := { Plan.default with curve := some curve, standard := some standard }
    ports := ⟨review, crew onlyZero, crew FourSet.empty, PortState.reset⟩
    chan := ⟨ch, Channel.reset, Channel.reset, Channel.reset⟩
    cal := ⟨u, CalUnit.reset, CalUnit.reset, CalUnit.reset⟩
    rows := [⟨3, 5, 6, 12, 0⟩, ⟨4, 4, 4, 12, 2⟩]
    tubes := [Tube.created 3 5, Tube.created 3 6, Tube.created 4 4] }

/-- ACTIVE, channel 0 READY and calibrated. -/
def active : State := world .active (boundChan .ready none) calibrated

/-- DRAFT, channel 0 READY and calibrated. -/
def draft : State := world .draft (boundChan .ready none) calibrated

/-- The next state of a command; the state itself where there is none. -/
def after (i : Instr) (s : State) : State :=
  match exec i s with
  | .next t => t
  | _ => s

/-- The body of the reply in progress on a port, after its lead character. -/
def answered (s : State) (p : Port) : List Byte :=
  match (s.ports.get p).reply with
  | some r => r.lead :: r.body
  | none => []

/-- The state with a port's reply sent. -/
def sent (p : Port) (s : State) : State := after (.replySent p) s

/-! ## Worked example: laying out a small map (The Tube Map) -/

/-- The plan of the example after its three accepted rows and two marks. -/
def laidOut : State :=
  let s0 := { State.reset with ports := ⟨review, PortState.reset, PortState.reset, PortState.reset⟩ }
  [Instr.planNew 0 [], .rowAdd 0 [3, 0, 5, 0, 8, 0, 12], .rowAdd 0 [4, 0, 4, 0, 9, 0, 12],
    .rowAdd 0 [6, 0, 4, 0, 9, 0, 12], .tubeMark 0 [4, 0, 4, 0, 0],
    .tubeMark 0 [6, 0, 9, 0, 1]].foldl (fun s i => sent 0 (after i s)) s0

theorem test_row_add_counts : laidOut.tubes.length = 16 := by decide
theorem test_row_add_order_and_range :
    answered (after (.rowAdd 0 [5, 0, 4, 0, 9, 0, 12]) laidOut) 0 = [0xF1, 0x07]
      ∧ answered (after (.rowAdd 0 [7, 0, 9, 0, 4, 0, 12]) laidOut) 0 = [0xF1, 0x06] := by decide
theorem test_pair_names_index :
    laidOut.indexOf 6 7 = some 13 ∧ laidOut.indexOf 5 6 = none := by decide
theorem test_tube_mark_reply :
    answered (after (.tubeMark 0 [4, 0, 4, 0, 2]) laidOut) 0 = [0xF0, 0, 3] := by decide

/-- The map after the example's SCOPE_SET OUT. -/
def scopedOut : State := after (.scopeSet 0 [3, 0, 4, 0, 7, 0, 9, 0, 1]) laidOut

theorem test_scope_set_out : answered scopedOut 0 = [0xF0, 5, 0, 0, 0] := by decide
theorem test_scope_set_in :
    answered (after (.scopeSet 0 [4, 0, 6, 0, 4, 0, 9, 0, 0]) (sent 0 scopedOut)) 0
      = [0xF0, 3, 0, 9, 0] := by decide
theorem test_plan_new_starts_draft : laidOut.planState = .draft := by decide

/-! ## The rest of the plan requests (R4 to R12) -/

theorem test_plan_set_refuses_a_short_tube :
    answered (after (.planSet 0 [1, 0x41, 0xE7, 3]) draft) 0 = [0xF1, 0x06] := by decide
theorem test_plan_set_writes_name_and_length :
    (after (.planSet 0 [1, 0x41, 0xE8, 3]) draft).plan.tubeLength = 1000 := by decide
theorem test_standard_windows_that_touch_are_refused :
    answered (after (.standardSet 0 [0xE8, 3, 0x58, 2, 0x30, 2, 20]) draft) 0 = [0xF1, 0x06] := by
  decide
theorem test_standard_windows_apart_are_taken :
    answered (after (.standardSet 0 [0xE8, 3, 0x58, 2, 0x2F, 2, 20]) draft) 0 = [0xF0] := by decide
theorem test_curve_set_refuses_equal_phases :
    answered (after (.curveSet 0 [2, 5, 0, 9, 5, 0, 8]) draft) 0 = [0xF1, 0x06] := by decide
theorem test_limits_close_is_clamped_below_open :
    answered (after (.limitsSet 0 [50, 0, 100, 0, 0, 0, 50, 0, 0, 0, 9, 0, 0, 0, 0, 0, 0, 0]) draft) 0
      = [0xF0, 100, 0, 99, 0, 0xF4, 1, 1, 0, 1, 0, 5, 0, 30, 0, 10, 0, 30, 0] := by decide
theorem test_traces_set_needs_its_mix_in_active :
    answered (after (.tracesSet 0 [8, 7, 0]) active) 0 = [0xF1, 0x04] := by decide
theorem test_traces_set_without_its_mix_in_draft :
    (after (.tracesSet 0 [8, 7, 0]) draft).plan.detection = .m1 := by decide
theorem test_plan_open_answers_the_tube_count :
    answered (after (.planOpen 0 []) draft) 0 = [0xF0, 3, 0] := by decide
theorem test_plan_lock_locks_the_scope :
    answered (after (.scopeSet 0 [3, 0, 3, 0, 5, 0, 5, 0, 1])
      (sent 0 (after (.planLock 0 []) active))) 0 = [0xF1, 0x05] := by decide
theorem test_plan_close : (after (.planClose 0 []) active).planState = .closed := by decide

/-! ## Worked example: two crews and the analyst (Claims) -/

/-- The example's first grants: A on port 1 tag 0, B on port 2 tag 0, A again on tag 1. -/
def claimed : State :=
  [(1, Instr.claimNext 1 [0, 3, 0, 6, 0, 4, 0, 9, 0]), (2, .claimNext 2 [0, 3, 0, 6, 0, 4, 0, 9, 0]),
    (1, .claimNext 1 [1, 3, 0, 6, 0, 4, 0, 9, 0])].foldl (fun s x => sent x.1 (after x.2 s))
    { active with seconds := 1000 }

theorem test_claims_granted : claimed.slot 1 0 = some ⟨0, .leased 1600, false⟩
    ∧ claimed.slot 2 0 = some ⟨1, .leased 1600, false⟩
    ∧ claimed.slot 1 1 = some ⟨2, .leased 1600, false⟩ := by decide
theorem test_claim_taken :
    answered (after (.claim 1 [2, 3, 0, 6, 0]) claimed) 1 = [0xF1, 0x0B] := by decide
theorem test_claim_reply :
    answered (after (.claim 1 [2, 3, 0, 6, 0]) active) 1
      = [0xF0, 2, 3, 0, 6, 0, 1, 0, 3, 0, 0, 0x58, 2] := by decide
theorem test_tube_release_is_noticed :
    (after (.tubeRelease 0 [4, 0, 4, 0]) claimed).ports.q1.notices.claimRevoked
      = ⟨false, true, false, false⟩ := by decide
theorem test_release_is_not_noticed :
    (after (.release 1 [1]) claimed).ports.q1.notices = Notices.empty
      ∧ (after (.release 1 [1]) claimed).slot 1 1 = none := by decide
theorem test_lease_expires_at_its_deadline :
    (after (.leaseExpiry 2 0) { claimed with seconds := 1600 }).slot 2 0 = none
      ∧ after (.leaseExpiry 2 0) { claimed with seconds := 1599 }
        = { claimed with seconds := 1599 } := by decide
theorem test_pull_start_marks_the_claim :
    (after (.pullStart 1 [0, 0]) claimed).slot 1 0 = some ⟨0, .inPull, false⟩
      ∧ (after (.pullStart 1 [0, 0]) claimed).chan.q0.position = 240000 := by decide
theorem test_pull_start_without_a_claim :
    answered (after (.pullStart 1 [3, 0]) claimed) 1 = [0xF1, 0x0D] := by decide
/-! ## Probe channels (R51 to R63) -/

theorem test_settle_of_the_default_slots :
    (after (.bind 2 [1]) active).chan.q1.settle = some 10240 := by decide
theorem test_unbind_removes_the_binding :
    (after (.unbind 1 [0]) active).chan.q0.state = .unbound
      ∧ (after (.unbind 1 [0]) active).cal.q0.state = .uncalibrated := by decide
theorem test_freq_set_settles_by_the_largest_divider :
    answered (after (.freqSet 1 [0, 0, 0, 0xFF, 0xFF, 0xE7, 3, 0xFF, 0xFF]) active) 1
      = [0xF0, 0, 0, 0xFF, 0xFF, 0xE7, 3, 0xFF, 0xFF, 0x00, 0xE8, 0x03, 0x00] := by decide
theorem test_freq_set_refuses_equal_dividers :
    answered (after (.freqSet 1 [0, 5, 0, 5, 0, 0xFF, 0xFF, 0xFF, 0xFF]) active) 1
      = [0xF1, 0x06] := by decide
theorem test_settle_completion :
    (after (.settleCompletion 0) (world .active (boundChan .settling none) CalUnit.reset)).chan.q0.state
      = .ready := by decide
theorem test_coil_open_and_restored :
    (after (.coilOpen 0) active).chan.q0.probeOpen = true
      ∧ (after (.coilRestored 0) (after (.coilOpen 0) active)).chan.q0.probeOpen = false := by decide

/-- Worked example: a fast pull. Channel 0 in a tube pull with nothing waiting, at a position. -/
def pullingAt (x lowest due : Int) : Channel :=
  { boundChan .pulling (some .tube) with position := x, lowest := lowest, lastDue := due }

theorem test_position_becomes_due :
    (after (.encoderStep 0 .near) { active with
      chan := active.chan.set 0 (pullingAt 239991 239991 240000) }).chan.q0.waiting
      = [239990] := by decide
theorem test_position_passed_again_is_not_due :
    (after (.encoderStep 0 .near) { active with
      chan := active.chan.set 0 (pullingAt 239931 239927 239930) }).chan.q0.waiting = [] := by
  decide
theorem test_reverse_is_reported_above_1000_counts :
    (after (.encoderStep 0 .far) { active with
      chan := active.chan.set 0 (pullingAt 240927 239927 239930) }).chan.q0.reverseReported = true
    ∧ (after (.encoderStep 0 .far) { active with
      chan := active.chan.set 0 (pullingAt 240926 239927 239930) }).chan.q0.reverseReported
      = false := by decide

/-! ## Worked examples of the Pulls chapter -/

/-- A tube pull's record items with the thresholds of the example. -/
def tubePull : TubePull :=
  { tag := 0, index := 0, row := 3, col := 5, policy := .masked, openT := 500, closeT := 300
    supportT := 2000, detection := .raw .f1d, support := .raw .f4a, mix := none }

/-- The pull record of the pull of claim tag 0 of port 1, deadline 120. -/
def tubeRecord : PullRecord :=
  { kind := .tube, port := 1, epoch := 0, deadline := 120, tube := some tubePull }

/-- The Pull Controller of that pull, with a sample count. -/
def controller (samples : Nat) : PullCtl :=
  { PullCtl.reset with
    record := some tubeRecord
    samples := samples
    null := if samples < 16 then .absent else .formed (Eight.ofFn (fun _ => some ⟨0, 0⟩)) }

/-- Detection and support counting: magnitudes at falling positions from 23,983. -/
def detected : PullCtl :=
  ([120, 480, 510, 900, 650, 310, 290, 520, 299].foldl
    (fun (x : PullCtl × Nat) v => (x.1.detect tubePull x.2 ⟨⟨v, 0⟩, false⟩, x.2 - 1))
    (controller 16, 23983)).1

theorem test_detection_windows :
    detected.found = 2 ∧ detected.buffer.map Found.position = [23979, 23976]
      ∧ detected.detector = .armed := by decide

/-- The support magnitudes of the example from 23,970. -/
def counted : PullCtl :=
  ([1500, 2400, 3100, 1200, 2050, 950, 2000].foldl
    (fun (x : PullCtl × Nat) v => (x.1.countSupport x.2 ⟨v, 0⟩ 2000, x.2 - 1))
    (controller 16, 23970)).1

theorem test_support_counting :
    counted.supports = 2 ∧ counted.supportAt = [23969, 23964] ∧ counted.armed = false := by decide

/-- A record at a position with an amplitude. -/
def found (position amplitude : Nat) : Found := ⟨position, .raw .f1d, amplitude, 0, false, false⟩

theorem test_location :
    ([16000, 13500, 3100].map (fun p => (locate 3 [20000, 12000, 4000] (found p 500)).support))
      = [some (2, 4000), some (2, 1500), some (1, -900)] := by decide

/-- A full buffer whose records 7 and 15 share the smallest amplitude, 410 mV. -/
def fullBuffer : List Found :=
  (List.range 24).map (fun k => found (24000 - 500 * k) (if k = 6 ∨ k = 14 then 410 else 900 + k))

theorem test_overflow_drops_the_later_of_equal_amplitudes :
    (offer fullBuffer (found 9000 620)).map Found.position
      = (fullBuffer.map Found.position).eraseIdx 14 ++ [9000] := by decide
theorem test_overflow_may_drop_the_new_record :
    offer (offer fullBuffer (found 9000 620)) (found 8000 410)
      = offer fullBuffer (found 9000 620) := by decide

/-- A tube pull in flight on channel 0, at a lowest position, tag 0 of port 1. -/
def pulling (lowest : Int) (k : PullCtl) : State :=
  let s := world .active { boundChan .pulling (some .tube) with lowest := lowest } calibrated
  { s with
    claims := s.claims.set 1 ⟨some ⟨0, .inPull, false⟩, none, none, none⟩
    tubes := s.tubes.modify 0 (fun tb => { tb with claim := some ⟨1, 0, true⟩ })
    pull := s.pull.set 0 k }

/-- What a pull end left: the tube's status and attempts, the claim slot, and the channel's state. -/
def outcome (s : State) : Option (Status × Nat) × Option Claim × PullState :=
  (s.tubes[0]?.map (fun tb => (tb.status, tb.attempts)), s.slot 1 0, s.chan.q0.state)

theorem test_short_pull_keeps_the_claim :
    outcome (after (.pullEnd 1 [0, 0]) (pulling 150000 (controller 100)))
      = (some (.repull, 1), some ⟨0, .leased 600, false⟩, .held) := by decide
theorem test_restricted_pull_is_sized :
    (after (.pullEnd 1 [0, 1]) (pulling 150000 (controller 100))).sizing.queue.map Job.fault
      = [some .restricted] := by decide
theorem test_third_fault_is_unresolved :
    outcome (after (.coilOpen 0) { pulling 150000 (controller 100) with
      tubes := (pulling 150000 (controller 100)).tubes.modify 0 (fun tb => { tb with attempts := 2 }) })
      = (some (.unresolved .attempts, 3), none, .held) := by decide
theorem test_pull_abort_keeps_attempts :
    outcome (after (.pullAbort 1 [0]) (pulling 150000 (controller 100)))
      = (some (.pending, 0), some ⟨0, .leased 600, false⟩, .ready) := by decide
theorem test_timeout_at_the_deadline :
    (after (.timeout 0) { pulling 150000 (controller 100) with seconds := 120 }).chan.q0.state = .held
      ∧ (after (.timeout 0) { pulling 150000 (controller 100) with seconds := 119 }).chan.q0.state
        = .pulling := by decide
theorem test_encoder_reverse_needs_its_report :
    (after (.encoderReverse 0) (pulling 150000 (controller 100))).chan.q0.state = .pulling := by
  decide
theorem test_output_with_two_waiting_fills_one :
    let s := pulling 239950 (controller 2)
    let t := after (.demodulatorOutput 0 (Eight.ofFn (fun _ => ⟨0, 0⟩)))
      { s with chan := s.chan.set 0 { s.chan.q0 with waiting := [239960, 239950] } }
    t.pull.q0.samples = 4 ∧ t.chan.q0.thin = 1 ∧ t.chan.q0.waiting = [] := by decide +kernel
theorem test_saturation_counts_the_samples_handed_on :
    let s := pulling 239950 { controller 16 with
      record := some { tubeRecord with tube := some { tubePull with policy := .unmasked } } }
    let t := after (.demodulatorOutput 0 (Eight.ofFn (fun _ => ⟨32767, 0⟩)))
      { s with chan := s.chan.set 0 { s.chan.q0 with waiting := [239970, 239960, 239950] } }
    t.chan.q0.state = .held ∧ t.pull.q0.samples = 19 ∧ t.chan.q0.thin = 2
      ∧ t.pull.q0.latch = [.saturated] := by decide +kernel
theorem test_position_0_ends_the_pull :
    let s := pulling 0 (controller 2)
    (after (.demodulatorOutput 0 (Eight.ofFn (fun _ => ⟨0, 0⟩)))
      { s with chan := s.chan.set 0 { s.chan.q0 with waiting := [0] } }).chan.q0.state
      = .sizing := by decide +kernel

/-! ## Worked cases of the Signal Arithmetic chapter -/

theorem test_trace_derived :
    deriveTrace .f1d [⟨-1500, -2000⟩, ⟨1500, 2000⟩]
      = ⟨.f1d, 5000, 531, none, some ⟨512, 3469⟩⟩ := by decide +kernel
theorem test_trace_applied :
    (calibrate ⟨512, 3469⟩ ⟨1500, 2000⟩).value = ⟨3829, 3216⟩
      ∧ (calibrate ⟨512, 3469⟩ ⟨-1500, -2000⟩).value = ⟨-3829, -3216⟩ := by decide +kernel
theorem test_check_measures_the_hole :
    peakAmplitude [⟨-3829, -3216⟩, ⟨3829, 3216⟩] = 10001
      ∧ peakPhase [⟨-3829, -3216⟩, ⟨3829, 3216⟩] = 400 := by decide +kernel
theorem test_gain_half_to_even : gainOf (8192 * 8192) = 312 := by decide +kernel
theorem test_trace_weak :
    (deriveTrace .f3d [⟨0, 0⟩, ⟨-300, 350⟩]).failed = some .weak := by decide +kernel
theorem test_null_of_sum : nullOfSum ⟨1208, -1224⟩ = ⟨76, -76⟩ := by decide +kernel
theorem test_clamps :
    nulled (calibrate ⟨768, 0⟩ ⟨7000, 0⟩) ⟨76, -76⟩ = ⟨⟨19924, 76⟩, true⟩
      ∧ nulled (calibrate ⟨768, 0⟩ ⟨-6664, 0⟩) ⟨76, -76⟩ = ⟨⟨-20000, 76⟩, true⟩
      ∧ nulled (calibrate ⟨768, 0⟩ ⟨6650, -1⟩) ⟨76, -76⟩ = ⟨⟨19874, 73⟩, false⟩ := by
  decide +kernel
theorem test_mix_learned :
    learnMix [(⟨⟨500, 500⟩, false⟩, ⟨⟨1000, 0⟩, false⟩), (⟨⟨-500, 500⟩, false⟩, ⟨⟨0, 1000⟩, false⟩)]
      = .learned ⟨2048, 2048⟩ := by decide +kernel
theorem test_mix_ill :
    learnMix [(⟨⟨500, 0⟩, false⟩, ⟨⟨1000, 0⟩, false⟩), (⟨⟨-500, 0⟩, false⟩, ⟨⟨1000, 0⟩, false⟩)]
      = .ill := by decide +kernel
theorem test_mix_weak :
    learnMix [(⟨⟨500, 0⟩, false⟩, ⟨⟨150, 0⟩, false⟩)] = .weak := by decide +kernel
theorem test_amplitude_and_phase :
    peakAmplitude [⟨-200, -900⟩, ⟨100, 200⟩, ⟨300, 1100⟩] = 2062
      ∧ peakPhase [⟨-200, -900⟩, ⟨100, 200⟩, ⟨300, 1100⟩] = 760 := by decide +kernel
theorem test_tie_break :
    peakAmplitude [⟨0, 0⟩, ⟨480, 140⟩, ⟨0, 280⟩] = 500
      ∧ peakPhase [⟨0, 0⟩, ⟨480, 140⟩, ⟨0, 280⟩] = 163 := by decide +kernel
theorem test_phase_on_the_axes :
    [(⟨7, 0⟩ : Vec), ⟨7, 7⟩, ⟨0, 7⟩, ⟨-7, 0⟩, ⟨0, -7⟩].map phaseOf = [0, 450, 900, 0, 900] := by
  decide +kernel
theorem test_curve_reads :
    [352, 400, 705, 715, 760, 1500, 1623].map curve.read
      = [(100, true), (100, false), (60, false), (58, false), (54, false), (0, false), (0, true)] := by
  decide

/-! ## Worked examples of the Calibration chapter -/

theorem test_windows :
    windowSteps 600 20 = (1160, 1240) ∧ windowSteps 300 20 = (560, 640) := by decide
theorem test_windows_passed_at_step_560 :
    windowsPassed standard 1440 = true ∧ windowsPassed standard 1439 = false := by decide
theorem test_cal_start_reply :
    answered (after (.calStart 1 [0, 0]) active) 1
      = [0xF0, 0, 0, 0, 0, 0xE8, 3, 0x88, 4, 0xD8, 4, 0x30, 2, 0x80, 2, 120, 0] := by decide
theorem test_full_needs_an_empty_group :
    answered (after (.calStart 1 [0, 0]) { active with
      cal := active.cal.set 0 { calibrated with group := [1] } }) 1 = [0xF1, 0x16] := by decide
theorem test_interval_expiry_at_19402 :
    let s := { active with cal := active.cal.set 0 { calibrated with lastGood := some 5002 } }
    (after (.calibrationIntervalExpiry 0) { s with seconds := 19402 }).cal.q0.state = .checkDue
      ∧ (after (.calibrationIntervalExpiry 0) { s with seconds := 19401 }).cal.q0.state
        = .calibrated := by decide
theorem test_group_keeps_and_leaves :
    joinGroup 101 [100, 101, 102] = [100, 101, 102] ∧ leaveGroup 102 [100, 101, 102] = [100, 101]
      ∧ joinGroup 102 [100, 101] = [100, 101, 102] := by decide

/-! ## Worked examples of the Sizing and Re-screening chapters -/

/-- The 18 records of the pitted tube in the order they closed: position, amplitude, phase. -/
def pitted : List Located :=
  ([(22400, 900, 1200), (21050, 700, 1300), (19800, 2400, 900), (18310, 650, 1400),
    (16900, 1100, 1100), (15420, 820, 1600), (14000, 3050, 0), (12760, 1400, 1000),
    (11500, 600, 1500), (10210, 980, 1200), (9000, 760, 1300), (7640, 1250, 1050),
    (6300, 540, 1450), (5020, 700, 1300), (3900, 880, 1080), (2750, 610, 1400),
    (1600, 1020, 1100), (480, 700, 1250)] : List (Nat × Nat × Nat)).map
    (fun x => ⟨⟨x.1, .raw .f1d, x.2.1, x.2.2, x.1 == 14000, false⟩, none⟩)

theorem test_ranks :
    (keptOf curve pitted).map (fun x => x.position)
      = [14000, 19800, 12760, 7640, 3900, 16900, 1600, 10210, 22400, 480, 9000, 21050, 5020, 18310,
        2750, 6300] := by decide +kernel

/-- A job of tag 0 of port 1 on index 0, with records. -/
def job (records : List Located) : Job :=
  { chan := 0, port := 1, tag := 0, index := 0, row := 3, col := 5, epoch := 7, records := records
    found := records.length, fault := none, further := false, samples := 20, thin := 0, supports := 0
    orphan := false }

/-- The settings of the worked examples. -/
def settings : Settings := ⟨curve, 20, 40⟩

/-- Channel 0 SIZING with a job in flight, its claim in pull, at a free count. -/
def sizing (free : Nat) (records : List Located) : State :=
  let s := pulling 0 (controller 20)
  { s with
    chan := s.chan.set 0 { s.chan.q0 with state := .sizing }
    sizing := ⟨[], some (job records, settings), none⟩
    free := free }

theorem test_commit_in_a_shortfall :
    let t := after .sizingCommit (sizing 12 pitted)
    t.free = 0 ∧ (t.tubes.map Tube.status).head? = some (.unresolved .indefiniteDepth)
      ∧ (t.tubes.map (fun tb => tb.list.map (fun x => x.position))).head?
        = some [480, 1600, 3900, 7640, 9000, 10210, 12760, 14000, 16900, 19800, 21050, 22400] := by
  decide +kernel
theorem test_store_low_when_the_count_falls :
    (after .sizingCommit (sizing 515 (pitted.take 4))).ports.q0.notices.storeLow = true
      ∧ (after .sizingCommit (sizing 511 [])).ports.q0.notices.storeLow = false := by decide +kernel
theorem test_job_begins_again_under_a_new_curve :
    let t := after (.curveSet 0 [2, 5, 0, 9, 6, 0, 8]) (sizing 9 [])
    t.sizing.flight.map (fun x => x.2.curve) = some ⟨⟨5, 9⟩, ⟨6, 8⟩, []⟩
      ∧ t.rescreen = ⟨.underWay, 0, 0, false⟩ := by decide

/-- A stored record of a phase, read before under another curve. -/
def stored (phase : Nat) (clipped : Bool) : Indication :=
  ⟨⟨⟨900, .raw .f1d, 700, phase, clipped, false⟩, none⟩, .pct 15, false⟩

/-- A pass under way on a map whose first tube is CLEAR with one record at 120.0, the step of that
tube in flight under K2. -/
def rescreening : State :=
  { active with
    tubes := active.tubes.modify 0
      (fun tb => { tb with status := .clear, list := [stored 1200 false] })
    rescreen := ⟨.underWay, 0, 0, false⟩
    sizing := ⟨[], none, some ⟨⟨⟨400, 100⟩, ⟨700, 70⟩, [⟨1100, 30⟩, ⟨1500, 0⟩]⟩, 20, 40⟩⟩ }

theorem test_step_rereads :
    (after .rescreenStepWrite rescreening).tubes.head?.map (fun tb => (tb.status, tb.worst))
      = some (.reportable, some (.pct 22)) := by decide
theorem test_last_step_is_told :
    let t := after .rescreenStepWrite
      { rescreening with rescreen := ⟨.underWay, 2, 0, false⟩ }
    t.rescreen = ⟨.done, 3, 0, false⟩ ∧ t.ports.q0.notices.rescreenDone = true
      ∧ t.ports.q1.notices.rescreenDone = false := by decide
theorem test_rescreen_restart_counts :
    answered (after (.rescreenStart 0 []) rescreening) 0 = [0xF0, 1, 1, 0, 3, 0] := by decide

/-! ## Results, notices and readouts -/

theorem test_status_reports_and_empties :
    let s := { active with
      chan := active.chan.set 0 (boundChan .held (some .tube))
      ports := active.ports.set 1 { crew onlyZero with
        notices := ⟨⟨false, false, true, false⟩, FourSet.empty, true, false⟩ } }
    answered (after (.status 1 []) s) 1 = [0xF0, 1, 1, 1, 0, 4, 0, 1]
      ∧ (after (.status 1 []) s).ports.q1.notices = Notices.empty := by decide
theorem test_result_take_of_a_ready_channel :
    answered (after (.resultTake 1 [0]) active) 1 = [0xF1, 0x04] := by decide
theorem test_list_read_of_repull :
    answered (after (.listRead 0 [4, 0, 0]) active) 0 = [0xF0, 3, 0, 0] := by decide
theorem test_tube_read :
    answered (after (.tubeRead 0 [3, 0, 6, 0]) claimed) 0
      = [0xF0, 1, 0, 3, 0, 6, 0, 3, 0xFF, 0xFF, 0, 2, 0, 0, 0x58, 2, 0xFF, 0, 0, 0xFF, 0xFF, 0xFF,
        0xFF] := by decide
theorem test_ind_read_of_an_empty_list :
    answered (after (.indRead 0 [3, 0, 5, 0, 1]) active) 0 = [0xF1, 0x06] := by decide
theorem test_summary_and_channel_lengths :
    (answered (after (.summaryRead 0 []) active) 0).length = 52
      ∧ (answered (after (.channelRead 0 [0]) active) 0).length = 42 := by decide

/-! ## Worked example: one session on port 3 (Station Links) -/

theorem test_link_rate :
    answered (after (.linkRate 3 [1]) active) 3 = [0xF0, 1, 0x00, 0x08, 0x07, 0x00]
      ∧ (after (.linkRate 3 [1]) active).ports.q3.divider = 7
      ∧ (sent 3 (after (.linkRate 3 [1]) active)).ports.q3.divider = 1 := by decide
theorem test_attach :
    answered (after (.attach 3 [1, 0]) active) 3 = [0xF0, 3, 1, 0, 7] := by decide
theorem test_new_lead_drops_a_partial_frame :
    ((Assembly.body 0x20 6 [1, 2, 3] false).receive (sentCharacter 0x40 true))
        = .length 0x40 false
      ∧ (Assembly.length 0x40 false).receive (sentCharacter 0 false) = .waiting ⟨0x40, [], false⟩ := by
  decide
theorem test_parity_error_garbles :
    (Assembly.body 0x20 5 [1, 2, 3, 4] false).receive ⟨9, false, false, true⟩
      = .waiting ⟨0x20, [1, 2, 3, 4, 9], true⟩ := by decide
theorem test_break_detaches_and_removes_claims :
    let t := after (.detachClaimRemoval 2) (after (.lineBreak 2) claimed)
    t.ports.q2.role = .none ∧ t.ports.q2.divider = 7 ∧ t.slot 2 0 = none := by decide
theorem test_detach_reply_counts_claims :
    answered (after (.detach 1 []) claimed) 1 = [0xF0, 2, 0] := by decide
theorem test_forced_unbind_invalidates :
    let s := after (.lineBreak 1) { active with
      cal := active.cal.set 0 { calibrated with group := [1] } }
    (after (.forcedUnbind 0) s).chan.q0.state = .unbound
      ∧ (after (.forcedUnbind 0) s).tubes.map Tube.suspect = [false, true, false] := by decide
theorem test_orphan_mark :
    (after (.orphanMark 1) (after (.lineBreak 1) (sizing 9 []))).sizing.flight.map
      (fun x => x.1.orphan) = some true := by decide
theorem test_detach_aborts_the_pull :
    outcome (after (.detachPullAbort 1) (after (.lineBreak 1) (pulling 150000 (controller 100))))
      = (some (.pending, 0), some ⟨0, .leased 600, true⟩, .ready) := by decide
theorem test_line_back_at_mark :
    (after (.lineReturnedToMark 1) (after (.lineBreak 1) active)).ports.q1.breakTaken = false := by
  decide
theorem test_garbled_and_unknown :
    answered (after (.garbledFrame 3 0x50 [1, 0]) active) 3 = [0xF1, 0x01]
      ∧ answered (after (.unknownCode 3 0x3F []) active) 3 = [0xF1, 0x02] := by decide

/-! ## Time, resets, jobs and the queue -/

theorem test_tick_takes_a_lease :
    (after .timeBaseTick { claimed with seconds := 1599 }).slot 2 0 = none
      ∧ (after .timeBaseTick { claimed with seconds := 1598 }).slot 2 0 = some ⟨1, .leased 1600, false⟩ := by
  decide
theorem test_tick_takes_an_interval :
    let s := { active with cal := active.cal.set 0 { calibrated with lastGood := some 5002 } }
    (after .timeBaseTick { s with seconds := 19401 }).cal.q0.state = .checkDue
      ∧ after .timeBaseTick { s with seconds := 19400 } = { s with seconds := 19401 } := by decide
theorem test_warm_reset_keeps_the_map :
    (after .warmReset claimed).tubes.map Tube.claim = [none, none, none]
      ∧ (after .warmReset claimed).seconds = 1000 ∧ (after .warmReset claimed).planState = .active := by
  decide
theorem test_power_on_reset : after .powerOnReset claimed = State.reset := by decide
theorem test_job_begins_and_step_waits :
    let s := { rescreening with sizing := ⟨[job []], none, none⟩ }
    (after .sizingJobBegin s).sizing = ⟨[], some (job [], settings), none⟩
      ∧ after .rescreenStepBegin s = s
      ∧ (after .rescreenStepBegin { s with sizing := ⟨[], none, none⟩ }).sizing.step
        = some settings := by decide
theorem test_step_takes_the_front :
    step { active with pending := [.timeBaseTick, .warmReset] }
      = .next { active with seconds := 1, pending := [.warmReset] } := rfl

theorem test_idle_sends_characters :
    step (after (.planLock 0 []) active)
      = .next { after (.planLock 0 []) active with
          ports := active.ports.set 0 { review with reply := some ⟨0xF0, [1], 1⟩ } } := rfl
theorem test_fetch_word_spells_none : active.withFetchWord 16 0x40 = active := rfl
theorem test_last_character_hands_the_frame_on :
    exec (.receivedCharacter 0 (sentCharacter 0 false))
        { active with ports := active.ports.set 0 { review with assembly := .length 0x44 false } }
      = exec (.summaryRead 0 []) active := rfl
theorem test_reply_sent_hands_a_waiting_frame_on :
    exec (.replySent 0)
        { active with
          ports := active.ports.set 0
            { review with reply := some ⟨0xF0, [], 0⟩, assembly := .waiting ⟨0x1A, [], false⟩ } }
      = exec (.planLock 0 []) active := rfl

/-! ## Witnesses: for each obligation with hypotheses, a concrete case that meets them -/

/-- A port in HUNT with no reply in progress takes any frame. -/
theorem takes_of {s : State} {p : Port} (f : Frame) (h : (s.ports.get p).reply = none)
    (h' : (s.ports.get p).assembly = .hunt) : s.takes p f :=
  ⟨h, fun g hg => by rw [h'] at hg; cases hg⟩

/-- In HUNT no other frame waits. -/
theorem hunt_takes {a : Assembly} {f : Frame} (h : a = .hunt) : ∀ g, a = .waiting g → g = f :=
  fun g hg => by rw [h] at hg; cases hg

/-- The sample state with a reply in progress on port 0. -/
def replying : State :=
  { active with ports := active.ports.set 0 { review with reply := some ⟨0xF0, [], 0⟩ } }

/-- The sample state with a reply in progress and a frame waiting on port 0. -/
def replyingFull : State :=
  { active with
    ports := active.ports.set 0
      { review with reply := some ⟨0xF0, [], 0⟩, assembly := .waiting ⟨0x44, [], false⟩ } }

/-- The sample state in another plan state, locked or not. -/
def inPlan (ps : PlanState) (lock : Bool) : State := { active with planState := ps, lock := lock }

/-- The sample state with channel 0 changed. -/
def withChan (ch : Channel) : State := { active with chan := active.chan.set 0 ch }

/-- The sample state with a claim of tag 0 of port 1 on tube 0. -/
def holding (hold : Hold) (departed : Bool) : State :=
  { active with
    claims := active.claims.set 1 ⟨some ⟨0, hold, departed⟩, none, none, none⟩
    tubes := active.tubes.modify 0
      (fun tb => { tb with claim := some ⟨1, 0, decide (hold = .inPull)⟩ }) }

/-- Tube 0 as `holding` and `pulling` leave it. -/
def heldTube (inPull : Bool) : Tube := { Tube.created 3 5 with claim := some ⟨1, 0, inPull⟩ }

/-- The slots of a channel with F1 alone on, at divider 999. -/
def oneSlot : Quad (Option Nat) := ⟨some 999, none, none, none⟩

theorem oneSlot_get : ∀ (i : Fin 4) (d : Nat), oneSlot.get i = some d → i = 0 ∧ d = 999
  | 0, _, h => ⟨rfl, (Option.some.inj h).symm⟩
  | 1, _, h | 2, _, h | 3, _, h => nomatch h

theorem default_settle : SettleOf Channel.defaultSlots 39 :=
  ⟨⟨3, rfl⟩, fun
    | 0, _, h | 1, _, h | 2, _, h | 3, _, h => by cases h; decide⟩

theorem support_on (r : RawTrace) (h : active.plan.support = .raw r) :
    (active.chan.get 0).slots.get r.slot ≠ none := by
  have h' : Trace.raw .f4a = .raw r := h
  cases h'; decide

theorem detection_on (r : RawTrace) (h : active.plan.detection = .raw r) :
    (active.chan.get 0).slots.get r.slot ≠ none := by
  have h' : Trace.raw .f1d = .raw r := h
  cases h'; decide

theorem test_witness_StepRunsTheFrontCommand :
    { active with pending := [Instr.timeBaseTick, .warmReset] }.pending
      = .timeBaseTick :: [.warmReset] := rfl

theorem test_witness_CommandsLeaveTheQueue : ∃ t, exec (.bind 2 [1]) active = .next t := ⟨_, rfl⟩

theorem test_witness_EveryCommandGoesOn :
    (Instr.bind 2 [1]).wellFormed = true ∧ (Instr.unknownCode 2 0x3F []).wellFormed = true
      ∧ namesRequest 0x10 = true := by decide

theorem test_witness_RefusedRequestsChangeNothing :
    (Instr.bind 2 [1]).wellFormed = true ∧ frameOfCommand (.bind 2 [1]) = some (2, ⟨0x30, [1], false⟩)
      ∧ active.takes 2 ⟨0x30, [1], false⟩ := ⟨rfl, rfl, takes_of _ rfl rfl⟩

theorem test_witness_FramesWaitWhileAReplyIsSent :
    frameOfCommand (.planLock 0 []) = some (0, ⟨0x1A, [], false⟩)
      ∧ (replying.ports.get 0).reply.isSome = true
      ∧ (∀ g, (replying.ports.get 0).assembly ≠ .waiting g)
      ∧ (replyingFull.ports.get 0).reply.isSome = true
      ∧ (replyingFull.ports.get 0).assembly = .waiting ⟨0x44, [], false⟩ := ⟨rfl, rfl, nofun, rfl, rfl⟩

theorem test_witness_FramesAreCheckedInOrder :
    active.takes 3 ⟨0x1E, [], true⟩ ∧ active.takes 3 ⟨0x1E, [], false⟩ ∧ namesRequest 0x1E = false
      ∧ requestOfCode 3 0x45 [0] = some (.channelRead 3 [0]) ∧ (active.ports.get 3).role = .none
      ∧ requestOfCode 1 0x1D [] = some (.rescreenStart 1 []) ∧ (active.ports.get 1).role = .crew
      ∧ requestOfCode 0 0x52 [1, 2] = some (.linkRate 0 [1, 2]) ∧ (active.ports.get 0).role = .review
      ∧ active.takes 1 ⟨0x1D, [], false⟩ ∧ active.takes 0 ⟨0x52, [1, 2], false⟩
      ∧ requestOfCode 3 0x50 [1] = some (.attach 3 [1]) ∧ active.takes 3 ⟨0x50, [1], false⟩
      ∧ ([1] : List Byte).length ≠ 2
      ∧ requestOfCode 1 0x20 [] = some (.claim 1 []) ∧ 0x20 ≤ (0x20 : Byte).toNat
      ∧ requestOfCode 0 0x11 [] = some (.planSet 0 []) ∧ ([] : List Byte).length ≠ 3 + 0
      ∧ requestOfCode 0 0x15 [2, 0, 0, 9] = some (.curveSet 0 [2, 0, 0, 9])
      ∧ ([2, 0, 0, 9] : List Byte).length ≠ 1 + 3 * 2
      ∧ requestOfCode 0 0x17 [0, 7, 1, 0] = some (.tracesSet 0 [0, 7, 1, 0])
      ∧ ([0, 7, 1, 0] : List Byte).length ≠ 3 + 2 * 1 := by
  and_intros <;> first | exact hunt_takes rfl | decide

theorem test_witness_SentFrameIsTakenAsItsCommand :
    (Instr.claim 1 [0, 3, 0, 5, 0]).wellFormed = true
      ∧ frameOfCommand (.claim 1 [0, 3, 0, 5, 0]) = some (1, ⟨0x20, [0, 3, 0, 5, 0], false⟩)
      ∧ (active.ports.get 1).assembly = .hunt ∧ (active.ports.get 1).reply = none :=
  ⟨rfl, rfl, rfl, rfl⟩

/-- The sample state with port 1's assembly in some state. -/
def assembling (a : Assembly) : State :=
  { active with ports := active.ports.set 1 { active.ports.get 1 with assembly := a } }

theorem test_witness_ReceivedCharactersBuildFrames :
    (false = (decide (((List.range 8).countP (fun n => (251 : Byte).toNat.testBit n) + false.toNat
      + false.toNat) % 2 = 0) || !true))
      ∧ (replyingFull.ports.get 0).assembly = .waiting ⟨0x44, [], false⟩
      ∧ (replyingFull.ports.get 0).reply.isSome = true
      ∧ (∀ f, ((assembling .hunt).ports.get 1).assembly ≠ .waiting f)
      ∧ ((assembling .hunt).ports.get 1).assembly = .hunt
      ∧ ((assembling (.length 0x20 false)).ports.get 1).assembly = .length 0x20 false
      ∧ ((assembling (.length 0x20 false)).ports.get 1).reply = none
      ∧ 250 < (251 : Byte).toNat ∧ (0 : Byte).toNat = 0 ∧ (250 : Byte).toNat ≤ 250
      ∧ (Instr.garbledFrame 1 0x20 []).wellFormed = true
      ∧ frameOfCommand (.garbledFrame 1 0x20 []) = some (1, ⟨0x20, [], true⟩)
      ∧ (Instr.claim 1 []).wellFormed = true
      ∧ frameOfCommand (.claim 1 []) = some (1, ⟨0x20, [], false⟩)
      ∧ ((assembling (.body 0x20 5 [1, 2, 3, 4] false)).ports.get 1).assembly
        = .body 0x20 5 [1, 2, 3, 4] false
      ∧ 5 ≤ [1, 2, 3, 4].length + 1 ∧ [1, 2, 3].length + 1 < 5
      ∧ frameOfCommand (.claim 1 [1, 2, 3, 4, 9]) = some (1, ⟨0x20, [1, 2, 3, 4] ++ [9], false⟩) :=
  ⟨by decide, rfl, rfl, nofun, rfl, rfl, rfl, by decide, rfl, by decide, rfl, rfl, rfl, rfl, rfl,
    by decide, by decide, rfl⟩

theorem test_witness_LinkRateTakesEffectAfterItsReply :
    active.takes 3 ⟨0x52, [128], false⟩ ∧ 127 < (128 : Byte).toNat
      ∧ active.takes 3 ⟨0x52, [127], false⟩ ∧ (127 : Byte).toNat ≤ 127
      ∧ (replying.ports.get 0).reply.isSome = true
      ∧ (∀ f, (replying.ports.get 0).assembly ≠ .waiting f)
      ∧ (replyingFull.ports.get 0).reply.isSome = true
      ∧ (replyingFull.ports.get 0).assembly = .waiting ⟨0x44, [], false⟩
      ∧ (Instr.summaryRead 0 []).wellFormed = true
      ∧ frameOfCommand (.summaryRead 0 []) = some (0, ⟨0x44, [], false⟩)
      ∧ (active.ports.get 0).reply = none := by
  and_intros <;> first | exact hunt_takes rfl | decide | exact nofun

theorem test_witness_AttachGivesARole :
    active.takes 3 ⟨0x50, [1, 1], false⟩ ∧ (active.ports.get 3).role = .none
      ∧ active.takes 1 ⟨0x50, [1, 0], false⟩ ∧ (active.ports.get 1).role ≠ .none
      ∧ active.takes 3 ⟨0x50, [2, 7], false⟩ ∧ (∃ q, q ≠ 3 ∧ (active.ports.get q).role = .review)
      ∧ State.reset.takes 3 ⟨0x50, [2, 7], false⟩
      ∧ (∀ q, q ≠ 3 → (State.reset.ports.get q).role ≠ .review)
      ∧ active.takes 3 ⟨0x50, [1, 2], false⟩
      ∧ ¬ ((1 : Byte).toNat = 1 ∧ (2 : Byte).toNat ≤ 1 ∨ (1 : Byte).toNat = 2)
      ∧ active.takes 1 ⟨0x50, [0, 0], false⟩
      ∧ ¬ ((0 : Byte).toNat = 1 ∧ (0 : Byte).toNat ≤ 1 ∨ (0 : Byte).toNat = 2)
      ∧ ¬ ((3 : Byte).toNat = 1 ∧ (0 : Byte).toNat ≤ 1 ∨ (3 : Byte).toNat = 2) := by
  and_intros <;> first | exact hunt_takes rfl | decide

theorem test_witness_DetachLeavesTheStation :
    (holding (.leased 600) false).takes 1 ⟨0x51, [], false⟩
      ∧ ((holding (.leased 600) false).ports.get 1).role ≠ .none := ⟨takes_of _ rfl rfl, by decide⟩

theorem test_witness_BreakResetsThePort :
    (active.ports.get 1).breakTaken = false
      ∧ ((after (.lineBreak 1) active).ports.get 1).breakTaken = true := ⟨rfl, rfl⟩

theorem test_witness_PlanStatesGateTheMapRequests :
    requestOfCode 0 0x10 [] = some (.planNew 0 []) ∧ active.takes 0 ⟨0x10, [], false⟩
      ∧ (active.ports.get 0).role = .review ∧ active.planState = .active
      ∧ (inPlan .closed true).planState = .closed ∧ (inPlan .closed true).lock = true
      ∧ (inPlan .closed true).takes 0 ⟨0x10, [], false⟩
      ∧ requestOfCode 0 0x11 [0, 0xE8, 3] = some (.planSet 0 [0, 0xE8, 3])
      ∧ (readPlanSet [0, 0xE8, 3]).isSome = true
      ∧ requestOfCode 0 0x15 [0] = some (.curveSet 0 [0]) ∧ (readCurve [0]).isSome = true
      ∧ requestOfCode 0 0x17 [0, 7, 0] = some (.tracesSet 0 [0, 7, 0])
      ∧ (readTraces [0, 7, 0]).isSome = true
      ∧ (inPlan .active true).lock = true ∧ draft.planState ≠ .active
      ∧ requestOfCode 0 0x1B [] = some (.planClose 0 []) := by
  and_intros <;> first | exact hunt_takes rfl | decide

/-- The sample state with a calibration pull on channel 0. -/
def calPulling (ps : PlanState) : State := world ps (boundChan .pulling (some .calFull)) calibrated

theorem draft_has_no_cal_pull : draft.noCalPull := by unfold State.noCalPull; decide

theorem cal_pulling_has_one : ¬ (calPulling .draft).noCalPull := by unfold State.noCalPull; decide

theorem test_witness_PlanNewStartsADraft :
    draft.takes 0 ⟨0x10, [], false⟩ ∧ (draft.ports.get 0).role = .review ∧ draft.planState = .draft
      ∧ draft.noCalPull ∧ ¬ (calPulling .draft).noCalPull
      ∧ (calPulling .draft).takes 0 ⟨0x10, [], false⟩ ∧ State.reset.planState = .empty
      ∧ (inPlan .closed false).planState = .closed ∧ (inPlan .closed false).lock = false :=
  ⟨takes_of _ rfl rfl, rfl, rfl, draft_has_no_cal_pull, cal_pulling_has_one, takes_of _ rfl rfl, rfl,
    rfl, rfl⟩

theorem test_witness_PlanStatesAreMoved :
    (draft.ports.get 0).role = .review ∧ draft.planState = .draft ∧ draft.takes 0 ⟨0x19, [], false⟩
      ∧ (draft.rows ≠ [] ∧ draft.plan.curve ≠ none ∧ draft.plan.standard ≠ none
        ∧ (draft.plan.detection = .m1 → 1 ≤ draft.plan.mixes.length)
        ∧ (draft.plan.detection = .m2 → 2 ≤ draft.plan.mixes.length))
      ∧ { draft with plan := Plan.default }.plan.curve = none
      ∧ active.planState = .active ∧ active.takes 0 ⟨0x1B, [], false⟩
      ∧ (∀ tb ∈ active.tubes, tb.claim = none) ∧ active.noPull ∧ active.noJob
      ∧ active.rescreen.phase ≠ .underWay ∧ rescreening.rescreen.phase = .underWay
      ∧ active.takes 0 ⟨0x1A, [], false⟩ := by
  unfold State.noPull State.noJob
  and_intros <;> first | exact hunt_takes rfl | decide

theorem test_witness_PlanSetAndStandardSetWriteTheRecord :
    draft.takes 0 ⟨0x11, BitVec.ofNat 8 16 :: (List.replicate 16 0x7E ++ [0xE8, 3]), false⟩
      ∧ (List.replicate 16 (0x7E : Byte)).length ≤ 16
      ∧ (∀ b ∈ List.replicate 16 (0x7E : Byte), 0x20 ≤ b.toNat ∧ b.toNat ≤ 0x7E)
      ∧ 1000 ≤ (0xE8 : Byte).toNat + 256 * (3 : Byte).toNat
      ∧ ¬ 1000 ≤ (0xE7 : Byte).toNat + 256 * (3 : Byte).toNat
      ∧ (draft.ports.get 0).role = .review ∧ draft.planState = .draft
      ∧ draft.takes 0 ⟨0x12, [0x2C, 1, 0x22, 1, 5, 0, 5], false⟩ ∧ draft.noCalPull
      ∧ ¬ (calPulling .draft).noCalPull
      ∧ (300 ≤ 300 ∧ 300 ≤ 2000 ∧ 5 ≤ 5 ∧ 5 ≤ 100 ∧ 5 ≤ 285 ∧ 5 ≤ 5 ∧ 285 + 5 + 10 ≤ 300
        ∧ 5 + 5 + 10 ≤ 300 ∧ 2 * 5 < ((285 : Int) - 5).natAbs)
      ∧ ¬ 2 * 20 < ((600 : Int) - 560).natAbs := by
  and_intros <;> first
    | exact hunt_takes rfl | exact draft_has_no_cal_pull | exact cal_pulling_has_one | decide

theorem test_witness_CurveSetReplacesTheCurve :
    ([⟨400, 100⟩, ⟨700, 60⟩] : List CurvePoint).length ≤ 83
      ∧ (∀ q ∈ ([⟨400, 100⟩, ⟨700, 60⟩] : List CurvePoint), q.phase < 65536 ∧ q.depth < 256)
      ∧ draft.takes 0 ⟨0x15, [2, 0x90, 1, 100, 0xBC, 2, 60], false⟩
      ∧ c1 2 ++ ([⟨400, 100⟩, ⟨700, 60⟩] : List CurvePoint).flatMap
          (fun q => c2 q.phase ++ c1 q.depth) = [2, 0x90, 1, 100, 0xBC, 2, 60]
      ∧ (draft.ports.get 0).role = .review ∧ draft.planState = .draft
      ∧ active.planState = .active ∧ active.lock = false
      ∧ (∀ q ∈ ([⟨400, 100⟩, ⟨700, 60⟩] : List CurvePoint), q.phase ≤ 1799 ∧ q.depth ≤ 100)
      ∧ ([⟨400, 100⟩, ⟨700, 60⟩] : List CurvePoint).Pairwise
          (fun a b => a.phase < b.phase ∧ b.depth ≤ a.depth)
      ∧ ¬ 2 ≤ ([⟨400, 100⟩] : List CurvePoint).length := by
  and_intros <;> first | exact hunt_takes rfl | decide

/-- Nine limits of which all but the lease lie out of range. -/
def limits : Limits := ⟨50, 100, 0, 50, 0, 9, 600, 0, 0⟩

/-- What LIMITS_SET makes of them. -/
def clamped : Limits := ⟨100, 99, 500, 1, 1, 5, 600, 10, 30⟩

theorem test_witness_LimitsSetClampsInTwoPasses :
    draft.takes 0 ⟨0x16, c2 50 ++ c2 100 ++ c2 0 ++ c2 50 ++ c2 0 ++ c2 9 ++ c2 600 ++ c2 0 ++ c2 0,
        false⟩
      ∧ active.takes 0 ⟨0x16, c2 50 ++ c2 100 ++ c2 0 ++ c2 50 ++ c2 0 ++ c2 9 ++ c2 600 ++ c2 0
        ++ c2 0, false⟩
      ∧ (limits.openT < 65536 ∧ limits.closeT < 65536 ∧ limits.supportT < 65536
        ∧ limits.report < 65536 ∧ limits.plug < 65536 ∧ limits.attemptLimit < 65536
        ∧ limits.lease < 65536 ∧ limits.pullLimit < 65536 ∧ limits.calInterval < 65536)
      ∧ (draft.ports.get 0).role = .review
      ∧ clamped.openT = min 10000 (max 100 limits.openT)
      ∧ clamped.supportT = min 20000 (max 500 limits.supportT)
      ∧ clamped.plug = min 100 (max 1 limits.plug)
      ∧ clamped.attemptLimit = min 5 (max 1 limits.attemptLimit)
      ∧ clamped.lease = min 3600 (max 30 limits.lease)
      ∧ clamped.pullLimit = min 600 (max 10 limits.pullLimit)
      ∧ clamped.calInterval = min 480 (max 30 limits.calInterval)
      ∧ clamped.closeT = min (clamped.openT - 1) (max 50 limits.closeT)
      ∧ clamped.report = min clamped.plug limits.report
      ∧ draft.planState = .draft ∧ active.planState = .active ∧ active.lock = false
      ∧ active.plan.curve = some curve := by
  and_intros <;> first | exact hunt_takes rfl | decide

theorem test_witness_TracesSetUnlearnsChangedMixes :
    Trace.m1 ∈ [Trace.raw .f1d, .raw .f2d, .raw .f3d, .raw .f4d, .m1, .m2]
      ∧ Trace.raw .f4a ∈ [Trace.raw .f1a, .raw .f2a, .raw .f3a, .raw .f4a]
      ∧ ([⟨.f1d, .f4a⟩] : List MixDef).length ≤ 2
      ∧ (∀ d ∈ ([⟨.f1d, .f4a⟩] : List MixDef), d.primary ≠ d.secondary)
      ∧ active.takes 0 ⟨0x17, [8, 7, 1, 0, 7], false⟩ ∧ (active.ports.get 0).role = .review
      ∧ active.planState = .active ∧ active.lock = false ∧ active.noPull ∧ active.noJob
      ∧ (Trace.m1 = .m1 → 1 ≤ ([⟨.f1d, .f4a⟩] : List MixDef).length)
      ∧ ¬ (Trace.m1 = .m1 → 1 ≤ ([] : List MixDef).length)
      ∧ ¬ (calPulling .draft).noCalPull ∧ (calPulling .draft).planState = .draft
      ∧ draft.takes 0 ⟨0x17, [9, 7, 3, 0, 7, 2, 7, 4, 7], false⟩ ∧ draft.noCalPull
      ∧ ¬ ([(0, 7), (2, 7), (4, 7)] : List (Byte × Byte)).length ≤ 2
      ∧ draft.takes 0 ⟨0x17, [8, 7, 1, 3, 3], false⟩ ∧ ¬ ((3 : Byte) ≠ 3)
      ∧ ¬ (8 : Byte).toNat ≤ 7 ∧ (1 : Byte).toNat ∉ [0, 2, 4, 6, 8, 9]
      ∧ (8 : Byte).toNat ∉ [1, 3, 5, 7] := by
  unfold State.noPull State.noJob
  and_intros <;> first
    | exact hunt_takes rfl | exact draft_has_no_cal_pull | exact cal_pulling_has_one | decide

theorem test_witness_RowAddAppendsTheRowAndItsTubes :
    draft.takes 0 ⟨0x13, [0, 1, 1, 0, 0, 1, 40], false⟩ ∧ (draft.ports.get 0).role = .review
      ∧ draft.planState = .draft
      ∧ (∀ r, draft.rows.getLast? = some r → r.row < 256)
      ∧ (1 ≤ 256 ∧ 256 ≤ 256 ∧ 1 ≤ 1 ∧ 1 ≤ 256 ∧ 1 ≤ 256 ∧ 40 ≤ 40)
      ∧ draft.tubes.length + (256 - 1 + 1) ≤ 32768
      ∧ (¬ ∀ r, draft.rows.getLast? = some r → r.row < 4)
      ∧ ∃ s : State, 32768 < s.tubes.length + (256 - 1 + 1) := by
  refine ⟨takes_of _ rfl rfl, rfl, rfl, ?_, by decide, by decide, ?_,
    { draft with tubes := List.replicate 32768 (Tube.created 1 1) }, ?_⟩
  · intro r h; cases h; decide
  · intro h; exact absurd (h _ rfl) (by decide)
  · show 32768 < (List.replicate 32768 (Tube.created 1 1)).length + _
    rw [List.length_replicate]; decide

theorem test_witness_TubeMarkSetsTheStatus :
    draft.takes 0 ⟨0x14, [3, 0, 5, 0, 2], false⟩ ∧ (draft.ports.get 0).role = .review
      ∧ draft.planState = .draft ∧ 2 < (3 : Byte).toNat ∧ draft.tubeAt ⟨3, 7⟩ = none
      ∧ draft.tubeAt ⟨3, 5⟩ = some (0, Tube.created 3 5) ∧ (Tube.created 3 5).status = .pending
      ∧ { draft with tubes := [{ Tube.created 3 5 with status := .noTube }] }.tubeAt ⟨3, 5⟩
        = some (0, { Tube.created 3 5 with status := .noTube }) := by
  and_intros <;> first | exact hunt_takes rfl | decide

theorem test_witness_ScopeSetMovesARectangle :
    draft.takes 0 ⟨0x18, [1, 0, 0, 1, 1, 0, 0, 1, 1], false⟩ ∧ (draft.ports.get 0).role = .review
      ∧ draft.planState = .draft ∧ active.planState = .active ∧ active.lock = false
      ∧ (1 ≤ 1 ∧ 1 ≤ 256 ∧ 256 ≤ 256 ∧ (1 : Byte).toNat ≤ 1) ∧ ¬ (2 : Byte).toNat ≤ 1 := by
  and_intros <;> first | exact hunt_takes rfl | decide

theorem test_witness_TubeRepullSendsADoneTubeBack :
    rescreening.takes 0 ⟨0x1C, [3, 0, 5, 0], false⟩ ∧ (rescreening.ports.get 0).role = .review
      ∧ rescreening.planState = .active ∧ rescreening.tubeAt ⟨3, 7⟩ = none
      ∧ (rescreening.tubeAt ⟨3, 5⟩).map (fun x => x.2.status) = some .clear
      ∧ (rescreening.tubeAt ⟨3, 6⟩).map (fun x => x.2.status) = some .pending := by
  and_intros <;> first | exact hunt_takes rfl | decide

theorem world_rows (ps : PlanState) (ch : Channel) (u : CalUnit) : RowLaw (world ps ch u) where
  ascending := by simp [world]
  tubesOf := by
    intro r hr
    simp only [world, List.mem_cons, List.not_mem_nil, or_false] at hr
    rcases hr with rfl | rfl
    · refine ⟨by decide, fun k hk => ?_⟩
      have hk' : k ≤ 1 := hk
      interval_cases k <;> exact ⟨_, rfl, rfl, rfl⟩
    · refine ⟨by decide, fun k hk => ?_⟩
      have hk' : k ≤ 0 := hk
      interval_cases k; exact ⟨_, rfl, rfl, rfl⟩
  rowOf := by
    intro i tb h
    match i, h with
    | 0, h | 1, h => cases h; exact ⟨⟨3, 5, 6, 12, 0⟩, by simp [world], by decide⟩
    | 2, h => cases h; exact ⟨⟨4, 4, 4, 12, 2⟩, by simp [world], by decide⟩
    | n + 3, h => cases h
  count := by simp [world]

theorem test_witness_RowAndColumnNameOneTube :
    RowLaw draft ∧ ∃ t, step draft = .next t := ⟨world_rows _ _ _, _, rfl⟩

theorem test_witness_ClaimGrantsAnOpenTube :
    active.takes 1 ⟨0x20, [3, 3, 0, 6, 0], false⟩ ∧ (active.ports.get 1).role = .crew
      ∧ active.planState = .active ∧ draft.planState ≠ .active ∧ (active.ports.get 0).role ≠ .crew
      ∧ (active.ports.get 0).role ≠ .none
      ∧ 3 < (4 : Byte).toNat ∧ (3 : Byte).toNat = (3 : Tag).val ∧ active.slot 1 3 = none
      ∧ active.tubeAt ⟨3, 6⟩ = some (1, Tube.created 3 6) ∧ (Tube.created 3 6).status = .pending
      ∧ (Tube.created 3 6).claim = none ∧ active.tubeAt ⟨5, 6⟩ = none
      ∧ (holding .inPull false).slot 1 0 ≠ none ∧ (holding .inPull false).slot 1 3 = none
      ∧ (holding .inPull false).tubeAt ⟨3, 5⟩ = some (0, heldTube true)
      ∧ (heldTube true).claim ≠ none
      ∧ (rescreening.tubeAt ⟨3, 5⟩).map (fun x => x.2.status) = some .clear := by
  and_intros <;> first | exact hunt_takes rfl | decide

theorem test_witness_ClaimNextGrantsTheLowestCandidate :
    active.takes 1 ⟨0x21, [0, 1, 0, 0, 1, 1, 0, 0, 1], false⟩ ∧ (active.ports.get 1).role = .crew
      ∧ active.planState = .active ∧ active.slot 1 0 = none
      ∧ active.tubes[0]? = some (Tube.created 3 5)
      ∧ (∀ j, ¬ Candidate active ⟨1, 256, 1, 256⟩ .repull j)
      ∧ Candidate active ⟨1, 256, 1, 256⟩ .pending 0
      ∧ Candidate { active with tubes := [{ Tube.created 3 5 with status := .repull }] }
          ⟨1, 256, 1, 256⟩ .repull 0
      ∧ (∀ j, ¬ Candidate State.reset ⟨1, 256, 1, 256⟩ .repull j
        ∧ ¬ Candidate State.reset ⟨1, 256, 1, 256⟩ .pending j)
      ∧ draft.takes 1 ⟨0x21, [0, 1, 0, 0, 1, 1, 0, 0, 1], false⟩ ∧ draft.planState ≠ .active
      ∧ (draft.ports.get 1).role ≠ .none ∧ active.takes 0 ⟨0x21, [0, 1, 0, 0, 1, 1, 0, 0, 1], false⟩
      ∧ (active.ports.get 0).role = .review ∧ ¬ (4 : Byte).toNat ≤ 3
      ∧ ¬ 1 ≤ (0 : Byte).toNat + 256 * (0 : Byte).toNat
      ∧ ¬ (1 : Byte).toNat + 256 * (1 : Byte).toNat ≤ 256
      ∧ (1 ≤ 1 ∧ 1 ≤ 256 ∧ 256 ≤ 256 ∧ (3 : Byte).toNat ≤ 3)
      ∧ (holding .inPull false).slot 1 0 ≠ none := by
  refine ⟨takes_of _ rfl rfl, rfl, rfl, rfl, rfl, ?_, ⟨_, rfl, by decide⟩, ⟨_, rfl, by decide⟩,
    fun j => ⟨?_, ?_⟩, takes_of _ rfl rfl, by decide, by decide, takes_of _ rfl rfl, by decide,
    by decide, by decide, by decide, by decide, by decide⟩
  · rintro j ⟨tb, h, h'⟩
    match j, h with
    | 0, h | 1, h | 2, h => cases h; exact absurd h' (by decide)
    | n + 3, h => cases h
  · rintro ⟨_, h, _⟩; cases h
  · rintro ⟨_, h, _⟩; cases h

theorem test_witness_ReleasesEndTheClaim :
    (holding (.leased 600) false).takes 1 ⟨0x22, [0], false⟩
      ∧ ((holding (.leased 600) false).ports.get 1).role = .crew
      ∧ ((holding (.leased 600) false).ports.get 0).role = .review ∧ 3 < (4 : Byte).toNat
      ∧ active.slot 1 0 = none ∧ (holding .inPull false).slot 1 0 = some ⟨0, .inPull, false⟩
      ∧ (holding (.leased 600) true).slot 1 0 = some ⟨0, .leased 600, true⟩
      ∧ (holding (.leased 600) false).slot 1 0 = some ⟨0, .leased 600, false⟩
      ∧ (holding (.leased 600) false).tubes[0]? = some (heldTube false)
      ∧ (holding (.leased 600) false).takes 0 ⟨0x23, [3, 0, 5, 0], false⟩
      ∧ (holding (.leased 600) false).tubeAt ⟨3, 5⟩ = some (0, heldTube false)
      ∧ (holding .inPull false).tubeAt ⟨3, 5⟩ = some (0, heldTube true)
      ∧ (holding .inPull false).tubeAt ⟨3, 6⟩ = some (1, Tube.created 3 6)
      ∧ (holding .inPull false).tubeAt ⟨5, 6⟩ = none := by
  and_intros <;> first | exact hunt_takes rfl | decide

theorem test_witness_LeaseExpiryEndsTheClaim :
    (holding (.leased 600) true).slot 1 0 = some ⟨0, .leased 600, true⟩
      ∧ (holding (.leased 0) false).slot 1 0 = some ⟨0, .leased 0, false⟩
      ∧ (holding (.leased 0) false).tubes[0]? = some (heldTube false)
      ∧ 0 ≤ (holding (.leased 0) false).now ∧ (holding (.leased 600) true).now < 600
      ∧ (holding .inPull false).slot 1 0 = some ⟨0, .inPull, false⟩ := by decide

theorem test_witness_BindStartsTheSettle :
    active.takes 2 ⟨0x30, [3], false⟩ ∧ (active.ports.get 2).role = .crew
      ∧ (active.ports.get 0).role = .review ∧ 3 < (4 : Byte).toNat ∧ (3 : Byte).toNat = (3 : Chan).val
      ∧ (active.chan.get 3).binding = none ∧ (active.ports.get 2).bound.card < 2
      ∧ SettleOf (active.chan.get 3).slots 39 ∧ (active.chan.get 0).binding ≠ none
      ∧ 2 ≤ FourSet.card ⟨true, true, false, false⟩ := by
  and_intros <;> first | exact hunt_takes rfl | exact default_settle.1 | exact default_settle.2 | decide

theorem test_witness_UnbindAndFreqSetDropTheCalibration :
    active.takes 1 ⟨0x31, [0], false⟩ ∧ (active.ports.get 1).role = .crew
      ∧ (active.ports.get 0).role = .review ∧ active.holdsChan 1 0 = true
      ∧ active.holdsChan 1 3 = false ∧ (active.chan.get 0).state = .ready
      ∧ (active.cal.get 0).group = [] ∧ (active.chan.get 0).binding = some 1
      ∧ ((withChan (boundChan .settling none)).chan.get 0).state = .settling
      ∧ ((withChan (boundChan .pulling (some .tube))).chan.get 0).state = .pulling
      ∧ ((withChan (boundChan .held (some .tube))).chan.get 0).state = .held
      ∧ { calibrated with group := [1] }.group ≠ []
      ∧ active.takes 1 ⟨0x32, 0 :: oneSlot.toList.flatMap o2, false⟩
      ∧ (∀ i d, oneSlot.get i = some d → d < 65535) ∧ (∀ i d, oneSlot.get i = some d → d ≤ 999)
      ∧ (∀ i j d, oneSlot.get i = some d → oneSlot.get j = some d → i = j)
      ∧ (∃ i, oneSlot.get i ≠ none) ∧ SettleOf oneSlot 999
      ∧ ¬ ∃ i, (Quad.fill (none : Option Nat)).get i ≠ none := by
  and_intros <;> first
    | exact hunt_takes rfl
    | exact fun i d h => (oneSlot_get i d h).2.symm ▸ by decide
    | exact fun i j d h h' => (oneSlot_get i d h).1.trans (oneSlot_get j d h').1.symm
    | exact ⟨0, rfl⟩
    | exact fun i d h => le_of_eq (oneSlot_get i d h).2
    | decide

theorem test_witness_SettleAndCoilEvents :
    ((withChan (boundChan .settling none)).chan.get 0).state = .settling
      ∧ ((withChan (boundChan .settling none)).chan.get 0).settle ≠ none
      ∧ (active.chan.get 0).state ≠ .settling ∧ (active.chan.get 0).state ≠ .unbound
      ∧ (active.chan.get 0).state ≠ .pulling ∧ (active.chan.get 1).state = .unbound := by decide

theorem test_witness_EncoderStepsMoveThePosition :
    (active.chan.get 0).state ≠ .pulling
      ∧ ((withChan (pullingAt 1 1 10)).chan.get 0).state = .pulling
      ∧ ((0 : Int) = (pullingAt 1 1 10).position - 1 ∧ (0 : Int) ≤ 0 ∧ (0 : Int) % 10 = 0
        ∧ 0 < (pullingAt 1 1 10).lastDue)
      ∧ ((-1 : Int) = (pullingAt 0 0 0).position - 1 ∧ (-1 : Int) < 0)
      ∧ ((10 : Int) = (pullingAt 11 8 10).position - 1 ∧ (pullingAt 11 8 10).lastDue ≤ 10)
      ∧ ((1008 : Int) = (pullingAt 1007 8 10).position + 1
        ∧ (1008 : Int) ≤ (pullingAt 1007 8 10).lowest + 1000)
      ∧ ((1009 : Int) = (pullingAt 1008 8 10).position + 1
        ∧ (pullingAt 1008 8 10).lowest + 1000 < 1009) := by decide

/-- The sample state with mix 1 of F1D over F4A as detection trace, learned on channel 0. -/
def mixing : State :=
  { active with
    plan := { active.plan with detection := .m1, mixes := [⟨.f1d, .f4a⟩] }
    cal := active.cal.set 0 { calibrated with mix1 := some ⟨0, 0⟩ } }

theorem test_witness_PullStartChecksInOrder :
    active.takes 1 ⟨0x34, [0, 0], false⟩ ∧ (active.ports.get 1).role = .crew
      ∧ (active.ports.get 0).role = .review ∧ 3 < (4 : Byte).toNat ∧ active.holdsChan 1 3 = false
      ∧ active.holdsChan 1 0 = true ∧ (active.chan.get 0).state = .ready
      ∧ (active.chan.get 0).probeOpen = false ∧ (active.cal.get 0).state = .calibrated
      ∧ ((withChan (boundChan .settling none)).chan.get 0).state = .settling
      ∧ ((withChan (boundChan .sizing (some .tube))).chan.get 0).state = .sizing
      ∧ ((withChan (boundChan .held (some .tube))).chan.get 0).state = .held
      ∧ ((after (.coilOpen 0) active).chan.get 0).probeOpen = true
      ∧ CalUnit.reset.state = .uncalibrated ∧ (CalUnit.due calibrated).state = .checkDue
      ∧ (∃ r, active.plan.detection = .raw r ∧ oneSlot.get r.slot ≠ none)
      ∧ (∃ r, active.plan.support = .raw r ∧ oneSlot.get r.slot = none)
      ∧ (∀ r, active.plan.support = .raw r → (active.chan.get 0).slots.get r.slot ≠ none)
      ∧ (∀ r, active.plan.detection = .raw r → (active.chan.get 0).slots.get r.slot ≠ none)
      ∧ calibrated.mix1 = none ∧ active.slot 1 0 = none
      ∧ (holding .inPull false).slot 1 0 = some ⟨0, .inPull, false⟩
      ∧ mixing.takes 1 ⟨0x34, [0, 0], false⟩ ∧ mixing.plan.detection = .m1
      ∧ mixing.plan.mixes[0]? = some ⟨.f1d, .f4a⟩ ∧ (mixing.cal.get 0).mix1 ≠ none
      ∧ (mixing.chan.get 0).slots.get RawTrace.f1d.slot ≠ none
      ∧ (mixing.chan.get 0).slots.get RawTrace.f4a.slot ≠ none ∧ mixing.slot 1 0 = none
      ∧ oneSlot.get RawTrace.f4a.slot = none := by
  and_intros <;> first
    | exact hunt_takes rfl | exact ⟨_, rfl, by decide⟩ | exact support_on | exact detection_on
    | decide

theorem test_witness_PullStartBeginsAPull :
    (holding (.leased 600) false).takes 1 ⟨0x34, [0, 0], false⟩
      ∧ ((holding (.leased 600) false).ports.get 1).role = .crew
      ∧ ((holding (.leased 600) false).ports.get 1).policy = some .masked
      ∧ (holding (.leased 600) false).holdsChan 1 0 = true
      ∧ ((holding (.leased 600) false).chan.get 0).state = .ready
      ∧ ((holding (.leased 600) false).chan.get 0).probeOpen = false
      ∧ ((holding (.leased 600) false).cal.get 0).state = .calibrated
      ∧ (∀ r, (holding (.leased 600) false).plan.support = .raw r →
          ((holding (.leased 600) false).chan.get 0).slots.get r.slot ≠ none)
      ∧ (∃ r, (holding (.leased 600) false).plan.detection = .raw r
          ∧ ((holding (.leased 600) false).chan.get 0).slots.get r.slot ≠ none)
      ∧ { calibrated with mix1 := some ⟨0, 0⟩ }.mix1 ≠ none
      ∧ ([⟨.f1d, .f4a⟩] : List MixDef)[0]? = some ⟨.f1d, .f4a⟩
      ∧ (holding (.leased 600) false).slot 1 0 = some ⟨0, .leased 600, false⟩
      ∧ (holding (.leased 600) false).tubes[0]? = some (heldTube false) := by
  and_intros <;> first
    | exact hunt_takes rfl | exact support_on | exact ⟨_, rfl, by decide⟩ | decide

theorem test_witness_CalStartBeginsACalibrationPull :
    active.takes 1 ⟨0x33, [0, 1], false⟩ ∧ (active.ports.get 1).role = .crew
      ∧ active.holdsChan 1 0 = true ∧ (active.chan.get 0).state = .ready
      ∧ (active.chan.get 0).probeOpen = false ∧ active.plan.standard = some standard
      ∧ Plan.default.standard = none ∧ { calibrated with group := [1] }.group ≠ []
      ∧ CalUnit.reset.state = .uncalibrated ∧ (active.cal.get 0).group = []
      ∧ (active.cal.get 0).state ≠ .uncalibrated
      ∧ active.takes 0 ⟨0x33, [0, 0], false⟩ ∧ (active.ports.get 0).role = .review
      ∧ active.takes 1 ⟨0x33, [4, 0], false⟩ ∧ 3 < (4 : Byte).toNat
      ∧ active.takes 1 ⟨0x33, [3, 2], false⟩ ∧ 1 < (2 : Byte).toNat
      ∧ active.holdsChan 1 3 = false
      ∧ ((withChan (boundChan .settling none)).chan.get 0).state = .settling
      ∧ ((withChan (boundChan .sizing (some .tube))).chan.get 0).state = .sizing
      ∧ ((withChan (boundChan .held (some .tube))).chan.get 0).state = .held
      ∧ ((after (.coilOpen 0) active).chan.get 0).probeOpen = true
      ∧ ((after (.coilOpen 0) active).chan.get 0).state = .ready := by
  and_intros <;> first | exact hunt_takes rfl | decide

/-- The sample tube pull at 7.5 m with 100 samples. -/
def pull : State := pulling 150000 (controller 100)

theorem pull_in_flight : InTubePull pull 0 tubeRecord tubePull (heldTube true) false :=
  ⟨rfl, rfl, rfl, rfl, rfl, rfl⟩

theorem test_witness_PullAbortKeepsTheClaim :
    pull.takes 1 ⟨0x36, [0], false⟩ ∧ (pull.ports.get 1).role = .crew ∧ pull.holdsChan 1 0 = true
      ∧ (active.chan.get 0).state = .ready
      ∧ ((withChan (boundChan .held (some .tube))).chan.get 0).state = .held
      ∧ (pull.chan.get 0).state = .pulling ∧ (pull.pull.get 0).record = some tubeRecord
      ∧ (pull.pull.get 0).result = none ∧ tubeRecord.tube = some tubePull
      ∧ pull.slot 1 0 = some ⟨0, .inPull, false⟩ ∧ pull.tubes[0]? = some (heldTube true)
      ∧ { tubeRecord with kind := .calFull, tube := none }.tube = none
      ∧ pull.takes 0 ⟨0x36, [0], false⟩ ∧ (pull.ports.get 0).role = .review
      ∧ 3 < (4 : Byte).toNat ∧ pull.takes 1 ⟨0x36, [3], false⟩ ∧ pull.holdsChan 1 3 = false := by
  and_intros <;> first | exact hunt_takes rfl | decide

/-- One captured sample with the same raw value on every trace. -/
def rawSample (x y : BitVec 16) : RawSample := Eight.ofFn (fun _ => some ⟨x, y⟩)

/-- A calibration pull of a kind after a number of samples, with its hole window. -/
def judged (kind : PullKind) (samples : Nat) (faults : Nat) (hole : List RawSample) : State :=
  let s := world .active (boundChan .pulling (some kind)) calibrated
  { s with
    pull := s.pull.set 0 { PullCtl.reset with
      record := some { tubeRecord with kind := kind, tube := none }, samples := samples }
    cal := s.cal.set 0 { calibrated with
      checkFaults := faults
      capture := ⟨some standard, [], List.replicate 16 (rawSample 0 0), hole, []⟩ } }

/-- The hole of the worked case, as a check and as a full calibration measure it. -/
def goodHole : List RawSample := [rawSample (-3829) (-3216), rawSample 3829 3216]

/-- The record of a calibration pull of a kind. -/
def calRecord (kind : PullKind) : PullRecord := { tubeRecord with kind := kind, tube := none }

/-- A faulted calibration pull is judged in some way. -/
theorem judged_when_faulted {s : State} {c : Chan} {rec : PullRecord} (hk : rec.kind ≠ .tube)
    (hl : (s.pull.get c).latch ≠ []) : ∃ x, JudgedBy s c rec x := by
  cases h : rec.kind with
  | tube => exact absurd h hk
  | calFull => exact ⟨_, .inl ⟨h, _, _, .inl ⟨hl, rfl, rfl⟩, rfl⟩⟩
  | calCheck =>
    by_cases h0 : (s.cal.get c).checkFaults = 0
    · exact ⟨_, .inr (.inl ⟨h, h0, _, _, .inl ⟨hl, rfl, rfl⟩, rfl⟩)⟩
    · exact ⟨_, .inr (.inr (.inl ⟨h, h0, _, _, .inl ⟨hl, rfl, rfl⟩, rfl⟩))⟩

theorem test_witness_FaultsEndATubePull :
    InTubePull pull 0 tubeRecord tubePull (heldTube true) false ∧ (heldTube true).attempts ≤ 5
      ∧ 1 ≤ pull.plan.attemptLimit ∧ pull.plan.attemptLimit ≤ 5
      ∧ { pull.chan.get 0 with reverseReported := true }.reverseReported = true
      ∧ tubeRecord.deadline ≤ { pull with seconds := 120 }.now
      ∧ (active.chan.get 0).state ≠ .pulling ∧ (pull.chan.get 0).reverseReported = false
      ∧ (∀ rec, (pull.pull.get 0).record = some rec → pull.now < rec.deadline)
      ∧ (∀ n, InCalPull (judged .calCheck 1440 n []) 0 (calRecord .calCheck))
      ∧ InCalPull (judged .calFull 1440 0 []) 0 (calRecord .calFull)
      ∧ (∀ n f, ∃ x, JudgedBy { judged .calCheck 1440 n [] with
          pull := (judged .calCheck 1440 n []).pull.set 0
            { (judged .calCheck 1440 n []).pull.get 0 with latch := [f] } } 0 (calRecord .calCheck) x)
      ∧ ((judged .calCheck 1440 0 []).cal.get 0).checkFaults = 0
      ∧ ((judged .calCheck 1440 1 []).cal.get 0).checkFaults ≠ 0 := by
  refine ⟨pull_in_flight, by decide, by decide, by decide, rfl, by decide, by decide, rfl, ?_,
    fun _ => ⟨rfl, rfl, rfl, rfl, nofun⟩, ⟨rfl, rfl, rfl, rfl, nofun⟩,
    fun _ _ => judged_when_faulted nofun nofun, rfl, by decide⟩
  intro rec h; cases h; decide

/-- The sample tube pull with positions waiting, a thin-data count and a controller. -/
def sampling (waiting : List Int) (thin : Nat) (k : PullCtl) : State :=
  let s := pulling 11600 k
  { s with chan := s.chan.set 0 { s.chan.get 0 with waiting := waiting, thin := thin } }

/-- A calibration pull with a step of the hole window's end waiting. -/
def calSampling : State :=
  let s := calPulling .active
  { s with
    chan := s.chan.set 0 { s.chan.get 0 with waiting := [11600] }
    pull := s.pull.set 0 { PullCtl.reset with
      record := some { tubeRecord with kind := .calFull, tube := none } }
    cal := s.cal.set 0 { calibrated with capture := ⟨some standard, [], [], [], []⟩ } }

/-- The sample calibration pull with other positions waiting. -/
def calWaiting (waiting : List Int) (thin : Nat) : State :=
  { calSampling with
    chan := calSampling.chan.set 0
      { calSampling.chan.get 0 with waiting := waiting, thin := thin } }

/-- A raw value of 0 on every trace. -/
def quiet : RawSample := rawSample 0 0

/-- A raw value at the limit of the first component on every trace. -/
def loud : RawSample := rawSample 32767 0

theorem loud_value : nulled (calibrate ⟨256, 0⟩ ⟨32767, 0⟩) ⟨0, 0⟩ = ⟨⟨20000, 0⟩, true⟩ := by
  decide +kernel

theorem quiet_value : nulled (calibrate ⟨256, 0⟩ ⟨0, 0⟩) ⟨0, 0⟩ = ⟨⟨0, 0⟩, false⟩ := by
  decide +kernel

/-- A controller past its null with a number of samples. -/
def sampled (samples : Nat) : PullCtl :=
  { controller 16 with samples := samples }

theorem sample_quiet (n pos : Nat) (h : 16 ≤ n) :
    SampleOf calibrated tubePull quiet pos (sampled n) (sampled (n + 1)) := by
  refine ⟨rfl, rfl, rfl, fun h' => absurd h' (by show ¬ n < 16; omega), fun _ => ⟨rfl, _, _,
    ⟨_, _, _, rfl, rfl, rfl, rfl⟩, ⟨_, _, _, rfl, rfl, rfl, rfl⟩, ?_⟩⟩
  rw [quiet_value]
  exact ⟨⟨⟨rfl, rfl⟩, rfl⟩, ⟨fun h' => absurd h'.2 (by decide), fun _ => ⟨rfl, rfl, rfl⟩⟩,
    fun h' => absurd h'.1 nofun, fun _ => rfl⟩

/-- The sample tube pull's record under UNMASKED. -/
def unmasked : TubePull := { tubePull with policy := .unmasked }

theorem sample_loud : SampleOf calibrated unmasked loud 2 (sampled 16)
    { sampled 17 with
      armed := false, supports := 1, supportAt := [2], detector := .opened [⟨2, ⟨20000, 0⟩, true⟩]
      latch := [.saturated] } := by
  refine ⟨rfl, rfl, rfl, fun h' => absurd h' (by decide), fun _ => ⟨rfl, _, _,
    ⟨_, _, _, rfl, rfl, rfl, rfl⟩, ⟨_, _, _, rfl, rfl, rfl, rfl⟩, ?_⟩⟩
  rw [loud_value]
  exact ⟨⟨⟨rfl, rfl⟩, rfl⟩, ⟨fun _ => ⟨rfl, rfl, rfl⟩, fun h' => absurd ⟨rfl, by decide⟩ h'⟩,
    fun _ => rfl, fun h' => absurd ⟨rfl, rfl, .inr ⟨rfl, by decide⟩⟩ h'⟩

theorem test_witness_samples_of_an_output :
    Samples calibrated tubePull quiet [20, 10] (sampled 16) (sampled 18)
      ∧ Samples calibrated unmasked loud [20, 10] (sampled 16)
        { sampled 18 with
          armed := false, supports := 1, supportAt := [2]
          detector := .opened [⟨2, ⟨20000, 0⟩, true⟩], latch := [.saturated] }
      ∧ Samples calibrated tubePull quiet [0] (sampled 16) (sampled 17)
      ∧ pull.rows.find? (fun r => r.row == tubePull.row) = some (⟨3, 5, 6, 12, 0⟩ : Row) :=
  ⟨.inr ⟨rfl, _, sample_quiet 16 2 (by decide), .inr ⟨rfl, _, sample_quiet 17 1 (by decide), rfl⟩⟩,
    .inr ⟨rfl, _, sample_loud, .inl ⟨nofun, rfl⟩⟩,
    .inr ⟨rfl, _, sample_quiet 16 0 (by decide), rfl⟩, by decide⟩

theorem test_witness_OutputsSampleTheWaitingPositions :
    (active.chan.get 0).state ≠ .pulling ∧ (pull.chan.get 0).waiting = []
      ∧ InTubePull (sampling [10] 63 (controller 15)) 0 tubeRecord tubePull (heldTube true) false
      ∧ ((sampling [10] 63 (controller 15)).pull.get 0).samples + 1 ≤ 16 ∧ 63 + (1 - 1) < 64
      ∧ (0 : Int) ∉ ((sampling [10] 63 (controller 15)).chan.get 0).waiting
      ∧ InTubePull (sampling [20, 10] 63 (sampled 16)) 0 tubeRecord tubePull (heldTube true) false
      ∧ ((sampling [20, 10] 63 (sampled 16)).pull.get 0) = sampled 16
      ∧ (Eight.ofFn (fun r => if (Channel.defaultSlots.get r.slot).isSome then
          some ((Eight.ofFn (fun _ => (⟨0, 0⟩ : Raw))).get r) else none) : RawSample) = quiet
      ∧ tubePull.policy = .masked ∧ 64 ≤ 63 + (2 - 1) ∧ 62 + (2 - 1) < 64
      ∧ (calSampling.chan.get 0).state = .pulling ∧ (calSampling.chan.get 0).waiting = [11600]
      ∧ (calSampling.pull.get 0).record = some (calRecord .calFull)
      ∧ (calSampling.pull.get 0).latch = []
      ∧ (calSampling.cal.get 0).capture.standard = some standard
      ∧ InCalPull (calWaiting [20, 10] 63) 0 (calRecord .calFull)
      ∧ InCalPull (calWaiting [20, 10] 62) 0 (calRecord .calFull)
      ∧ InCalPull (calWaiting [0] 0) 0 (calRecord .calFull)
      ∧ (0 : Int) ∈ ((calWaiting [0] 0).chan.get 0).waiting := by
  unfold InCalPull
  and_intros <;> decide

/-- A value of one component through gain 1 and an empty null. -/
def plain (x : BitVec 16) : Vec := (nulled (calibrate ⟨256, 0⟩ ⟨x, 0⟩) ⟨0, 0⟩).value

theorem test_witness_SamplesReachCounterAndDetector :
    InTubePull (sampling [10] 63 (controller 16)) 0 tubeRecord tubePull (heldTube true) false
      ∧ 16 ≤ ((sampling [10] 63 (controller 16)).pull.get 0).samples
      ∧ tubePull.detection = .raw .f1d ∧ tubePull.support = .raw .f4a
      ∧ ((sampling [10] 63 (controller 16)).cal.get 0).gains.get .f1d = some ⟨256, 0⟩
      ∧ ((sampling [10] 63 (controller 16)).pull.get 0).null.vector .f4a = some ⟨0, 0⟩
      ∧ ((2000 : Int) * 2000 ≤ (plain 2000).x * (plain 2000).x + (plain 2000).y * (plain 2000).y)
      ∧ ((plain 1999).x * (plain 1999).x + (plain 1999).y * (plain 1999).y < (2000 : Int) * 2000)
      ∧ ((plain 299).x * (plain 299).x + (plain 299).y * (plain 299).y < (300 : Int) * 300)
      ∧ ¬ ((plain 300).x * (plain 300).x + (plain 300).y * (plain 300).y < (300 : Int) * 300)
      ∧ (controller 16).armed = true ∧ (controller 16).detector = .armed
      ∧ { controller 16 with armed := false }.armed = false
      ∧ { controller 16 with detector := .blocked }.detector = .blocked
      ∧ (List.replicate 255 (⟨20, ⟨500, 0⟩, false⟩ : WindowSample)
        ++ [(⟨10, ⟨500, 0⟩, false⟩ : WindowSample)]).length = 256 := by
  and_intros <;> decide +kernel

theorem test_witness_PullEndMakesTheEndChecks :
    pull.takes 1 ⟨0x35, [0, 1], false⟩ ∧ (pull.ports.get 1).role = .crew ∧ (1 : Byte).toNat ≤ 1
      ∧ pull.holdsChan 1 0 = true ∧ (active.chan.get 0).state = .ready
      ∧ ((withChan (boundChan .sizing (some .tube))).chan.get 0).state = .sizing
      ∧ InTubePull pull 0 tubeRecord tubePull (heldTube true) false
      ∧ pull.rows.find? (fun r => r.row == tubePull.row) = some (⟨3, 5, 6, 12, 0⟩ : Row)
      ∧ 1 ≤ pull.plan.attemptLimit ∧ pull.plan.attemptLimit ≤ 5 ∧ 4000 < (pull.chan.get 0).lowest
      ∧ ¬ 4000 < ((pulling 4000 (controller 100)).chan.get 0).lowest
      ∧ pull.takes 0 ⟨0x35, [0, 0], false⟩ ∧ (pull.ports.get 0).role = .review
      ∧ 3 < (4 : Byte).toNat ∧ 1 < (2 : Byte).toNat ∧ pull.takes 1 ⟨0x35, [3, 1], false⟩
      ∧ pull.holdsChan 1 3 = false := by
  and_intros <;> first | exact hunt_takes rfl | exact pull_in_flight | decide

theorem test_witness_RecordsAreBufferedAndLocated :
    (fullBuffer.take 23).length < 24 ∧ fullBuffer.length = 24
      ∧ [20000, 12000, 4000].length ≤ 3 ∧ ([] : List Nat).length ≤ 0
      ∧ ([⟨9, ⟨0, 0⟩, false⟩, ⟨8, ⟨500, 0⟩, true⟩, ⟨7, ⟨0, 0⟩, false⟩, ⟨6, ⟨0, 0⟩, false⟩] :
          List WindowSample)[(4 - 1) / 2]? = some ⟨8, ⟨500, 0⟩, true⟩
      ∧ { controller 16 with detector := .opened [⟨9, ⟨500, 0⟩, false⟩] }.detector
        = .opened [⟨9, ⟨500, 0⟩, false⟩]
      ∧ ∀ w, (controller 16).detector ≠ .opened w := by
  and_intros <;> first | decide | exact nofun

theorem test_witness_CalibrationPullsAreJudged :
    (judged .calCheck 1440 0 goodHole).takes 1 ⟨0x35, [0, 0], false⟩
      ∧ (judged .calCheck 1440 0 goodHole).holdsChan 1 0 = true
      ∧ InCalPull (judged .calCheck 1440 0 goodHole) 0 (calRecord .calCheck)
      ∧ InCalPull (judged .calFull 1439 0 goodHole) 0 (calRecord .calFull)
      ∧ ((judged .calCheck 1440 0 goodHole).cal.get 0).capture.standard = some standard
      ∧ (2 * 1000 ≤ 2 * (600 - 20) + 1440 ∧ 2 * 1000 ≤ 2 * (300 - 20) + 1440)
      ∧ ¬ 2 * 1000 ≤ 2 * (300 - 20) + 1439
      ∧ ((judged .calCheck 1439 0 goodHole).cal.get 0).checkFaults = 0
      ∧ ((judged .calCheck 1439 1 goodHole).cal.get 0).checkFaults ≠ 0
      ∧ (∀ e ∈ checkEntries ((judged .calCheck 1440 0 goodHole).cal.get 0), e.failed = none)
      ∧ (checkEntries ((judged .calCheck 1440 0 []).cal.get 0)).head?.bind TraceEntry.failed
        = some .amplitude
      ∧ (∀ e ∈ fullEntries Channel.defaultSlots
          ((judged .calFull 1440 0 goodHole).cal.get 0).capture, e.failed = none)
      ∧ (fullEntries Channel.defaultSlots
          ((judged .calFull 1440 0 []).cal.get 0).capture).head?.bind TraceEntry.failed
        = some .weak
      ∧ (deriveTrace .f1d [⟨0, 0⟩, ⟨500, 0⟩]).failed = none
      ∧ (deriveTrace .f1d [⟨0, 0⟩, ⟨499, 0⟩]).failed = some .weak
      ∧ (deriveTrace .f1d [⟨-20000, 0⟩, ⟨20000, 0⟩]).failed = none
      ∧ (deriveTrace .f1d [⟨-20000, 0⟩, ⟨20001, 0⟩]).failed = some .strong
      ∧ (deriveTrace .f1d [⟨-32768, 0⟩, ⟨32767, 0⟩]).failed = some .clipped
      ∧ noGains.get .f1d = none ∧ calibrated.gains.get .f1d = some ⟨256, 0⟩
      ∧ (∃ x ∈ [((⟨⟨1, 0⟩, false⟩ : Sig), (⟨⟨20000, 0⟩, true⟩ : Sig))], x.2.clipped = true)
      ∧ (199 * 199 : Int) < 40000 ∧ ¬ (200 * 200 : Int) < 40000
      ∧ (32768 * 32768 + 0 * 0 : Int) ≤ 1073741824 := by
  unfold InCalPull
  and_intros <;> first | exact hunt_takes rfl | decide +kernel

theorem test_witness_JobsAndStepsBeginWhenTheUnitIsIdle :
    active.plan.curve = some curve ∧ active.sizing.flight = none ∧ active.sizing.step = none
      ∧ active.sizing.queue = [] ∧ { active with sizing := ⟨[job []], none, none⟩ }.sizing.queue
        = job [] :: [] ∧ rescreening.sizing.step ≠ none ∧ rescreening.rescreen.phase = .underWay
      ∧ active.takes 0 ⟨0x1D, [], false⟩ ∧ (active.ports.get 0).role = .review
      ∧ active.planState = .active ∧ draft.planState ≠ .active
      ∧ { active with plan := Plan.default }.plan.curve = none := by
  and_intros <;> first | exact hunt_takes rfl | decide

theorem test_witness_JobsKeepTheDeepestAndClassify :
    (pitted.map (fun r => r.position)).Nodup ∧ settings.report ≤ settings.plug
      ∧ (∃ r ∈ pitted, r.clipped = true) ∧ (∃ r ∈ pitted, r.clipped = false)
      ∧ ∃ r ∈ pitted, ∀ x ∈ keptOf curve pitted, x.toLocated ≠ r := by decide +kernel

theorem test_witness_SizingCommitWritesTheTube :
    (sizing 12 pitted).sizing.flight = some (job pitted, settings)
      ∧ (sizing 12 pitted).tubes[0]? = some (heldTube true)
      ∧ (sizing 12 pitted).slot 1 0 = some ⟨0, .inPull, false⟩ ∧ (job pitted).orphan = false
      ∧ ((sizing 12 pitted).chan.get 0).passed = false
      ∧ { job pitted with orphan := true }.orphan = true
      ∧ { (sizing 12 pitted).chan.get 0 with passed := true }.passed = true := by decide

theorem test_witness_RescreenStepRereadsTheTube :
    rescreening.sizing.step.map (fun st => decide (st.report ≤ st.plug)) = some true
      ∧ rescreening.tubes[rescreening.rescreen.cursor]?.map (fun tb => (tb.status, tb.claim))
        = some (.clear, none)
      ∧ worstOf [stored 1200 false] = some (.pct 15) ∧ worstOf [] = none := by decide

theorem test_witness_ResultsAndNoticesAreTaken :
    active.takes 1 ⟨0x37, [0], false⟩ ∧ (active.ports.get 1).role = .crew
      ∧ active.holdsChan 1 0 = true ∧ (active.chan.get 0).state = .ready
      ∧ ((withChan (boundChan .sizing (some .tube))).chan.get 0).state = .sizing
      ∧ ((after (.coilOpen 0) pull).chan.get 0).state = .held
      ∧ ((after (.coilOpen 0) pull).pull.get 0).result.isSome = true
      ∧ active.takes 1 ⟨0x40, [], false⟩ ∧ (active.ports.get 1).role ≠ .none
      ∧ active.takes 0 ⟨0x37, [0], false⟩ ∧ (active.ports.get 0).role = .review
      ∧ 3 < (4 : Byte).toNat ∧ active.takes 1 ⟨0x37, [3], false⟩
      ∧ active.holdsChan 1 3 = false := by
  and_intros <;> first | exact hunt_takes rfl | decide

theorem test_witness_ReadoutsWriteNoState :
    (rescreening.ports.get 0).role ≠ .none ∧ rescreening.takes 0 ⟨0x41, [3, 0, 5, 0], false⟩
      ∧ (rescreening.tubeAt ⟨3, 5⟩).map (fun x => x.2.list.length) = some 1
      ∧ rescreening.tubeAt ⟨5, 6⟩ = none
      ∧ rescreening.takes 0 ⟨0x42, [3, 0, 5, 0, 1], false⟩ ∧ 1 ≤ (1 : Byte).toNat
      ∧ (16 : Byte).toNat ≤ 16 ∧ 16 < (17 : Byte).toNat ∧ 1 < (16 : Byte).toNat
      ∧ rescreening.takes 0 ⟨0x43, [8, 3, 0], false⟩ ∧ (8 : Byte).toNat ≤ 8 ∧ 8 < (9 : Byte).toNat
      ∧ (3 : Byte).toNat + 256 * (0 : Byte).toNat ≤ rescreening.tubes.length
      ∧ rescreening.tubes.length < (4 : Byte).toNat + 256 * (0 : Byte).toNat
      ∧ rescreening.takes 0 ⟨0x44, [], false⟩
      ∧ rescreening.takes 0 ⟨0x45, [3], false⟩ ∧ (3 : Byte).toNat = (3 : Chan).val
      ∧ 3 < (4 : Byte).toNat := by
  and_intros <;> first | exact hunt_takes rfl | decide

theorem test_witness_TimeMakesAChannelCheckDue :
    active.seconds.toNat < 4294967295 ∧ (active.cal.get 0).state = .calibrated
      ∧ (active.cal.get 0).lastGood = some 0
      ∧ 0 + 60 * active.plan.calInterval ≤ { active with seconds := 14400 }.now
      ∧ { active with seconds := 14399 }.now < 0 + 60 * active.plan.calInterval
      ∧ (active.cal.get 1).state ≠ .calibrated
      ∧ { active with seconds := 4294967294 }.seconds.toNat < 4294967295
      ∧ DueBy (holding (.leased 600) false) 1 0 600 = true
      ∧ (holding (.leased 600) false).slot 1 0 = some ⟨0, .leased 600, false⟩
      ∧ (∀ p u cl, DueBy (holding (.leased 600) false) p u 599 = true →
          (holding (.leased 600) false).slot p u = some cl → cl.tube ≠ 0) := by
  refine ⟨by decide, by decide, by decide, by decide, by decide, by decide, by decide, by decide,
    by decide, ?_⟩
  have none : ∀ p u, DueBy (holding (.leased 600) false) p u 599 = false := by decide
  intro p u cl h
  rw [none] at h
  cases h

theorem test_witness_ComputedValuesLieInTheirRanges :
    curve.valid ∧ (400 : Nat) ≤ curve.first.phase ∧ curve.points.getLast? = some ⟨1500, 0⟩
      ∧ curve.points[0]? = some ⟨400, 100⟩ ∧ curve.points[1]? = some ⟨700, 60⟩
      ∧ (⟨16384, 3599⟩ : GainRot).gain ≤ 16384 ∧ (⟨16384, 3599⟩ : GainRot).rotation < 3600
      ∧ ([⟨1, 0⟩] : List Vec).length ≤ 1 ∧ 2 ≤ ([⟨1, 0⟩, ⟨0, 0⟩] : List Vec).length
      ∧ (amplitudeOf 0 = 0 ∧ (8589672450 : Nat) ≠ 0 ∧ 8589672450 ≤ 8589672450)
      ∧ (∃ length angle : ℝ, 0 < length ∧ 0 ≤ angle ∧ angle < Real.pi
        ∧ (((1 : Int) : ℝ) = length * Real.cos angle ∧ ((0 : Int) : ℝ) = length * Real.sin angle)) := by
  and_intros <;> first
    | (unfold Curve.valid; decide) | decide +kernel
    | exact ⟨1, 0, one_pos, le_refl 0, Real.pi_pos, by simp, by simp⟩

/-- The sample tube pull with a command waiting. -/
def lawful : State := { pull with pending := [.timeBaseTick] }

theorem lawful_steps : ∃ t, step lawful = .next t := ⟨_, rfl⟩

/-- The items of the sample tube pull on which the laws rest, its claim departed or not. -/
structure Flying (s : State) (d : Bool) : Prop where
  claims : s.claims
    = ⟨Quad.fill none, ⟨some ⟨0, .inPull, d⟩, none, none, none⟩, Quad.fill none, Quad.fill none⟩
  tubes : s.tubes = pull.tubes
  chan : s.chan = pull.chan
  ctl : s.pull = pull.pull
  cal : s.cal = pull.cal
  sizing : s.sizing = pull.sizing
  planState : s.planState = .active

theorem Flying.slot {s : State} {d : Bool} (f : Flying s d) (p : Port) (t : Tag) (cl : Claim)
    (h : s.slot p t = some cl) : p = 1 ∧ t = 0 ∧ cl = ⟨0, .inPull, d⟩ := by
  unfold State.slot at h
  rw [f.claims] at h
  revert h
  match p, t with
  | 1, 0 => intro h; cases h; exact ⟨rfl, rfl, rfl⟩
  | 0, 0 | 0, 1 | 0, 2 | 0, 3 | 1, 1 | 1, 2 | 1, 3 | 2, 0 | 2, 1 | 2, 2 | 2, 3 | 3, 0 | 3, 1 | 3, 2
  | 3, 3 => exact nofun

theorem Flying.held {s : State} {d : Bool} (f : Flying s d) : s.slot 1 0 = some ⟨0, .inPull, d⟩ := by
  unfold State.slot; rw [f.claims]; rfl

theorem Flying.tube {s : State} {d : Bool} (f : Flying s d) (i : Nat) (tb : Tube) (cf : TubeClaim)
    (h : s.tubes[i]? = some tb) (hc : tb.claim = some cf) : i = 0 ∧ cf = ⟨1, 0, true⟩ := by
  rw [f.tubes] at h
  match i, h with
  | 0, h => cases h; cases hc; exact ⟨rfl, rfl⟩
  | 1, h | 2, h => cases h; cases hc
  | n + 3, h => cases h

theorem Flying.pullOf {s : State} {d : Bool} (f : Flying s d) (c : Chan) (p : Port) (t : Tag) (i : Nat)
    (h : s.tubePull c p t i) : c = 0 ∧ p = 1 ∧ t = 0 ∧ i = 0 := by
  obtain ⟨hs, rec, tp, hr, ht, rfl, rfl, rfl⟩ := h
  rw [f.chan] at hs
  rw [f.ctl] at hr
  match c, hs, hr with
  | 0, _, hr => cases hr; cases ht; exact ⟨rfl, rfl, rfl, rfl⟩
  | 1, hs, _ | 2, hs, _ | 3, hs, _ => cases hs

theorem Flying.claimLaw {s : State} {d : Bool} (f : Flying s d) : ClaimLaw s where
  slotTube := by
    intro p t cl h
    obtain ⟨rfl, rfl, rfl⟩ := f.slot p t cl h
    exact ⟨heldTube true, by rw [f.tubes]; rfl, rfl⟩
  tubeSlot := by
    intro i tb cf h hc
    obtain ⟨rfl, rfl⟩ := f.tube i tb cf h hc
    exact ⟨_, f.held, rfl⟩
  onlyActive := fun h => absurd f.planState h

theorem Flying.noJobs {s : State} {d : Bool} (f : Flying s d) : s.jobs = [] := by
  unfold State.jobs; rw [f.sizing]; rfl

theorem Flying.pullLaw {s : State} {d : Bool} (f : Flying s d) : PullLaw s where
  toClaimLaw := f.claimLaw
  pulls := by
    intro c p t i h
    obtain ⟨rfl, rfl, rfl, rfl⟩ := f.pullOf c p t i h
    exact ⟨_, f.held⟩
  jobs := by rw [f.noJobs]; exact nofun
  pullsApart := fun c e p t i k h h' => by rw [(f.pullOf c p t i h).1, (f.pullOf e p t k h').1]
  jobsApart := by rw [f.noJobs]; exact .nil
  pullJob := by rw [f.noJobs]; exact fun _ _ _ _ _ _ => nofun
  claimedOpen := by rw [f.tubes]; decide
  unlisted := by rw [f.tubes]; decide
  draft := fun _ => by rw [f.tubes]; decide

theorem Flying.groupLaw {s : State} {d : Bool} (f : Flying s d) : GroupLaw s where
  toPullLaw := f.pullLaw
  members := by
    rw [f.cal]
    intro c i h
    have none : ∀ c, (pull.cal.get c).group = [] := by decide
    rw [none] at h; cases h
  inPlan := fun h => absurd f.planState h

theorem lawful_flies : Flying lawful false := ⟨rfl, rfl, rfl, rfl, rfl, rfl, rfl⟩

theorem locked_flies : Flying { lawful with lock := true } false := ⟨rfl, rfl, rfl, rfl, rfl, rfl, rfl⟩

theorem lawful_times : TimeLaw lawful where
  leases := by
    intro p t i d b h
    have h' := (lawful_flies.slot p t _ h).2.2
    cases h'
  intervals := by
    intro c h
    match c, h with
    | 0, _ => exact ⟨0, rfl, by decide⟩
    | 1, h | 2, h | 3, h => cases h
  inForce := by decide

theorem test_witness_StoreAttemptAndLockLawsAreKept :
    StoreLaw lawful ∧ AttemptsLaw lawful ∧ LockLaw { lawful with lock := true } ∧ GroupLaw lawful
      ∧ TimeLaw lawful ∧ GroupLaw { lawful with lock := true }
      ∧ (∃ t, step lawful = .next t) ∧ ∃ t, exec .timeBaseTick { lawful with lock := true } = .next t := by
  refine ⟨by unfold StoreLaw; decide, by unfold AttemptsLaw; decide, fun _ => .inl rfl,
    lawful_flies.groupLaw, lawful_times, locked_flies.groupLaw, ⟨_, rfl⟩, _, rfl⟩

theorem test_witness_StationLawIsKept : StationLaw lawful ∧ ∃ t, step lawful = .next t := by
  refine ⟨{ lawful_flies.claimLaw with
    oneReview := by decide, policy := by decide, bound := by decide, boundCrew := by decide
    claimsCrew := ?_, notices := by decide }, lawful_steps⟩
  intro p t cl h _
  obtain ⟨rfl, -, -⟩ := lawful_flies.slot p t cl h
  rfl

theorem test_witness_ClaimLawIsKept : ClaimLaw lawful ∧ ∃ t, step lawful = .next t :=
  ⟨lawful_flies.claimLaw, lawful_steps⟩

theorem test_witness_PullLawIsKept : PullLaw lawful ∧ ∃ t, step lawful = .next t :=
  ⟨lawful_flies.pullLaw, lawful_steps⟩

theorem lawful_channels : ChannelLaw lawful where
  binding := by decide
  excited := by decide
  settle := by decide
  probe := by decide
  kind := by decide
  held := by decide
  sets := by decide
  record := by
    intro c h
    match c, h with
    | 0, _ => exact ⟨_, rfl, rfl, rfl⟩
    | 1, h | 2, h | 3, h => cases h
  sizing := by decide
  jobs := nofun
  oneJob := .nil

theorem test_witness_ChannelLawIsKept : ChannelLaw lawful ∧ ∃ t, step lawful = .next t :=
  ⟨lawful_channels, lawful_steps⟩

theorem test_witness_CalLawIsKept : CalLaw lawful ∧ ∃ t, step lawful = .next t := by
  refine ⟨{ lawful_channels with
    calibrated := by decide, uncalibrated := by decide, room := by decide, size := by decide
    full := by decide, once := by decide, apart := ?_ }, lawful_steps⟩
  intro c d _ i h
  match c, h with
  | 0, h | 1, h | 2, h | 3, h => cases h

theorem test_witness_ValueLawIsKept : ValueLaw lawful ∧ ∃ t, step lawful = .next t := by
  refine ⟨⟨?_, nofun, nofun, by decide, nofun, ?_, ?_⟩, lawful_steps⟩
  · intro c h; cases h; unfold Curve.valid; decide
  · intro tb h x hx
    have h' : ∀ tb ∈ lawful.tubes, tb.list = [] := by decide
    rw [h' tb h] at hx; cases hx
  · intro tb h d hd
    have h' : ∀ tb ∈ lawful.tubes, tb.worst = none := by decide
    rw [h' tb h] at hd; cases hd

theorem test_witness_readouts_of_times_that_run : TimeLaw lawful := lawful_times

/-- The sample tube pull after a break on its port. -/
def departing : State := after (.lineBreak 1) pull

theorem departing_flies : Flying departing true := ⟨rfl, rfl, rfl, rfl, rfl, rfl, rfl⟩

theorem departing_channels : ChannelLaw departing where
  binding := by decide
  excited := by decide
  settle := by decide
  probe := by decide
  kind := by decide
  held := by decide
  sets := by decide
  record := by
    intro c h
    match c, h with
    | 0, _ => exact ⟨_, rfl, rfl, rfl⟩
    | 1, h | 2, h | 3, h => cases h
  sizing := by decide
  jobs := nofun
  oneJob := .nil

/-- The sample calibration pull after a break on its port. -/
def calDeparting : State := after (.lineBreak 1) (judged .calFull 10 0 [])

theorem cal_departing_lawful : PullLaw calDeparting ∧ ChannelLaw calDeparting := by
  have slots : ∀ p t, calDeparting.slot p t = none := by decide
  have tubes : ∀ tb ∈ calDeparting.tubes, tb.claim = none := by decide
  have apart : ∀ c p t i, ¬ calDeparting.tubePull c p t i := by
    rintro c p t i ⟨hs, rec, tp, hr, ht, -⟩
    match c, hs, hr with
    | 0, _, hr => cases hr; cases ht
    | 1, hs, _ | 2, hs, _ | 3, hs, _ => cases hs
  refine ⟨⟨⟨?_, ?_, fun h => absurd rfl h⟩, fun c p t i h => absurd h (apart c p t i), nofun,
    fun c _ p t i _ h => absurd h (apart c p t i), .nil, fun c p t i h => absurd h (apart c p t i),
    by decide, by decide, by decide⟩,
    ⟨by decide, by decide, by decide, by decide, by decide, by decide, by decide, ?_, by decide,
      nofun, .nil⟩⟩
  · intro p t cl h; rw [slots] at h; cases h
  · intro i tb cf h hc
    rw [tubes tb (List.mem_of_getElem? h)] at hc; cases hc
  · intro c h
    match c, h with
    | 0, _ => exact ⟨_, rfl, rfl, rfl⟩
    | 1, h | 2, h | 3, h => cases h

theorem test_witness_DetachCourseFreesTheStation :
    (departing.chan.get 0).binding = some 1 ∧ departing.holdsChan 1 0 = false
      ∧ (departing.chan.get 0).state = .pulling
      ∧ PullLaw departing ∧ ChannelLaw departing
      ∧ departing.tubePull 0 1 0 0 ∧ departing.slot 1 0 = some ⟨0, .inPull, true⟩
      ∧ departing.tubes[0]? = some (heldTube true)
      ∧ PullLaw calDeparting ∧ ChannelLaw calDeparting
      ∧ (calDeparting.chan.get 0).binding = some 1 ∧ calDeparting.holdsChan 1 0 = false
      ∧ (calDeparting.chan.get 0).kind = some .calFull
      ∧ ((after (.lineBreak 1) (holding (.leased 600) false)).slot 1 0
        = some ⟨0, .leased 600, true⟩)
      ∧ (∀ c, ((after (.lineBreak 1) active).chan.get c).binding = some 1 →
          ((after (.lineBreak 1) active).chan.get c).state ≠ .pulling
            ∧ ((after (.lineBreak 1) active).chan.get c).state ≠ .sizing)
      ∧ (∀ t i deadline, (after (.lineBreak 1) active).slot 1 t
          ≠ some ⟨i, .leased deadline, true⟩)
      ∧ (∀ c, ((after (.lineBreak 1) (sizing 9 [])).chan.get c).binding = some 1 →
          ((after (.lineBreak 1) (sizing 9 [])).chan.get c).state = .sizing)
      ∧ (active.chan.get 1).binding = none := by
  refine ⟨rfl, rfl, rfl, departing_flies.pullLaw, departing_channels,
    ⟨rfl, _, _, rfl, rfl, rfl, rfl, rfl⟩, rfl, rfl, cal_departing_lawful.1, cal_departing_lawful.2,
    rfl, rfl, rfl, rfl, by decide, ?_, by decide, rfl⟩
  exact fun
    | 0, _, _ | 1, _, _ | 2, _, _ | 3, _, _ => nofun

end Sys2Proof.Tests
end

section
/-!
SUPPORT. What a step can do, said once. `Act` lists the actions of the E4's blocks, each with the
condition under which it is taken; `exec_acts` says that whatever a command does is a course of such
actions. An invariant of every step is proved by showing that each action keeps it (`kept_of_acts`).

The actions that touch only links, channels, units and the order of work are apart from the others, as
`QuietAct`: they write no plan, no map, no claim and no time.
-/

namespace Sys2Proof.Machine

/-- The parts of a port that its line and its replies do not write: its Station Table entry. -/
def PortState.sameStation (x y : PortState) : Prop :=
  y.role = x.role ∧ y.policy = x.policy ∧ y.bound = x.bound ∧ y.notices = x.notices

/-- The actions that write no plan, no map, no claim and no time. -/
inductive QuietAct (s : State) : State → Prop
  /-- The queue of commands moves on. -/
  | queue (l : List Instr) : QuietAct s { s with pending := l }
  /-- A port's line: characters, replies, the rate, a break (R179 to R184). -/
  | line (p : Port) (x : PortState) (h : (s.ports.get p).sameStation x) : QuietAct s (s.setPort p x)
  /-- Every reply sends its next character (R183). -/
  | replies : QuietAct s s.advanceReplies
  /-- STATUS empties the notices (R171). -/
  | clearNotices (p : Port) :
      QuietAct s (s.setPort p { s.ports.get p with notices := Notices.empty })
  /-- ATTACH (R185). -/
  | attach (p : Port) (role : Role) (policy : Option Policy) (role_code policy_code : Byte)
      (fields : attachFields role_code policy_code = some (role, policy))
      (detached : (s.ports.get p).role = .none)
      (alone : ¬ (role = .review ∧ s.otherReview p = true)) :
      QuietAct s (s.setPort p
        { s.ports.get p with
          role := role, policy := policy, bound := FourSet.empty, notices := Notices.empty })
  /-- BIND (R51). -/
  | bind (p : Port) (c : Chan) (crew : (s.ports.get p).role = .crew)
      (free : (s.chan.get c).binding = none) (room : (s.ports.get p).bound.card < 2) :
      QuietAct s (s.bindChan p c)
  /-- UNBIND (R52). -/
  | unbind (p : Port) (c : Chan) (free : s.freeRefusal p c = none) :
      QuietAct s ((s.unbindChan c).dropCal c)
  /-- FREQ_SET (R53). -/
  | freqSet (p : Port) (c : Chan) (slots : Quad (Option Nat)) (valid : slotsValid slots = true)
      (free : s.freeRefusal p c = none) :
      QuietAct s ((s.setChan c { s.chan.get c with slots := slots }.beginSettle).dropCal c)
  /-- The settle completion (R54). -/
  | settled (c : Chan) (settling : (s.chan.get c).state = .settling) :
      QuietAct s (s.setChan c { s.chan.get c with state := .ready, settle := none })
  /-- A coil event on a bound channel (R63). -/
  | coil (c : Chan) (isOpen : Bool) (bound : (s.chan.get c).state ≠ .unbound) :
      QuietAct s (s.setChan c { s.chan.get c with probeOpen := isOpen })
  /-- A count step (R57). -/
  | count (c : Chan) (dir : EncoderDir) (pulling : (s.chan.get c).state = .pulling) :
      QuietAct s (s.setChan c ((s.chan.get c).count dir))
  /-- The detach course passes a channel in SIZING (R186). -/
  | passed (c : Chan) (departed : s.departed c = true) (sizing : (s.chan.get c).state = .sizing) :
      QuietAct s (s.setChan c { s.chan.get c with passed := true })
  /-- A calibration pull starts (R117). -/
  | startCal (p : Port) (c : Chan) (kind : PullKind) (d : Standard)
      (holds : s.holdsChan p c = true) (ready : (s.chan.get c).state = .ready)
      (isCal : kind = .calFull ∨ kind = .calCheck)
      (noGroup : kind = .calFull → (s.cal.get c).group = [])
      (calibrated : kind = .calCheck → (s.cal.get c).state ≠ .uncalibrated) :
      QuietAct s (s.startCal p c kind d)
  /-- The samples of an output (R60, R68). -/
  | processStep (c : Chan) (raw : RawSample) (pulling : (s.chan.get c).state = .pulling)
      (waiting : (s.chan.get c).waiting ≠ []) : QuietAct s (s.processStep c raw)
  /-- A fault enters the latch of a pull in flight (R80). -/
  | latch (c : Chan) (f : PullFault) (pulling : (s.chan.get c).state = .pulling) :
      QuietAct s (s.setPull c { s.pull.get c with latch := latchAdd f (s.pull.get c).latch })
  /-- The open indication closes and the end checks are made (R79, R80). -/
  | endChecks (c : Chan) (by_ : EndBy) (trace : Trace) (mismatch : Bool)
      (pulling : (s.chan.get c).state = .pulling) :
      QuietAct s (s.setPull c
        { (s.pull.get c).closeOpen trace with
          latch := endChecks by_ (s.chan.get c).lowest mismatch
            ((s.pull.get c).closeOpen trace).latch })
  /-- RESULT_TAKE (R168). -/
  | takeResult (c : Chan) (held : (s.chan.get c).state = .held) : QuietAct s (s.takeResult c)
  /-- The calibration interval of a channel expires (R127). -/
  | intervalExpiry (c : Chan) : QuietAct s (s.setCal c (s.cal.get c).due)
  /-- An idle unit takes the next job (R140). -/
  | jobBegin (j : Job) (rest : List Job) (st : Settings) (idle : s.unitIdle = true)
      (queue : s.sizing.queue = j :: rest) (settings : s.plan.settings = some st) :
      QuietAct s (s.setSizing { s.sizing with queue := rest, flight := some (j, st) })
  /-- A pass starts or starts again (R161, R162). -/
  | startPass : QuietAct s s.startPass
  /-- A re-screen step begins (R163). -/
  | stepBegin (st : Settings) (settings : s.plan.settings = some st) :
      QuietAct s (s.setSizing { s.sizing with step := some st })
  /-- The jobs of a departed station's channels are orphaned (R147). -/
  | orphan (p : Port) :
      QuietAct s (s.setSizing
        { s.sizing with
          queue := s.sizing.queue.map (s.markJob p)
          flight := s.sizing.flight.map (fun x => (s.markJob p x.1, x.2)) })

/-- The tube pull in flight on a channel has the pull record `rec`, whose tube part is `tp`. -/
def State.pullsTube (s : State) (c : Chan) (rec : PullRecord) (tp : TubePull) : Prop :=
  (s.chan.get c).state = .pulling ∧ (s.pull.get c).record = some rec ∧ rec.tube = some tp

/-- The plan may be edited: in DRAFT, and in ACTIVE while it is not locked (R2). -/
def State.editable (s : State) : Prop :=
  s.planState = .draft ∨ s.planState = .active ∧ s.lock = false

/-- The actions of a step, but for power-on reset. -/
inductive Act (s : State) : State → Prop
  | quiet {t : State} (h : QuietAct s t) : Act s t
  /-- PLAN_NEW (R3). -/
  | newPlan (gate : s.planState = .empty ∨ s.planState = .draft
        ∨ s.planState = .closed ∧ s.lock = false)
      (noCal : s.anyCalInFlight = false) : Act s s.newPlan
  /-- PLAN_OPEN (R4). -/
  | planOpen (draft : s.planState = .draft) : Act s { s with planState := .active }
  /-- PLAN_CLOSE (R5). -/
  | planClose (active : s.planState = .active) (quiet : s.inProgress = false) :
      Act s { s with planState := .closed }
  /-- PLAN_LOCK (R12). -/
  | planLock (active : s.planState = .active) : Act s { s with lock := true }
  /-- PLAN_SET (R6). -/
  | planSet (draft : s.planState = .draft) (name : List Byte) (tubeLength : Nat) :
      Act s (s.setPlan { s.plan with name := name, tubeLength := tubeLength })
  /-- STANDARD_SET (R7). -/
  | standardSet (draft : s.planState = .draft) (d : Standard) (valid : d.valid = true)
      (noCal : s.anyCalInFlight = false) : Act s (s.setPlan { s.plan with standard := some d })
  /-- CURVE_SET (R8). -/
  | curveSet (edit : s.editable) (l : List CurvePoint) (c : Curve) (valid : curveOf l = some c) :
      Act s (s.setPlan { s.plan with curve := some c }).settingsChanged
  /-- LIMITS_SET (R9). -/
  | limitsSet (edit : s.editable) (x : Limits) :
      Act s (s.setPlan (s.plan.withLimits x.clamped)).takeIntervals.settingsChanged
  /-- TRACES_SET (R11). -/
  | tracesSet (edit : s.editable) (x : Traces) (quiet : s.tracesBusy = false) :
      Act s (s.setTraces x)
  /-- ROW_ADD (R13). -/
  | addRow (draft : s.planState = .draft) (x : RowAddBody) (inRange : x.inRange = true)
      (ascends : s.ascends x.row = true)
      (room : s.tubes.length + x.columns ≤ Config.mapCapacity) : Act s (s.addRow x)
  /-- TUBE_MARK (R17). -/
  | mark (draft : s.planState = .draft) (i : Nat) (tb : Tube) (m : Byte) (st : Status)
      (tube : s.tubes[i]? = some tb) (status : markStatus m tb.status = some (some st)) :
      Act s (s.modTube i (fun tb => { tb with status := st }))
  /-- SCOPE_SET (R18). -/
  | scope (edit : s.editable) (r : Rect) (dir : Nat) :
      Act s { s with tubes := s.tubes.map (Tube.scoped r dir) }
  /-- TUBE_REPULL (R19). -/
  | repull (active : s.planState = .active) (i : Nat) (tb : Tube) (tube : s.tubes[i]? = some tb)
      (done : tb.status.isDone = true) :
      Act s (s.modTube i (fun tb => { tb with status := .repull, attempts := 0 }))
  /-- A grant (R33 to R35). -/
  | grant (active : s.planState = .active) (p : Port) (t : Tag) (i : Nat) (tb : Tube)
      (crew : (s.ports.get p).role = .crew) (empty : s.slot p t = none)
      (tube : s.tubes[i]? = some tb) (isOpen : tb.status.isOpen = true)
      (unclaimed : tb.claim = none) : Act s (s.grant p t i)
  /-- RELEASE and the claim removal of a detach (R42, R46). -/
  | drop (p : Port) (t : Tag) (cl : Claim) (slot : s.slot p t = some cl)
      (leased : cl.hold ≠ .inPull) : Act s (s.dropClaim p t)
  /-- TUBE_RELEASE of a station's claim (R43). -/
  | revoke (i : Nat) (tb : Tube) (cf : TubeClaim) (tube : s.tubes[i]? = some tb)
      (claim : tb.claim = some cf) (leased : cf.inPull = false) :
      Act s (if s.departedClaim cf.port cf.tag then s.dropClaim cf.port cf.tag
        else (s.dropClaim cf.port cf.tag).addRevoked cf.port cf.tag)
  /-- The expiry of a lease (R37). -/
  | expire (p : Port) (t : Tag) (runOut : s.leaseRunOut p t = true) : Act s (s.expire p t)
  /-- The Station Table's action of a detach (R186). -/
  | detach (p : Port) : Act s (s.detachPort p)
  /-- A tube pull starts (R70). -/
  | startTube (p : Port) (t : Tag) (c : Chan) (i deadline : Nat) (d : Bool) (tb : Tube)
      (crew : (s.ports.get p).role = .crew) (holds : s.holdsChan p c = true)
      (ready : (s.chan.get c).state = .ready) (allowed : s.tubeStartRefusal c = none)
      (slot : s.slot p t = some ⟨i, .leased deadline, d⟩) (tube : s.tubes[i]? = some tb) :
      Act s (s.startTube p t c i tb)
  /-- The abort of a pull in flight (R85). -/
  | abort (c : Chan) (pulling : (s.chan.get c).state = .pulling) : Act s (s.abortPull c)
  /-- The error-type end of a tube pull (R83). -/
  | errorEnd (c : Chan) (rec : PullRecord) (tp : TubePull) (pull : s.pullsTube c rec tp) :
      Act s (s.errorEnd c rec tp)
  /-- The non-error end of a tube pull (R84). -/
  | jobEnd (c : Chan) (rec : PullRecord) (tp : TubePull) (pull : s.pullsTube c rec tp) :
      Act s (s.jobEnd c rec tp)
  /-- The end of a calibration pull (R119). -/
  | endCal (c : Chan) (rec : PullRecord) (pulling : (s.chan.get c).state = .pulling)
      (record : (s.pull.get c).record = some rec) (isCal : rec.tube = none) :
      Act s (s.endCal c rec.kind)
  /-- The sizing commit (R146). -/
  | commit (j : Job) (st : Settings) (flight : s.sizing.flight = some (j, st)) :
      Act s (s.commitJob j st)
  /-- The write of a re-screen step (R163). -/
  | stepWrite (st : Settings) (step : s.sizing.step = some st) : Act s (s.writeStep st)
  /-- The forced unbind of a departed station's channel (R65, R186). -/
  | forceUnbind (c : Chan) (departed : s.departed c = true)
      (idle : (s.chan.get c).inFlight = false) : Act s (s.forceUnbind c)
  /-- Warm reset (R28). -/
  | warm : Act s s.warm
  /-- A second passes, with the expiries it brings (R31). -/
  | tick : Act s { s with seconds := s.seconds + 1 }.takeLeases.takeIntervals

/-- A course of actions. -/
abbrev Acts : State → State → Prop := Relation.ReflTransGen Act

variable {s t : State}

theorem Acts.one (h : Act s t) : Acts s t := .single h

theorem Acts.oneQuiet (h : QuietAct s t) : Acts s t := .single (.quiet h)

/-- A course of actions keeps what every action keeps. -/
theorem Acts.keeps {P : State → Prop} (hP : ∀ s t, P s → Act s t → P t) (h : Acts s t) (hs : P s) :
    P t := by
  induction h with
  | refl => exact hs
  | tail _ act ih => exact hP _ _ ih act

end Sys2Proof.Machine
end

section
/-!
SUPPORT. Every command but power-on reset is a course of actions: first the owners of the requests,
then the frame they come in, then the events.
-/

namespace Sys2Proof.Machine

variable {s t : State} {p : Port} {body : List Byte}

/-! ## The owners of the requests -/

/-- A block answers DONE only with a state that a course of actions leaves. -/
def Answer.Lawful (s : State) (a : Answer) : Prop := ∀ t body, a = .done t body → Acts s t

theorem Answer.lawful_refused (why : RefusalCode) : (Answer.refused why).Lawful s :=
  fun _ _ h => by cases h

theorem Answer.lawful_done (h : Acts s t) : (Answer.done t body).Lawful s :=
  fun _ _ e => by cases e; exact h

theorem Answer.lawful_act (h : Act s t) : (Answer.done t body).Lawful s := lawful_done (.one h)

theorem Answer.lawful_quiet (h : QuietAct s t) : (Answer.done t body).Lawful s :=
  lawful_done (.oneQuiet h)

theorem Answer.lawful_ite {P : Prop} [Decidable P] {a b : Answer} (ha : P → a.Lawful s)
    (hb : ¬ P → b.Lawful s) : (if P then a else b).Lawful s := by
  split
  · exact ha ‹_›
  · exact hb ‹_›

open Answer

/-- What a request of R2 makes lawful where its row of the table lets it through. -/
theorem gated_lawful {gate : PlanState → Gate} {own : Answer}
    (h : gate s.planState = .taken ∨ gate s.planState = .unlessLocked ∧ s.lock = false →
      own.Lawful s) : (gated gate s own).Lawful s := by
  obtain ⟨-, e⟩ | ⟨-, -, e⟩ | ⟨hg, e⟩ := gated_cases gate s own
  · exact e ▸ lawful_refused _
  · exact e ▸ lawful_refused _
  · rw [e]; exact h hg

theorem draft_of_gate
    (h : gateDraft s.planState = .taken ∨ gateDraft s.planState = .unlessLocked ∧ s.lock = false) :
    s.planState = .draft := by
  cases hp : s.planState <;> simp [gateDraft, hp] at h ⊢

theorem active_of_gate
    (h : gateActive s.planState = .taken ∨ gateActive s.planState = .unlessLocked ∧ s.lock = false) :
    s.planState = .active := by
  cases hp : s.planState <;> simp [gateActive, hp] at h ⊢

theorem editable_of_gate
    (h : gateEdit s.planState = .taken ∨ gateEdit s.planState = .unlessLocked ∧ s.lock = false) :
    s.editable := by
  unfold State.editable
  cases hp : s.planState <;> simp [gateEdit, hp] at h ⊢
  exact h

theorem new_of_gate
    (h : gateNew s.planState = .taken ∨ gateNew s.planState = .unlessLocked ∧ s.lock = false) :
    s.planState = .empty ∨ s.planState = .draft ∨ s.planState = .closed ∧ s.lock = false := by
  cases hp : s.planState <;> simp [gateNew, hp] at h ⊢
  exact h

theorem ownPlanNew_lawful (x : Unit) : (ownPlanNew x p s).Lawful s :=
  gated_lawful fun hg => lawful_ite (fun _ => lawful_refused _) fun h =>
    lawful_act (.newPlan (new_of_gate hg) (by simpa using h))

theorem ownPlanOpen_lawful (x : Unit) : (ownPlanOpen x p s).Lawful s :=
  gated_lawful fun hg => lawful_ite (fun _ => lawful_act (.planOpen (draft_of_gate hg)))
    fun _ => lawful_refused _

theorem ownPlanClose_lawful (x : Unit) : (ownPlanClose x p s).Lawful s :=
  gated_lawful fun hg => lawful_ite (fun _ => lawful_refused _) fun h =>
    lawful_act (.planClose (active_of_gate hg) (by simpa using h))

theorem ownPlanLock_lawful (x : Unit) : (ownPlanLock x p s).Lawful s :=
  gated_lawful fun hg => lawful_act (.planLock (active_of_gate hg))

theorem ownPlanSet_lawful (x : PlanSetBody) : (ownPlanSet x p s).Lawful s :=
  gated_lawful fun hg => lawful_ite (fun _ => lawful_act (.planSet (draft_of_gate hg) _ _))
    fun _ => lawful_refused _

theorem ownStandardSet_lawful (x : Standard) : (ownStandardSet x p s).Lawful s :=
  gated_lawful fun hg => lawful_ite (fun _ => lawful_refused _) fun h =>
    lawful_ite (fun hv => lawful_act (.standardSet (draft_of_gate hg) x hv (by simpa using h)))
      fun _ => lawful_refused _

theorem ownCurveSet_lawful (l : List CurvePoint) : (ownCurveSet l p s).Lawful s := by
  refine gated_lawful fun hg => ?_
  cases hc : curveOf l with
  | none => exact lawful_refused _
  | some c => exact lawful_act (.curveSet (editable_of_gate hg) l c hc)

theorem ownLimitsSet_lawful (x : Limits) : (ownLimitsSet x p s).Lawful s :=
  gated_lawful fun hg => lawful_act (.limitsSet (editable_of_gate hg) x)

theorem ownTracesSet_lawful (x : TracesBody) : (ownTracesSet x p s).Lawful s := by
  refine gated_lawful fun hg => lawful_ite (fun _ => lawful_refused _) fun hb => ?_
  cases x.traces with
  | none => exact lawful_refused _
  | some y =>
    exact lawful_ite (fun _ => lawful_refused _) fun _ =>
      lawful_act (.tracesSet (editable_of_gate hg) y (by simpa using hb))

theorem ownRowAdd_lawful (x : RowAddBody) : (ownRowAdd x p s).Lawful s :=
  gated_lawful fun hg => lawful_ite (fun _ => lawful_refused _) fun hr =>
    lawful_ite (fun _ => lawful_refused _) fun ha =>
      lawful_ite (fun _ => lawful_refused _) fun hc =>
        lawful_act (.addRow (draft_of_gate hg) x (by simpa using hr) (by simpa using ha)
          (Nat.not_lt.1 hc))

theorem ownTubeMark_lawful (x : PlaceAnd) : (ownTubeMark x p s).Lawful s := by
  refine gated_lawful fun hg => lawful_ite (fun _ => lawful_refused _) fun _ => ?_
  cases ht : s.tubeAt x.place with
  | none => exact lawful_refused _
  | some y =>
    obtain ⟨i, tb⟩ := y
    rcases hm : markStatus x.extra tb.status with _ | _ | st
    · simp only [hm]; exact lawful_refused _
    · simp only [hm]; exact lawful_refused _
    · simp only [hm]
      exact lawful_act (.mark (draft_of_gate hg) i tb _ st (s.tubeAt_get ht) hm)

theorem ownScopeSet_lawful (x : RectAnd) : (ownScopeSet x p s).Lawful s :=
  gated_lawful fun hg => lawful_ite (fun _ => lawful_act (.scope (editable_of_gate hg) _ _))
    fun _ => lawful_refused _

theorem ownTubeRepull_lawful (x : Place) : (ownTubeRepull x p s).Lawful s := by
  refine gated_lawful fun hg => ?_
  cases ht : s.tubeAt x with
  | none => exact lawful_refused _
  | some y =>
    exact lawful_ite (fun h => lawful_act (.repull (active_of_gate hg) y.1 y.2 (s.tubeAt_get ht) h))
      fun _ => lawful_refused _

theorem ownRescreenStart_lawful (x : Unit) : (ownRescreenStart x p s).Lawful s :=
  lawful_ite (fun _ => lawful_refused _) fun _ => lawful_quiet .startPass

theorem ownClaim_lawful (x : TagPlace) : (ownClaim x p s).Lawful s := by
  refine lawful_ite (fun _ => lawful_refused _) fun hp => lawful_ite (fun _ => lawful_refused _)
    fun hr => ?_
  cases fin4 x.tag with
  | none => exact lawful_refused _
  | some t =>
    refine lawful_ite (fun _ => lawful_refused _) fun hs => ?_
    cases ht : s.tubeAt x.place with
    | none => exact lawful_refused _
    | some y =>
      obtain ⟨i, tb⟩ := y
      exact lawful_ite (fun _ => lawful_refused _) fun ho =>
        lawful_ite (fun _ => lawful_refused _) fun hc =>
          lawful_act (.grant (not_not.1 hp) p t i tb (not_not.1 hr) (by simpa using hs)
            (s.tubeAt_get ht) (by simpa using ho) (by simpa using hc))

/-- CLAIM_NEXT chooses an open tube that no claim holds. -/
theorem chooseNext_open {r : Rect} {tubes : List Tube} {i : Nat} {tb : Tube}
    (h : chooseNext r tubes = some i) (ht : tubes[i]? = some tb) :
    tb.status.isOpen = true ∧ tb.claim = none := by
  have found : ∀ st, firstIndex (candidate r st) 0 tubes = some i → tb.status = st ∧ tb.claim = none := by
    intro st hf
    obtain ⟨-, ⟨tb', ht', hc⟩, -⟩ := firstIndex_eq_some.1 hf
    rw [Nat.sub_zero, ht] at ht'
    cases ht'
    simp only [candidate, Bool.and_eq_true, decide_eq_true_eq, Option.isNone_iff_eq_none] at hc
    exact ⟨hc.1.2, hc.2⟩
  unfold chooseNext at h
  split at h
  · next k hk => cases h; obtain ⟨h1, h2⟩ := found _ hk; exact ⟨by rw [h1]; rfl, h2⟩
  · obtain ⟨h1, h2⟩ := found _ h; exact ⟨by rw [h1]; rfl, h2⟩

theorem ownClaimNext_lawful (x : RectAnd) : (ownClaimNext x p s).Lawful s := by
  refine lawful_ite (fun _ => lawful_refused _) fun hp => lawful_ite (fun _ => lawful_refused _)
    fun hr => ?_
  cases fin4 x.extra with
  | none => exact lawful_refused _
  | some t =>
    refine lawful_ite (fun _ => lawful_refused _) fun _ => lawful_ite (fun _ => lawful_refused _)
      fun hs => ?_
    cases hc : chooseNext x.rect s.tubes with
    | none => exact lawful_refused _
    | some i =>
      cases ht : s.tubes[i]? with
      | none => simp only [ht]; exact lawful_refused _
      | some tb =>
        simp only [ht]
        obtain ⟨ho, hf⟩ := chooseNext_open hc ht
        exact lawful_act (.grant (not_not.1 hp) p t i tb (not_not.1 hr) (by simpa using hs) ht ho hf)

theorem ownRelease_lawful (x : Byte) : (ownRelease x p s).Lawful s := by
  refine lawful_ite (fun _ => lawful_refused _) fun _ => ?_
  cases fin4 x with
  | none => exact lawful_refused _
  | some t =>
    cases hs : s.slot p t with
    | none => simp only [hs]; exact lawful_refused _
    | some cl =>
      simp only [hs]
      exact lawful_ite (fun _ => lawful_refused _) fun h => lawful_act (.drop p t cl hs h)

theorem ownTubeRelease_lawful (x : Place) : (ownTubeRelease x p s).Lawful s := by
  refine lawful_ite (fun _ => lawful_refused _) fun _ => ?_
  cases ht : s.tubeAt x with
  | none => exact lawful_refused _
  | some y =>
    obtain ⟨i, tb⟩ := y
    cases hc : tb.claim with
    | none => simp only [hc]; exact lawful_refused _
    | some cf =>
      simp only [hc]
      exact lawful_ite (fun _ => lawful_refused _) fun h =>
        lawful_act (.revoke i tb cf (s.tubeAt_get ht) hc (by simpa using h))

theorem ownBind_lawful (x : Byte) : (ownBind x p s).Lawful s := by
  refine lawful_ite (fun _ => lawful_refused _) fun hr => ?_
  cases fin4 x with
  | none => exact lawful_refused _
  | some c =>
    exact lawful_ite (fun _ => lawful_refused _) fun hb => lawful_ite (fun _ => lawful_refused _)
      fun hn => lawful_quiet (.bind p c (not_not.1 hr) (by simpa using hb) (Nat.not_le.1 hn))

theorem ownUnbind_lawful (x : Byte) : (ownUnbind x p s).Lawful s := by
  refine lawful_ite (fun _ => lawful_refused _) fun _ => ?_
  cases fin4 x with
  | none => exact lawful_refused _
  | some c =>
    cases hf : s.freeRefusal p c with
    | some r => simp only [hf]; exact lawful_refused _
    | none => simp only [hf]; exact lawful_quiet (.unbind p c hf)

theorem ownFreqSet_lawful (x : FreqBody) : (ownFreqSet x p s).Lawful s := by
  refine lawful_ite (fun _ => lawful_refused _) fun _ => ?_
  cases fin4 x.chan with
  | none => exact lawful_refused _
  | some c =>
    refine lawful_ite (fun _ => lawful_refused _) fun hv => ?_
    cases hf : s.freeRefusal p c with
    | some r => dsimp only; exact lawful_refused _
    | none => dsimp only; exact lawful_quiet (.freqSet p c _ (by simpa using hv) hf)

theorem calKindOf_isCal {b : Byte} {kind : PullKind} (h : calKindOf b = some kind) :
    kind = .calFull ∨ kind = .calCheck := by
  unfold calKindOf at h
  split at h <;> simp_all

theorem ready_of_startRefusal {st : PullState} (h : startRefusal st = none) : st = .ready := by
  cases st with
  | ready => rfl
  | settling | pulling | sizing | held | unbound => cases h

theorem ownCalStart_lawful (x : Byte × Byte) : (ownCalStart x p s).Lawful s := by
  refine lawful_ite (fun _ => lawful_refused _) fun _ => ?_
  cases fin4 x.1 with
  | none => exact lawful_refused _
  | some c =>
    cases hk : calKindOf x.2 with
    | none => exact lawful_refused _
    | some kind =>
      refine lawful_ite (fun _ => lawful_refused _) fun hh => ?_
      cases hs : startRefusal (s.chan.get c).state with
      | some r => dsimp only; exact lawful_refused _
      | none =>
        simp only
        refine lawful_ite (fun _ => lawful_refused _) fun _ => ?_
        cases s.plan.standard with
        | none => exact lawful_refused _
        | some d =>
          exact lawful_ite (fun _ => lawful_refused _) fun hg =>
            lawful_ite (fun _ => lawful_refused _) fun hc =>
              lawful_quiet (.startCal p c kind d (by simpa using hh) (ready_of_startRefusal hs)
                (calKindOf_isCal hk) (fun e => by_contra fun h => hg ⟨e, h⟩)
                (fun e h => hc ⟨e, h⟩))

theorem ownPullStart_lawful (x : Byte × Byte) : (ownPullStart x p s).Lawful s := by
  refine lawful_ite (fun _ => lawful_refused _) fun hr => ?_
  cases fin4 x.1 with
  | none => exact lawful_refused _
  | some t =>
    cases fin4 x.2 with
    | none => exact lawful_refused _
    | some c =>
      refine lawful_ite (fun _ => lawful_refused _) fun hh => ?_
      cases hs : startRefusal (s.chan.get c).state with
      | some r => dsimp only; exact lawful_refused _
      | none =>
        cases ha : s.tubeStartRefusal c with
        | some r => dsimp only; exact lawful_refused _
        | none =>
          simp only
          split
          · next i deadline d hslot =>
            split
            · next tb ht =>
              exact lawful_act (.startTube p t c i _ _ tb (not_not.1 hr) (by simpa using hh)
                (ready_of_startRefusal hs) ha hslot ht)
            · exact lawful_refused _
          · exact lawful_refused _

theorem pulling_of_endRefusal {st : PullState} (h : endRefusal st = none) : st = .pulling := by
  cases st with
  | pulling => rfl
  | settling | ready | sizing | held | unbound => cases h

/-- The latch decides between the two ends of a tube pull (R80, R83, R84). -/
theorem settleTube_acts {c : Chan} {rec : PullRecord} {tp : TubePull} (h : s.pullsTube c rec tp) :
    Acts s (s.settleTube c rec tp) := by
  unfold State.settleTube
  split
  · split
    · exact .one (.errorEnd c rec tp h)
    · exact .one (.jobEnd c rec tp h)
  · exact .one (.jobEnd c rec tp h)

/-- A pull in flight that ends on its latch ends as a tube pull or as a calibration pull. -/
theorem endOnFault_acts {c : Chan} (h : (s.chan.get c).state = .pulling) :
    Acts s (s.endOnFault c) := by
  unfold State.endOnFault
  split
  · exact .refl
  · next rec hr =>
    split
    · next tp ht => exact settleTube_acts ⟨h, hr, ht⟩
    · next ht => exact .one (.endCal c rec h hr ht)

theorem endBy_acts {c : Chan} (by_ : EndBy) (h : (s.chan.get c).state = .pulling) :
    Acts s (s.endBy c by_) := by
  unfold State.endBy
  split
  · exact .refl
  · next rec hr =>
    split
    · next tp ht =>
      refine .head (.quiet (.endChecks c by_ tp.detection
        (s.supportMismatch tp ((s.pull.get c).closeOpen tp.detection).supports) h)) ?_
      refine settleTube_acts ⟨h, ?_, ht⟩
      simp only [State.setPull_pull, Quad.get_set_same]
      unfold PullCtl.closeOpen
      split <;> exact hr
    · next ht => exact .one (.endCal c rec h hr ht)

theorem endWith_acts {c : Chan} (f : PullFault) (h : (s.chan.get c).state = .pulling) :
    Acts s (s.endWith c f) :=
  .head (.quiet (.latch c f h)) (endOnFault_acts h)

theorem ownPullEnd_lawful (x : Byte × Byte) : (ownPullEnd x p s).Lawful s := by
  refine lawful_ite (fun _ => lawful_refused _) fun _ => ?_
  cases fin4 x.1 with
  | none => exact lawful_refused _
  | some c =>
    cases restrictedOf x.2 with
    | none => exact lawful_refused _
    | some restricted =>
      refine lawful_ite (fun _ => lawful_refused _) fun _ => ?_
      cases hs : endRefusal (s.chan.get c).state with
      | some r => dsimp only; exact lawful_refused _
      | none => dsimp only; exact lawful_done (endBy_acts _ (pulling_of_endRefusal hs))

theorem ownPullAbort_lawful (x : Byte) : (ownPullAbort x p s).Lawful s := by
  refine lawful_ite (fun _ => lawful_refused _) fun _ => ?_
  cases fin4 x with
  | none => exact lawful_refused _
  | some c =>
    refine lawful_ite (fun _ => lawful_refused _) fun _ => ?_
    cases hs : endRefusal (s.chan.get c).state with
    | some r => dsimp only; exact lawful_refused _
    | none => dsimp only; exact lawful_act (.abort c (pulling_of_endRefusal hs))

theorem held_of_takeRefusal {st : PullState} (h : takeRefusal st = none) : st = .held := by
  cases st with
  | held => rfl
  | settling | ready | pulling | sizing | unbound => cases h

theorem ownResultTake_lawful (x : Byte) : (ownResultTake x p s).Lawful s := by
  refine lawful_ite (fun _ => lawful_refused _) fun _ => ?_
  cases fin4 x with
  | none => exact lawful_refused _
  | some c =>
    refine lawful_ite (fun _ => lawful_refused _) fun _ => ?_
    cases hs : takeRefusal (s.chan.get c).state with
    | some r => dsimp only; exact lawful_refused _
    | none => dsimp only; exact lawful_quiet (.takeResult c (held_of_takeRefusal hs))

theorem ownStatus_lawful (x : Unit) : (ownStatus x p s).Lawful s := lawful_quiet (.clearNotices p)

theorem ownTubeRead_lawful (x : Place) : (ownTubeRead x p s).Lawful s := by
  unfold ownTubeRead
  split
  · exact lawful_refused _
  · exact lawful_done .refl

theorem ownIndRead_lawful (x : PlaceAnd) : (ownIndRead x p s).Lawful s := by
  refine lawful_ite (fun _ => lawful_refused _) fun _ => ?_
  split
  · exact lawful_refused _
  · split
    · exact lawful_refused _
    · exact lawful_done .refl

theorem ownListRead_lawful (x : ListBody) : (ownListRead x p s).Lawful s :=
  lawful_ite (fun _ => lawful_refused _) fun _ => lawful_done .refl

theorem ownSummaryRead_lawful (x : Unit) : (ownSummaryRead x p s).Lawful s := lawful_done .refl

theorem ownChannelRead_lawful (x : Byte) : (ownChannelRead x p s).Lawful s := by
  unfold ownChannelRead
  split
  · exact lawful_refused _
  · exact lawful_done .refl

theorem ownAttach_lawful (x : Byte × Byte) : (ownAttach x p s).Lawful s := by
  unfold ownAttach
  cases hf : attachFields x.1 x.2 with
  | none => exact lawful_refused _
  | some y =>
    exact lawful_ite (fun _ => lawful_refused _) fun hr => lawful_ite (fun _ => lawful_refused _)
      fun ha => lawful_quiet (.attach p y.1 y.2 x.1 x.2 hf (not_not.1 hr) ha)

theorem ownDetach_lawful (x : Unit) : (ownDetach x p s).Lawful s := lawful_act (.detach p)

theorem ownLinkRate_lawful (x : Byte) : (ownLinkRate x p s).Lawful s :=
  lawful_ite (fun _ => lawful_refused _) fun _ => lawful_quiet (.line p _ ⟨rfl, rfl, rfl, rfl⟩)

/-! ## Frames -/

/-- A port that answers writes its line and leaves what the answer leaves. -/
theorem answer_acts {a : Answer} (h : a.Lawful s) (p : Port) : Acts s (s.answer p a) := by
  have hafter : Acts s (a.after s) := by
    cases a with
    | refused why => exact .refl
    | done t body => exact h t body rfl
  exact hafter.tail (.quiet (.line p _ ⟨rfl, rfl, rfl, rfl⟩))

theorem deliver_acts {ask : State → Answer} (h : (ask s).Lawful s) (p : Port) (f : Frame) :
    Acts s (s.deliver p f ask) := by
  obtain ⟨-, e⟩ | ⟨-, -, e⟩ | ⟨-, e⟩ := s.deliver_cases p f ask
  · rw [e]; exact answer_acts h p
  · rw [e]; exact .oneQuiet (.line p _ ⟨rfl, rfl, rfl, rfl⟩)
  · rw [e]

/-- What a command does, where it goes on, is a course of actions. -/
def Lawful (s : State) (o : Host.Outcome State Fault Refusal) : Prop :=
  ∀ t, o = .next t → Acts s t

theorem lawful_next (h : Acts s t) : Lawful s (.next t) := fun _ e => by cases e; exact h

theorem request_lawful {α : Type} {code : Byte} {rights : Rights} {fields : Option α}
    {owner : α → Port → State → Answer} (h : ∀ x, (owner x p s).Lawful s) :
    Lawful s (request p code body rights fields owner s) := by
  refine lawful_next (deliver_acts ?_ p _)
  obtain ⟨-, e⟩ | ⟨-, -, e⟩ | ⟨-, x, -, e⟩ := checked_cases p rights fields owner s
  · exact e ▸ lawful_refused _
  · exact e ▸ lawful_refused _
  · exact e ▸ h x

/-- A command that comes as a frame is a course of actions. -/
theorem exec_frame_lawful {i : Instr} (hi : (frameOfCommand i).isSome = true) :
    Lawful s (exec i s) := by
  cases i with
  | planNew p body => exact request_lawful ownPlanNew_lawful
  | planSet p body => exact request_lawful ownPlanSet_lawful
  | standardSet p body => exact request_lawful ownStandardSet_lawful
  | rowAdd p body => exact request_lawful ownRowAdd_lawful
  | tubeMark p body => exact request_lawful ownTubeMark_lawful
  | curveSet p body => exact request_lawful ownCurveSet_lawful
  | limitsSet p body => exact request_lawful ownLimitsSet_lawful
  | tracesSet p body => exact request_lawful ownTracesSet_lawful
  | scopeSet p body => exact request_lawful ownScopeSet_lawful
  | planOpen p body => exact request_lawful ownPlanOpen_lawful
  | planLock p body => exact request_lawful ownPlanLock_lawful
  | planClose p body => exact request_lawful ownPlanClose_lawful
  | tubeRepull p body => exact request_lawful ownTubeRepull_lawful
  | rescreenStart p body => exact request_lawful ownRescreenStart_lawful
  | claim p body => exact request_lawful ownClaim_lawful
  | claimNext p body => exact request_lawful ownClaimNext_lawful
  | release p body => exact request_lawful ownRelease_lawful
  | tubeRelease p body => exact request_lawful ownTubeRelease_lawful
  | bind p body => exact request_lawful ownBind_lawful
  | unbind p body => exact request_lawful ownUnbind_lawful
  | freqSet p body => exact request_lawful ownFreqSet_lawful
  | calStart p body => exact request_lawful ownCalStart_lawful
  | pullStart p body => exact request_lawful ownPullStart_lawful
  | pullEnd p body => exact request_lawful ownPullEnd_lawful
  | pullAbort p body => exact request_lawful ownPullAbort_lawful
  | resultTake p body => exact request_lawful ownResultTake_lawful
  | status p body => exact request_lawful ownStatus_lawful
  | tubeRead p body => exact request_lawful ownTubeRead_lawful
  | indRead p body => exact request_lawful ownIndRead_lawful
  | listRead p body => exact request_lawful ownListRead_lawful
  | summaryRead p body => exact request_lawful ownSummaryRead_lawful
  | channelRead p body => exact request_lawful ownChannelRead_lawful
  | attach p body => exact request_lawful ownAttach_lawful
  | detach p body => exact request_lawful ownDetach_lawful
  | linkRate p body => exact request_lawful ownLinkRate_lawful
  | garbledFrame p code body => exact lawful_next (deliver_acts (lawful_refused _) p _)
  | unknownCode p code body =>
    simp only [exec, execUnknownCode]
    split
    · exact fun _ h => by cases h
    · exact lawful_next (deliver_acts (lawful_refused _) p _)
  | _ => cases hi

theorem frameOfCommand_requestOfCode {p : Port} {code : Byte} {body : List Byte} {i : Instr}
    (h : requestOfCode p code body = some i) : (frameOfCommand i).isSome = true := by
  unfold requestOfCode at h
  split at h <;> cases h <;> rfl

/-- What a complete frame asks for is a command that comes as a frame. -/
theorem frameOfCommand_commandOfFrame (p : Port) (f : Frame) :
    (frameOfCommand (commandOfFrame p f)).isSome = true := by
  unfold commandOfFrame
  split
  · rfl
  · cases h : requestOfCode p f.code f.body with
    | none => rfl
    | some i => exact frameOfCommand_requestOfCode h

theorem handOn_lawful (p : Port) : Lawful s (s.handOn p) := by
  by_cases h : ∃ f, (s.ports.get p).assembly = .waiting f ∧ (s.ports.get p).reply = none
  · obtain ⟨f, ha, hr⟩ := h
    rw [State.handOn_waiting ha hr]
    intro t ht
    have hline : QuietAct s (s.setPort p { s.ports.get p with assembly := .hunt }) :=
      .line p _ ⟨rfl, rfl, rfl, rfl⟩
    exact .head (.quiet hline) (exec_frame_lawful (frameOfCommand_commandOfFrame p f) t ht)
  · rw [State.handOn_idle]
    · exact lawful_next .refl
    · by_cases hr : (s.ports.get p).reply = none
      · exact .inl fun f ha => h ⟨f, ha, hr⟩
      · exact .inr (by simpa [Option.isSome_iff_ne_none] using hr)

/-- A port's line is written, and then it hands on the frame that stands complete. -/
theorem line_handOn_lawful {p : Port} {x : PortState} (h : (s.ports.get p).sameStation x) :
    Lawful s ((s.setPort p x).handOn p) :=
  fun t ht => .head (.quiet (.line p x h)) (handOn_lawful p t ht)

/-! ## Events -/

/-- A course over a list of channels is one of actions where each channel's action is one, in the state
that the channels before it leave. -/
theorem overChans_acts {op : State → Chan → State} {ok : State → Chan → Prop}
    (hact : ∀ s c, ok s c → Acts s (op s c))
    (hother : ∀ s c d, c ≠ d → ok s d → ok (op s c) d) (l : List Chan) :
    ∀ s, l.Nodup → (∀ c ∈ l, ok s c) → Acts s (overChans op l s) := by
  induction l with
  | nil => exact fun _ _ _ => .refl
  | cons c rest ih =>
    intro s hn hok
    obtain ⟨hc, hrest⟩ := List.nodup_cons.1 hn
    refine (hact s c (hok c (by simp))).trans (ih _ hrest fun d hd => ?_)
    exact hother s c d (fun e => hc (e ▸ hd)) (hok d (by simp [hd]))

/-- The claim writes touch no channel. -/
theorem keepClaim_chan (p : Port) (u : Tag) : (s.keepClaim p u).chan = s.chan := by
  unfold State.keepClaim; split <;> rfl

/-- An abort writes the channel it aborts and no other. -/
theorem abortPull_chan (c : Chan) :
    (s.abortPull c).chan
      = s.chan.set c { s.chan.get c with state := .ready, kind := none, waiting := [] } := by
  unfold State.abortPull
  dsimp only
  split
  · rfl
  · split
    · rw [keepClaim_chan]; rfl
    · rfl

theorem departedAborts_acts (p : Port) :
    Acts s (overChans State.abortPull (s.departedIn p (fun st => st = .pulling)) s) := by
  refine overChans_acts (ok := fun s c => (s.chan.get c).state = .pulling)
    (fun s c h => .one (.abort c h)) (fun s c d hcd h => ?_) _ s ?_ ?_
  · rw [abortPull_chan, Quad.get_set_ne _ _ hcd.symm]; exact h
  · exact List.Nodup.filter _ (by decide)
  · intro c hc
    simp only [State.departedIn, List.mem_filter, Bool.and_eq_true, decide_eq_true_eq] at hc
    exact hc.2.2

theorem removeDeparted_acts (p : Port) (l : List Tag) : ∀ s, Acts s (removeDeparted p l s) := by
  induction l with
  | nil => exact fun _ => .refl
  | cons u rest ih =>
    intro s
    unfold removeDeparted
    split
    · next h =>
      unfold State.claimToRemove at h
      split at h
      · next hs => exact .head (.drop p u _ hs (by simp)) (ih _)
      · cases h
    · exact ih s

theorem portReset_acts (p : Port) : Acts s (s.portReset p) := by
  have hline : QuietAct s (s.setPort p (s.ports.get p).lineReset) :=
    .line p _ ⟨rfl, rfl, rfl, rfl⟩
  unfold State.portReset
  dsimp only
  split
  · exact .oneQuiet hline
  · exact .head (.quiet hline) (Acts.one (.detach p))

theorem takeOutput_acts {c : Chan} (values : Eight Raw) (hp : (s.chan.get c).state = .pulling)
    (hw : (s.chan.get c).waiting ≠ []) : Acts s (s.takeOutput c values) := by
  have hstep := QuietAct.processStep c (sampleOf (s.chan.get c).slots values) hp hw
  have hp' : ((s.processStep c (sampleOf (s.chan.get c).slots values)).chan.get c).state
      = .pulling := by
    unfold State.processStep
    dsimp only
    split <;> simpa using hp
  unfold State.takeOutput
  dsimp only
  split
  · exact .head (.quiet hstep) (endOnFault_acts hp')
  · split
    · exact .head (.quiet hstep) (endBy_acts _ hp')
    · exact .oneQuiet hstep

/-- A departed station's channel that steps 1 and 2 have passed is not PULLING. -/
theorem not_pulling_of_abortsDone {c : Chan} (hb : (s.chan.get c).binding = some p)
    (hd : s.departed c = true) (ha : s.abortsDone p = true) : (s.chan.get c).state ≠ .pulling := by
  intro hp
  have hmem : c ∈ s.departedIn p (fun st => st = .pulling) := by
    simp [State.departedIn, State.departedFrom, mem_four, hb, hd, hp]
  rw [State.abortsDone, List.isEmpty_iff] at ha
  rw [ha] at hmem
  cases hmem

theorem forcedUnbind_lawful (c : Chan) : Lawful s (execForcedUnbind c s) := by
  refine lawful_next ?_
  split
  · exact .refl
  · next p hb =>
    split
    · next h =>
      simp only [Bool.and_eq_true] at h
      obtain ⟨⟨hd, ha⟩, -⟩ := h
      split
      · next hs => exact .oneQuiet (.passed c hd hs)
      · next hs =>
        refine .one (.forceUnbind c hd ?_)
        simp [Channel.inFlight, hs, not_pulling_of_abortsDone hb hd ha]
    · exact .refl

/-- Every command but power-on reset is a course of actions. -/
theorem exec_acts {i : Instr} (hi : i ≠ .powerOnReset) (h : exec i s = .next t) : Acts s t := by
  suffices hl : Lawful s (exec i s) from hl t h
  clear h
  by_cases hf : (frameOfCommand i).isSome = true
  · exact exec_frame_lawful hf
  cases i with
  | powerOnReset => exact absurd rfl hi
  | replySent p =>
    simp only [exec, execReplySent]
    split
    · exact line_handOn_lawful ⟨rfl, rfl, rfl, rfl⟩
    · exact lawful_next .refl
  | receivedCharacter p ch => exact line_handOn_lawful ⟨rfl, rfl, rfl, rfl⟩
  | lineReturnedToMark p => exact lawful_next (.oneQuiet (.line p _ ⟨rfl, rfl, rfl, rfl⟩))
  | lineBreak p =>
    refine lawful_next ?_
    split
    · exact .refl
    · exact portReset_acts p
  | warmReset => exact lawful_next (.one .warm)
  | timeBaseTick => exact lawful_next (.one .tick)
  | leaseExpiry p u =>
    refine lawful_next ?_
    split
    · exact .one (.expire p u ‹_›)
    · exact .refl
  | timeout c =>
    refine lawful_next ?_
    split
    · next h => exact endWith_acts _ h.1
    · exact .refl
  | calibrationIntervalExpiry c =>
    refine lawful_next ?_
    split
    · exact .oneQuiet (.intervalExpiry c)
    · exact .refl
  | settleCompletion c =>
    refine lawful_next ?_
    split
    · next h => exact .oneQuiet (.settled c h.1)
    · exact .refl
  | encoderStep c dir =>
    refine lawful_next ?_
    split
    · exact .oneQuiet (.count c dir ‹_›)
    · exact .refl
  | encoderReverse c =>
    refine lawful_next ?_
    split
    · next h => exact endWith_acts _ h.1
    · exact .refl
  | demodulatorOutput c values =>
    refine lawful_next ?_
    split
    · next h => exact takeOutput_acts values h.1 h.2
    · exact .refl
  | coilOpen c =>
    refine lawful_next ?_
    split
    · exact .refl
    · next h =>
      refine .head (.quiet (.coil c true (by simp [h]))) (endWith_acts _ ?_)
      simpa using h
    · next h _ => exact .oneQuiet (.coil c true h)
  | coilRestored c =>
    refine lawful_next ?_
    split
    · exact .refl
    · exact .oneQuiet (.coil c false ‹_›)
  | sizingJobBegin =>
    refine lawful_next ?_
    split
    · next j rest st hu hq hs => exact .oneQuiet (.jobBegin j rest st hu hq hs)
    · exact .refl
  | sizingCommit =>
    refine lawful_next ?_
    split
    · next j st h => exact .one (.commit j st h)
    · exact .refl
  | rescreenStepBegin =>
    refine lawful_next ?_
    split
    · split
      · exact .oneQuiet (.stepBegin _ ‹_›)
      · exact .refl
    · exact .refl
  | rescreenStepWrite =>
    refine lawful_next ?_
    split
    · exact .one (.stepWrite _ ‹_›)
    · exact .refl
  | detachPullAbort p => exact lawful_next (departedAborts_acts p)
  | detachClaimRemoval p =>
    refine lawful_next ?_
    split
    · exact removeDeparted_acts p four s
    · exact .refl
  | forcedUnbind c => exact forcedUnbind_lawful c
  | orphanMark p =>
    refine lawful_next ?_
    split
    · exact .oneQuiet (.orphan p)
    · exact .refl
  | _ => exact absurd rfl hf

/-! ## Steps -/

/-- A law that every action keeps and that holds after power-on reset, whatever waits, is kept by every
step. -/
theorem kept_of_acts {law : State → Prop} (hact : ∀ s t, law s → Act s t → law t)
    (hreset : ∀ l, law { State.reset with pending := l }) : Kept law := by
  intro s t hs h
  unfold step at h
  split at h
  · next i rest _ =>
    have hs' : law { s with pending := rest } := hact _ _ hs (.quiet (.queue rest))
    by_cases hi : i = .powerOnReset
    · subst hi; cases h; exact hreset _
    · exact (exec_acts hi h).keeps hact hs'
  · cases h; exact hact _ _ hs (.quiet .replies)

end Sys2Proof.Machine
end

section
/-!
SUPPORT. What each action leaves as it was, said once for all laws: an action on links, channels and
units leaves the plan, the map, the claims and the order of work (`Quiet`); every action but four
rewrites the tube records within narrow bounds (`MapKept`).
-/

namespace Sys2Proof.Machine

variable {s t r : State}

/-! ## The jobs and pulls that hold a slot -/

/-- The slot and the tube that a job holds (R39). -/
def Job.key (j : Job) : (Port × Tag) × Nat := ((j.port, j.tag), j.index)

/-- The tube pulls of `t` are tube pulls of `s`. -/
def PullsLess (s t : State) : Prop := ∀ c p u i, t.tubePull c p u i → s.tubePull c p u i

/-- A state whose channels and pull records are the same has the same tube pulls. -/
theorem PullsLess.of_eq (hc : t.chan = s.chan) (hp : t.pull = s.pull) : PullsLess s t := by
  intro c p u i h
  rwa [State.tubePull, hc, hp] at h

/-- A write of one channel and its controller gives no tube pull where the channel does not begin to
pull and the controller keeps its pull record. -/
theorem PullsLess.of_write {c : Chan} {x : Channel} {k : PullCtl} (hc : t.chan = s.chan.set c x)
    (hp : t.pull = s.pull.set c k)
    (hx : x.state = .pulling → (s.chan.get c).state = .pulling)
    (hk : x.state = .pulling → k.record = (s.pull.get c).record) : PullsLess s t := by
  rintro d p u i ⟨hs, rec, tp, hr, h⟩
  rw [hc, Quad.get_set] at hs
  rw [hp, Quad.get_set] at hr
  split at hs
  · next hd =>
    subst hd
    rw [if_pos rfl, hk hs] at hr
    exact ⟨hx hs, rec, tp, hr, h⟩
  · next hd =>
    rw [if_neg hd] at hr
    exact ⟨hs, rec, tp, hr, h⟩

theorem PullsLess.of_chan {c : Chan} {x : Channel} (hc : t.chan = s.chan.set c x)
    (hp : t.pull = s.pull) (hx : x.state = .pulling → (s.chan.get c).state = .pulling) :
    PullsLess s t :=
  .of_write hc (k := s.pull.get c) (by rw [hp, Quad.set_get]) hx fun _ => rfl

theorem PullsLess.of_pull {c : Chan} {k : PullCtl} (hc : t.chan = s.chan)
    (hp : t.pull = s.pull.set c k) (hk : k.record = (s.pull.get c).record) : PullsLess s t :=
  .of_write (x := s.chan.get c) (by rw [hc, Quad.set_get]) hp id fun _ => hk

/-! ## Actions on links, channels and units -/

/-- The plan, the map, the claims and the time are the same, the jobs hold the same slots, no tube pull
is new, every group is the same, and no channel is newly CALIBRATED. -/
structure Quiet (s t : State) : Prop where
  planState : t.planState = s.planState
  plan : t.plan = s.plan
  lock : t.lock = s.lock
  rows : t.rows = s.rows
  tubes : t.tubes = s.tubes
  claims : t.claims = s.claims
  seconds : t.seconds = s.seconds
  free : t.free = s.free
  jobs : (t.jobs.map Job.key).Perm (s.jobs.map Job.key)
  pulls : PullsLess s t
  group : ∀ c, (t.cal.get c).group = (s.cal.get c).group
  times : ∀ c, (t.cal.get c).state = .calibrated →
    (s.cal.get c).state = .calibrated ∧ (t.cal.get c).lastGood = (s.cal.get c).lastGood

/-- A Calibration Unit's group is the same, and it is not newly CALIBRATED. -/
def CalUnit.Calm (u v : CalUnit) : Prop :=
  v.group = u.group ∧ (v.state = .calibrated → u.state = .calibrated ∧ v.lastGood = u.lastGood)

theorem CalUnit.calm_drop (u : CalUnit) : u.Calm u.drop := ⟨rfl, fun h => by cases h⟩

theorem CalUnit.calm_due (u : CalUnit) : u.Calm u.due := by
  unfold CalUnit.due
  split
  · exact ⟨rfl, fun h => by cases h⟩
  · exact ⟨rfl, fun h => ⟨h, rfl⟩⟩

/-- The units of all channels are calm where the one that is written is. -/
theorem calm_set {cal : Quad CalUnit} {c : Chan} {u : CalUnit} (h : (cal.get c).Calm u) :
    ∀ d, (cal.get d).Calm ((cal.set c u).get d) := by
  intro d
  rw [Quad.get_set]
  split
  · next e => subst e; exact h
  · exact ⟨rfl, fun h => ⟨h, rfl⟩⟩

/-- A state that differs in its links, channels, controllers and units alone. -/
theorem Quiet.of_parts {ports : Quad PortState} {chan : Quad Channel} {pull : Quad PullCtl}
    {cal : Quad CalUnit} {sizing : SizingUnit} {rescreen : Rescreen} {pending : List Instr}
    (e : t = { s with ports := ports, chan := chan, pull := pull, cal := cal, sizing := sizing
                      rescreen := rescreen, pending := pending })
    (hj : (t.jobs.map Job.key).Perm (s.jobs.map Job.key)) (hp : PullsLess s t)
    (hcal : ∀ c, (s.cal.get c).Calm (cal.get c)) : Quiet s t := by
  subst e
  exact ⟨rfl, rfl, rfl, rfl, rfl, rfl, rfl, rfl, hj, hp, fun c => (hcal c).1, fun c => (hcal c).2⟩

theorem calm_refl (s : State) : ∀ c, (s.cal.get c).Calm (s.cal.get c) :=
  fun _ => ⟨rfl, fun h => ⟨h, rfl⟩⟩

/-- A state that differs in its links, its queue and its sequencer alone. -/
theorem Quiet.of_links {ports : Quad PortState} {rescreen : Rescreen} {pending : List Instr}
    (e : t = { s with ports := ports, rescreen := rescreen, pending := pending }) : Quiet s t := by
  subst e
  exact .of_parts rfl (.refl _) (.of_eq rfl rfl) (calm_refl s)

/-- A state that differs in its links and one channel alone, which does not begin to pull. -/
theorem Quiet.of_chan {ports : Quad PortState} {c : Chan} {x : Channel} {cal : Quad CalUnit}
    (e : t = { s with ports := ports, chan := s.chan.set c x, cal := cal })
    (hx : x.state = .pulling → (s.chan.get c).state = .pulling)
    (hcal : ∀ c, (s.cal.get c).Calm (cal.get c)) : Quiet s t := by
  subst e
  exact .of_parts rfl (.refl _) (.of_chan rfl rfl hx) hcal

/-- A state that differs in a controller alone, which keeps its pull record. -/
theorem Quiet.of_pull {c : Chan} {k : PullCtl} (e : t = s.setPull c k)
    (hk : k.record = (s.pull.get c).record) : Quiet s t := by
  subst e
  exact .of_parts rfl (.refl _) (.of_pull rfl rfl hk) (calm_refl s)

/-- A state that differs in the Sizing Unit and the sequencer alone, with jobs on the same slots. -/
theorem Quiet.of_sizing {sizing : SizingUnit} {rescreen : Rescreen}
    (e : t = { s with sizing := sizing, rescreen := rescreen })
    (hj : (t.jobs.map Job.key).Perm (s.jobs.map Job.key)) : Quiet s t := by
  subst e
  exact .of_parts rfl hj (.of_eq rfl rfl) (calm_refl s)

theorem unbindChan_parts (s : State) (c : Chan) :
    ∃ ports, s.unbindChan c
      = { s with ports := ports, chan := s.chan.set c (s.chan.get c).unbound } := by
  cases h : (s.chan.get c).binding with
  | none => exact ⟨_, State.unbindChan_of_free h⟩
  | some p => exact ⟨_, State.unbindChan_of_bound h⟩

theorem closeOpen_record (k : PullCtl) (trace : Trace) : (k.closeOpen trace).record = k.record := by
  unfold PullCtl.closeOpen; split <;> rfl

theorem tubeSample_record (u : CalUnit) (tp : TubePull) (raw : RawSample) (k : PullCtl) (pos : Nat) :
    (k.tubeSample u tp raw pos).record = k.record := by
  unfold PullCtl.tubeSample PullCtl.countSupport PullCtl.detect PullCtl.saturate PullCtl.close
  dsimp only
  repeat' split
  all_goals rfl

theorem tubeStep_record (u : CalUnit) (tp : TubePull) (raw : RawSample) (l : List Nat) :
    ∀ k, (tubeStep u tp raw l k).record = k.record := by
  induction l with
  | nil => exact fun _ => rfl
  | cons pos rest ih =>
    intro k
    unfold tubeStep
    split
    · rw [ih, tubeSample_record]
    · rfl

/-- A step of samples writes the channel, which goes on pulling, its controller, which keeps its pull
record, and the capture. -/
theorem processStep_parts (s : State) (c : Chan) (raw : RawSample) :
    ∃ ch k cal, s.processStep c raw
        = { s with chan := s.chan.set c ch, pull := s.pull.set c k, cal := cal }
      ∧ ch.state = (s.chan.get c).state ∧ k.record = (s.pull.get c).record
      ∧ ∀ d, (s.cal.get d).Calm (cal.get d) := by
  have report : ∀ k : PullCtl, ∀ thin,
      (if Config.thinLimit ≤ thin then { k with latch := latchAdd .overspeed k.latch } else k).record
        = k.record := by
    intro k thin; split <;> rfl
  unfold State.processStep
  dsimp only
  split
  · exact ⟨_, _, s.cal, rfl, rfl, (report _ _).trans (tubeStep_record ..), calm_refl s⟩
  · exact ⟨_, _, _, rfl, rfl, report _ _, calm_set ⟨rfl, fun h => ⟨h, rfl⟩⟩⟩

theorem startPass_jobs (s : State) : s.startPass.jobs = s.jobs := rfl

theorem restartJob_jobs (s : State) : s.restartJob.jobs = s.jobs := by
  unfold State.restartJob
  split
  · next j _ st h _ => simp [State.jobs, h]
  · rfl

/-- The job that an idle unit takes moves from the head of the queue into flight. -/
theorem jobBegin_jobs {j : Job} {rest : List Job} (st : Settings) (idle : s.unitIdle = true)
    (queue : s.sizing.queue = j :: rest) :
    (s.setSizing { s.sizing with queue := rest, flight := some (j, st) }).jobs.Perm s.jobs := by
  have hf : s.sizing.flight = none := by
    simp only [State.unitIdle, Bool.and_eq_true, Option.isNone_iff_eq_none] at idle
    exact idle.1
  simp only [State.jobs, State.setSizing_sizing, queue, hf]
  simp

theorem markJob_key (s : State) (p : Port) (j : Job) : (s.markJob p j).key = j.key := by
  unfold State.markJob; split <;> rfl

/-- An orphan mark moves no job. -/
theorem orphan_jobs (s : State) (p : Port) :
    (s.setSizing
        { s.sizing with
          queue := s.sizing.queue.map (s.markJob p)
          flight := s.sizing.flight.map (fun x => (s.markJob p x.1, x.2)) }).jobs
      = s.jobs.map (s.markJob p) := by
  cases h : s.sizing.flight <;> simp [State.jobs, h]

theorem Quiet.takeIntervals (s : State) : Quiet s s.takeIntervals := by
  refine .of_parts (ports := s.ports) (chan := s.chan) (pull := s.pull) (sizing := s.sizing)
    (rescreen := s.rescreen) (pending := s.pending) rfl (.refl _) (.of_eq rfl rfl) fun c => ?_
  rw [Quad.get_ofFn]
  split
  · exact CalUnit.calm_due _
  · exact calm_refl s c

theorem Quiet.settingsChanged (s : State) : Quiet s s.settingsChanged := by
  unfold State.settingsChanged
  split
  · refine .of_sizing (sizing := { s.restartJob.sizing with step := none })
      (rescreen := s.restartJob.startPass.rescreen) ?_ ?_
    · unfold State.restartJob
      split <;> rfl
    · rw [startPass_jobs, restartJob_jobs]
  · exact .of_links rfl

/-- The actions on links, channels and units are quiet. -/
theorem QuietAct.quiet (h : QuietAct s t) : Quiet s t := by
  cases h with
  | queue | line | replies | clearNotices | attach => exact .of_links rfl
  | bind p c _ free _ => exact .of_chan (c := c) rfl (fun h => by cases h) (calm_refl s)
  | unbind p c free =>
    obtain ⟨ports, e⟩ := unbindChan_parts s c
    exact .of_chan (c := c) (by rw [State.dropCal, e]; rfl) (fun h => by cases h)
      (calm_set (CalUnit.calm_drop _))
  | freqSet p c slots _ free =>
    exact .of_chan (c := c) rfl (fun h => by cases h) (calm_set (CalUnit.calm_drop _))
  | settled c _ => exact .of_chan (c := c) rfl (fun h => by cases h) (calm_refl s)
  | coil c isOpen _ => exact .of_chan (c := c) rfl id (calm_refl s)
  | count c dir pulling => exact .of_chan (c := c) rfl (fun _ => pulling) (calm_refl s)
  | passed c _ _ => exact .of_chan (c := c) rfl id (calm_refl s)
  | startCal p c kind d _ ready _ _ _ =>
    refine .of_parts rfl (.refl _) ?_ (calm_set ⟨rfl, fun h => ⟨h, rfl⟩⟩)
    rintro e q u i ⟨hs, rec, tp, hr, ht, h⟩
    simp only [State.startCal, State.setCal_chan, State.setCal_pull, State.setPull_chan,
      State.setPull_pull, State.setChan_chan, State.setChan_pull, Quad.get_set] at hs hr
    split at hr
    · cases hr; cases ht
    · next hd => rw [if_neg hd] at hs; exact ⟨hs, rec, tp, hr, ht, h⟩
  | processStep c raw pulling _ =>
    obtain ⟨ch, k, cal, e, -, hk, hcal⟩ := processStep_parts s c raw
    exact .of_parts e (by rw [e]; exact .refl _)
      (.of_write (by rw [e]) (by rw [e]) (fun _ => pulling) fun _ => hk) hcal
  | latch c f _ => exact .of_pull rfl rfl
  | endChecks c by_ trace mismatch _ => exact .of_pull rfl (closeOpen_record _ _)
  | takeResult c held =>
    exact .of_parts rfl (.refl _) (.of_write rfl rfl (fun h => by cases h) fun _ => rfl)
      (calm_refl s)
  | intervalExpiry c =>
    exact .of_parts rfl (.refl _) (.of_eq rfl rfl) (calm_set (CalUnit.calm_due _))
  | jobBegin j rest st idle queue _ =>
    exact .of_sizing rfl ((jobBegin_jobs st idle queue).map _)
  | startPass => exact .of_sizing rfl (by rw [startPass_jobs])
  | stepBegin st _ => exact .of_sizing rfl (.refl _)
  | orphan p =>
    refine .of_sizing rfl ?_
    rw [orphan_jobs, List.map_map]
    exact .of_eq (List.map_congr_left fun j _ => markJob_key s p j)

end Sys2Proof.Machine
end

section
/-!
SUPPORT. How the actions rewrite the tube records: record by record (`Retubed`), and for all actions but
six within the bounds of `TubeWrite`.
-/

namespace Sys2Proof.Machine

variable {s t r : State}

/-! ## Lists of tubes rewritten record by record -/

/-- One list of tubes is the other with each record rewritten as `R` says of its index. -/
def Retubed (R : Nat → Tube → Tube → Prop) (l m : List Tube) : Prop :=
  ∀ i : Nat, Option.Rel (R i) l[i]? m[i]?

section
variable {R S : Nat → Tube → Tube → Prop} {l m n : List Tube}

theorem Retubed.fwd (h : Retubed R l m) {i : Nat} {tb : Tube} (ht : l[i]? = some tb) :
    ∃ tb', m[i]? = some tb' ∧ R i tb tb' := by
  have hi := h i
  rw [ht] at hi
  cases hm : m[i]? with
  | none => rw [hm] at hi; cases hi
  | some tb' => rw [hm] at hi; cases hi; exact ⟨tb', rfl, ‹_›⟩

theorem Retubed.bwd (h : Retubed R l m) {i : Nat} {tb' : Tube} (ht : m[i]? = some tb') :
    ∃ tb, l[i]? = some tb ∧ R i tb tb' := by
  have hi := h i
  rw [ht] at hi
  cases hl : l[i]? with
  | none => rw [hl] at hi; cases hi
  | some tb => rw [hl] at hi; cases hi; exact ⟨tb, rfl, ‹_›⟩

theorem Retubed.refl (h : ∀ i tb, l[i]? = some tb → R i tb tb) : Retubed R l l := by
  intro i
  cases hl : l[i]? with
  | none => exact .none
  | some tb => exact .some (h i tb hl)

/-- A list each of whose records is a function of the record that stood there. -/
theorem Retubed.of_map {f : Nat → Tube → Tube} (e : ∀ i : Nat, m[i]? = (l[i]?).map (f i))
    (h : ∀ i tb, l[i]? = some tb → R i tb (f i tb)) : Retubed R l m := by
  intro i
  rw [e]
  cases hl : l[i]? with
  | none => exact .none
  | some tb => exact .some (h i tb hl)

theorem Retubed.mono (h : Retubed R l m)
    (hRS : ∀ i tb tb', l[i]? = some tb → R i tb tb' → S i tb tb') : Retubed S l m := by
  intro i
  have hi := h i
  cases hl : l[i]? with
  | none => rw [hl] at hi; cases hm : m[i]? <;> rw [hm] at hi <;> cases hi; exact .none
  | some tb =>
    obtain ⟨tb', hm, hR⟩ := h.fwd hl
    rw [hm]
    exact .some (hRS i tb tb' hl hR)

theorem Retubed.trans {T : Nat → Tube → Tube → Prop} (h : Retubed R l m) (k : Retubed S m n)
    (hRS : ∀ i a b c, l[i]? = some a → R i a b → S i b c → T i a c) : Retubed T l n := by
  intro i
  have hi := k i
  cases hl : l[i]? with
  | none =>
    have h0 := h i
    rw [hl] at h0
    cases hm : m[i]? <;> rw [hm] at h0 hi <;> cases h0
    cases hn : n[i]? <;> rw [hn] at hi <;> cases hi
    exact .none
  | some a =>
    obtain ⟨b, hm, hR⟩ := h.fwd hl
    obtain ⟨c, hn, hS⟩ := k.fwd hm
    rw [hn]
    exact .some (hRS i a b c hl hR hS)

theorem Retubed.length (h : Retubed R l m) : m.length = l.length := by
  have none_iff : ∀ i : Nat, m[i]? = none ↔ l[i]? = none := by
    intro i
    constructor
    · intro hm
      cases hl : l[i]? with
      | none => rfl
      | some tb => obtain ⟨_, hm', -⟩ := h.fwd hl; rw [hm] at hm'; cases hm'
    · intro hl
      cases hm : m[i]? with
      | none => rfl
      | some tb => obtain ⟨_, hl', -⟩ := h.bwd hm; rw [hl] at hl'; cases hl'
  simp only [List.getElem?_eq_none_iff] at none_iff
  exact le_antisymm ((none_iff _).2 le_rfl) ((none_iff _).1 le_rfl)

theorem Retubed.modify {k : Nat} {f : Tube → Tube} (hrefl : ∀ i tb, R i tb tb)
    (h : ∀ tb, l[k]? = some tb → R k tb (f tb)) : Retubed R l (l.modify k f) := by
  refine .of_map (f := fun i tb => if k = i then f tb else tb)
    (fun i => List.getElem?_modify f k l i) fun i tb ht => ?_
  split
  · next e => subst e; exact h tb ht
  · exact hrefl i tb

theorem Retubed.invalidate {g : List Nat} (hrefl : ∀ i tb, R i tb tb)
    (h : ∀ i ∈ g, ∀ tb, l[i]? = some tb → R i tb tb.invalidated) :
    Retubed R l (invalidateTubes g l) := by
  refine .of_map (invalidateTubes_get g l) fun i tb ht => ?_
  split
  · next hi => exact h i hi tb ht
  · exact hrefl i tb

end

/-! ## The writes of claims -/

/-- A tube record whose claim field alone is written. -/
def ClaimWrite (_ : Nat) (tb tb' : Tube) : Prop := tb' = { tb with claim := tb'.claim }

/-- The slots, the claim fields of the tubes and the ports alone are written. -/
structure ClaimsWritten (s t : State) : Prop where
  rest : t = { s with claims := t.claims, tubes := t.tubes, ports := t.ports }
  tubes : Retubed ClaimWrite s.tubes t.tubes

theorem ClaimsWritten.planState (h : ClaimsWritten s t) : t.planState = s.planState := by rw [h.rest]
theorem ClaimsWritten.plan (h : ClaimsWritten s t) : t.plan = s.plan := by rw [h.rest]
theorem ClaimsWritten.lock (h : ClaimsWritten s t) : t.lock = s.lock := by rw [h.rest]
theorem ClaimsWritten.rows (h : ClaimsWritten s t) : t.rows = s.rows := by rw [h.rest]
theorem ClaimsWritten.seconds (h : ClaimsWritten s t) : t.seconds = s.seconds := by rw [h.rest]
theorem ClaimsWritten.chan (h : ClaimsWritten s t) : t.chan = s.chan := by rw [h.rest]
theorem ClaimsWritten.pull (h : ClaimsWritten s t) : t.pull = s.pull := by rw [h.rest]
theorem ClaimsWritten.cal (h : ClaimsWritten s t) : t.cal = s.cal := by rw [h.rest]
theorem ClaimsWritten.sizing (h : ClaimsWritten s t) : t.sizing = s.sizing := by rw [h.rest]
theorem ClaimsWritten.free (h : ClaimsWritten s t) : t.free = s.free := by rw [h.rest]

theorem ClaimsWritten.refl (s : State) : ClaimsWritten s s := ⟨rfl, .refl fun _ _ _ => rfl⟩

theorem ClaimsWritten.trans (h : ClaimsWritten s t) (k : ClaimsWritten t r) : ClaimsWritten s r where
  rest := by
    refine k.rest.trans ?_
    rw [h.rest]
  tubes := h.tubes.trans k.tubes fun i a b c _ hab hbc => by
    rw [ClaimWrite] at *
    rw [hbc, hab]

/-- A slot and a tube's claim field written together. -/
theorem ClaimsWritten.write (s : State) (p : Port) (u : Tag) (x : Option Claim) (i : Nat)
    (cf : Option TubeClaim) :
    ClaimsWritten s ((s.setSlot p u x).modTube i (fun tb => { tb with claim := cf })) :=
  ⟨rfl, .modify (fun _ _ => rfl) fun _ _ => rfl⟩

theorem ClaimsWritten.grant (s : State) (p : Port) (u : Tag) (i : Nat) :
    ClaimsWritten s (s.grant p u i) := .write ..

theorem ClaimsWritten.markInPull (s : State) (p : Port) (u : Tag) :
    ClaimsWritten s (s.markInPull p u) := by
  unfold State.markInPull
  split
  · exact .write ..
  · exact .refl s

theorem ClaimsWritten.keepClaim (s : State) (p : Port) (u : Tag) :
    ClaimsWritten s (s.keepClaim p u) := by
  unfold State.keepClaim
  split
  · exact .write ..
  · exact .refl s

theorem ClaimsWritten.dropClaim (s : State) (p : Port) (u : Tag) :
    ClaimsWritten s (s.dropClaim p u) := by
  unfold State.dropClaim
  split
  · exact .write ..
  · exact .refl s

theorem ClaimsWritten.setPort (s : State) (p : Port) (x : PortState) :
    ClaimsWritten s (s.setPort p x) := ⟨rfl, .refl fun _ _ _ => rfl⟩

theorem ClaimsWritten.expire (s : State) (p : Port) (u : Tag) : ClaimsWritten s (s.expire p u) := by
  unfold State.expire
  dsimp only
  split
  · exact .dropClaim s p u
  · exact (dropClaim s p u).trans (.setPort ..)

theorem ClaimsWritten.revoke (s : State) (p : Port) (u : Tag) :
    ClaimsWritten s (if s.departedClaim p u then s.dropClaim p u
      else (s.dropClaim p u).addRevoked p u) := by
  split
  · exact .dropClaim s p u
  · exact (dropClaim s p u).trans (.setPort ..)

theorem ClaimsWritten.detach (s : State) (p : Port) : ClaimsWritten s (s.detachPort p) :=
  ⟨rfl, .refl fun _ _ _ => rfl⟩

/-- The leases of a tick are taken one after another: what each expiry keeps, they keep. -/
theorem takeLeases_keeps {law : State → Prop}
    (h : ∀ s p u, law s → s.leaseRunOut p u = true → law (s.expire p u)) (hs : law s) :
    law s.takeLeases := by
  have one : ∀ s p u, law s → law (s.takeLease p u) := by
    intro s p u hs
    unfold State.takeLease
    split
    · exact h s p u hs ‹_›
    · exact hs
  have tags : ∀ (p : Port) (l : List Tag) (s : State), law s →
      law (l.foldl (fun s u => s.takeLease p u) s) := by
    intro p l
    induction l with
    | nil => exact fun _ hs => hs
    | cons u l ih => exact fun s hs => ih _ (one s p u hs)
  have ports : ∀ (l : List Port) (s : State), law s →
      law (l.foldl (fun s p => four.foldl (fun s u => s.takeLease p u) s) s) := by
    intro l
    induction l with
    | nil => exact fun _ hs => hs
    | cons p l ih => exact fun s hs => ih _ (tags p four s hs)
  exact ports four s hs

theorem ClaimsWritten.takeLeases (s : State) : ClaimsWritten s s.takeLeases :=
  takeLeases_keeps (law := ClaimsWritten s) (fun t p u h _ => h.trans (.expire t p u)) (.refl s)

/-! ## The ends of pulls -/

/-- The invalidation of a channel writes its unit and the tubes of its group. -/
theorem invalidate_parts (s : State) (c : Chan) :
    s.invalidate c = { s with
      tubes := invalidateTubes (s.cal.get c).group s.tubes
      cal := s.cal.set c { (s.cal.get c).drop with group := [] } } := rfl

/-- What a judgement leaves of the map and the unit: the unit written with its group kept or emptied, or
the invalidation of the channel. A unit left CALIBRATED has the present count as its last good time. -/
def Judged (s : State) (c : Chan) (t : State) : Prop :=
  (∃ u : CalUnit, t = s.setCal c u ∧ (u.group = (s.cal.get c).group ∨ u.group = [])
      ∧ (u.state = .calibrated → u.lastGood = some s.now))
    ∨ t = s.invalidate c

theorem CalUnit.due_not_calibrated (u : CalUnit) : u.due.state ≠ .calibrated := by
  unfold CalUnit.due
  split
  · exact nofun
  · assumption

theorem judge_judged (s : State) (c : Chan) (kind : PullKind) : Judged s c (judge s c kind).state := by
  have hdrop : Judged s c (s.setCal c (s.cal.get c).drop) :=
    .inl ⟨_, rfl, .inl rfl, fun h => by cases h⟩
  have hun : ∀ o r, Judged s c (judgeUnmeasured s c kind o r).state := by
    intro o r
    unfold judgeUnmeasured faultCheck
    split
    · dsimp only
      split
      · exact .inl ⟨_, rfl, .inl (CalUnit.calm_due _).1,
          fun h => absurd h (CalUnit.due_not_calibrated _)⟩
      · exact .inr rfl
    · exact hdrop
  have hmeasured : Judged s c (if kind = .calCheck then judgeCheck s c else judgeFull s c).state := by
    split
    · unfold judgeCheck
      dsimp only
      split
      · exact .inr rfl
      · exact .inl ⟨_, rfl, .inr rfl, fun _ => rfl⟩
    · unfold judgeFull
      dsimp only
      split
      · exact hdrop
      · exact .inl ⟨_, rfl, .inl rfl, fun _ => rfl⟩
  have hall : ∀ passed : Bool, Judged s c
      (if !(s.pull.get c).latch.isEmpty then judgeUnmeasured s c kind .faulted none
        else if !passed then judgeUnmeasured s c kind .short (some .short)
        else if kind = .calCheck then judgeCheck s c else judgeFull s c).state := by
    intro passed
    split
    · exact hun _ _
    · split
      · exact hun _ _
      · exact hmeasured
  exact hall _

/-- The end of a calibration pull: the judgement, and then the capture, the result and the channel,
which is HELD. -/
theorem endCal_parts (s : State) (c : Chan) (kind : PullKind) :
    ∃ v u k ch, Judged s c v
      ∧ s.endCal c kind
        = { v with cal := v.cal.set c u, pull := v.pull.set c k, chan := v.chan.set c ch }
      ∧ (v.cal.get c).Calm u ∧ k.record = (v.pull.get c).record ∧ ch.state = .held :=
  ⟨(judge s c kind).state, _, _, _, judge_judged s c kind, rfl, ⟨rfl, fun h => ⟨h, rfl⟩⟩, rfl, rfl⟩

/-- The forced unbind of a channel: the invalidation, its station's set, its channel and its result. -/
theorem forceUnbind_parts (s : State) (c : Chan) :
    ∃ ports, s.forceUnbind c
      = { s with
          ports := ports
          chan := s.chan.set c (s.chan.get c).unbound
          pull := s.pull.set c { s.pull.get c with result := none }
          tubes := invalidateTubes (s.cal.get c).group s.tubes
          cal := s.cal.set c { (s.cal.get c).drop with group := [] } } := by
  obtain ⟨ports, e⟩ := unbindChan_parts (s.setPull c { s.pull.get c with result := none }) c
  exact ⟨ports, by rw [State.forceUnbind, e]; rfl⟩

/-! ## What an action does to the map -/

/-- Why an action but a commit and a re-screen step may write a status: the tube is done, a pull on it
ends, or a group that lists it is invalidated. -/
def State.Rejudges (s : State) (i : Nat) (tb : Tube) : Prop :=
  tb.status.isDone = true ∨ (∃ c p u, s.tubePull c p u i) ∨ ∃ c, i ∈ (s.cal.get c).group

/-- The bounds within which all actions but six rewrite a tube record. -/
structure TubeWrite (s : State) (i : Nat) (tb tb' : Tube) : Prop where
  row : tb'.row = tb.row
  col : tb'.col = tb.col
  list : tb'.list = tb.list
  attempts : tb'.attempts = tb.attempts ∨ tb'.attempts ≤ 5
  status : tb'.status = tb.status
    ∨ (tb'.status = .repull ∨ ∃ why, tb'.status = .unresolved why) ∧ s.Rejudges i tb

theorem TubeWrite.refl (s : State) (i : Nat) (tb : Tube) : TubeWrite s i tb tb :=
  ⟨rfl, rfl, rfl, .inl rfl, .inl rfl⟩

theorem TubeWrite.claim {i : Nat} {tb tb' : Tube} (h : ClaimWrite i tb tb') :
    TubeWrite s i tb tb' := by
  rw [h]
  exact ⟨rfl, rfl, rfl, .inl rfl, .inl rfl⟩

theorem TubeWrite.then_claim {i : Nat} {a b c : Tube} (h : TubeWrite s i a b)
    (k : ClaimWrite i b c) : TubeWrite s i a c := by
  rw [k]
  exact ⟨h.row, h.col, h.list, h.attempts, h.status⟩

theorem TubeWrite.invalidated {c : Chan} {i : Nat} (h : i ∈ (s.cal.get c).group) (tb : Tube) :
    TubeWrite s i tb tb.invalidated :=
  ⟨rfl, rfl, rfl, .inl rfl, .inr ⟨.inl rfl, .inr (.inr ⟨c, h⟩)⟩⟩

/-- The rows and the free records are the same, and each tube record is rewritten within the bounds. -/
structure MapKept (s t : State) : Prop where
  rows : t.rows = s.rows
  free : t.free = s.free
  tubes : Retubed (TubeWrite s) s.tubes t.tubes

theorem MapKept.of_eq (hr : t.rows = s.rows) (hf : t.free = s.free) (ht : t.tubes = s.tubes) :
    MapKept s t := ⟨hr, hf, ht ▸ .refl fun i tb _ => .refl s i tb⟩

theorem Quiet.mapKept (h : Quiet s t) : MapKept s t := .of_eq h.rows h.free h.tubes

theorem ClaimsWritten.mapKept (h : ClaimsWritten s t) : MapKept s t :=
  ⟨h.rows, h.free, h.tubes.mono fun _ _ _ _ k => .claim k⟩

theorem MapKept.then_claims (h : MapKept s t) (k : ClaimsWritten t r) : MapKept s r :=
  ⟨k.rows.trans h.rows, k.free.trans h.free,
    h.tubes.trans k.tubes fun _ _ _ _ _ h k => h.then_claim k⟩

theorem MapKept.then_quiet (h : MapKept s t) (k : Quiet t r) : MapKept s r :=
  ⟨k.rows.trans h.rows, k.free.trans h.free, k.tubes ▸ h.tubes⟩

theorem MapKept.invalidate (s : State) (c : Chan) : MapKept s (s.invalidate c) :=
  ⟨rfl, rfl, .invalidate (TubeWrite.refl s) fun _ hi tb _ => .invalidated hi tb⟩

theorem Judged.mapKept {c : Chan} (h : Judged s c t) : MapKept s t := by
  obtain ⟨u, rfl, -⟩ | rfl := h
  · exact .of_eq rfl rfl rfl
  · exact .invalidate s c

theorem errorStatus_cases (limit a : Nat) :
    errorStatus limit a = .repull ∨ ∃ why, errorStatus limit a = .unresolved why := by
  unfold errorStatus
  split
  · exact .inr ⟨_, rfl⟩
  · exact .inl rfl

theorem errorCommit_mapKept {c : Chan} {p : Port} {u : Tag} {i : Nat} (h : s.tubePull c p u i) :
    MapKept s (s.errorCommit p u i) := by
  unfold State.errorCommit
  split
  · exact .of_eq rfl rfl rfl
  · next tb _ =>
    have hmod : MapKept s (s.modTube i (fun tb =>
        { tb with
          attempts := attemptsAfter tb.attempts
          status := errorStatus s.plan.attemptLimit tb.attempts })) :=
      ⟨rfl, rfl, .modify (TubeWrite.refl s) fun tb _ =>
        ⟨rfl, rfl, rfl, .inr (min_le_right _ _),
          .inr ⟨errorStatus_cases _ _, .inr (.inl ⟨c, p, u, h⟩)⟩⟩⟩
    dsimp only
    split
    · exact hmod.then_claims (.dropClaim ..)
    · exact hmod.then_claims (.keepClaim ..)

theorem State.pullsTube.tubePull {c : Chan} {rec : PullRecord} {tp : TubePull}
    (h : s.pullsTube c rec tp) : s.tubePull c rec.port tp.tag tp.index :=
  ⟨h.1, rec, tp, h.2.1, h.2.2, rfl, rfl, rfl⟩

theorem abortPull_mapKept (s : State) (c : Chan) : MapKept s (s.abortPull c) := by
  unfold State.abortPull
  dsimp only
  split
  · exact .of_eq rfl rfl rfl
  · split
    · refine MapKept.then_claims ?_ (.keepClaim ..)
      exact .of_eq rfl rfl rfl
    · exact .of_eq rfl rfl rfl

theorem errorEnd_mapKept {c : Chan} {rec : PullRecord} {tp : TubePull} (h : s.pullsTube c rec tp) :
    MapKept s (s.errorEnd c rec tp) :=
  let k := errorCommit_mapKept h.tubePull
  ⟨k.rows, k.free, k.tubes⟩

theorem endCal_mapKept (s : State) (c : Chan) (kind : PullKind) : MapKept s (s.endCal c kind) := by
  obtain ⟨v, u, k, ch, hv, e, -⟩ := endCal_parts s c kind
  rw [e]
  exact ⟨hv.mapKept.rows, hv.mapKept.free, hv.mapKept.tubes⟩

theorem forceUnbind_mapKept (s : State) (c : Chan) : MapKept s (s.forceUnbind c) := by
  obtain ⟨ports, e⟩ := forceUnbind_parts s c
  have h := MapKept.invalidate s c
  rw [e]
  exact ⟨h.rows, h.free, h.tubes⟩

theorem warm_mapKept (s : State) : MapKept s s.warm := by
  refine ⟨rfl, rfl, .of_map (f := fun i tb =>
    { (if i ∈ s.cal.toList.flatMap CalUnit.group then tb.invalidated else tb) with claim := none })
    (fun i => ?_) fun i tb ht => ?_⟩
  · simp only [State.warm, invalidateAll, List.getElem?_map, invalidateTubes_get, Option.map_map]
    rfl
  · split
    · next h =>
      obtain ⟨u, hu, hi⟩ := List.mem_flatMap.1 h
      obtain ⟨c, rfl⟩ := (Quad.mem_toList _ _).1 hu
      exact (TubeWrite.invalidated hi tb).then_claim rfl
    · exact .claim rfl

/-- What an action does to the map: it keeps the rows and the free records and rewrites the tube records
within the bounds, or it is one of the six that do more. -/
theorem Act.map_cases (h : Act s t) :
    MapKept s t
    ∨ (t = s.newPlan ∧ (s.planState = .empty ∨ s.planState = .draft
        ∨ s.planState = .closed ∧ s.lock = false))
    ∨ (∃ x : RowAddBody, t = s.addRow x ∧ s.planState = .draft ∧ x.inRange = true
        ∧ s.ascends x.row = true ∧ s.tubes.length + x.columns ≤ Config.mapCapacity)
    ∨ (∃ i st, t = s.modTube i (fun tb => { tb with status := st }) ∧ s.planState = .draft)
    ∨ (∃ r dir, t = { s with tubes := s.tubes.map (Tube.scoped r dir) } ∧ s.editable)
    ∨ (∃ j st, t = s.commitJob j st ∧ s.sizing.flight = some (j, st))
    ∨ ∃ st, t = s.writeStep st := by
  cases h with
  | quiet h => exact .inl h.quiet.mapKept
  | newPlan gate _ => exact .inr (.inl ⟨rfl, gate⟩)
  | addRow draft x inRange ascends room =>
    exact .inr (.inr (.inl ⟨x, rfl, draft, inRange, ascends, room⟩))
  | mark draft i tb m st _ _ => exact .inr (.inr (.inr (.inl ⟨i, st, rfl, draft⟩)))
  | scope edit r dir => exact .inr (.inr (.inr (.inr (.inl ⟨r, dir, rfl, edit⟩))))
  | commit j st flight => exact .inr (.inr (.inr (.inr (.inr (.inl ⟨j, st, rfl, flight⟩)))))
  | stepWrite st _ => exact .inr (.inr (.inr (.inr (.inr (.inr ⟨st, rfl⟩)))))
  | planOpen | planClose | planLock | planSet | standardSet | tracesSet | jobEnd =>
    exact .inl (.of_eq rfl rfl rfl)
  | curveSet _ l c _ =>
    refine .inl (MapKept.then_quiet ?_ (.settingsChanged _))
    exact .of_eq rfl rfl rfl
  | limitsSet _ x =>
    refine .inl (MapKept.then_quiet (MapKept.then_quiet ?_ (.takeIntervals _)) (.settingsChanged _))
    exact .of_eq rfl rfl rfl
  | repull _ i tb tube done =>
    refine .inl ⟨rfl, rfl, .modify (TubeWrite.refl s) fun tb' ht => ?_⟩
    rw [tube] at ht
    cases ht
    exact ⟨rfl, rfl, rfl, .inr (Nat.zero_le 5), .inr ⟨.inl rfl, .inl done⟩⟩
  | grant => exact .inl (ClaimsWritten.grant ..).mapKept
  | drop => exact .inl (ClaimsWritten.dropClaim ..).mapKept
  | revoke => exact .inl (ClaimsWritten.revoke ..).mapKept
  | expire => exact .inl (ClaimsWritten.expire ..).mapKept
  | detach => exact .inl (ClaimsWritten.detach ..).mapKept
  | startTube p u c i _ _ tb =>
    have h := (ClaimsWritten.markInPull s p u).mapKept
    exact .inl ⟨h.rows, h.free, h.tubes⟩
  | abort c _ => exact .inl (abortPull_mapKept s c)
  | errorEnd c rec tp pull => exact .inl (errorEnd_mapKept pull)
  | endCal c rec _ _ _ => exact .inl (endCal_mapKept s c _)
  | forceUnbind c _ _ => exact .inl (forceUnbind_mapKept s c)
  | warm => exact .inl (warm_mapKept s)
  | tick =>
    have h : MapKept s { s with seconds := s.seconds + 1 } := .of_eq rfl rfl rfl
    exact .inl ((h.then_claims (.takeLeases _)).then_quiet (.takeIntervals _))

end Sys2Proof.Machine
end

section
/-!
The layout of rows and tubes (R13, R14): every step keeps it, and in a laid-out map a row and a column
name the tube record that holds them.
-/

namespace Sys2Proof.Machine

variable {s t : State}

/-! ## The two actions that write records anew -/

/-- The state in which a commit has written the tube record, the free count and the groups, before the
claim ends and the channel is left (R23, R130, R146). -/
def State.committing (s : State) (j : Job) (z : Sizing) : State :=
  { s with
    sizing := { s.sizing with flight := none }
    tubes := s.tubes.modify j.index (fun tb => tb.committed j z)
    free := z.free
    cal := groupsAfter s.cal j.chan j.index }

/-- A commit whose tube is in the map: the records are written, the claim ends, STORE_LOW is told, and
the channel is left. -/
theorem commitJob_of_tube {j : Job} {st : Settings} {tb : Tube} (ht : s.tubes[j.index]? = some tb) :
    s.commitJob j st
      = ((((s.committing j (sizeJob j st tb.list s.free)).dropClaim j.port j.tag).warnStore
          s.free).releaseChan j (sizeJob j st tb.list s.free)) := by
  simp only [State.commitJob, ht]
  rfl

theorem commitJob_of_none {j : Job} {st : Settings} (ht : s.tubes[j.index]? = none) :
    s.commitJob j st = s.setSizing { s.sizing with flight := none } := by
  simp only [State.commitJob, ht]

theorem warnStore_parts (s : State) (n : Nat) :
    ∃ ports, s.warnStore n = { s with ports := ports } := by
  unfold State.warnStore
  split
  · exact ⟨_, rfl⟩
  · exact ⟨s.ports, rfl⟩

theorem releaseChan_mapKept (s : State) (j : Job) (z : Sizing) : MapKept s (s.releaseChan j z) := by
  unfold State.releaseChan
  dsimp only
  split
  · exact forceUnbind_mapKept s j.chan
  · exact .of_eq rfl rfl rfl

theorem MapKept.then_warnStore (h : MapKept s t) (n : Nat) : MapKept s (t.warnStore n) := by
  obtain ⟨ports, e⟩ := warnStore_parts t n
  rw [e]
  exact ⟨h.rows, h.free, h.tubes⟩

/-- The state in which the write of a re-screen step has written the tube at the cursor, before the pass
may be complete (R163). -/
def State.stepping (s : State) (st : Settings) : State :=
  { s with
    tubes := s.tubes.modify s.rescreen.cursor (Tube.stepped st)
    rescreen := { s.rescreen with cursor := s.rescreen.cursor + 1 }
    sizing := { s.sizing with step := none } }

theorem writeStep_parts (s : State) (st : Settings) :
    ∃ ports rescreen, s.writeStep st
      = { s.stepping st with ports := ports, rescreen := rescreen } := by
  unfold State.writeStep
  dsimp only
  split
  · exact ⟨_, _, rfl⟩
  · exact ⟨_, _, rfl⟩

/-- A law that every rewriting of records within the bounds keeps, as well as the commit's write, is kept
by a commit. -/
theorem commitJob_keeps {law : State → Prop} {j : Job} {st : Settings}
    (hkept : ∀ t r, law t → MapKept t r → law r)
    (hwrite : ∀ tb, s.tubes[j.index]? = some tb →
      law (s.committing j (sizeJob j st tb.list s.free))) (h : law s) : law (s.commitJob j st) := by
  cases ht : s.tubes[j.index]? with
  | none => rw [commitJob_of_none ht]; exact hkept s _ h (.of_eq rfl rfl rfl)
  | some tb =>
    rw [commitJob_of_tube ht]
    have hdrop := hkept _ _ (hwrite tb ht) (ClaimsWritten.dropClaim _ j.port j.tag).mapKept
    have hwarn := hkept _ _ hdrop (.then_warnStore (.of_eq rfl rfl rfl) s.free)
    exact hkept _ _ hwarn (releaseChan_mapKept ..)

theorem writeStep_keeps {law : State → Prop} {st : Settings}
    (hkept : ∀ t r, law t → MapKept t r → law r) (hwrite : law (s.stepping st)) :
    law (s.writeStep st) := by
  obtain ⟨ports, rescreen, e⟩ := writeStep_parts s st
  rw [e]
  exact hkept _ _ hwrite (.of_eq rfl rfl rfl)

theorem stepped_place (st : Settings) (tb : Tube) :
    (tb.stepped st).row = tb.row ∧ (tb.stepped st).col = tb.col
      ∧ (tb.stepped st).attempts = tb.attempts := by
  unfold Tube.stepped
  split <;> exact ⟨rfl, rfl, rfl⟩

theorem scoped_place (r : Rect) (dir : Nat) (tb : Tube) :
    (tb.scoped r dir).row = tb.row ∧ (tb.scoped r dir).col = tb.col
      ∧ (tb.scoped r dir).attempts = tb.attempts ∧ (tb.scoped r dir).list = tb.list
      ∧ (tb.scoped r dir).claim = tb.claim := by
  unfold Tube.scoped
  split <;> exact ⟨rfl, rfl, rfl, rfl, rfl⟩

/-! ## The layout -/

/-- The layout speaks of the rows and of the places of the tubes alone. -/
theorem RowLaw.of_places {R : Nat → Tube → Tube → Prop} (h : RowLaw s) (hr : t.rows = s.rows)
    (ht : Retubed R s.tubes t.tubes)
    (hR : ∀ i tb tb', R i tb tb' → tb'.row = tb.row ∧ tb'.col = tb.col) : RowLaw t where
  ascending := hr ▸ h.ascending
  tubesOf := by
    intro r hmem
    rw [hr] at hmem
    obtain ⟨hle, hk⟩ := h.tubesOf r hmem
    refine ⟨hle, fun k hkle => ?_⟩
    obtain ⟨tb, htb, hrow, hcol⟩ := hk k hkle
    obtain ⟨tb', htb', hp⟩ := ht.fwd htb
    obtain ⟨hrow', hcol'⟩ := hR _ _ _ hp
    exact ⟨tb', htb', hrow'.trans hrow, hcol'.trans hcol⟩
  rowOf := by
    intro i tb' htb'
    obtain ⟨tb, htb, hp⟩ := ht.bwd htb'
    obtain ⟨hrow, hcol⟩ := hR _ _ _ hp
    rw [hr, hrow, hcol]
    exact h.rowOf i tb htb
  count := ht.length ▸ h.count

theorem RowLaw.of_mapKept (h : RowLaw s) (k : MapKept s t) : RowLaw t :=
  h.of_places k.rows k.tubes fun _ _ _ w => ⟨w.row, w.col⟩

/-- The layout with one record rewritten in its place. -/
theorem RowLaw.of_modify {i : Nat} {f : Tube → Tube} (h : RowLaw s) (hr : t.rows = s.rows)
    (ht : t.tubes = s.tubes.modify i f) (hf : ∀ tb, (f tb).row = tb.row ∧ (f tb).col = tb.col) :
    RowLaw t := by
  refine h.of_places (R := fun _ tb tb' => tb'.row = tb.row ∧ tb'.col = tb.col) hr ?_
    fun _ _ _ h => h
  rw [ht]
  exact .modify (fun _ _ => ⟨rfl, rfl⟩) fun tb _ => hf tb

/-- Rows in ascending number: none is above the last. -/
theorem row_le_last {rows : List Row} (h : rows.Pairwise (fun a b => a.row < b.row)) {a z : Row}
    (hz : rows.getLast? = some z) (ha : a ∈ rows) : a.row ≤ z.row := by
  induction rows with
  | nil => cases ha
  | cons b rest ih =>
    obtain ⟨hb, hrest⟩ := List.pairwise_cons.1 h
    cases rest with
    | nil => simp at hz ha; subst hz ha; exact le_rfl
    | cons c rest =>
      rw [List.getLast?_cons_cons] at hz
      rcases List.mem_cons.1 ha with rfl | ha
      · exact (hb z (List.mem_of_getLast? hz)).le
      · exact ih hrest hz ha

theorem getElem?_newTubes (row col n k : Nat) (h : k < n) :
    (newTubes row col n)[k]? = some (Tube.created row (col + k)) := by
  simp [newTubes_eq, h]

theorem length_newTubes (row col n : Nat) : (newTubes row col n).length = n := by
  simp [newTubes_eq]

theorem RowLaw.addRow {x : RowAddBody} (h : RowLaw s) (inRange : x.inRange = true)
    (ascends : s.ascends x.row = true) (room : s.tubes.length + x.columns ≤ Config.mapCapacity) :
    RowLaw (s.addRow x) where
  ascending := by
    refine List.pairwise_append.2 ⟨h.ascending, List.pairwise_singleton _ _, fun a ha b hb => ?_⟩
    obtain rfl := List.mem_singleton.1 hb
    unfold State.ascends at ascends
    cases hz : s.rows.getLast? with
    | none => rw [List.getLast?_eq_none_iff.1 hz] at ha; cases ha
    | some z =>
      rw [hz] at ascends
      exact lt_of_le_of_lt (row_le_last h.ascending hz ha) (of_decide_eq_true ascends)
  tubesOf := by
    intro r hr
    rcases List.mem_append.1 hr with hr | hr
    · obtain ⟨hle, hk⟩ := h.tubesOf r hr
      refine ⟨hle, fun k hkle => ?_⟩
      obtain ⟨tb, htb, hp⟩ := hk k hkle
      exact ⟨tb, (List.getElem?_append_left (List.getElem?_eq_some_iff.1 htb).1).trans htb, hp⟩
    · obtain rfl := List.mem_singleton.1 hr
      obtain ⟨-, -, -, -, -, -, hle, -⟩ := of_decide_eq_true inRange
      refine ⟨hle, fun k hkle => ⟨Tube.created x.row (x.first + k), ?_, rfl, rfl⟩⟩
      have hkle' : k ≤ x.last - x.first := hkle
      show (s.tubes ++ newTubes x.row x.first x.columns)[s.tubes.length + k]? = _
      rw [List.getElem?_append_right (Nat.le_add_right _ _), Nat.add_sub_cancel_left]
      exact getElem?_newTubes _ _ _ _ (by unfold RowAddBody.columns; omega)
  rowOf := by
    intro i tb hi
    by_cases hlt : i < s.tubes.length
    · rw [show (s.addRow x).tubes[i]? = s.tubes[i]? from List.getElem?_append_left hlt] at hi
      obtain ⟨r, hr, hp⟩ := h.rowOf i tb hi
      exact ⟨r, List.mem_append_left _ hr, hp⟩
    · have hi' : (newTubes x.row x.first x.columns)[i - s.tubes.length]? = some tb :=
        (List.getElem?_append_right (Nat.le_of_not_lt hlt)).symm.trans hi
      have hk := (List.getElem?_eq_some_iff.1 hi').1
      rw [length_newTubes] at hk
      rw [getElem?_newTubes _ _ _ _ hk] at hi'
      obtain rfl := Option.some.inj hi'
      obtain ⟨-, -, -, -, -, -, hle, -⟩ := of_decide_eq_true inRange
      refine ⟨_, List.mem_append_right _ (List.mem_singleton.2 rfl), rfl, ?_⟩
      simp only [Tube.created]
      unfold RowAddBody.columns at hk
      omega
  count := by
    show (s.tubes ++ newTubes x.row x.first x.columns).length ≤ 32768
    rw [List.length_append, length_newTubes]
    exact room

theorem RowLaw.of_empty (hr : s.rows = []) (ht : s.tubes = []) : RowLaw s where
  ascending := hr ▸ .nil
  tubesOf := by simp [hr]
  rowOf := by simp [ht]
  count := by simp [ht]

theorem RowLaw.act (h : RowLaw s) (a : Act s t) : RowLaw t := by
  obtain k | ⟨rfl, -⟩ | ⟨x, rfl, -, inRange, ascends, room⟩ | ⟨i, st, rfl, -⟩ | ⟨r, dir, rfl, -⟩
    | ⟨j, st, rfl, -⟩ | ⟨st, rfl⟩ := a.map_cases
  · exact h.of_mapKept k
  · exact .of_empty rfl rfl
  · exact h.addRow inRange ascends room
  · exact h.of_modify rfl rfl fun _ => ⟨rfl, rfl⟩
  · refine h.of_places (R := fun _ tb tb' => tb' = tb.scoped r dir) rfl ?_ ?_
    · exact .of_map (f := fun _ => Tube.scoped r dir) (fun _ => List.getElem?_map ..) fun _ _ _ => rfl
    · rintro _ tb _ rfl
      exact ⟨(scoped_place r dir tb).1, (scoped_place r dir tb).2.1⟩
  · exact commitJob_keeps (fun _ _ h k => h.of_mapKept k)
      (fun tb _ => h.of_modify rfl rfl fun _ => ⟨rfl, rfl⟩) h
  · exact writeStep_keeps (fun _ _ h k => h.of_mapKept k)
      (h.of_modify rfl rfl fun tb => ⟨(stepped_place st tb).1, (stepped_place st tb).2.1⟩)

theorem rowLaw_kept : Kept RowLaw := kept_of_acts (fun _ _ h a => h.act a) fun _ => .of_empty rfl rfl

/-! ## Looking up a tube -/

/-- Of rows in ascending number, the entry of a row number is the one that has it. -/
theorem rowEntry_eq_some {rows : List Row} (h : rows.Pairwise (fun a b => a.row < b.row)) {r : Row}
    {n : Nat} : rowEntry rows n = some r ↔ r ∈ rows ∧ r.row = n := by
  constructor
  · intro he
    exact ⟨List.mem_of_find?_eq_some he, by simpa using List.find?_some he⟩
  · rintro ⟨hr, rfl⟩
    induction rows with
    | nil => cases hr
    | cons a rest ih =>
      obtain ⟨ha, hrest⟩ := List.pairwise_cons.1 h
      rcases List.mem_cons.1 hr with rfl | hr
      · simp [rowEntry]
      · have hne : a.row ≠ r.row := (ha r hr).ne
        simpa [rowEntry, hne] using ih hrest hr

/-- In a laid-out map a row and a column name the index of their tube. -/
theorem RowLaw.indexOf_eq_some (h : RowLaw s) {row col i : Nat} :
    s.indexOf row col = some i
      ↔ ∃ r ∈ s.rows, r.row = row ∧ r.first ≤ col ∧ col ≤ r.last
        ∧ i = r.firstIndex + (col - r.first) := by
  constructor
  · intro hi
    unfold State.indexOf at hi
    split at hi
    · next r hr =>
      split at hi
      · next hc =>
        obtain ⟨hmem, hrow⟩ := (rowEntry_eq_some h.ascending).1 hr
        exact ⟨r, hmem, hrow, hc.1, hc.2, (Option.some.inj hi).symm⟩
      · cases hi
    · cases hi
  · rintro ⟨r, hmem, hrow, hf, hl, rfl⟩
    simp [State.indexOf, (rowEntry_eq_some h.ascending).2 ⟨hmem, hrow⟩, hf, hl]

/-- In a laid-out map a place names the tube record that holds its row and column. -/
theorem RowLaw.tubeAt_eq_some (h : RowLaw s) {pl : Place} {i : Nat} {tb : Tube} :
    s.tubeAt pl = some (i, tb) ↔ s.tubes[i]? = some tb ∧ tb.row = pl.row ∧ tb.col = pl.col := by
  have hlookup : s.tubeAt pl = some (i, tb)
      ↔ s.indexOf pl.row pl.col = some i ∧ s.tubes[i]? = some tb := by
    unfold State.tubeAt
    cases s.indexOf pl.row pl.col with
    | none => simp
    | some k =>
      simp only [Option.map_eq_some_iff, Prod.mk.injEq, Option.some.injEq]
      constructor
      · rintro ⟨x, hx, rfl, rfl⟩; exact ⟨rfl, hx⟩
      · rintro ⟨rfl, hx⟩; exact ⟨tb, hx, rfl, rfl⟩
  rw [hlookup, h.indexOf_eq_some]
  constructor
  · rintro ⟨⟨r, hr, hrow, hf, hl, rfl⟩, ht⟩
    obtain ⟨tb', ht', hrow', hcol'⟩ := (h.tubesOf r hr).2 (pl.col - r.first) (by omega)
    rw [ht] at ht'
    obtain rfl := Option.some.inj ht'
    exact ⟨ht, hrow'.trans hrow, by omega⟩
  · rintro ⟨ht, hrow, hcol⟩
    obtain ⟨r, hr, hrow', hf, hl, hi⟩ := h.rowOf i tb ht
    rw [hcol] at hf hl hi
    exact ⟨⟨r, hr, hrow'.trans hrow, hf, hl, hi⟩, ht⟩

/-- Settles O24: an action rewrites tube records in their places, or appends a row below the last one;
the lookup follows from the ascending rows. -/
theorem rowAndColumnNameOneTube : Obligations.RowAndColumnNameOneTube :=
  ⟨rowLaw_kept, fun _ _ _ _ h => h.tubeAt_eq_some⟩

end Sys2Proof.Machine
end

section
/-!
The laws of the attempt count, the indication store and the plan lock (R15, R150, R12): every step keeps
them.
-/

namespace Sys2Proof.Machine

variable {s t : State}

/-! ## The attempt count (R15) -/

theorem AttemptsLaw.of_bounds {R : Nat → Tube → Tube → Prop} (h : AttemptsLaw s)
    (ht : Retubed R s.tubes t.tubes)
    (hR : ∀ i tb tb', R i tb tb' → tb'.attempts = tb.attempts ∨ tb'.attempts ≤ 5) :
    AttemptsLaw t := by
  intro tb' hmem
  obtain ⟨i, hi⟩ := List.getElem?_of_mem hmem
  obtain ⟨tb, htb, hw⟩ := ht.bwd hi
  rcases hR _ _ _ hw with e | e
  · rw [e]; exact h tb (List.mem_of_getElem? htb)
  · exact e

theorem AttemptsLaw.of_mapKept (h : AttemptsLaw s) (k : MapKept s t) : AttemptsLaw t :=
  h.of_bounds k.tubes fun _ _ _ w => w.attempts

theorem AttemptsLaw.of_modify {i : Nat} {f : Tube → Tube} (h : AttemptsLaw s)
    (ht : t.tubes = s.tubes.modify i f)
    (hf : ∀ tb, (f tb).attempts = tb.attempts ∨ (f tb).attempts ≤ 5) : AttemptsLaw t := by
  refine h.of_bounds (R := fun _ tb tb' => tb'.attempts = tb.attempts ∨ tb'.attempts ≤ 5) ?_
    fun _ _ _ h => h
  rw [ht]
  exact .modify (fun _ _ => .inl rfl) fun tb _ => hf tb

theorem AttemptsLaw.addRow (h : AttemptsLaw s) (x : RowAddBody) : AttemptsLaw (s.addRow x) := by
  intro tb hmem
  rcases List.mem_append.1 hmem with hm | hm
  · exact h tb hm
  · rw [newTubes_eq] at hm
    obtain ⟨k, -, rfl⟩ := List.mem_map.1 hm
    exact Nat.zero_le 5

theorem AttemptsLaw.act (h : AttemptsLaw s) (a : Act s t) : AttemptsLaw t := by
  obtain k | ⟨rfl, -⟩ | ⟨x, rfl, -⟩ | ⟨i, st, rfl, -⟩ | ⟨r, dir, rfl, -⟩ | ⟨j, st, rfl, -⟩ | ⟨st, rfl⟩ :=
    a.map_cases
  · exact h.of_mapKept k
  · exact fun _ hm => by cases hm
  · exact h.addRow x
  · exact h.of_modify rfl fun _ => .inl rfl
  · intro tb' hm
    obtain ⟨tb, hmem, rfl⟩ := List.mem_map.1 hm
    rw [(scoped_place r dir tb).2.2.1]
    exact h tb hmem
  · exact commitJob_keeps (fun _ _ h k => h.of_mapKept k)
      (fun tb _ => h.of_modify rfl fun _ => .inr (Nat.zero_le 5)) h
  · exact writeStep_keeps (fun _ _ h k => h.of_mapKept k)
      (h.of_modify rfl fun tb => .inl (stepped_place st tb).2.2)

theorem attemptsLaw_kept : Kept AttemptsLaw :=
  kept_of_acts (fun _ _ h a => h.act a) fun _ _ hm => by cases hm

/-! ## The indication store (R150) -/

/-- What the store says of a tube's list: at most 16 records, in ascending position. -/
def ListFits (l : List Indication) : Prop :=
  l.length ≤ 16 ∧ l.Pairwise (fun a b => a.position ≤ b.position)

theorem Retubed.map_eq {α : Type} {R : Nat → Tube → Tube → Prop} {l m : List Tube} {g : Tube → α}
    (h : Retubed R l m) (hg : ∀ i tb tb', R i tb tb' → g tb' = g tb) : m.map g = l.map g := by
  apply List.ext_getElem?
  intro i
  rw [List.getElem?_map, List.getElem?_map]
  cases hl : l[i]? with
  | none =>
    cases hm : m[i]? with
    | none => rfl
    | some tb' => obtain ⟨tb, hl', -⟩ := h.bwd hm; rw [hl] at hl'; cases hl'
  | some tb =>
    obtain ⟨tb', hm, hR⟩ := h.fwd hl
    rw [hm, Option.map_some, Option.map_some, hg i tb tb' hR]

/-- The store law speaks of the free count and of the tubes' lists alone. -/
theorem StoreLaw.of_lists (h : StoreLaw s) (hf : t.free = s.free)
    (hl : t.tubes.map Tube.list = s.tubes.map Tube.list) : StoreLaw t := by
  have hsum : ∀ r : State, (r.tubes.map (fun tb => tb.list.length)) =
      (r.tubes.map Tube.list).map List.length := fun r => by rw [List.map_map]; rfl
  refine ⟨?_, fun tb hm => ?_⟩
  · rw [hf, hsum, hl, ← hsum]; exact h.1
  · have : tb.list ∈ s.tubes.map Tube.list := hl ▸ List.mem_map_of_mem hm
    obtain ⟨tb', hm', e⟩ := List.mem_map.1 this
    rw [← e]
    exact h.2 tb' hm'

theorem StoreLaw.of_mapKept (h : StoreLaw s) (k : MapKept s t) : StoreLaw t :=
  h.of_lists k.free (k.tubes.map_eq fun _ _ _ w => w.list)

theorem sum_set_add {l : List Tube} {i : Nat} {x y : Tube} (f : Tube → Nat) (h : l[i]? = some x) :
    ((l.set i y).map f).sum + f x = (l.map f).sum + f y := by
  induction l generalizing i with
  | nil => cases h
  | cons a l ih =>
    cases i with
    | zero => simp at h; subst h; simp; omega
    | succ i =>
      have := ih (i := i) (by simpa using h)
      simp only [List.set_cons_succ, List.map_cons, List.sum_cons]
      omega

/-- The store law with one tube's list rewritten, its records freed and others taken. -/
theorem StoreLaw.of_write {i : Nat} {tb : Tube} {f : Tube → Tube} (h : StoreLaw s)
    (ht : s.tubes[i]? = some tb) (htubes : t.tubes = s.tubes.modify i f)
    (hfree : t.free + (f tb).list.length = s.free + tb.list.length)
    (hfits : ListFits (f tb).list) : StoreLaw t := by
  rw [modify_of_get f ht] at htubes
  refine ⟨?_, fun x hm => ?_⟩
  · have hsum := sum_set_add (fun tb => tb.list.length) (y := f tb) ht
    have h1 := h.1
    rw [htubes]
    omega
  · rw [htubes] at hm
    rcases List.mem_or_eq_of_mem_set hm with hm | rfl
    · exact h.2 x hm
    · exact hfits

theorem keptOf_length (c : Curve) (l : List Located) : (keptOf c l).length ≤ 16 := by
  unfold keptOf
  rw [List.length_take]
  exact min_le_left _ _

/-- The list that a commit stores fits, and what it takes and leaves free is what was free and freed. -/
theorem sizeJob_store (j : Job) (st : Settings) (old : List Indication) (free : Nat) :
    ListFits (sizeJob j st old free).stored
      ∧ (sizeJob j st old free).free + (sizeJob j st old free).stored.length = free + old.length := by
  have hlen : (sizeJob j st old free).stored.length
      = min (keptOf st.curve j.records).length (free + old.length) := by
    show (ascending _).length = _
    rw [ascending, (sortBy_perm _ _).length_eq, List.length_take]
    omega
  have hk := keptOf_length st.curve j.records
  refine ⟨⟨by omega, ascending_sorted _⟩, ?_⟩
  rw [hlen]
  simp only [sizeJob]
  omega

/-- A step reads a list again in its places. -/
theorem stepped_list (st : Settings) (tb : Tube) :
    ∃ f : Indication → Indication, (tb.stepped st).list = tb.list.map f
      ∧ ∀ x, (f x).position = x.position := by
  unfold Tube.stepped
  split
  · exact ⟨id, (List.map_id _).symm, fun _ => rfl⟩
  · exact ⟨Indication.reread st.curve, rfl, fun _ => rfl⟩

theorem StoreLaw.stepping (h : StoreLaw s) (st : Settings) : StoreLaw (s.stepping st) := by
  cases ht : s.tubes[s.rescreen.cursor]? with
  | none =>
    refine h.of_lists rfl ?_
    show (s.tubes.modify _ _).map _ = _
    rw [List.modify_eq_self (List.getElem?_eq_none_iff.1 ht)]
  | some tb =>
    obtain ⟨f, hlist, hpos⟩ := stepped_list st tb
    have hfits := h.2 tb (List.mem_of_getElem? ht)
    refine h.of_write ht rfl (by rw [hlist, List.length_map]; rfl) ⟨?_, ?_⟩
    · rw [hlist, List.length_map]; exact hfits.1
    · rw [hlist, List.pairwise_map]
      simpa only [hpos] using hfits.2

theorem StoreLaw.addRow (h : StoreLaw s) (x : RowAddBody) : StoreLaw (s.addRow x) := by
  have hnew : ∀ tb ∈ newTubes x.row x.first x.columns, tb.list = [] := by
    intro tb hm
    rw [newTubes_eq] at hm
    obtain ⟨k, -, rfl⟩ := List.mem_map.1 hm
    rfl
  have hsum : ((newTubes x.row x.first x.columns).map (fun tb => tb.list.length)).sum = 0 := by
    rw [List.sum_eq_zero_iff]
    intro n hn
    obtain ⟨tb, hm, rfl⟩ := List.mem_map.1 hn
    rw [hnew tb hm]
    rfl
  refine ⟨?_, fun tb hm => ?_⟩
  · show s.free + ((s.tubes ++ newTubes x.row x.first x.columns).map _).sum = 8192
    rw [List.map_append, List.sum_append, hsum]
    exact h.1
  · rcases List.mem_append.1 hm with hm | hm
    · exact h.2 tb hm
    · rw [hnew tb hm]
      exact ⟨Nat.zero_le _, .nil⟩

theorem StoreLaw.of_empty (hf : s.free = 8192) (ht : s.tubes = []) : StoreLaw s := by
  simp [StoreLaw, hf, ht]

theorem StoreLaw.act (h : StoreLaw s) (a : Act s t) : StoreLaw t := by
  obtain k | ⟨rfl, -⟩ | ⟨x, rfl, -⟩ | ⟨i, st, rfl, -⟩ | ⟨r, dir, rfl, -⟩ | ⟨j, st, rfl, -⟩ | ⟨st, rfl⟩ :=
    a.map_cases
  · exact h.of_mapKept k
  · exact .of_empty rfl rfl
  · exact h.addRow x
  · refine h.of_lists rfl (Retubed.map_eq (R := fun _ tb tb' => tb'.list = tb.list) ?_ fun _ _ _ h => h)
    exact .modify (fun _ _ => rfl) fun _ _ => rfl
  · refine h.of_lists rfl ?_
    rw [List.map_map]
    exact List.map_congr_left fun tb _ => (scoped_place r dir tb).2.2.2.1
  · exact commitJob_keeps (fun _ _ h k => h.of_mapKept k) (fun tb ht =>
      h.of_write ht rfl (sizeJob_store j st tb.list s.free).2 (sizeJob_store j st tb.list s.free).1) h
  · exact writeStep_keeps (fun _ _ h k => h.of_mapKept k) (h.stepping st)

theorem storeLaw_kept : Kept StoreLaw :=
  kept_of_acts (fun _ _ h a => h.act a) fun _ => .of_empty rfl rfl

end Sys2Proof.Machine
end

section
/-!
The law of claims (R30) and the laws that tie pulls, jobs, claims and statuses together (R16, R39, R49).
Each action writes a slot together with the claim field of its tube (`State.claimWrite`), rewrites
records that no claim depends on, or moves a pull or a job that holds a slot.
-/

namespace Sys2Proof.Machine

variable {s t r : State} {p q : Port} {u v : Tag} {i k : Nat}

/-! ## The claim field and its slot -/

/-- The law of claims speaks of the plan state, the slots and the tubes' claim fields alone. -/
theorem ClaimLaw.of_retubed {R : Nat → Tube → Tube → Prop} (h : ClaimLaw s)
    (hp : t.planState = s.planState) (hc : t.claims = s.claims) (ht : Retubed R s.tubes t.tubes)
    (hR : ∀ i tb tb', R i tb tb' → tb'.claim = tb.claim) : ClaimLaw t := by
  have hslot : ∀ p u, t.slot p u = s.slot p u := fun p u => by rw [State.slot, State.slot, hc]
  refine ⟨fun p u cl hs => ?_, fun i tb' cf hi hcf => ?_, fun ha p u => ?_⟩
  · rw [hslot] at hs
    obtain ⟨tb, htb, hcf⟩ := h.slotTube p u cl hs
    obtain ⟨tb', htb', hw⟩ := ht.fwd htb
    exact ⟨tb', htb', (hR _ _ _ hw).trans hcf⟩
  · obtain ⟨tb, htb, hw⟩ := ht.bwd hi
    rw [hR _ _ _ hw] at hcf
    rw [hslot]
    exact h.tubeSlot i tb cf htb hcf
  · rw [hslot]
    exact h.onlyActive (hp ▸ ha) p u

/-- A slot written together with a tube record. -/
def State.claimWrite (s : State) (p : Port) (u : Tag) (x : Option Claim) (i : Nat) (tb : Tube) :
    State :=
  { s with claims := s.claims.set p ((s.claims.get p).set u x), tubes := s.tubes.set i tb }

theorem State.slot_claimWrite (s : State) (p q : Port) (u v : Tag) (x : Option Claim) (i : Nat)
    (tb : Tube) :
    (s.claimWrite p u x i tb).slot q v = if q = p ∧ v = u then x else s.slot q v :=
  s.slot_setSlot p q u v x

/-- What a slot holds and what the claim field of its tube says agree (R30). -/
def Agree (p : Port) (u : Tag) (i : Nat) (x : Option Claim) (cf : Option TubeClaim) : Prop :=
  x = none ∧ cf = none
    ∨ ∃ hold d, x = some ⟨i, hold, d⟩ ∧ cf = some ⟨p, u, decide (hold = .inPull)⟩

/-- The tube of a slot to be written: it is in the map, no other slot claims it, and the slot claims no
other tube. -/
structure State.Writable (s : State) (p : Port) (u : Tag) (i : Nat) (tb : Tube) : Prop where
  tube : s.tubes[i]? = some tb
  own : ∀ cf, tb.claim = some cf → cf.port = p ∧ cf.tag = u
  slot : ∀ cl, s.slot p u = some cl → cl.tube = i

theorem ClaimLaw.claimWrite {tb tb' : Tube} {x : Option Claim} (h : ClaimLaw s)
    (w : s.Writable p u i tb) (hx : Agree p u i x tb'.claim)
    (active : x ≠ none → s.planState = .active) : ClaimLaw (s.claimWrite p u x i tb') := by
  have hlt : i < s.tubes.length := (List.getElem?_eq_some_iff.1 w.tube).1
  refine ⟨fun q v cl hs => ?_, fun k tb'' cf hk hcf => ?_, fun ha q v => ?_⟩
  · rw [State.slot_claimWrite] at hs
    split at hs
    · next e =>
      obtain ⟨rfl, rfl⟩ := e
      obtain ⟨rfl, -⟩ | ⟨hold, d, rfl, hcf⟩ := hx
      · cases hs
      · cases hs
        exact ⟨tb', List.getElem?_set_self hlt, hcf⟩
    · next hne =>
      obtain ⟨tb0, htb0, hcf⟩ := h.slotTube q v cl hs
      have hi : i ≠ cl.tube := by
        rintro rfl
        rw [w.tube] at htb0
        cases htb0
        exact hne (w.own _ hcf)
      exact ⟨tb0, (List.getElem?_set_ne hi).trans htb0, hcf⟩
  · rw [State.slot_claimWrite]
    by_cases hi : i = k
    · subst hi
      rw [State.claimWrite, List.getElem?_set_self hlt] at hk
      cases hk
      obtain ⟨-, hn⟩ | ⟨hold, d, rfl, hcf'⟩ := hx
      · rw [hn] at hcf; cases hcf
      · rw [hcf'] at hcf
        cases hcf
        exact ⟨_, if_pos ⟨rfl, rfl⟩, rfl⟩
    · rw [State.claimWrite, List.getElem?_set_ne hi] at hk
      obtain ⟨cl, hs, hcl⟩ := h.tubeSlot k tb'' cf hk hcf
      refine ⟨cl, ?_, hcl⟩
      rw [if_neg]
      · exact hs
      · rintro ⟨e1, e2⟩
        rw [e1, e2] at hs
        exact hi ((w.slot cl hs).symm.trans hcl)
  · rw [State.slot_claimWrite]
    split
    · by_contra hne
      exact ha (active hne)
    · exact h.onlyActive ha q v

/-- A slot that holds a claim can be written with the tube it claims. -/
theorem ClaimLaw.writable (h : ClaimLaw s) {hold : Hold} {d : Bool}
    (hs : s.slot p u = some ⟨i, hold, d⟩) :
    ∃ tb, s.Writable p u i tb ∧ tb.claim = some ⟨p, u, decide (hold = .inPull)⟩ := by
  obtain ⟨tb, htb, hcf⟩ := h.slotTube p u _ hs
  refine ⟨tb, ⟨htb, fun cf e => ?_, fun cl e => ?_⟩, hcf⟩
  · rw [hcf] at e; cases e; exact ⟨rfl, rfl⟩
  · rw [hs] at e; cases e; rfl

theorem ClaimLaw.active_of_slot (h : ClaimLaw s) {cl : Claim} (hs : s.slot p u = some cl) :
    s.planState = .active := by
  by_contra hne
  rw [h.onlyActive hne p u] at hs
  cases hs

/-- Outside ACTIVE no tube is claimed. -/
theorem ClaimLaw.unclaimed (h : ClaimLaw s) (hp : s.planState ≠ .active) {tb : Tube}
    (hm : tb ∈ s.tubes) : tb.claim = none := by
  obtain ⟨i, hi⟩ := List.getElem?_of_mem hm
  cases hcf : tb.claim with
  | none => rfl
  | some cf =>
    obtain ⟨cl, hs, -⟩ := h.tubeSlot i tb cf hi hcf
    exact absurd (h.active_of_slot hs) hp

theorem ClaimLaw.of_free (ht : ∀ tb ∈ s.tubes, tb.claim = none) (hs : ∀ p u, s.slot p u = none) :
    ClaimLaw s where
  slotTube := fun p u cl e => by rw [hs] at e; cases e
  tubeSlot := fun i tb cf hi e => by rw [ht tb (List.mem_of_getElem? hi)] at e; cases e
  onlyActive := fun _ => hs

/-! ## The pulls and jobs that hold a slot -/

/-- Slot `u` of port `p` is held for tube `i` by a tube pull in flight or a job (R39, R49). -/
def State.Held (s : State) (p : Port) (u : Tag) (i : Nat) : Prop :=
  (∃ c, s.tubePull c p u i) ∨ ∃ j ∈ s.jobs, j.key = ((p, u), i)

/-- The tube pulls and jobs of `t` are among those of `s`. -/
structure HoldsLess (s t : State) : Prop where
  pulls : PullsLess s t
  jobs : (t.jobs.map Job.key).Subperm (s.jobs.map Job.key)

theorem Quiet.holdsLess (h : Quiet s t) : HoldsLess s t := ⟨h.pulls, h.jobs.subperm⟩

theorem ClaimsWritten.holdsLess (h : ClaimsWritten s t) : HoldsLess s t :=
  ⟨.of_eq h.chan h.pull, by rw [State.jobs, State.jobs, h.sizing]⟩

theorem mem_keys {j : Job} (h : j ∈ s.jobs) : j.key ∈ s.jobs.map Job.key := List.mem_map_of_mem h

theorem HoldsLess.held (h : HoldsLess s t) (hh : t.Held p u i) : s.Held p u i := by
  obtain ⟨c, hc⟩ | ⟨j, hj, hk⟩ := hh
  · exact .inl ⟨c, h.pulls c p u i hc⟩
  · obtain ⟨j', hj', hk'⟩ := List.mem_map.1 (h.jobs.subset (mem_keys hj))
    exact .inr ⟨j', hj', hk'.trans hk⟩

theorem PullLaw.pullsOn (h : PullLaw s) (hh : s.Held p u i) : s.pullsOn p u i := by
  obtain ⟨c, hc⟩ | ⟨j, hj, hk⟩ := hh
  · exact h.pulls c p u i hc
  · cases hk; exact h.jobs j hj

/-- The jobs hold their slots apart where their keys do (R39). -/
theorem jobsApart_iff (s : State) :
    s.jobs.Pairwise (fun j k => (j.port, j.tag) ≠ (k.port, k.tag))
      ↔ ((s.jobs.map Job.key).map Prod.fst).Nodup := by
  rw [List.map_map, List.Nodup, List.pairwise_map]
  rfl

/-! ## Statuses, claims and lists of a tube -/

/-- What a tube record says agrees with its status and the plan state: a claimed tube is open, an
excluded or PENDING one and every tube of a DRAFT holds no record (R16 to R18, R30). -/
structure Tube.Fits (tb : Tube) (plan : PlanState) : Prop where
  claimedOpen : tb.claim.isSome = true → tb.status.isOpen = true
  unlisted : tb.status = .noTube ∨ tb.status = .priorPlug ∨ tb.status = .outOfScope
    ∨ tb.status = .pending → tb.list = []
  draft : plan = .draft → tb.list = []

theorem PullLaw.fits (h : PullLaw s) {tb : Tube} (hm : tb ∈ s.tubes) : tb.Fits s.planState :=
  ⟨h.claimedOpen tb hm, h.unlisted tb hm, fun hp => h.draft hp tb hm⟩

theorem PullLaw.fits_at (h : PullLaw s) {tb : Tube} (hi : s.tubes[i]? = some tb) :
    tb.Fits s.planState := h.fits (List.mem_of_getElem? hi)

/-- The law from its parts: the claims, fewer holders on slots that stay in pull, and the records. -/
theorem PullLaw.of_less (h : PullLaw s) (hc : ClaimLaw t) (hl : HoldsLess s t)
    (hon : ∀ p u i, t.Held p u i → s.pullsOn p u i → t.pullsOn p u i)
    (hfits : ∀ tb ∈ t.tubes, tb.Fits t.planState) : PullLaw t where
  toClaimLaw := hc
  pulls := fun c p u i hp => hon p u i (.inl ⟨c, hp⟩) (h.pullsOn (hl.held (.inl ⟨c, hp⟩)))
  jobs := fun j hj => hon _ _ _ (.inr ⟨j, hj, rfl⟩) (h.pullsOn (hl.held (.inr ⟨j, hj, rfl⟩)))
  pullsApart := fun c d p u i k h1 h2 =>
    h.pullsApart c d p u i k (hl.pulls _ _ _ _ h1) (hl.pulls _ _ _ _ h2)
  jobsApart := by
    rw [jobsApart_iff]
    obtain ⟨l, hp, hs⟩ := hl.jobs
    exact (hp.map Prod.fst).nodup_iff.1 ((hs.map Prod.fst).nodup ((jobsApart_iff s).1 h.jobsApart))
  pullJob := fun c p u i hp j hj => by
    obtain ⟨j', hj', hk⟩ := List.mem_map.1 (hl.jobs.subset (mem_keys hj))
    have hne := h.pullJob c p u i (hl.pulls _ _ _ _ hp) j' hj'
    rw [show (j'.port, j'.tag) = (j.port, j.tag) from congrArg Prod.fst hk] at hne
    exact hne
  claimedOpen := fun tb hm => (hfits tb hm).claimedOpen
  unlisted := fun tb hm => (hfits tb hm).unlisted
  draft := fun hp tb hm => (hfits tb hm).draft hp

/-- With no slot filled nothing is pulled and no job stands. -/
theorem PullLaw.of_free (hl : HoldsLess s t) (h : PullLaw s) (hs : ∀ p u, s.slot p u = none)
    (hc : ClaimLaw t) (hfits : ∀ tb ∈ t.tubes, tb.Fits t.planState) : PullLaw t :=
  h.of_less hc hl (fun p u i _ hon => by
    obtain ⟨d, e⟩ := hon; rw [hs] at e; cases e) hfits

/-- The law speaks of the plan state, the slots, the holders, and the claims, statuses and lists of the
tubes. -/
theorem PullLaw.of_retubed {R : Nat → Tube → Tube → Prop} (h : PullLaw s) (hl : HoldsLess s t)
    (hp : t.planState = s.planState) (hc : t.claims = s.claims) (ht : Retubed R s.tubes t.tubes)
    (hR : ∀ i tb tb', s.tubes[i]? = some tb → R i tb tb' → tb'.claim = tb.claim
      ∧ tb'.Fits s.planState) : PullLaw t := by
  have ht' : Retubed (fun _ tb tb' => tb'.claim = tb.claim ∧ tb'.Fits s.planState) s.tubes t.tubes :=
    ht.mono hR
  refine h.of_less (h.toClaimLaw.of_retubed hp hc ht' fun _ _ _ hw => hw.1) hl ?_ ?_
  · rintro p u i - ⟨d, e⟩
    exact ⟨d, by rw [State.slot, hc]; exact e⟩
  · intro tb' hm
    obtain ⟨i, hi⟩ := List.getElem?_of_mem hm
    obtain ⟨tb, -, hw⟩ := ht'.bwd hi
    rw [hp]
    exact hw.2

theorem PullLaw.of_quiet (h : PullLaw s) (k : Quiet s t) : PullLaw t :=
  h.of_retubed (R := fun _ tb tb' => tb' = tb) k.holdsLess k.planState k.claims
    (by rw [k.tubes]; exact .refl fun _ _ _ => rfl) fun i tb tb' hi e => by
      subst e; exact ⟨rfl, h.fits_at hi⟩

/-- The tube of a held slot is claimed in pull, and it is open. -/
theorem PullLaw.held_tube (h : PullLaw s) (hh : s.Held p u i) :
    ∃ d tb, s.slot p u = some ⟨i, .inPull, d⟩ ∧ s.Writable p u i tb ∧ tb.status.isOpen = true := by
  obtain ⟨d, hs⟩ := h.pullsOn hh
  obtain ⟨tb, hw, hcf⟩ := h.toClaimLaw.writable hs
  exact ⟨d, tb, hs, hw, (h.fits_at hw.tube).claimedOpen (by rw [hcf]; rfl)⟩

/-- A slot that no pull and no job holds. -/
def State.Unheld (s : State) (p : Port) (u : Tag) : Prop := ∀ i, ¬ s.Held p u i

/-- A slot whose claim is not in pull is held by nothing. -/
theorem PullLaw.unheld (h : PullLaw s) (hs : ∀ i d, s.slot p u ≠ some ⟨i, .inPull, d⟩) :
    s.Unheld p u := fun i hh => by
  obtain ⟨d, e⟩ := h.pullsOn hh
  exact hs i d e

/-- A slot that nothing holds is written with its tube, whose record fits. -/
theorem PullLaw.claimWrite {tb tb' : Tube} {x : Option Claim} (h : PullLaw s)
    (w : s.Writable p u i tb) (hx : Agree p u i x tb'.claim)
    (active : x ≠ none → s.planState = .active) (hu : s.Unheld p u)
    (hfits : tb'.Fits s.planState) : PullLaw (s.claimWrite p u x i tb') := by
  have hl : HoldsLess s (s.claimWrite p u x i tb') := ⟨.of_eq rfl rfl, .refl _⟩
  refine h.of_less (h.toClaimLaw.claimWrite w hx active) hl ?_ fun tb'' hm => ?_
  · rintro q v k hh ⟨d, e⟩
    refine ⟨d, ?_⟩
    rw [State.slot_claimWrite, if_neg]
    · exact e
    · rintro ⟨rfl, rfl⟩
      exact hu k (hl.held hh)
  · rcases List.mem_or_eq_of_mem_set hm with hm | rfl
    · exact h.fits hm
    · exact hfits

end Sys2Proof.Machine
end

section
/-!
Every step keeps the laws that tie pulls, jobs, claims and statuses together (R16, R30, R39, R49): action
by action.
-/

namespace Sys2Proof.Machine

variable {s t r : State} {p q : Port} {u v : Tag} {i k : Nat} {c : Chan}

/-! ## Records that are rewritten -/

/-- A REPULL tube may be claimed and may hold records. -/
theorem Tube.Fits.of_repull {tb : Tube} {plan : PlanState} (hs : tb.status = .repull)
    (hp : plan = .draft → tb.list = []) : tb.Fits plan where
  claimedOpen := fun _ => by rw [hs]; rfl
  unlisted := fun e => by rw [hs] at e; rcases e with e | e | e | e <;> cases e
  draft := hp

theorem Tube.Fits.invalidated {tb : Tube} {plan : PlanState} (h : tb.Fits plan) :
    tb.invalidated.Fits plan := .of_repull rfl h.draft

theorem Tube.Fits.unclaim {tb : Tube} {plan : PlanState} (h : tb.Fits plan) :
    Tube.Fits { tb with claim := none } plan := ⟨nofun, h.unlisted, h.draft⟩

theorem classifyDepth_isDone (st : Settings) (worst : Option Depth) :
    (classifyDepth st worst).isDone = true := by
  unfold classifyDepth
  repeat' split
  all_goals rfl

/-- A done tube is neither excluded nor PENDING, so its record fits when it is not claimed. -/
theorem Tube.Fits.of_done {tb : Tube} {plan : PlanState} (hs : tb.status.isDone = true)
    (hc : tb.claim = none) (hp : plan = .draft → tb.list = []) : tb.Fits plan where
  claimedOpen := fun e => by rw [hc] at e; cases e
  unlisted := fun e => by rcases e with e | e | e | e <;> rw [e] at hs <;> cases hs
  draft := hp

theorem Tube.stepped_claim (st : Settings) (tb : Tube) : (tb.stepped st).claim = tb.claim := by
  unfold Tube.stepped; split <;> rfl

theorem Tube.Fits.stepped {tb : Tube} {plan : PlanState} (h : tb.Fits plan) (st : Settings) :
    (tb.stepped st).Fits plan := by
  unfold Tube.stepped
  split
  · exact h
  · next ho =>
    simp only [Tube.passedOver, Bool.or_eq_true, not_or] at ho
    have hc : tb.claim = none := by simpa using ho.1
    refine .of_done (classifyDepth_isDone _ _) hc fun hp => ?_
    show tb.list.map _ = []
    rw [h.draft hp, List.map_nil]

theorem Tube.Fits.scoped {tb : Tube} {plan : PlanState} (h : tb.Fits plan) (r : Rect) (dir : Nat) :
    (tb.scoped r dir).Fits plan := by
  unfold Tube.scoped
  split
  · next hm =>
    have hmove := (Bool.and_eq_true _ _ ▸ hm).2
    unfold Tube.moves at hmove
    split at hmove
    · simp only [Bool.and_eq_true, decide_eq_true_eq, Option.isNone_iff_eq_none] at hmove
      obtain ⟨hs, hc⟩ := hmove
      have hclaim : ¬ tb.claim.isSome = true := by rw [hc]; exact nofun
      exact ⟨fun e => absurd e hclaim, fun _ => h.unlisted (by simp [hs]), h.draft⟩
    · next hd =>
      have hs : tb.status = .outOfScope := of_decide_eq_true hmove
      simp only [hd, if_false]
      exact ⟨fun _ => rfl, fun _ => h.unlisted (by simp [hs]), h.draft⟩
  · exact h

/-- The invalidation of a channel's group keeps the law. -/
theorem PullLaw.invalidate (h : PullLaw s) (c : Chan) : PullLaw (s.invalidate c) := by
  refine h.of_retubed (R := fun _ tb tb' => tb' = tb ∨ tb' = tb.invalidated)
    ⟨.of_eq rfl rfl, .refl _⟩ rfl rfl (.invalidate (fun _ _ => .inl rfl) fun _ _ _ _ => .inr rfl) ?_
  rintro i tb tb' hi (rfl | rfl)
  · exact ⟨rfl, h.fits_at hi⟩
  · exact ⟨rfl, (h.fits_at hi).invalidated⟩

/-- One record rewritten, its claim the same. -/
theorem PullLaw.of_modify {f : Tube → Tube} (h : PullLaw s) (hl : HoldsLess s t)
    (hp : t.planState = s.planState) (hc : t.claims = s.claims) (ht : t.tubes = s.tubes.modify i f)
    (hf : ∀ tb, s.tubes[i]? = some tb → (f tb).claim = tb.claim ∧ (f tb).Fits s.planState) :
    PullLaw t := by
  refine h.of_retubed
    (R := fun k tb tb' => tb' = tb ∨ k = i ∧ s.tubes[i]? = some tb ∧ tb' = f tb) hl hp hc ?_ ?_
  · rw [ht]
    exact .modify (fun _ _ => .inl rfl) fun tb hi => .inr ⟨rfl, hi, rfl⟩
  · rintro k tb tb' hk (rfl | ⟨rfl, hi, rfl⟩)
    · exact ⟨rfl, h.fits_at hk⟩
    · exact hf tb hi

/-- The law does not speak of ports, plan, rows, units and the like. -/
theorem PullLaw.of_same (h : PullLaw s) (hp : t.planState = s.planState) (ht : t.tubes = s.tubes)
    (hc : t.claims = s.claims) (hl : HoldsLess s t) : PullLaw t :=
  h.of_retubed (R := fun _ tb tb' => tb' = tb) hl hp hc (by rw [ht]; exact .refl fun _ _ _ => rfl)
    fun i tb tb' hi e => by subst e; exact ⟨rfl, h.fits_at hi⟩

theorem HoldsLess.of_eq (hc : t.chan = s.chan) (hp : t.pull = s.pull) (hz : t.sizing = s.sizing) :
    HoldsLess s t := ⟨.of_eq hc hp, by rw [State.jobs, State.jobs, hz]⟩

theorem PullLaw.judged (h : PullLaw s) (hj : Judged s c t) : PullLaw t := by
  obtain ⟨u, rfl, -⟩ | rfl := hj
  · exact h.of_same rfl rfl rfl (.of_eq rfl rfl rfl)
  · exact h.invalidate c

theorem PullLaw.forceUnbind (h : PullLaw s) (c : Chan) : PullLaw (s.forceUnbind c) := by
  obtain ⟨ports, e⟩ := forceUnbind_parts s c
  rw [e]
  exact (h.invalidate c).of_same rfl rfl rfl
    ⟨.of_write (c := c) rfl rfl nofun nofun, .refl _⟩

theorem PullLaw.warnStore (h : PullLaw s) (n : Nat) : PullLaw (s.warnStore n) := by
  obtain ⟨ports, e⟩ := warnStore_parts s n
  rw [e]
  exact h.of_same rfl rfl rfl (.of_eq rfl rfl rfl)

/-! ## The plan states -/

/-- Outside ACTIVE no slot is filled, so the law speaks of the records alone. -/
theorem PullLaw.of_unclaimed (h : PullLaw s) (hs : ∀ p u, s.slot p u = none) (hl : HoldsLess s t)
    (hc : t.claims = s.claims) (ht : ∀ tb ∈ t.tubes, tb.claim = none ∧ tb.Fits t.planState) :
    PullLaw t := by
  refine .of_free hl h hs (.of_free (fun tb hm => (ht tb hm).1) fun p u => ?_) fun tb hm => (ht tb hm).2
  rw [State.slot, hc]
  exact hs p u

theorem PullLaw.newPlan (h : PullLaw s) (gate : s.planState = .empty ∨ s.planState = .draft
    ∨ s.planState = .closed ∧ s.lock = false) : PullLaw s.newPlan := by
  have hne : s.planState ≠ .active := by
    rcases gate with e | e | ⟨e, -⟩ <;> rw [e] <;> exact nofun
  exact h.of_unclaimed (h.onlyActive hne) (.of_eq rfl rfl rfl) rfl fun tb hm => by cases hm

theorem PullLaw.planOpen (h : PullLaw s) (draft : s.planState = .draft) :
    PullLaw { s with planState := .active } := by
  have hne : s.planState ≠ .active := by rw [draft]; exact nofun
  exact h.of_unclaimed (h.onlyActive hne) (.of_eq rfl rfl rfl) rfl fun tb hm =>
    ⟨h.toClaimLaw.unclaimed hne hm, (h.fits hm).claimedOpen, (h.fits hm).unlisted, nofun⟩

theorem PullLaw.planClose (h : PullLaw s) (quiet : s.inProgress = false) :
    PullLaw { s with planState := .closed } := by
  simp only [State.inProgress, Bool.or_eq_false_iff, List.any_eq_false, Option.not_isSome_iff_eq_none]
    at quiet
  obtain ⟨⟨⟨hfree, -⟩, -⟩, -⟩ := quiet
  refine h.of_unclaimed (fun p u => ?_) (.of_eq rfl rfl rfl) rfl fun tb hm =>
    ⟨hfree tb hm, (h.fits hm).claimedOpen, (h.fits hm).unlisted, nofun⟩
  cases hs : s.slot p u with
  | none => rfl
  | some cl =>
    obtain ⟨tb, htb, hcf⟩ := h.slotTube p u cl hs
    rw [hfree tb (List.mem_of_getElem? htb)] at hcf
    cases hcf

theorem PullLaw.addRow (h : PullLaw s) (draft : s.planState = .draft) (x : RowAddBody) :
    PullLaw (s.addRow x) := by
  have hne : s.planState ≠ .active := by rw [draft]; exact nofun
  refine h.of_unclaimed (h.onlyActive hne) (.of_eq rfl rfl rfl) rfl fun tb hm => ?_
  rcases List.mem_append.1 hm with hm | hm
  · exact ⟨h.toClaimLaw.unclaimed hne hm, h.fits hm⟩
  · rw [newTubes_eq] at hm
    obtain ⟨k, -, rfl⟩ := List.mem_map.1 hm
    exact ⟨rfl, nofun, fun _ => rfl, fun _ => rfl⟩

theorem PullLaw.mark (h : PullLaw s) (draft : s.planState = .draft) (i : Nat) (st : Status) :
    PullLaw (s.modTube i (fun tb => { tb with status := st })) := by
  have hne : s.planState ≠ .active := by rw [draft]; exact nofun
  refine h.of_modify (.of_eq rfl rfl rfl) rfl rfl rfl fun tb hi => ⟨rfl, ?_, fun _ => ?_, fun _ => ?_⟩
  · intro e
    rw [h.toClaimLaw.unclaimed hne (List.mem_of_getElem? hi)] at e
    cases e
  all_goals exact (h.fits_at hi).draft draft

theorem PullLaw.scope (h : PullLaw s) (r : Rect) (dir : Nat) :
    PullLaw { s with tubes := s.tubes.map (Tube.scoped r dir) } := by
  refine h.of_retubed (R := fun _ tb tb' => tb' = tb.scoped r dir) (.of_eq rfl rfl rfl) rfl rfl
    (.of_map (f := fun _ => Tube.scoped r dir) (fun _ => List.getElem?_map ..) fun _ _ _ => rfl) ?_
  rintro i tb _ hi rfl
  exact ⟨(scoped_place r dir tb).2.2.2.2, (h.fits_at hi).scoped r dir⟩

theorem PullLaw.repull (h : PullLaw s) (i : Nat) :
    PullLaw (s.modTube i (fun tb => { tb with status := .repull, attempts := 0 })) :=
  h.of_modify (.of_eq rfl rfl rfl) rfl rfl rfl fun _ hi =>
    ⟨rfl, .of_repull rfl (h.fits_at hi).draft⟩

/-! ## Claims -/

theorem PullLaw.grant (h : PullLaw s) {tb : Tube} (active : s.planState = .active)
    (empty : s.slot p u = none) (tube : s.tubes[i]? = some tb) (isOpen : tb.status.isOpen = true)
    (unclaimed : tb.claim = none) : PullLaw (s.grant p u i) := by
  rw [State.grant_eq tube]
  refine h.claimWrite ⟨tube, fun cf e => ?_, fun cl e => ?_⟩ (.inr ⟨_, _, rfl, rfl⟩) (fun _ => active)
    (h.unheld fun k d e => ?_) ⟨fun _ => isOpen, (h.fits_at tube).unlisted, (h.fits_at tube).draft⟩
  · rw [unclaimed] at e; cases e
  · rw [empty] at e; cases e
  · rw [empty] at e; cases e

/-- The end of a claim on a slot that nothing holds. -/
theorem PullLaw.dropClaim (h : PullLaw s) (hu : s.Unheld p u) : PullLaw (s.dropClaim p u) := by
  cases hs : s.slot p u with
  | none => rw [(State.claimOps_of_empty hs).2.2]; exact h
  | some cl =>
    obtain ⟨tb, hw, -⟩ := h.toClaimLaw.writable hs
    rw [State.dropClaim_eq hs hw.tube]
    exact h.claimWrite hw (.inl ⟨rfl, rfl⟩) (fun e => absurd rfl e) hu (h.fits_at hw.tube).unclaim

/-- A claim written with a new deadline or its marker set, on a slot that nothing holds. -/
theorem PullLaw.rehold (h : PullLaw s) {hold hold' : Hold} {d : Bool} {tb : Tube}
    (hs : s.slot p u = some ⟨i, hold, d⟩) (hw : s.Writable p u i tb)
    (hcf : tb.claim = some ⟨p, u, decide (hold = .inPull)⟩) (hu : s.Unheld p u) :
    PullLaw (s.claimWrite p u (some ⟨i, hold', d⟩) i
      { tb with claim := some ⟨p, u, decide (hold' = .inPull)⟩ }) :=
  h.claimWrite hw (.inr ⟨_, _, rfl, rfl⟩) (fun _ => h.toClaimLaw.active_of_slot hs) hu
    ⟨fun _ => (h.fits_at hw.tube).claimedOpen (by rw [hcf]; rfl), (h.fits_at hw.tube).unlisted,
      (h.fits_at hw.tube).draft⟩

theorem PullLaw.keepClaim (h : PullLaw s) (hu : s.Unheld p u) : PullLaw (s.keepClaim p u) := by
  cases hs : s.slot p u with
  | none => rw [(State.claimOps_of_empty hs).2.1]; exact h
  | some cl =>
    obtain ⟨tb, hw, hcf⟩ := h.toClaimLaw.writable hs
    rw [State.keepClaim_eq hs hw.tube]
    exact h.rehold (hold' := .leased _) hs hw hcf hu

theorem PullLaw.drop (h : PullLaw s) {cl : Claim} (slot : s.slot p u = some cl)
    (leased : cl.hold ≠ .inPull) : PullLaw (s.dropClaim p u) :=
  h.dropClaim (h.unheld fun i d e => leased (by rw [slot] at e; cases e; rfl))

theorem PullLaw.setPort (h : PullLaw s) (p : Port) (x : PortState) : PullLaw (s.setPort p x) :=
  h.of_same rfl rfl rfl (.of_eq rfl rfl rfl)

theorem PullLaw.expire (h : PullLaw s) (runOut : s.leaseRunOut p u = true) :
    PullLaw (s.expire p u) := by
  have hd : PullLaw (s.dropClaim p u) := by
    unfold State.leaseRunOut at runOut
    split at runOut
    · next hs => exact h.drop hs nofun
    · cases runOut
  unfold State.expire
  dsimp only
  split
  · exact hd
  · exact hd.setPort _ _

theorem PullLaw.revoke (h : PullLaw s) {tb : Tube} {cf : TubeClaim} (tube : s.tubes[i]? = some tb)
    (claim : tb.claim = some cf) (leased : cf.inPull = false) :
    PullLaw (if s.departedClaim cf.port cf.tag then s.dropClaim cf.port cf.tag
      else (s.dropClaim cf.port cf.tag).addRevoked cf.port cf.tag) := by
  have hd : PullLaw (s.dropClaim cf.port cf.tag) := by
    obtain ⟨cl, hs, rfl⟩ := h.tubeSlot i tb cf tube claim
    refine h.drop hs fun e => ?_
    obtain ⟨tb', htb', hcf⟩ := h.slotTube _ _ _ hs
    rw [tube] at htb'
    cases htb'
    rw [claim, e] at hcf
    have hpull := congrArg TubeClaim.inPull (Option.some.inj hcf)
    rw [leased] at hpull
    cases hpull
  split
  · exact hd
  · exact hd.setPort _ _

/-- A detach marks claims as departed, each on its tube and as held as before. -/
theorem slot_detachPort (s : State) (p q : Port) (v : Tag) :
    (s.detachPort p).slot q v = if q = p then (s.slot q v).map Claim.depart else s.slot q v := by
  simp only [State.detachPort, State.slot, State.setPort_claims, Quad.get_set]
  split
  · next e => subst e; rw [Quad.get_map]
  · rfl

theorem PullLaw.detach (h : PullLaw s) (p : Port) : PullLaw (s.detachPort p) := by
  have back : ∀ q v cl, (s.detachPort p).slot q v = some cl →
      ∃ cl', s.slot q v = some cl' ∧ cl'.tube = cl.tube ∧ cl'.hold = cl.hold := by
    intro q v cl e
    rw [slot_detachPort] at e
    split at e
    · obtain ⟨cl', hs, rfl⟩ := Option.map_eq_some_iff.1 e
      exact ⟨cl', hs, rfl, rfl⟩
    · exact ⟨cl, e, rfl, rfl⟩
  have forth : ∀ q v cl, s.slot q v = some cl →
      ∃ d, (s.detachPort p).slot q v = some ⟨cl.tube, cl.hold, d⟩ := by
    intro q v cl e
    rw [slot_detachPort, e]
    split
    · exact ⟨_, rfl⟩
    · exact ⟨_, rfl⟩
  refine h.of_less ⟨?_, ?_, ?_⟩ (.of_eq rfl rfl rfl) ?_ fun tb hm => h.fits hm
  · intro q v cl e
    obtain ⟨cl', hs, htube, hhold⟩ := back q v cl e
    obtain ⟨tb, htb, hcf⟩ := h.slotTube q v cl' hs
    exact ⟨tb, htube ▸ htb, hhold ▸ hcf⟩
  · intro i tb cf hi hcf
    obtain ⟨cl, hs, rfl⟩ := h.tubeSlot i tb cf hi hcf
    obtain ⟨d, e⟩ := forth _ _ cl hs
    exact ⟨_, e, rfl⟩
  · intro ha q v
    rw [slot_detachPort, h.onlyActive ha q v, Option.map_none, ite_self]
  · rintro q v i - ⟨d, e⟩
    exact forth q v _ e

/-! ## Pulls -/

/-- The slot of a tube pull is held by nothing once its channel has left the pull. -/
theorem PullLaw.unheld_of_left (h : PullLaw s) (hp : s.tubePull c p u i) (hl : HoldsLess s t)
    (left : ∀ p u i, ¬ t.tubePull c p u i) : t.Unheld p u := by
  rintro k (⟨d, hd⟩ | ⟨j, hj, hk⟩)
  · have hcd : c = d := h.pullsApart c d p u i k hp (hl.pulls _ _ _ _ hd)
    subst hcd
    exact left p u k hd
  · obtain ⟨j', hj', hk'⟩ := List.mem_map.1 (hl.jobs.subset (mem_keys hj))
    exact h.pullJob c p u i hp j' hj' (congrArg Prod.fst (hk'.trans hk))

/-- A channel that is written leaves its pull when its state is not PULLING. -/
theorem left_of_chan {x : Channel} (hc : t.chan = s.chan.set c x) (hx : x.state ≠ .pulling) :
    ∀ p u i, ¬ t.tubePull c p u i := by
  rintro p u i ⟨hs, -⟩
  rw [hc, Quad.get_set_same] at hs
  exact hx hs

/-- A tube pull begins on a slot that is in pull and that nothing holds. -/
theorem PullLaw.of_begun (h : PullLaw s) (hp : t.planState = s.planState) (ht : t.tubes = s.tubes)
    (hc : t.claims = s.claims) (hz : t.sizing = s.sizing) (hu : s.Unheld p u)
    (hon : s.pullsOn p u i)
    (hpulls : ∀ d q v k, t.tubePull d q v k → d = c ∧ q = p ∧ v = u ∧ k = i
      ∨ s.tubePull d q v k) : PullLaw t := by
  have hslot : ∀ q v k, s.pullsOn q v k → t.pullsOn q v k := by
    rintro q v k ⟨d, e⟩
    exact ⟨d, by rw [State.slot, hc]; exact e⟩
  have hjobs : t.jobs = s.jobs := by rw [State.jobs, State.jobs, hz]
  refine ⟨h.toClaimLaw.of_retubed (R := fun _ tb tb' => tb' = tb) hp hc
      (by rw [ht]; exact .refl fun _ _ _ => rfl) fun _ _ _ e => by rw [e],
    fun d q v k hd => ?_, fun j hj => ?_, fun d e q v k l hd he => ?_, hjobs ▸ h.jobsApart,
    fun d q v k hd j hj => ?_, ?_, ?_, ?_⟩
  · rcases hpulls d q v k hd with ⟨rfl, rfl, rfl, rfl⟩ | hd
    · exact hslot _ _ _ hon
    · exact hslot _ _ _ (h.pulls d q v k hd)
  · exact hslot _ _ _ (h.jobs j (hjobs ▸ hj))
  · rcases hpulls d q v k hd with ⟨rfl, rfl, rfl, rfl⟩ | hd <;>
      rcases hpulls e _ _ l he with ⟨he1, he2, he3, he4⟩ | he
    · exact he1.symm
    · exact absurd (.inl ⟨e, he⟩) (hu l)
    · rw [he2, he3] at hd
      exact absurd (.inl ⟨d, hd⟩) (hu k)
    · exact h.pullsApart d e q v k l hd he
  · rw [hjobs] at hj
    rcases hpulls d q v k hd with ⟨rfl, rfl, rfl, rfl⟩ | hd
    · intro e
      exact hu j.index (.inr ⟨j, hj, by rw [Job.key, e]⟩)
    · exact h.pullJob d q v k hd j hj
  · rw [ht]; exact h.claimedOpen
  · rw [ht]; exact h.unlisted
  · rw [ht, hp]; exact h.draft

/-- A job is queued on a slot that is in pull and that nothing holds. -/
theorem PullLaw.queueJob (h : PullLaw s) {j : Job} (hu : s.Unheld j.port j.tag)
    (hon : s.pullsOn j.port j.tag j.index) :
    PullLaw (s.setSizing { s.sizing with queue := s.sizing.queue ++ [j] }) := by
  have hjobs : (s.setSizing { s.sizing with queue := s.sizing.queue ++ [j] }).jobs.Perm
      (j :: s.jobs) := by
    simp only [State.jobs, State.setSizing_sizing, List.append_assoc, List.singleton_append]
    exact List.perm_middle
  refine ⟨⟨h.slotTube, h.tubeSlot, h.onlyActive⟩, h.pulls, fun k hk => ?_, h.pullsApart, ?_,
    fun c q v i hp k hk => ?_, h.claimedOpen, h.unlisted, h.draft⟩
  · rcases List.mem_cons.1 (hjobs.mem_iff.1 hk) with rfl | hk
    · exact hon
    · exact h.jobs k hk
  · refine hjobs.symm.pairwise (List.pairwise_cons.2 ⟨fun k hk e => ?_, h.jobsApart⟩)
      fun hne => hne.symm
    exact hu k.index (.inr ⟨k, hk, by rw [Job.key, ← e]⟩)
  · rcases List.mem_cons.1 (hjobs.mem_iff.1 hk) with rfl | hk
    · intro e
      cases e
      exact hu i (.inl ⟨c, hp⟩)
    · exact h.pullJob c q v i hp k hk

theorem PullLaw.startTube (h : PullLaw s) {deadline : Nat} {d : Bool} {tb : Tube}
    (slot : s.slot p u = some ⟨i, .leased deadline, d⟩) : PullLaw (s.startTube p u c i tb) := by
  obtain ⟨tb', hw, hcf⟩ := h.toClaimLaw.writable slot
  have hu : s.Unheld p u := h.unheld fun k d e => by rw [slot] at e; cases e
  have hm : PullLaw (s.markInPull p u) := by
    rw [State.markInPull_eq slot hw.tube]
    exact h.rehold (hold' := .inPull) slot hw hcf hu
  have hwrite := ClaimsWritten.markInPull s p u
  refine hm.of_begun (c := c) (p := p) (u := u) (i := i) rfl rfl rfl rfl
    (fun k hk => hu k (hwrite.holdsLess.held hk)) ?_ ?_
  · rw [State.markInPull_eq slot hw.tube]
    exact ⟨d, (s.slot_claimWrite p p u u _ i _).trans (if_pos ⟨rfl, rfl⟩)⟩
  · rintro e q v k ⟨hs, rec, tp, hr, ht, hport, htag, hindex⟩
    simp only [State.startTube, State.setPull_pull, State.setPull_chan, State.setChan_chan,
      State.setChan_pull, Quad.get_set] at hs hr
    split at hr
    · next he =>
      cases hr
      cases ht
      exact .inl ⟨he, hport.symm, htag.symm, hindex.symm⟩
    · next he =>
      rw [if_neg he] at hs
      exact .inr ⟨hs, rec, tp, hr, ht, hport, htag, hindex⟩

theorem PullLaw.abort (h : PullLaw s) (pulling : (s.chan.get c).state = .pulling) :
    PullLaw (s.abortPull c) := by
  unfold State.abortPull
  dsimp only
  generalize hx : ({ s.chan.get c with state := .ready, kind := none, waiting := [] } : Channel) = x
  generalize hk : ({ (s.pull.get c).discardOpen with latch := [], buffer := [] } : PullCtl) = k
  have hxs : x.state ≠ .pulling := by rw [← hx]; exact nofun
  have hl : HoldsLess s ((s.setPull c k).setChan c x) :=
    ⟨.of_write rfl rfl (fun e => absurd e hxs) fun e => absurd e hxs, .refl _⟩
  have h1 : PullLaw ((s.setPull c k).setChan c x) := h.of_same rfl rfl rfl hl
  split
  · exact h1
  · next rec hr =>
    split
    · next tp ht =>
      refine h1.keepClaim (h.unheld_of_left ⟨pulling, rec, tp, hr, ht, rfl, rfl, rfl⟩ hl ?_)
      exact left_of_chan (s := s.setPull c k) rfl hxs
    · exact h1.of_same rfl rfl rfl (.of_eq rfl rfl rfl)

/-- The error commit touches neither channels nor controllers, and neither touches it. -/
theorem errorCommit_setChan (s : State) (c : Chan) (k : PullCtl) (x : Channel) (p : Port) (u : Tag)
    (i : Nat) :
    ((s.errorCommit p u i).setPull c k).setChan c x
      = ((s.setPull c k).setChan c x).errorCommit p u i := by
  unfold State.errorCommit State.dropClaim State.keepClaim
  simp only [State.slot_modTube, State.setChan_tubes, State.setPull_tubes, State.slot_setChan,
    State.slot_setPull, State.setChan_plan, State.setPull_plan]
  cases s.tubes[i]? with
  | none => rfl
  | some tb =>
    by_cases hl : s.plan.attemptLimit ≤ attemptsAfter tb.attempts <;> simp only [hl, if_true, if_false]
      <;> cases s.slot p u <;> rfl

/-- The error commit on a slot that nothing holds. -/
theorem PullLaw.errorCommit (h : PullLaw s) (hon : s.pullsOn p u i) (hu : s.Unheld p u) :
    PullLaw (s.errorCommit p u i) := by
  obtain ⟨d, hs⟩ := hon
  obtain ⟨tb, hw, hcf⟩ := h.toClaimLaw.writable hs
  have hact := h.toClaimLaw.active_of_slot hs
  have hdraft : s.planState = .draft → tb.list = [] := (h.fits_at hw.tube).draft
  rcases Nat.lt_or_ge (attemptsAfter tb.attempts) s.plan.attemptLimit with hl | hl
  · rw [State.errorCommit_below hs hw.tube hl]
    exact h.claimWrite hw (.inr ⟨.leased _, _, rfl, rfl⟩) (fun _ => hact) hu
      (.of_repull rfl hdraft)
  · rw [State.errorCommit_at hs hw.tube hl]
    exact h.claimWrite hw (.inl ⟨rfl, rfl⟩) (fun e => absurd rfl e) hu (.of_done rfl rfl hdraft)

theorem PullLaw.errorEnd (h : PullLaw s) {rec : PullRecord} {tp : TubePull}
    (pull : s.pullsTube c rec tp) : PullLaw (s.errorEnd c rec tp) := by
  unfold State.errorEnd
  dsimp only
  rw [errorCommit_setChan]
  generalize hx : ({ s.chan.get c with state := .held, waiting := [] } : Channel) = x
  have hxs : x.state ≠ .pulling := by rw [← hx]; exact nofun
  have hl : ∀ k, HoldsLess s ((s.setPull c k).setChan c x) := fun k =>
    ⟨.of_write rfl rfl (fun e => absurd e hxs) fun e => absurd e hxs, .refl _⟩
  have h1 : ∀ k, PullLaw ((s.setPull c k).setChan c x) := fun k => h.of_same rfl rfl rfl (hl k)
  have hu : ∀ k, ((s.setPull c k).setChan c x).Unheld rec.port tp.tag := fun k =>
    h.unheld_of_left pull.tubePull (hl k) (left_of_chan (s := s.setPull c k) rfl hxs)
  exact (h1 _).errorCommit (h.pulls _ _ _ _ pull.tubePull) (hu _)

theorem PullLaw.jobEnd (h : PullLaw s) {rec : PullRecord} {tp : TubePull}
    (pull : s.pullsTube c rec tp) : PullLaw (s.jobEnd c rec tp) := by
  generalize hx : ({ s.chan.get c with state := .sizing, waiting := [] } : Channel) = x
  have hxs : x.state ≠ .pulling := by rw [← hx]; exact nofun
  have hl : HoldsLess s (s.setChan c x) := ⟨.of_chan rfl rfl fun e => absurd e hxs, .refl _⟩
  have e : s.jobEnd c rec tp = (s.setChan c x).setSizing
      { s.sizing with
        queue := s.sizing.queue ++ [jobOf c rec tp (s.pull.get c) (s.chan.get c).thin] } := by
    rw [← hx]; rfl
  have h1 : PullLaw (s.setChan c x) := h.of_same rfl rfl rfl hl
  have hu : (s.setChan c x).Unheld rec.port tp.tag :=
    h.unheld_of_left pull.tubePull hl (left_of_chan (s := s) rfl hxs)
  rw [e]
  exact h1.queueJob (j := jobOf c rec tp (s.pull.get c) (s.chan.get c).thin) hu
    (h.pulls _ _ _ _ pull.tubePull)

theorem PullLaw.endCal (h : PullLaw s) (c : Chan) (kind : PullKind) : PullLaw (s.endCal c kind) := by
  obtain ⟨v, u, k, ch, hv, e, -, hk, hch⟩ := endCal_parts s c kind
  rw [e]
  exact (h.judged hv).of_same rfl rfl rfl
    ⟨.of_write rfl rfl (fun e => by rw [hch] at e; cases e) fun _ => hk, .refl _⟩

/-! ## Sizing and re-screening -/

/-- The job in flight is the last of the jobs. -/
theorem jobs_of_flight {j : Job} {st : Settings} (hf : s.sizing.flight = some (j, st)) :
    s.jobs = (s.setSizing { s.sizing with flight := none }).jobs ++ [j] := by
  simp [State.jobs, hf]

theorem holdsLess_flight_none (s : State) :
    HoldsLess s (s.setSizing { s.sizing with flight := none }) := by
  refine ⟨.of_eq rfl rfl, (List.Sublist.map _ ?_).subperm⟩
  simp only [State.jobs, State.setSizing_sizing, Option.map_none, Option.toList_none, List.append_nil]
  exact List.sublist_append_left _ _

/-- The slot of the job in flight is held by nothing once the job has left the unit. -/
theorem PullLaw.unheld_of_flight (h : PullLaw s) {j : Job} {st : Settings}
    (hf : s.sizing.flight = some (j, st)) :
    (s.setSizing { s.sizing with flight := none }).Unheld j.port j.tag := by
  have hmem : j ∈ s.jobs := by rw [jobs_of_flight hf]; simp
  rintro i (⟨c, hc⟩ | ⟨k, hk, hkey⟩)
  · exact h.pullJob c _ _ i hc j hmem rfl
  · have hapart := h.jobsApart
    rw [jobs_of_flight hf, List.pairwise_append] at hapart
    exact hapart.2.2 k hk j (List.mem_singleton.2 rfl) (congrArg Prod.fst hkey)

theorem PullLaw.releaseChan (h : PullLaw s) (j : Job) (z : Sizing) :
    PullLaw (s.releaseChan j z) := by
  unfold State.releaseChan
  dsimp only
  split
  · exact h.forceUnbind j.chan
  · exact h.of_same rfl rfl rfl ⟨.of_write (c := j.chan) rfl rfl nofun nofun, .refl _⟩

theorem classify_isDone (st : Settings) (fault : Option PullFault) (worst : Option Depth) :
    (classify st fault worst).isDone = true := by
  unfold classify
  split
  · rfl
  · exact classifyDepth_isDone st worst

/-- The commit's writes to the map, on a claim that is in pull: the record without its claim, and the
slot empty. -/
theorem committing_dropClaim {j : Job} {tb : Tube} {d : Bool} (z : Sizing)
    (ht : s.tubes[j.index]? = some tb) (hs : s.slot j.port j.tag = some ⟨j.index, .inPull, d⟩) :
    (s.committing j z).dropClaim j.port j.tag
      = { (s.setSizing { s.sizing with flight := none }).claimWrite j.port j.tag none j.index
            { tb.committed j z with claim := none } with
          free := z.free, cal := groupsAfter s.cal j.chan j.index } := by
  have hlt : j.index < s.tubes.length := (List.getElem?_eq_some_iff.1 ht).1
  have ht' : (s.committing j z).tubes[j.index]? = some (tb.committed j z) := by
    simp only [State.committing, modify_of_get _ ht, List.getElem?_set_self hlt]
  rw [State.dropClaim_eq (i := j.index) (by exact hs) ht']
  simp only [State.committing, modify_of_get _ ht, List.set_set]
  rfl

theorem PullLaw.commit (h : PullLaw s) {j : Job} {st : Settings}
    (hf : s.sizing.flight = some (j, st)) : PullLaw (s.commitJob j st) := by
  have hl := holdsLess_flight_none s
  have h0 : PullLaw (s.setSizing { s.sizing with flight := none }) := h.of_same rfl rfl rfl hl
  have hmem : j ∈ s.jobs := by rw [jobs_of_flight hf]; simp
  obtain ⟨d, hs⟩ := h.jobs j hmem
  obtain ⟨tb, hw, -⟩ := h.toClaimLaw.writable hs
  have hact := h.toClaimLaw.active_of_slot hs
  rw [commitJob_of_tube hw.tube, committing_dropClaim _ hw.tube hs]
  generalize hz : sizeJob j st tb.list s.free = z
  have hdone : ({ tb.committed j z with claim := none } : Tube).status.isDone = true := by
    rw [← hz]; exact classify_isDone st j.fault _
  have h1 : PullLaw ((s.setSizing { s.sizing with flight := none }).claimWrite j.port j.tag none
      j.index { tb.committed j z with claim := none }) :=
    h0.claimWrite ⟨hw.tube, hw.own, hw.slot⟩ (.inl ⟨rfl, rfl⟩) (fun e => absurd rfl e)
      (h.unheld_of_flight hf) (.of_done hdone rfl fun e => by
        rw [show s.planState = .draft from e] at hact; cases hact)
  have h2 : PullLaw (State.warnStore _ s.free) := (h1.of_same rfl rfl rfl (.of_eq rfl rfl rfl) :
    PullLaw { (s.setSizing { s.sizing with flight := none }).claimWrite j.port j.tag none j.index
      { tb.committed j z with claim := none } with
        free := z.free, cal := groupsAfter s.cal j.chan j.index }).warnStore s.free
  exact h2.releaseChan j z

theorem PullLaw.stepWrite (h : PullLaw s) (st : Settings) : PullLaw (s.writeStep st) := by
  obtain ⟨ports, rescreen, e⟩ := writeStep_parts s st
  rw [e]
  exact h.of_modify ⟨.of_eq rfl rfl, .refl _⟩ rfl rfl rfl fun tb hi =>
    ⟨tb.stepped_claim st, (h.fits_at hi).stepped st⟩

/-! ## Resets, the tick, and all actions -/

theorem PullLaw.of_idle (hp : ∀ c, (s.chan.get c).state ≠ .pulling) (hj : s.jobs = [])
    (hs : ∀ p u, s.slot p u = none)
    (ht : ∀ tb ∈ s.tubes, tb.claim = none ∧ tb.Fits s.planState) : PullLaw s where
  toClaimLaw := .of_free (fun tb hm => (ht tb hm).1) hs
  pulls := fun c p u i h => absurd h.1 (hp c)
  jobs := fun j hm => by rw [hj] at hm; cases hm
  pullsApart := fun c d p u i k h _ => absurd h.1 (hp c)
  jobsApart := by rw [hj]; exact .nil
  pullJob := fun c p u i h => absurd h.1 (hp c)
  claimedOpen := fun tb hm => (ht tb hm).2.claimedOpen
  unlisted := fun tb hm => (ht tb hm).2.unlisted
  draft := fun hp tb hm => (ht tb hm).2.draft hp

theorem PullLaw.warm (h : PullLaw s) : PullLaw s.warm := by
  refine .of_idle (fun c => ?_) rfl (fun p u => ?_) fun tb' hm => ?_
  · show ((Quad.fill Channel.reset).get c).state ≠ .pulling
    rw [Quad.get_fill]
    exact nofun
  · show ((Quad.fill (Quad.fill none)).get p).get u = none
    rw [Quad.get_fill, Quad.get_fill]
  · obtain ⟨tb, hm', rfl⟩ := List.mem_map.1 hm
    obtain ⟨i, hi⟩ := List.getElem?_of_mem hm'
    obtain ⟨tb0, h0, rfl⟩ := Option.map_eq_some_iff.1 ((invalidateTubes_get _ _ i).symm.trans hi)
    refine ⟨rfl, Tube.Fits.unclaim ?_⟩
    split
    · exact (h.fits_at h0).invalidated
    · exact h.fits_at h0

theorem PullLaw.tick (h : PullLaw s) :
    PullLaw { s with seconds := s.seconds + 1 }.takeLeases.takeIntervals := by
  have h1 : PullLaw { s with seconds := s.seconds + 1 } := h.of_same rfl rfl rfl (.of_eq rfl rfl rfl)
  exact (takeLeases_keeps (fun _ _ _ h runOut => h.expire runOut) h1).of_quiet (.takeIntervals _)

theorem PullLaw.act (h : PullLaw s) (a : Act s t) : PullLaw t := by
  cases a with
  | quiet a => exact h.of_quiet a.quiet
  | newPlan gate _ => exact h.newPlan gate
  | planOpen draft => exact h.planOpen draft
  | planClose _ quiet => exact h.planClose quiet
  | planLock | planSet | standardSet | tracesSet => exact h.of_same rfl rfl rfl (.of_eq rfl rfl rfl)
  | curveSet _ l cv _ =>
    refine PullLaw.of_quiet ?_ (.settingsChanged _)
    exact h.of_same rfl rfl rfl (.of_eq rfl rfl rfl)
  | limitsSet _ x =>
    refine (PullLaw.of_quiet ?_ (.takeIntervals _)).of_quiet (.settingsChanged _)
    exact h.of_same rfl rfl rfl (.of_eq rfl rfl rfl)
  | addRow draft x _ _ _ => exact h.addRow draft x
  | mark draft i _ _ st _ _ => exact h.mark draft i st
  | scope _ r dir => exact h.scope r dir
  | repull _ i _ _ _ => exact h.repull i
  | grant active _ _ _ _ _ empty tube isOpen unclaimed =>
    exact h.grant active empty tube isOpen unclaimed
  | drop _ _ _ slot leased => exact h.drop slot leased
  | revoke _ _ _ tube claim leased => exact h.revoke tube claim leased
  | expire _ _ runOut => exact h.expire runOut
  | detach p => exact h.detach p
  | startTube _ _ _ _ _ _ _ _ _ _ _ slot _ => exact h.startTube slot
  | abort _ pulling => exact h.abort pulling
  | errorEnd _ _ _ pull => exact h.errorEnd pull
  | jobEnd _ _ _ pull => exact h.jobEnd pull
  | endCal c _ _ _ _ => exact h.endCal c _
  | commit _ _ flight => exact h.commit flight
  | stepWrite st _ => exact h.stepWrite st
  | forceUnbind c _ _ => exact h.forceUnbind c
  | warm => exact h.warm
  | tick => exact h.tick

theorem PullLaw.reset (l : List Instr) : PullLaw { State.reset with pending := l } :=
  .of_idle (by decide : ∀ c, (State.reset.chan.get c).state ≠ .pulling) rfl
    (by decide : ∀ p u, State.reset.slot p u = none) fun _ hm => by cases hm

/-- Settles O57: each action writes a slot with its tube's claim field, rewrites records that no claim
depends on, or moves a pull or a job that holds a slot. -/
theorem pullLawIsKept : Obligations.PullLawIsKept :=
  kept_of_acts (fun _ _ h a => h.act a) PullLaw.reset

end Sys2Proof.Machine
end

section
/-!
The plan lock and the times that run (R12, R37, R127): every step keeps their laws.
-/

namespace Sys2Proof.Machine

variable {s t r : State}

/-! ## The plan record, the plan state and the lock -/

/-- The plan state, the lock and the plan record are the same. -/
def PlanSame (s t : State) : Prop :=
  t.planState = s.planState ∧ t.lock = s.lock ∧ t.plan = s.plan

theorem PlanSame.trans (h : PlanSame s t) (k : PlanSame t r) : PlanSame s r :=
  ⟨k.1.trans h.1, k.2.1.trans h.2.1, k.2.2.trans h.2.2⟩

theorem ClaimsWritten.plan_same (h : ClaimsWritten s t) : PlanSame s t := ⟨h.planState, h.lock, h.plan⟩

theorem Quiet.plan_same (h : Quiet s t) : PlanSame s t := ⟨h.planState, h.lock, h.plan⟩

theorem releaseChan_plan (s : State) (j : Job) (z : Sizing) : PlanSame s (s.releaseChan j z) := by
  unfold State.releaseChan
  dsimp only
  split
  · obtain ⟨ports, e⟩ := forceUnbind_parts s j.chan
    rw [e]
    exact ⟨rfl, rfl, rfl⟩
  · exact ⟨rfl, rfl, rfl⟩

theorem commitJob_plan (s : State) (j : Job) (st : Settings) : PlanSame s (s.commitJob j st) := by
  cases ht : s.tubes[j.index]? with
  | none => rw [commitJob_of_none ht]; exact ⟨rfl, rfl, rfl⟩
  | some tb =>
    rw [commitJob_of_tube ht]
    generalize sizeJob j st tb.list s.free = z
    have hcommit : PlanSame s (s.committing j z) := ⟨rfl, rfl, rfl⟩
    refine ((hcommit.trans (ClaimsWritten.dropClaim _ j.port j.tag).plan_same).trans ?_).trans
      (releaseChan_plan _ j z)
    obtain ⟨ports, e⟩ := warnStore_parts ((s.committing j z).dropClaim j.port j.tag) s.free
    rw [e]
    exact ⟨rfl, rfl, rfl⟩

theorem errorCommit_plan (s : State) (p : Port) (u : Tag) (i : Nat) :
    PlanSame s (s.errorCommit p u i) := by
  unfold State.errorCommit
  split
  · exact ⟨rfl, rfl, rfl⟩
  · dsimp only
    split
    · exact (ClaimsWritten.dropClaim ..).plan_same
    · exact (ClaimsWritten.keepClaim ..).plan_same

theorem abortPull_plan (s : State) (c : Chan) : PlanSame s (s.abortPull c) := by
  unfold State.abortPull
  dsimp only
  split
  · exact ⟨rfl, rfl, rfl⟩
  · split
    · exact (ClaimsWritten.keepClaim ..).plan_same
    · exact ⟨rfl, rfl, rfl⟩

theorem Judged.plan_same {c : Chan} (h : Judged s c t) : PlanSame s t := by
  obtain ⟨u, rfl, -⟩ | rfl := h <;> exact ⟨rfl, rfl, rfl⟩

/-- What an action does to the plan: the plan state and the lock stay and the record is written only
where it may be edited, or the action is one of the four that move the plan state or set the lock. -/
theorem Act.plan_cases (h : Act s t) :
    (t.planState = s.planState ∧ t.lock = s.lock ∧ (t.plan = s.plan ∨ s.editable))
    ∨ (t = s.newPlan ∧ (s.planState = .empty ∨ s.planState = .draft
        ∨ s.planState = .closed ∧ s.lock = false))
    ∨ (t = { s with planState := .active } ∧ s.planState = .draft)
    ∨ (t = { s with planState := .closed } ∧ s.planState = .active)
    ∨ (t = { s with lock := true } ∧ s.planState = .active) := by
  have same : PlanSame s t → t.planState = s.planState ∧ t.lock = s.lock ∧ (t.plan = s.plan ∨ s.editable) :=
    fun h => ⟨h.1, h.2.1, .inl h.2.2⟩
  cases h with
  | quiet h => exact .inl (same h.quiet.plan_same)
  | newPlan gate _ => exact .inr (.inl ⟨rfl, gate⟩)
  | planOpen draft => exact .inr (.inr (.inl ⟨rfl, draft⟩))
  | planClose active _ => exact .inr (.inr (.inr (.inl ⟨rfl, active⟩)))
  | planLock active => exact .inr (.inr (.inr (.inr ⟨rfl, active⟩)))
  | planSet draft | standardSet draft => exact .inl ⟨rfl, rfl, .inr (.inl draft)⟩
  | curveSet edit _ c _ =>
    have k := Quiet.settingsChanged (s.setPlan { s.plan with curve := some c })
    exact .inl ⟨k.planState, k.lock, .inr edit⟩
  | limitsSet edit x =>
    have k := Quiet.settingsChanged (s.setPlan (s.plan.withLimits x.clamped)).takeIntervals
    exact .inl ⟨k.planState, k.lock, .inr edit⟩
  | tracesSet edit => exact .inl ⟨rfl, rfl, .inr edit⟩
  | addRow | mark | scope | repull | jobEnd | warm => exact .inl (same ⟨rfl, rfl, rfl⟩)
  | grant => exact .inl (same (ClaimsWritten.grant ..).plan_same)
  | drop => exact .inl (same (ClaimsWritten.dropClaim ..).plan_same)
  | revoke => exact .inl (same (ClaimsWritten.revoke ..).plan_same)
  | expire => exact .inl (same (ClaimsWritten.expire ..).plan_same)
  | detach => exact .inl (same (ClaimsWritten.detach ..).plan_same)
  | startTube p u => exact .inl (same (ClaimsWritten.markInPull s p u).plan_same)
  | abort c _ => exact .inl (same (abortPull_plan s c))
  | errorEnd c rec tp _ => exact .inl (same (errorCommit_plan s rec.port tp.tag tp.index))
  | endCal c rec _ _ _ =>
    obtain ⟨v, u, k, ch, hv, e, -⟩ := endCal_parts s c rec.kind
    refine .inl (same ?_)
    rw [e]
    exact hv.plan_same
  | commit j st _ => exact .inl (same (commitJob_plan s j st))
  | stepWrite st _ =>
    obtain ⟨ports, rescreen, e⟩ := writeStep_parts s st
    refine .inl (same ?_)
    rw [e]
    exact ⟨rfl, rfl, rfl⟩
  | forceUnbind c _ _ =>
    obtain ⟨ports, e⟩ := forceUnbind_parts s c
    refine .inl (same ?_)
    rw [e]
    exact ⟨rfl, rfl, rfl⟩
  | tick =>
    exact .inl (same (ClaimsWritten.takeLeases { s with seconds := s.seconds + 1 }).plan_same)

theorem LockLaw.act (h : LockLaw s) (a : Act s t) : LockLaw t := by
  intro hl
  obtain ⟨hp, hlock, -⟩ | ⟨rfl, -⟩ | ⟨rfl, -⟩ | ⟨rfl, -⟩ | ⟨rfl, hactive⟩ := a.plan_cases
  · rw [hp]; exact h (hlock ▸ hl)
  · cases hl
  · exact .inl rfl
  · exact .inr rfl
  · exact .inl hactive

theorem lockLaw_kept : Kept LockLaw := kept_of_acts (fun _ _ h a => h.act a) fun _ e => by cases e

/-- While the lock is set, nothing may be edited. -/
theorem LockLaw.not_editable (h : LockLaw s) (hl : s.lock = true) : ¬ s.editable := by
  rintro (e | ⟨-, e⟩)
  · rcases h hl with e' | e' <;> rw [e] at e' <;> cases e'
  · rw [hl] at e; cases e

/-! ## Deadlines and due counts -/

/-- The count and the two intervals are the same, a lease runs as before or begins now, and a channel is
CALIBRATED as before or since now. -/
structure TimesKept (s t : State) : Prop where
  seconds : t.seconds = s.seconds
  lease : t.plan.lease = s.plan.lease
  interval : t.plan.calInterval = s.plan.calInterval
  leases : ∀ p u i d b, t.slot p u = some ⟨i, .leased d, b⟩ →
    (∃ b', s.slot p u = some ⟨i, .leased d, b'⟩) ∨ d = s.leaseDeadline
  units : ∀ c, (t.cal.get c).state = .calibrated →
    ((s.cal.get c).state = .calibrated ∧ (t.cal.get c).lastGood = (s.cal.get c).lastGood)
      ∨ (t.cal.get c).lastGood = some s.now

theorem TimesKept.trans (h : TimesKept s t) (k : TimesKept t r) : TimesKept s r where
  seconds := k.seconds.trans h.seconds
  lease := k.lease.trans h.lease
  interval := k.interval.trans h.interval
  leases := by
    intro p u i d b e
    obtain ⟨b', e'⟩ | e' := k.leases p u i d b e
    · exact h.leases p u i d b' e'
    · exact .inr (by rw [e', State.leaseDeadline, State.now, h.seconds, h.lease]; rfl)
  units := by
    intro c e
    obtain ⟨e', hg⟩ | hg := k.units c e
    · rw [hg]; exact h.units c e'
    · exact .inr (by rw [hg, State.now, h.seconds]; rfl)

/-- The claims are the same and no unit is newly CALIBRATED. -/
theorem TimesKept.of_claims (hs : t.seconds = s.seconds) (hl : t.plan.lease = s.plan.lease)
    (hi : t.plan.calInterval = s.plan.calInterval) (hc : t.claims = s.claims)
    (hu : ∀ c, (t.cal.get c).state = .calibrated →
      (s.cal.get c).state = .calibrated ∧ (t.cal.get c).lastGood = (s.cal.get c).lastGood) :
    TimesKept s t :=
  ⟨hs, hl, hi, fun p u i d b e => .inl ⟨b, by rw [State.slot, ← hc]; exact e⟩,
    fun c e => .inl (hu c e)⟩

theorem TimesKept.refl (s : State) : TimesKept s s :=
  .of_claims rfl rfl rfl rfl fun _ h => ⟨h, rfl⟩

theorem Quiet.timesKept (h : Quiet s t) : TimesKept s t :=
  .of_claims h.seconds (by rw [h.plan]) (by rw [h.plan]) h.claims h.times

/-- One slot is written: emptied, put in pull, or leased from now. -/
theorem TimesKept.of_slot {p : Port} {u : Tag} {x : Option Claim} (hs : t.seconds = s.seconds)
    (hp : t.plan = s.plan) (hu : t.cal = s.cal)
    (hc : t.claims = s.claims.set p ((s.claims.get p).set u x))
    (hx : ∀ i d b, x = some ⟨i, .leased d, b⟩ → d = s.leaseDeadline) : TimesKept s t := by
  refine ⟨hs, by rw [hp], by rw [hp], fun q v i d b e => ?_, fun c e => .inl ?_⟩
  · have hslot : t.slot q v = if q = p ∧ v = u then x else s.slot q v := by
      rw [State.slot, hc]
      exact s.slot_setSlot p q u v x
    rw [hslot] at e
    split at e
    · exact .inr (hx i d b e)
    · exact .inl ⟨b, e⟩
  · rw [hu] at e ⊢
    exact ⟨e, rfl⟩

theorem TimesKept.dropClaim (s : State) (p : Port) (u : Tag) : TimesKept s (s.dropClaim p u) := by
  unfold State.dropClaim
  split
  · exact .of_slot rfl rfl rfl rfl fun _ _ _ e => by cases e
  · exact .refl s

theorem TimesKept.keepClaim (s : State) (p : Port) (u : Tag) : TimesKept s (s.keepClaim p u) := by
  unfold State.keepClaim
  split
  · exact .of_slot rfl rfl rfl rfl fun _ _ _ e => by cases e; rfl
  · exact .refl s

theorem TimesKept.markInPull (s : State) (p : Port) (u : Tag) : TimesKept s (s.markInPull p u) := by
  unfold State.markInPull
  split
  · exact .of_slot rfl rfl rfl rfl fun _ _ _ e => by cases e
  · exact .refl s

theorem TimesKept.grant (s : State) (p : Port) (u : Tag) (i : Nat) : TimesKept s (s.grant p u i) :=
  .of_slot rfl rfl rfl rfl fun _ _ _ e => by cases e; rfl

/-- A state with other links, records, channels, controllers, jobs and the like alone. -/
theorem TimesKept.of_times (hs : t.seconds = s.seconds) (hp : t.plan = s.plan)
    (hc : t.claims = s.claims) (hu : t.cal = s.cal) : TimesKept s t :=
  .of_claims hs (by rw [hp]) (by rw [hp]) hc fun c e => by rw [hu] at e ⊢; exact ⟨e, rfl⟩

theorem TimesKept.expire (s : State) (p : Port) (u : Tag) : TimesKept s (s.expire p u) := by
  unfold State.expire
  dsimp only
  split
  · exact .dropClaim s p u
  · exact (dropClaim s p u).trans (.of_times rfl rfl rfl rfl)

theorem TimesKept.revoke (s : State) (p : Port) (u : Tag) :
    TimesKept s (if s.departedClaim p u then s.dropClaim p u
      else (s.dropClaim p u).addRevoked p u) := by
  split
  · exact .dropClaim s p u
  · exact (dropClaim s p u).trans (.of_times rfl rfl rfl rfl)

theorem TimesKept.detach (s : State) (p : Port) : TimesKept s (s.detachPort p) := by
  refine ⟨rfl, rfl, rfl, fun q v i d b e => .inl ?_, fun c e => .inl ⟨e, rfl⟩⟩
  rw [slot_detachPort] at e
  split at e
  · obtain ⟨cl, hs, hcl⟩ := Option.map_eq_some_iff.1 e
    obtain ⟨tube, hold, departed⟩ := cl
    cases hcl
    exact ⟨departed, hs⟩
  · exact ⟨b, e⟩

theorem TimesKept.errorCommit (s : State) (p : Port) (u : Tag) (i : Nat) :
    TimesKept s (s.errorCommit p u i) := by
  have hmod : ∀ f, TimesKept s (s.modTube i f) := fun _ => .of_times rfl rfl rfl rfl
  unfold State.errorCommit
  split
  · exact .refl s
  · dsimp only
    split
    · exact (hmod _).trans (.dropClaim ..)
    · exact (hmod _).trans (.keepClaim ..)

theorem TimesKept.abort (s : State) (c : Chan) : TimesKept s (s.abortPull c) := by
  unfold State.abortPull
  dsimp only
  split
  · exact .of_times rfl rfl rfl rfl
  · split
    · refine TimesKept.trans ?_ (.keepClaim ..)
      exact .of_times rfl rfl rfl rfl
    · refine .of_claims rfl rfl rfl rfl fun d e => ?_
      exact (calm_set (cal := s.cal) (u := { s.cal.get c with capture := Capture.empty })
        ⟨rfl, fun h => ⟨h, rfl⟩⟩ d).2 e

/-- A unit that is written as not CALIBRATED, or as calm. -/
theorem TimesKept.of_unit {c : Chan} {u : CalUnit} (hs : t.seconds = s.seconds) (hp : t.plan = s.plan)
    (hc : t.claims = s.claims) (hu : t.cal = s.cal.set c u)
    (h : u.state = .calibrated → (s.cal.get c).state = .calibrated
        ∧ u.lastGood = (s.cal.get c).lastGood ∨ u.lastGood = some s.now) : TimesKept s t := by
  refine ⟨hs, by rw [hp], by rw [hp], fun p v i d b e => .inl ⟨b, by rw [State.slot, ← hc]; exact e⟩,
    fun d e => ?_⟩
  rw [hu, Quad.get_set] at e ⊢
  split at e
  · next hd => subst hd; simpa using h e
  · next hd => rw [if_neg hd]; exact .inl ⟨e, rfl⟩

theorem Judged.timesKept {c : Chan} (h : Judged s c t) : TimesKept s t := by
  obtain ⟨u, rfl, -, hg⟩ | rfl := h
  · exact .of_unit rfl rfl rfl rfl fun e => .inr (hg e)
  · exact .of_unit (u := { (s.cal.get c).drop with group := [] }) rfl rfl rfl rfl
      fun e => by cases e

theorem TimesKept.forceUnbind (s : State) (c : Chan) : TimesKept s (s.forceUnbind c) := by
  obtain ⟨ports, e⟩ := forceUnbind_parts s c
  rw [e]
  exact .of_unit (u := { (s.cal.get c).drop with group := [] }) rfl rfl rfl rfl
    fun e => by cases e

theorem TimesKept.endCal (s : State) (c : Chan) (kind : PullKind) :
    TimesKept s (s.endCal c kind) := by
  obtain ⟨v, u, k, ch, hv, e, hu, -⟩ := endCal_parts s c kind
  rw [e]
  exact hv.timesKept.trans (.of_unit rfl rfl rfl rfl fun h => .inl (hu.2 h))

theorem groupsAfter_times (cal : Quad CalUnit) (c : Chan) (i : Nat) (d : Chan)
    (h : ((groupsAfter cal c i).get d).state = .calibrated) :
    (cal.get d).state = .calibrated ∧ ((groupsAfter cal c i).get d).lastGood = (cal.get d).lastGood := by
  rw [groupsAfter, Quad.get_ofFn] at h ⊢
  split at h
  · next hd =>
    rw [if_pos hd]
    unfold CalUnit.joined at h ⊢
    dsimp only at h ⊢
    split at h
    · exact absurd h (CalUnit.due_not_calibrated _)
    · next hn => rw [if_neg hn]; exact ⟨h, rfl⟩
  · next hd => rw [if_neg hd]; exact ⟨h, rfl⟩

theorem TimesKept.commit (s : State) (j : Job) (st : Settings) : TimesKept s (s.commitJob j st) := by
  cases ht : s.tubes[j.index]? with
  | none => rw [commitJob_of_none ht]; exact .of_times rfl rfl rfl rfl
  | some tb =>
    rw [commitJob_of_tube ht]
    generalize sizeJob j st tb.list s.free = z
    have hcommit : TimesKept s (s.committing j z) :=
      .of_claims rfl rfl rfl rfl (groupsAfter_times s.cal j.chan j.index)
    refine ((hcommit.trans (.dropClaim _ j.port j.tag)).trans ?_).trans ?_
      (t := ((s.committing j z).dropClaim j.port j.tag).warnStore s.free)
    · obtain ⟨ports, e⟩ := warnStore_parts ((s.committing j z).dropClaim j.port j.tag) s.free
      rw [e]
      exact .of_times rfl rfl rfl rfl
    · unfold State.releaseChan
      dsimp only
      split
      · exact .forceUnbind ..
      · exact .of_times rfl rfl rfl rfl

/-! ## The law of times that run -/

theorem TimeLaw.of_kept (h : TimeLaw s) (k : TimesKept s t) : TimeLaw t where
  leases := by
    intro p u i d b e
    rw [State.now, k.seconds]
    obtain ⟨b', e'⟩ | rfl := k.leases p u i d b e
    · exact h.leases p u i d b' e'
    · have h1 := h.inForce.1
      simp only [State.leaseDeadline, State.now]
      omega
  intervals := by
    intro c e
    rw [State.now, k.seconds, k.interval]
    obtain ⟨e', hg⟩ | hg := k.units c e
    · rw [hg]; exact h.intervals c e'
    · have h1 := h.inForce.2
      exact ⟨s.now, hg, by simp only [State.now]; omega⟩
  inForce := by rw [k.lease, k.interval]; exact h.inForce

/-- Once the intervals that have passed are taken, those of the channels left CALIBRATED lie ahead. -/
theorem TimeLaw.takeIntervals (leases : ∀ p u i d b, s.slot p u = some ⟨i, .leased d, b⟩ → s.now < d)
    (good : ∀ c, (s.cal.get c).state = .calibrated → (s.cal.get c).lastGood ≠ none)
    (inForce : 1 ≤ s.plan.lease ∧ 1 ≤ s.plan.calInterval) : TimeLaw s.takeIntervals where
  leases := leases
  intervals := by
    intro c e
    rw [State.takeIntervals, Quad.get_ofFn] at e ⊢
    split at e
    · exact absurd e (CalUnit.due_not_calibrated _)
    · next hpassed =>
      rw [if_neg hpassed]
      obtain ⟨g, hg⟩ := Option.ne_none_iff_exists'.1 (good c e)
      have hahead : s.now < g + 60 * s.plan.calInterval := by
        simpa [State.intervalPassed, e, hg] using hpassed
      exact ⟨g, hg, hahead⟩
  inForce := inForce

theorem TimeLaw.good (h : TimeLaw s) (c : Chan) (e : (s.cal.get c).state = .calibrated) :
    (s.cal.get c).lastGood ≠ none := by
  obtain ⟨g, hg, -⟩ := h.intervals c e
  rw [hg]
  exact nofun

theorem defaults_inForce : 1 ≤ Plan.default.lease ∧ 1 ≤ Plan.default.calInterval := by decide

theorem TimeLaw.newPlan (h : TimeLaw s) : TimeLaw s.newPlan := by
  refine TimeLaw.takeIntervals h.leases (fun c e => ?_) defaults_inForce
  rw [Quad.get_map] at e ⊢
  exact h.good c e

theorem TimeLaw.limitsSet (h : TimeLaw s) (x : Limits) :
    TimeLaw (s.setPlan (s.plan.withLimits x.clamped)).takeIntervals.settingsChanged := by
  refine TimeLaw.of_kept ?_ (Quiet.settingsChanged _).timesKept
  refine TimeLaw.takeIntervals h.leases h.good ⟨?_, ?_⟩
  · exact le_trans (by decide) (le_max_left 30 (min 3600 x.lease))
  · exact le_trans (by decide) (le_max_left 30 (min 480 x.calInterval))

theorem TimeLaw.tick (h : TimeLaw s) :
    TimeLaw { s with seconds := s.seconds + 1 }.takeLeases.takeIntervals := by
  have hended := State.takeLeases_ended { s with seconds := s.seconds + 1 }
  have hw := ClaimsWritten.takeLeases { s with seconds := s.seconds + 1 }
  refine TimeLaw.takeIntervals (fun p u i d b e => ?_) (fun c e => ?_) ?_
  · by_cases hrun : ({ s with seconds := s.seconds + 1 } : State).leaseRunOut p u = true
    · rw [(hended.slots p u).1 hrun] at e
      cases e
    · rw [(hended.slots p u).2 hrun] at e
      rw [State.now, hw.seconds, ← State.now]
      simpa only [State.leaseRunOut, e, decide_eq_true_eq, not_le] using hrun
  · rw [hw.cal] at e ⊢
    exact h.good c e
  · rw [hw.plan]
    exact h.inForce

theorem TimeLaw.act (h : TimeLaw s) (a : Act s t) : TimeLaw t := by
  cases a with
  | quiet a => exact h.of_kept a.quiet.timesKept
  | newPlan => exact h.newPlan
  | limitsSet _ x => exact h.limitsSet x
  | tick => exact h.tick
  | planOpen | planClose | planLock | addRow | mark | scope | repull | jobEnd =>
    exact h.of_kept (.of_times rfl rfl rfl rfl)
  | planSet | standardSet => exact h.of_kept (.of_claims rfl rfl rfl rfl fun _ e => ⟨e, rfl⟩)
  | curveSet _ l c _ =>
    refine (h.of_kept ?_).of_kept (Quiet.settingsChanged _).timesKept
    exact .of_claims rfl rfl rfl rfl fun _ e => ⟨e, rfl⟩
  | tracesSet _ x =>
    refine h.of_kept (.of_claims rfl rfl rfl rfl fun c e => ?_)
    rw [State.setTraces, Quad.get_map] at e ⊢
    exact ⟨e, rfl⟩
  | grant => exact h.of_kept (.grant ..)
  | drop => exact h.of_kept (.dropClaim ..)
  | revoke => exact h.of_kept (.revoke ..)
  | expire => exact h.of_kept (.expire ..)
  | detach => exact h.of_kept (.detach ..)
  | startTube p u =>
    exact h.of_kept ((TimesKept.markInPull s p u).trans (.of_times rfl rfl rfl rfl))
  | abort c _ => exact h.of_kept (.abort s c)
  | errorEnd c rec tp _ =>
    exact h.of_kept ((TimesKept.errorCommit s rec.port tp.tag tp.index).trans
      (.of_times rfl rfl rfl rfl))
  | endCal c rec _ _ _ => exact h.of_kept (.endCal s c _)
  | commit j st _ => exact h.of_kept (.commit s j st)
  | stepWrite st _ =>
    obtain ⟨ports, rescreen, e⟩ := writeStep_parts s st
    rw [e]
    exact h.of_kept (.of_times rfl rfl rfl rfl)
  | forceUnbind c _ _ => exact h.of_kept (.forceUnbind s c)
  | warm =>
    refine ⟨fun p u i d b e => ?_, fun c e => ?_, h.inForce⟩
    · rw [show s.warm.slot p u = none by simp [State.warm, State.slot]] at e
      cases e
    · rw [show s.warm.cal = s.cal.map CalUnit.warm from rfl, Quad.get_map] at e
      cases e

theorem TimeLaw.reset (l : List Instr) : TimeLaw { State.reset with pending := l } where
  leases := fun p u i d b e => by
    rw [show State.slot { State.reset with pending := l } p u = none by
      simp [State.slot, State.reset]] at e
    cases e
  intervals := fun c e => by
    rw [show ({ State.reset with pending := l } : State).cal = Quad.fill CalUnit.reset from rfl,
      Quad.get_fill] at e
    cases e
  inForce := defaults_inForce

theorem timeLaw_kept : Kept TimeLaw := kept_of_acts (fun _ _ h a => h.act a) TimeLaw.reset

end Sys2Proof.Machine
end

section
/-!
The law of group tubes (R16, R24, R129, R130), and what the lock holds fast (R2, R12): every step keeps
them.
-/

namespace Sys2Proof.Machine

variable {s t r : State} {c : Chan} {i : Nat}

/-! ## The tubes that groups list -/

/-- CLEAR, REPORTABLE, PLUG, UNRESOLVED or REPULL: what a tube is that a group may list. -/
def Status.listable (st : Status) : Prop := st.isDone = true ∨ st = .repull

/-- Every tube that a group lists is done or REPULL (R129). -/
def State.Members (s : State) : Prop :=
  ∀ c i, i ∈ (s.cal.get c).group → ∃ tb, s.tubes[i]? = some tb ∧ tb.status.listable

/-- No group lists a tube that it did not list. -/
def GroupsLess (s t : State) : Prop := ∀ c i, i ∈ (t.cal.get c).group → i ∈ (s.cal.get c).group

theorem GroupsLess.of_eq (h : t.cal = s.cal) : GroupsLess s t := fun c i hi => by rwa [h] at hi

theorem GroupsLess.trans (h : GroupsLess s t) (k : GroupsLess t r) : GroupsLess s r :=
  fun c i hi => h c i (k c i hi)

theorem Quiet.groupsLess (h : Quiet s t) : GroupsLess s t := fun c i hi => by rwa [h.group] at hi

theorem ClaimsWritten.groupsLess (h : ClaimsWritten s t) : GroupsLess s t := .of_eq h.cal

/-- One unit is written, with no tube new to its group. -/
theorem GroupsLess.of_unit {u : CalUnit} (h : t.cal = s.cal.set c u)
    (hu : ∀ i ∈ u.group, i ∈ (s.cal.get c).group) : GroupsLess s t := by
  intro d i hi
  rw [h, Quad.get_set] at hi
  split at hi
  · next e => subst e; exact hu i hi
  · exact hi

theorem GroupsLess.invalidate (s : State) (c : Chan) : GroupsLess s (s.invalidate c) :=
  .of_unit (u := { (s.cal.get c).drop with group := [] }) (congrArg State.cal (invalidate_parts s c))
    fun i hi => by cases hi

theorem GroupsLess.forceUnbind (s : State) (c : Chan) : GroupsLess s (s.forceUnbind c) := by
  obtain ⟨ports, e⟩ := forceUnbind_parts s c
  exact .of_unit (congrArg State.cal e) fun i hi => by cases hi

theorem Judged.groupsLess (h : Judged s c t) : GroupsLess s t := by
  obtain ⟨u, rfl, hu, -⟩ | rfl := h
  · refine .of_unit rfl fun i hi => ?_
    rcases hu with hu | hu <;> rw [hu] at hi
    · exact hi
    · cases hi
  · exact .invalidate s c

theorem GroupsLess.endCal (s : State) (c : Chan) (kind : PullKind) :
    GroupsLess s (s.endCal c kind) := by
  obtain ⟨v, u, k, ch, hv, e, hu, -⟩ := endCal_parts s c kind
  rw [e]
  exact hv.groupsLess.trans (.of_unit rfl fun i hi => hu.1 ▸ hi)

theorem GroupsLess.abort (s : State) (c : Chan) : GroupsLess s (s.abortPull c) := by
  unfold State.abortPull
  dsimp only
  split
  · exact .of_eq rfl
  · split
    · exact (ClaimsWritten.keepClaim ..).groupsLess
    · exact .of_unit rfl fun i hi => hi

theorem GroupsLess.errorCommit (s : State) (p : Port) (u : Tag) (i : Nat) :
    GroupsLess s (s.errorCommit p u i) := by
  unfold State.errorCommit
  split
  · exact .of_eq rfl
  · dsimp only
    split
    · exact (ClaimsWritten.dropClaim ..).groupsLess
    · exact (ClaimsWritten.keepClaim ..).groupsLess

theorem GroupsLess.newPlan (s : State) : GroupsLess s s.newPlan := by
  intro c i hi
  have k := (Quiet.takeIntervals { s with
    plan := Plan.default, lock := false, rows := [], tubes := [], free := Config.poolSize
    cal := s.cal.map (fun u => { u with group := [] }), rescreen := Rescreen.reset
    planState := .draft }).groupsLess c i hi
  rw [Quad.get_map] at k
  cases k

/-- No action but the commit lists a tube that was not listed. -/
theorem Act.groups_cases (h : Act s t) :
    GroupsLess s t ∨ ∃ j st, t = s.commitJob j st ∧ s.sizing.flight = some (j, st) := by
  cases h with
  | commit j st flight => exact .inr ⟨j, st, rfl, flight⟩
  | quiet h => exact .inl h.quiet.groupsLess
  | newPlan => exact .inl (.newPlan s)
  | planOpen | planClose | planLock | planSet | standardSet | addRow | mark | scope | repull | grant
  | detach | jobEnd => exact .inl (.of_eq rfl)
  | curveSet _ l c _ =>
    exact .inl (Quiet.settingsChanged (s.setPlan { s.plan with curve := some c })).groupsLess
  | limitsSet _ x =>
    exact .inl ((Quiet.takeIntervals (s.setPlan (s.plan.withLimits x.clamped))).groupsLess.trans
      (Quiet.settingsChanged _).groupsLess)
  | tracesSet _ x =>
    refine .inl fun c i hi => ?_
    rw [State.setTraces, Quad.get_map] at hi
    exact hi
  | drop => exact .inl (ClaimsWritten.dropClaim ..).groupsLess
  | revoke => exact .inl (ClaimsWritten.revoke ..).groupsLess
  | expire => exact .inl (ClaimsWritten.expire ..).groupsLess
  | startTube p u => exact .inl (.of_eq (ClaimsWritten.markInPull s p u).cal)
  | abort c _ => exact .inl (.abort s c)
  | errorEnd c rec tp _ => exact .inl (GroupsLess.errorCommit s rec.port tp.tag tp.index)
  | endCal c rec _ _ _ => exact .inl (.endCal s c _)
  | stepWrite st _ =>
    obtain ⟨ports, rescreen, e⟩ := writeStep_parts s st
    exact .inl (.of_eq ((congrArg State.cal e).trans rfl))
  | forceUnbind c _ _ => exact .inl (.forceUnbind s c)
  | warm =>
    refine .inl fun c i hi => ?_
    rw [show s.warm.cal = s.cal.map CalUnit.warm from rfl, Quad.get_map] at hi
    cases hi
  | tick =>
    exact .inl ((ClaimsWritten.takeLeases { s with seconds := s.seconds + 1 }).groupsLess.trans
      (Quiet.takeIntervals _).groupsLess)

theorem State.Members.of_retubed {R : Nat → Tube → Tube → Prop} (h : s.Members) (hg : GroupsLess s t)
    (ht : Retubed R s.tubes t.tubes)
    (hR : ∀ i tb tb', R i tb tb' → tb.status.listable → tb'.status.listable) : t.Members := by
  intro c i hi
  obtain ⟨tb, htb, hs⟩ := h c i (hg c i hi)
  obtain ⟨tb', htb', hw⟩ := ht.fwd htb
  exact ⟨tb', htb', hR i tb tb' hw hs⟩

theorem TubeWrite.listable {tb tb' : Tube} (h : TubeWrite s i tb tb') (hs : tb.status.listable) :
    tb'.status.listable := by
  obtain e | ⟨e | ⟨why, e⟩, -⟩ := h.status
  · rw [e]; exact hs
  · exact .inr e
  · rw [e]; exact .inl rfl

theorem State.Members.of_mapKept (h : s.Members) (hg : GroupsLess s t) (k : MapKept s t) :
    t.Members := h.of_retubed hg k.tubes fun _ _ _ => TubeWrite.listable

/-- A re-screen step writes a done tube as done. -/
theorem stepped_status (st : Settings) (tb : Tube) :
    (tb.stepped st).status = tb.status
      ∨ tb.status.isDone = true ∧ (tb.stepped st).status.isDone = true := by
  unfold Tube.stepped
  split
  · exact .inl rfl
  · next ho =>
    refine .inr ⟨?_, classifyDepth_isDone _ _⟩
    simp only [Tube.passedOver, Bool.or_eq_true, not_or] at ho
    cases hs : tb.status <;> simp_all [Status.isDone]

/-- SCOPE_SET moves PENDING and OUT_OF_SCOPE tubes alone. -/
theorem scoped_status (r : Rect) (dir : Nat) (tb : Tube) (h : tb.status.listable) :
    (tb.scoped r dir).status = tb.status := by
  unfold Tube.scoped
  split
  · next hm =>
    have hmove := (Bool.and_eq_true _ _ ▸ hm).2
    unfold Tube.moves at hmove
    have hs : tb.status = .pending ∨ tb.status = .outOfScope := by
      split at hmove
      · exact .inl (of_decide_eq_true ((Bool.and_eq_true _ _ ▸ hmove).1))
      · exact .inr (of_decide_eq_true hmove)
    rcases hs with e | e <;> rw [e] at h <;> rcases h with h | h <;> cases h
  · rfl

/-! ## The commit -/

/-- After a commit a group lists the tubes it listed, and the tube of the commit. -/
theorem mem_groupsAfter {cal : Quad CalUnit} {k : Nat} {d : Chan}
    (h : i ∈ ((groupsAfter cal c k).get d).group) : i ∈ (cal.get d).group ∨ i = k := by
  have joined : i ∈ joinGroup k (cal.get d).group → i ∈ (cal.get d).group ∨ i = k := by
    unfold joinGroup
    split
    · exact .inl
    · simp
  rw [groupsAfter, Quad.get_ofFn] at h
  split at h
  · unfold CalUnit.joined at h
    dsimp only at h
    split at h
    · rw [(CalUnit.calm_due _).1] at h; exact joined h
    · exact joined h
  · exact .inl (List.mem_of_mem_filter h)

theorem committed_isDone (tb : Tube) (j : Job) (st : Settings) (old : List Indication) (n : Nat) :
    (tb.committed j (sizeJob j st old n)).status.isDone = true := classify_isDone st j.fault _

/-- The state before the channel is left: the record written, the claim ended and STORE_LOW told. -/
theorem State.Members.committing (h : s.Members) {j : Job} {st : Settings} {tb : Tube}
    (ht : s.tubes[j.index]? = some tb) :
    (((s.committing j (sizeJob j st tb.list s.free)).dropClaim j.port j.tag).warnStore s.free).Members
    := by
  generalize hz : sizeJob j st tb.list s.free = z
  have hlist : (tb.committed j z).status.listable := .inl (by rw [← hz]; exact committed_isDone ..)
  have hcommit : (s.committing j z).Members := by
    have hindex : (s.committing j z).tubes[j.index]? = some (tb.committed j z) := by
      simp [State.committing, ht]
    intro c i hi
    rcases mem_groupsAfter hi with hi | rfl
    · by_cases e : j.index = i
      · exact ⟨_, e ▸ hindex, hlist⟩
      · obtain ⟨tb', htb', hs⟩ := h c i hi
        exact ⟨tb', by simp [State.committing, htb', e], hs⟩
    · exact ⟨_, hindex, hlist⟩
  have hdrop := hcommit.of_mapKept (ClaimsWritten.dropClaim _ j.port j.tag).groupsLess
    (ClaimsWritten.dropClaim _ j.port j.tag).mapKept
  obtain ⟨ports, e⟩ := warnStore_parts ((s.committing j z).dropClaim j.port j.tag) s.free
  rw [e]
  exact hdrop

theorem State.Members.commitJob (h : s.Members) (j : Job) (st : Settings) :
    (s.commitJob j st).Members := by
  cases ht : s.tubes[j.index]? with
  | none => rw [commitJob_of_none ht]; exact h
  | some tb =>
    rw [commitJob_of_tube ht]
    refine (h.committing ht).of_mapKept ?_ (releaseChan_mapKept ..)
    unfold State.releaseChan
    dsimp only
    split
    · exact .forceUnbind _ _
    · exact .of_eq rfl

/-! ## The law of group tubes -/

theorem GroupLaw.listed (h : GroupLaw s) : s.Members := h.members

theorem GroupLaw.emptyInDraft (h : GroupLaw s) (draft : s.planState = .draft) (c : Chan) :
    (s.cal.get c).group = [] :=
  h.inPlan (by rw [draft]; exact nofun) (by rw [draft]; exact nofun) c

/-- Nothing to show where every group is empty. -/
theorem State.Members.of_empty (h : ∀ c, (s.cal.get c).group = []) : s.Members := fun c i hi => by
  rw [h] at hi; cases hi

theorem GroupLaw.members_act (h : GroupLaw s) (a : Act s t) : t.Members := by
  have draft : s.planState = .draft → GroupsLess s t → t.Members := fun hd hg =>
    .of_empty fun c => List.eq_nil_iff_forall_not_mem.2 fun i hi => by
      have := hg c i hi
      rw [h.emptyInDraft hd] at this
      cases this
  rcases a.groups_cases with hg | ⟨j, st, rfl, -⟩
  · obtain k | ⟨rfl, -⟩ | ⟨x, rfl, hd, -⟩ | ⟨i, st, rfl, hd⟩ | ⟨r, dir, rfl, -⟩ | ⟨j, st, rfl, -⟩
      | ⟨st, rfl⟩ := a.map_cases
    · exact h.listed.of_mapKept hg k
    · exact .of_empty fun c => by
        rw [State.newPlan, (Quiet.takeIntervals _).group, Quad.get_map]
    · exact draft hd hg
    · exact draft hd hg
    · refine h.listed.of_retubed (R := fun _ tb tb' => tb' = tb.scoped r dir) hg
        (.of_map (f := fun _ => Tube.scoped r dir) (fun _ => List.getElem?_map ..) fun _ _ _ => rfl)
        ?_
      rintro _ tb _ rfl hs
      rw [scoped_status r dir tb hs]
      exact hs
    · exact h.listed.commitJob j st
    · obtain ⟨ports, rescreen, e⟩ := writeStep_parts s st
      rw [e] at hg ⊢
      refine h.listed.of_retubed (R := fun _ tb tb' => tb.status.listable → tb'.status.listable) hg
        (.modify (fun _ _ => id) fun tb _ hs => ?_) fun _ _ _ hR => hR
      rcases stepped_status st tb with e | ⟨-, e⟩
      · rw [e]; exact hs
      · exact .inl e
  · exact h.listed.commitJob j st

theorem GroupLaw.act (h : GroupLaw s) (a : Act s t) : GroupLaw t where
  toPullLaw := h.toPullLaw.act a
  members := h.members_act a
  inPlan := by
    intro hactive hclosed c
    obtain ⟨hp, -⟩ | ⟨rfl, -⟩ | ⟨rfl, -⟩ | ⟨rfl, -⟩ | ⟨rfl, hp⟩ := a.plan_cases
    · rw [hp] at hactive hclosed
      rcases a.groups_cases with hg | ⟨j, st, -, flight⟩
      · refine List.eq_nil_iff_forall_not_mem.2 fun i hi => ?_
        have hi' := hg c i hi
        rw [h.inPlan hactive hclosed] at hi'
        cases hi'
      · obtain ⟨d, hs⟩ := h.jobs j (by rw [jobs_of_flight flight]; simp)
        exact absurd (h.active_of_slot hs) hactive
    · rw [State.newPlan, (Quiet.takeIntervals _).group, Quad.get_map]
    · exact absurd rfl hactive
    · exact absurd rfl hclosed
    · exact absurd hp hactive

theorem GroupLaw.reset (l : List Instr) : GroupLaw { State.reset with pending := l } where
  toPullLaw := PullLaw.reset l
  members := State.Members.of_empty (by decide : ∀ c, (State.reset.cal.get c).group = [])
  inPlan := fun _ _ => (by decide : ∀ c, (State.reset.cal.get c).group = [])

theorem groupLaw_kept : Kept GroupLaw := kept_of_acts (fun _ _ h a => h.act a) GroupLaw.reset

/-! ## What the lock holds fast -/

/-- The tube is OUT_OF_SCOPE. -/
def Tube.excluded (tb : Tube) : Bool := decide (tb.status = .outOfScope)

/-- The tube count and the set of OUT_OF_SCOPE tubes are the same. -/
def SameScope (s t : State) : Prop := t.tubes.map Tube.excluded = s.tubes.map Tube.excluded

theorem SameScope.trans (h : SameScope s t) (k : SameScope t r) : SameScope s r := Eq.trans k h

theorem SameScope.length (h : SameScope s t) : t.tubes.length = s.tubes.length := by
  simpa using congrArg List.length h

theorem SameScope.outOfScope_iff (h : SameScope s t) (i : Nat) :
    (∃ tb : Tube, s.tubes[i]? = some tb ∧ tb.status = .outOfScope)
      ↔ ∃ tb : Tube, t.tubes[i]? = some tb ∧ tb.status = .outOfScope := by
  have key : ∀ r : State, (∃ tb : Tube, r.tubes[i]? = some tb ∧ tb.status = .outOfScope)
      ↔ (r.tubes.map Tube.excluded)[i]? = some true := fun r => by
    simp [Tube.excluded]
  rw [key, key, h]

theorem SameScope.of_retubed {R : Nat → Tube → Tube → Prop} (h : Retubed R s.tubes t.tubes)
    (hR : ∀ i tb tb', s.tubes[i]? = some tb → R i tb tb' → tb'.excluded = tb.excluded) :
    SameScope s t :=
  (h.mono hR).map_eq fun _ _ _ e => e

theorem excluded_of_listable {tb : Tube} (h : tb.status.listable) : tb.excluded = false := by
  refine decide_eq_false fun e => ?_
  rw [e] at h
  rcases h with h | h <;> cases h

theorem excluded_of_open {tb : Tube} (h : tb.status.isOpen = true) : tb.excluded = false := by
  refine decide_eq_false fun e => ?_
  rw [e] at h
  cases h

/-- A tube that an action may write anew is not OUT_OF_SCOPE: it is done, pulled, or listed. -/
theorem GroupLaw.not_excluded (h : GroupLaw s) {tb : Tube} (ht : s.tubes[i]? = some tb)
    (hr : s.Rejudges i tb) : tb.excluded = false := by
  rcases hr with hdone | ⟨c, p, u, hpull⟩ | ⟨c, hgroup⟩
  · exact excluded_of_listable (.inl hdone)
  · obtain ⟨d, tb', -, hw, hopen⟩ := h.toPullLaw.held_tube (.inl ⟨c, hpull⟩)
    have htube := hw.tube
    rw [ht] at htube
    cases htube
    exact excluded_of_open hopen
  · obtain ⟨tb', ht', hs⟩ := h.listed c i hgroup
    rw [ht] at ht'
    cases ht'
    exact excluded_of_listable hs

theorem GroupLaw.sameScope_of_mapKept (h : GroupLaw s) (k : MapKept s t) : SameScope s t := by
  refine .of_retubed k.tubes fun i tb tb' ht hw => ?_
  obtain e | ⟨hs, hr⟩ := hw.status
  · rw [Tube.excluded, e]; rfl
  · rw [h.not_excluded ht hr]
    refine excluded_of_listable ?_
    rcases hs with e | ⟨why, e⟩
    · exact .inr e
    · rw [e]; exact .inl rfl

theorem State.Members.sameScope_releaseChan (h : s.Members) (j : Job) (z : Sizing) :
    SameScope s (s.releaseChan j z) := by
  unfold State.releaseChan
  dsimp only
  split
  · obtain ⟨ports, e⟩ := forceUnbind_parts s j.chan
    rw [e]
    refine .of_retubed
      (R := fun _ tb tb' => tb' = tb ∨ tb.excluded = false ∧ tb'.excluded = false)
      (.invalidate (fun _ _ => .inl rfl) fun i hi tb ht => .inr ?_) fun _ _ _ _ hR => ?_
    · obtain ⟨tb', ht', hs⟩ := h j.chan i hi
      rw [ht] at ht'
      cases ht'
      exact ⟨excluded_of_listable hs, excluded_of_listable (.inr rfl)⟩
    · rcases hR with rfl | ⟨e, e'⟩
      · rfl
      · rw [e, e']
  · rfl

theorem GroupLaw.sameScope_commit (h : GroupLaw s) {j : Job} {st : Settings}
    (flight : s.sizing.flight = some (j, st)) : SameScope s (s.commitJob j st) := by
  obtain ⟨d, tb, -, hw, hopen⟩ :=
    h.toPullLaw.held_tube (.inr ⟨j, by rw [jobs_of_flight flight]; simp, rfl⟩)
  rw [commitJob_of_tube hw.tube]
  refine SameScope.trans ?_ ((h.listed.committing hw.tube).sameScope_releaseChan j _)
  generalize hz : sizeJob j st tb.list s.free = z
  have hcommit : SameScope s (s.committing j z) := by
    refine .of_retubed (R := fun _ tb tb' => tb'.excluded = tb.excluded)
      (.modify (fun _ _ => rfl) fun tb' ht => ?_) fun _ _ _ _ e => e
    rw [hw.tube] at ht
    cases ht
    rw [excluded_of_open hopen, excluded_of_listable (.inl (by rw [← hz]; exact committed_isDone ..))]
  have hdrop : SameScope (s.committing j z) ((s.committing j z).dropClaim j.port j.tag) :=
    .of_retubed (ClaimsWritten.dropClaim _ j.port j.tag).tubes fun i tb' tb'' _ e => by
      rw [e]; rfl
  refine (hcommit.trans hdrop).trans ?_
  obtain ⟨ports, e⟩ := warnStore_parts ((s.committing j z).dropClaim j.port j.tag) s.free
  rw [e]
  rfl

/-- While the lock is set, an action leaves the tube count and the set of OUT_OF_SCOPE tubes. -/
theorem GroupLaw.sameScope (h : GroupLaw s) (hlock : LockLaw s) (hl : s.lock = true) (a : Act s t) :
    SameScope s t := by
  have fixed := hlock.not_editable hl
  obtain k | ⟨-, hp | hp | ⟨-, hp⟩⟩ | ⟨x, -, draft, -⟩ | ⟨i, st, -, draft⟩ | ⟨r, dir, -, edit⟩ | hc
    | ⟨st, rfl⟩ := a.map_cases
  · exact h.sameScope_of_mapKept k
  · rcases hlock hl with e | e <;> rw [hp] at e <;> cases e
  · exact absurd (.inl hp) fixed
  · rw [hl] at hp; cases hp
  · exact absurd (.inl draft) fixed
  · exact absurd (.inl draft) fixed
  · exact absurd edit fixed
  · obtain ⟨j, st, rfl, flight⟩ := hc
    exact h.sameScope_commit flight
  · obtain ⟨ports, rescreen, e⟩ := writeStep_parts s st
    rw [e]
    refine .of_retubed (R := fun _ tb tb' => tb'.excluded = tb.excluded)
      (.modify (fun _ _ => rfl) fun tb _ => ?_) fun _ _ _ _ e => e
    rcases stepped_status st tb with e | ⟨hd, hd'⟩
    · rw [Tube.excluded, e]; rfl
    · rw [excluded_of_listable (.inl hd), excluded_of_listable (.inl hd')]

/-- What a course of actions under the lock keeps: the lock, the plan record, and the scope. -/
structure HeldFast (s t : State) : Prop where
  law : LockLaw t
  lock : t.lock = true
  plan : t.plan = s.plan
  scope : GroupLaw s → GroupLaw t ∧ SameScope s t

theorem HeldFast.refl (h : LockLaw s) (hl : s.lock = true) : HeldFast s s :=
  ⟨h, hl, rfl, fun g => ⟨g, rfl⟩⟩

theorem HeldFast.act (h : HeldFast s t) (a : Act t r) : HeldFast s r where
  law := h.law.act a
  lock := by
    obtain ⟨-, e, -⟩ | ⟨-, hp | hp | ⟨-, hp⟩⟩ | ⟨-, hp⟩ | ⟨rfl, -⟩ | ⟨rfl, -⟩ := a.plan_cases
    · exact e.trans h.lock
    · rcases h.law h.lock with e | e <;> rw [hp] at e <;> cases e
    · exact absurd (.inl hp) (h.law.not_editable h.lock)
    · rw [h.lock] at hp; cases hp
    · exact absurd (.inl hp) (h.law.not_editable h.lock)
    · exact h.lock
    · rfl
  plan := by
    have fixed := h.law.not_editable h.lock
    obtain ⟨-, -, e | e⟩ | ⟨-, hp | hp | ⟨-, hp⟩⟩ | ⟨-, hp⟩ | ⟨rfl, -⟩ | ⟨rfl, -⟩ := a.plan_cases
    · exact e.trans h.plan
    · exact absurd e fixed
    · rcases h.law h.lock with e | e <;> rw [hp] at e <;> cases e
    · exact absurd (.inl hp) fixed
    · rw [h.lock] at hp; cases hp
    · exact absurd (.inl hp) fixed
    · exact h.plan
    · exact h.plan
  scope := fun g => by
    obtain ⟨gt, scope⟩ := h.scope g
    exact ⟨gt.act a, scope.trans (gt.sameScope h.law h.lock a)⟩

/-- Settles O54: the laws action by action; and under the lock no action may edit the plan, while those
that write statuses anew write tubes that are done, pulled or listed. -/
theorem storeAttemptAndLockLawsAreKept : Obligations.StoreAttemptAndLockLawsAreKept := by
  refine ⟨storeLaw_kept, attemptsLaw_kept, lockLaw_kept, groupLaw_kept, timeLaw_kept, ?_⟩
  intro c s t law lock hc h
  have held : HeldFast s t :=
    (exec_acts hc h).keeps (P := HeldFast s) (fun _ _ h a => h.act a) (.refl law lock)
  refine ⟨held.lock, held.plan, fun g => ?_⟩
  have scope := (held.scope g).2
  exact ⟨scope.length, scope.outOfScope_iff⟩

end Sys2Proof.Machine
end

section
/-!
SUPPORT. A request of the Tube Map that its port takes from the REVIEW station, and what the table of R2
makes of it by the plan state and the lock; and the refusals of that table.
-/

namespace Sys2Proof.Machine

variable {s t : State} {p : Port}

/-! ## A request of the REVIEW station -/

section
variable {α : Type} {code : Byte} {body out : List Byte} {fields : Option α} {x : α}
  (owner : α → Port → State → Answer) (why : RefusalCode)

theorem review_allows (role : (s.ports.get p).role = .review) :
    Rights.review.allows (s.ports.get p).role = true := decide_eq_true role

/-- A request that its owner refuses is answered REFUSED. -/
theorem review_refused (h : s.takes p ⟨code, body, false⟩) (role : (s.ports.get p).role = .review)
    (hx : fields = some x) (ho : owner x p s = .refused why) :
    request p code body .review fields owner s = .next (s.answered p 0xF1 [why.code]) := by
  rw [request_owner h (review_allows role) hx, ho, State.answer_refused]

/-- A request that its owner accepts is answered DONE. -/
theorem review_done (h : s.takes p ⟨code, body, false⟩) (role : (s.ports.get p).role = .review)
    (hx : fields = some x) (ho : owner x p s = .done t out) :
    request p code body .review fields owner s = .next (t.answered p 0xF0 out) := by
  rw [request_owner h (review_allows role) hx, ho, State.answer_done]

/-- A request that its owner refuses whatever its fields are. -/
theorem review_refused_any (h : s.takes p ⟨code, body, false⟩)
    (role : (s.ports.get p).role = .review) (hx : fields.isSome = true)
    (ho : ∀ x, owner x p s = .refused why) :
    request p code body .review fields owner s = .next (s.answered p 0xF1 [why.code]) := by
  obtain ⟨x, hx⟩ := Option.isSome_iff_exists.1 hx
  exact review_refused owner why h role hx (ho x)

end

/-! ## The table of R2 -/

section
variable {own : Answer}

theorem gated_state {gate : PlanState → Gate} (h : gate s.planState = .state) :
    gated gate s own = .refused .state := by rw [gated, h]

theorem gated_locked {gate : PlanState → Gate} (h : gate s.planState = .unlessLocked)
    (lock : s.lock = true) : gated gate s own = .refused .locked := by rw [gated, h]; exact if_pos lock

theorem gated_draft (h : s.planState = .draft) : gated gateDraft s own = own := by rw [gated, h]; rfl

theorem gated_active (h : s.planState = .active) : gated gateActive s own = own := by
  rw [gated, h]; rfl

theorem gated_edit (h : s.editable) : gated gateEdit s own = own := by
  rcases h with h | ⟨h, lock⟩
  · rw [gated, h]; rfl
  · rw [gated, h]
    exact if_neg (by rw [lock]; exact nofun)

theorem gated_new (h : s.planState = .empty ∨ s.planState = .draft
    ∨ s.planState = .closed ∧ s.lock = false) : gated gateNew s own = own := by
  rcases h with h | h | ⟨h, lock⟩
  · rw [gated, h]; rfl
  · rw [gated, h]; rfl
  · rw [gated, h]
    exact if_neg (by rw [lock]; exact nofun)

end

theorem gateDraft_other {q : PlanState} (h : q ≠ .draft) : gateDraft q = .state := by
  cases q with
  | draft => exact absurd rfl h
  | empty | active | closed => rfl

theorem gateActive_other {q : PlanState} (h : q ≠ .active) : gateActive q = .state := by
  cases q with
  | active => exact absurd rfl h
  | empty | draft | closed => rfl

theorem gateEdit_other {q : PlanState} (h : q = .empty ∨ q = .closed) : gateEdit q = .state := by
  rcases h with rfl | rfl <;> rfl

/-! ## Bodies of fixed length -/

section
variable {l : List Byte}

theorem readPlace_isSome (h : l.length = 4) : (readPlace l).isSome = true := by
  match l, h with
  | [_, _, _, _], _ => rfl

theorem readPlaceAnd_isSome (h : l.length = 5) : (readPlaceAnd l).isSome = true := by
  match l, h with
  | [_, _, _, _, _], _ => rfl

theorem readStandard_isSome (h : l.length = 7) : (readStandard l).isSome = true := by
  match l, h with
  | [_, _, _, _, _, _, _], _ => rfl

theorem readRowAdd_isSome (h : l.length = 7) : (readRowAdd l).isSome = true := by
  match l, h with
  | [_, _, _, _, _, _, _], _ => rfl

theorem readScope_isSome (h : l.length = 9) : (readScope l).isSome = true := by
  match l, h with
  | [_, _, _, _, _, _, _, _, _], _ => rfl

theorem readLimits_isSome (h : l.length = 18) : (readLimits l).isSome = true := by
  match l, h with
  | [_, _, _, _, _, _, _, _, _, _, _, _, _, _, _, _, _, _], _ => rfl

end

/-! ## The refusals of the table -/

/-- A code of a request names its command. -/
theorem command_of_code {i : Instr} {code : Byte} {body : List Byte} {n : Nat}
    (h : requestOfCode p code body = some i) (hn : code.toNat = n) (hlt : n < 256) :
    code = BitVec.ofNat 8 n ∧ requestOfCode p (BitVec.ofNat 8 n) body = some i := by
  have hc : code = BitVec.ofNat 8 n := BitVec.eq_of_toNat_eq (by rw [toNat_ofNat8 n hlt, hn])
  exact ⟨hc, hc ▸ h⟩

/-- Settles O13: the row of R2 of each request, before its own rule. -/
theorem planStatesGateTheMapRequests : Obligations.PlanStatesGateTheMapRequests := by
  intro i p code body s hi h role
  refine ⟨?_, ?_, ?_, ?_⟩
  · rintro hc rfl
    obtain ⟨rfl, hi⟩ := command_of_code hi hc (by decide)
    cases hi
    have gate : ∀ why, (∀ own, gated gateNew s own = .refused why) →
        Refuses (.planNew p []) s p why.code :=
      fun why gate => review_refused ownPlanNew why h role rfl (gate _)
    exact ⟨fun hp => gate .state fun _ => gated_state (by rw [hp]; rfl),
      fun hp lock => gate .locked fun _ => gated_locked (by rw [hp]; rfl) lock⟩
  · intro hc hp
    have gate : ∀ own, gated gateDraft s own = .refused .state :=
      fun _ => gated_state (gateDraft_other hp)
    obtain ⟨hc, hb⟩ | ⟨hc, hb⟩ | ⟨hc, hb⟩ | ⟨hc, hb⟩ | ⟨hc, rfl⟩ := hc
      <;> obtain ⟨rfl, hi⟩ := command_of_code hi hc (by decide) <;> cases hi
    · exact review_refused_any ownPlanSet .state h role hb fun _ => gate _
    · exact review_refused_any ownStandardSet .state h role (readStandard_isSome hb) fun _ => gate _
    · exact review_refused_any ownRowAdd .state h role (readRowAdd_isSome hb) fun _ => gate _
    · exact review_refused_any ownTubeMark .state h role (readPlaceAnd_isSome hb) fun _ => gate _
    · exact review_refused ownPlanOpen .state h role rfl (gate _)
  · intro hc
    have gate : ∀ why, (∀ own, gated gateEdit s own = .refused why) →
        Refuses i s p why.code := by
      intro why gate
      obtain ⟨hc, hb⟩ | ⟨hc, hb⟩ | ⟨hc, hb⟩ | ⟨hc, hb⟩ := hc
        <;> obtain ⟨rfl, hi⟩ := command_of_code hi hc (by decide) <;> cases hi
      · exact review_refused_any ownCurveSet why h role hb fun _ => gate _
      · exact review_refused_any ownLimitsSet why h role (readLimits_isSome hb) fun _ => gate _
      · exact review_refused_any ownTracesSet why h role hb fun _ => gate _
      · exact review_refused_any ownScopeSet why h role (readScope_isSome hb) fun _ => gate _
    exact ⟨fun hp => gate .state fun _ => gated_state (gateEdit_other hp),
      fun hp lock => gate .locked fun _ => gated_locked (by rw [hp]; rfl) lock⟩
  · intro hc hp
    have gate : ∀ own, gated gateActive s own = .refused .state :=
      fun _ => gated_state (gateActive_other hp)
    obtain ⟨hc, rfl⟩ | ⟨hc, rfl⟩ | ⟨hc, hb⟩ := hc
      <;> obtain ⟨rfl, hi⟩ := command_of_code hi hc (by decide) <;> cases hi
    · exact review_refused ownPlanLock .state h role rfl (gate _)
    · exact review_refused ownPlanClose .state h role rfl (gate _)
    · exact review_refused_any ownTubeRepull .state h role (readPlace_isSome hb) fun _ => gate _

end Sys2Proof.Machine
end

section
/-!
PLAN_NEW, PLAN_OPEN, PLAN_CLOSE, PLAN_LOCK, PLAN_SET and STANDARD_SET (R3 to R7, R12).
-/

namespace Sys2Proof.Machine

variable {s : State} {p : Port}

/-! ## PLAN_NEW -/

/-- The interval expiries: CHECK_DUE for each CALIBRATED channel whose interval has passed (R127). -/
theorem State.takeIntervals_eq (s : State) :
    s.takeIntervals = { s with
      cal := s.cal.map (fun u =>
        if u.state = .calibrated
            ∧ u.lastGood.any (fun g => decide (g + 60 * s.plan.calInterval ≤ s.now)) = true then
          { u with state := .checkDue }
        else u) } := by
  have hcal : s.takeIntervals.cal = s.cal.map (fun u =>
      if u.state = .calibrated
          ∧ u.lastGood.any (fun g => decide (g + 60 * s.plan.calInterval ≤ s.now)) = true then
        { u with state := .checkDue }
      else u) := by
    refine Quad.ext_get fun c => ?_
    rw [State.takeIntervals, Quad.get_ofFn, Quad.get_map]
    cases hs : (s.cal.get c).state <;> cases hg : (s.cal.get c).lastGood <;>
      simp [State.intervalPassed, CalUnit.due, hs, hg]
  rw [← hcal]
  rfl

/-- What PLAN_NEW leaves: every group empty, and the expiries that 240 minutes cause. -/
theorem State.newPlan_eq (s : State) :
    s.newPlan = { s with
      planState := .draft
      plan := Plan.default
      lock := false
      rows := []
      tubes := []
      free := Config.poolSize
      rescreen := Rescreen.reset
      cal := s.cal.map (fun u =>
        if u.state = .calibrated
            ∧ u.lastGood.any (fun g => decide (g + 60 * 240 ≤ s.now)) = true then
          { u with group := [], state := .checkDue }
        else { u with group := [] }) } := by
  rw [State.newPlan, State.takeIntervals_eq]
  rfl

/-- No calibration pull is in flight, as the check of PLAN_NEW and STANDARD_SET says it. -/
theorem anyCalInFlight_eq_false : s.anyCalInFlight = false ↔ s.noCalPull := by
  rw [← Bool.not_eq_true, anyCalInFlight_iff, not_not]

/-- Settles O14: the one action of an accepted PLAN_NEW, with the expiries written out. -/
theorem planNewStartsADraft : Obligations.PlanNewStartsADraft := by
  intro s p h role gate
  have own : ∀ a, ownPlanNew () p s = a ↔
      (if s.anyCalInFlight then Answer.refused .busy else .done s.newPlan []) = a := fun a => by
    rw [ownPlanNew, gated_new gate]
  refine ⟨fun quiet => ?_, fun busy => ?_⟩
  · have done : ownPlanNew () p s = .done s.newPlan [] :=
      (own _).2 (if_neg (by rw [anyCalInFlight_eq_false.2 quiet]; exact nofun))
    have e := review_done ownPlanNew h role (x := ()) rfl done
    rw [State.newPlan_eq] at e
    exact e
  · exact review_refused ownPlanNew .busy h role (x := ()) rfl
      ((own _).2 (if_pos ((anyCalInFlight_iff s).2 busy)))

/-! ## PLAN_OPEN, PLAN_CLOSE, PLAN_LOCK -/

theorem detectionDefined_iff (d : Trace) (n : Nat) :
    detectionDefined d n = true ↔ (d = .m1 → 1 ≤ n) ∧ (d = .m2 → 2 ≤ n) := by
  cases d <;> simp [detectionDefined]

/-- The plan is complete: rows, curve, descriptor, and the definition of its detection mix (R4). -/
theorem planComplete_iff (s : State) :
    s.planComplete = true ↔ s.rows ≠ [] ∧ s.plan.curve ≠ none ∧ s.plan.standard ≠ none
      ∧ (s.plan.detection = .m1 → 1 ≤ s.plan.mixes.length)
      ∧ (s.plan.detection = .m2 → 2 ≤ s.plan.mixes.length) := by
  simp only [State.planComplete, Bool.and_eq_true, detectionDefined_iff, Bool.not_eq_true',
    List.isEmpty_eq_false_iff, Option.isSome_iff_ne_none, and_assoc]

/-- Nothing is in progress: no claim, no pull, no job and no pass (R5). -/
theorem inProgress_iff (s : State) :
    s.inProgress = true ↔ ¬ ((∀ tb ∈ s.tubes, tb.claim = none) ∧ s.noPull ∧ s.noJob
      ∧ s.rescreen.phase ≠ .underWay) := by
  simp only [State.inProgress, Bool.or_eq_true, anyInFlight_iff, jobsWaiting_iff, List.any_eq_true,
    State.passUnderWay, decide_eq_true_eq, Option.isSome_iff_ne_none, not_and_or, not_forall, ne_eq,
    not_not, exists_prop, or_assoc]

/-- Settles O15: each request's row of R2 lets it through, and its own check decides. -/
theorem planStatesAreMoved : Obligations.PlanStatesAreMoved := by
  intro s p role complete quiet
  refine ⟨fun draft h => ⟨fun hc => ?_, fun hc => ?_⟩, fun active h => ⟨fun hq => ?_, fun hq => ?_⟩,
    fun active h => ?_⟩
  · refine review_done ownPlanOpen h role (x := ()) rfl ?_
    rw [ownPlanOpen, gated_draft draft, if_pos ((planComplete_iff s).2 hc)]
  · refine review_refused ownPlanOpen .state h role (x := ()) rfl ?_
    rw [ownPlanOpen, gated_draft draft, if_neg (mt (planComplete_iff s).1 hc)]
  · refine review_done ownPlanClose h role (x := ()) rfl ?_
    rw [ownPlanClose, gated_active active, if_neg fun e => (inProgress_iff s).1 e hq]
  · refine review_refused ownPlanClose .busy h role (x := ()) rfl ?_
    rw [ownPlanClose, gated_active active, if_pos ((inProgress_iff s).2 hq)]
  · exact review_done ownPlanLock h role (x := ()) rfl (gated_active active)

/-! ## PLAN_SET, STANDARD_SET -/

/-- The body of PLAN_SET is read back. -/
theorem readPlanSet_body (name : List Byte) (lo hi : Byte) (h : name.length ≤ 247) :
    readPlanSet (BitVec.ofNat 8 name.length :: (name ++ [lo, hi]))
      = some ⟨name, lo.toNat + 256 * hi.toNat⟩ := by
  have hn : (BitVec.ofNat 8 name.length).toNat = name.length := toNat_ofNat8 _ (by omega)
  simp only [readPlanSet, hn, List.drop_left, List.take_left]
  rfl

theorem planSetBody_valid_iff (x : PlanSetBody) :
    x.valid = true ↔ x.name.length ≤ 16 ∧ (∀ b ∈ x.name, 0x20 ≤ b.toNat ∧ b.toNat ≤ 0x7E)
      ∧ 1000 ≤ x.tubeLength ∧ x.tubeLength ≤ 20000 := by
  simp [PlanSetBody.valid, nameChar, and_assoc]

theorem standard_valid_iff (d : Standard) :
    d.valid = true ↔ 300 ≤ d.length ∧ d.length ≤ 2000 ∧ 5 ≤ d.half ∧ d.half ≤ 100
      ∧ d.half ≤ d.hole ∧ d.half ≤ d.ring
      ∧ d.hole + d.half + 10 ≤ d.length ∧ d.ring + d.half + 10 ≤ d.length
      ∧ 2 * d.half < ((d.hole : Int) - d.ring).natAbs := by
  simp only [Standard.valid, Bool.and_eq_true, decide_eq_true_eq, and_assoc]
  have apart : (d.hole + 2 * d.half < d.ring ∨ d.ring + 2 * d.half < d.hole)
      ↔ 2 * d.half < ((d.hole : Int) - d.ring).natAbs := by omega
  rw [apart]

/-- Settles O16: the fields are read back, and the check of each request is that of its rule. -/
theorem planSetAndStandardSetWriteTheRecord : Obligations.PlanSetAndStandardSetWriteTheRecord := by
  refine ⟨?_, ?_⟩
  · intro s p name lo hi hn body length h role draft fits
    have hx : readPlanSet body = some ⟨name, length⟩ := readPlanSet_body name lo hi hn
    refine ⟨fun hf => ?_, fun hf => ?_⟩
    · refine review_done ownPlanSet h role hx ?_
      rw [ownPlanSet, gated_draft draft, if_pos ((planSetBody_valid_iff _).2 hf)]
      rfl
    · refine review_refused ownPlanSet .range h role hx ?_
      rw [ownPlanSet, gated_draft draft, if_neg (mt (planSetBody_valid_iff _).1 hf)]
  · intro s p l0 l1 h0 h1 r0 r1 w body length hole ring half h role draft fits
    have hx : readStandard body = some ⟨length, hole, ring, half⟩ := rfl
    refine ⟨fun busy => ?_, fun quiet hf => ?_, fun quiet hf => ?_⟩
    · refine review_refused ownStandardSet .busy h role hx ?_
      rw [ownStandardSet, gated_draft draft, if_pos ((anyCalInFlight_iff s).2 busy)]
    · refine review_refused ownStandardSet .range h role hx ?_
      rw [ownStandardSet, gated_draft draft, if_neg fun e => (anyCalInFlight_iff s).1 e quiet,
        if_neg (mt (standard_valid_iff _).1 hf)]
    · refine review_done ownStandardSet h role hx ?_
      rw [ownStandardSet, gated_draft draft, if_neg fun e => (anyCalInFlight_iff s).1 e quiet,
        if_pos ((standard_valid_iff _).2 hf)]
      rfl

end Sys2Proof.Machine
end

section
/-!
CURVE_SET, LIMITS_SET and TRACES_SET (R8, R9, R11).
-/

namespace Sys2Proof.Machine

variable {s : State} {p : Port}

/-! ## CURVE_SET -/

/-- The points that CURVE_SET accepts (R8). -/
def CurveFits (l : List CurvePoint) : Prop :=
  2 ≤ l.length ∧ l.length ≤ 8 ∧ (∀ q ∈ l, q.phase ≤ 1799 ∧ q.depth ≤ 100)
    ∧ l.Pairwise (fun a b => a.phase < b.phase ∧ b.depth ≤ a.depth)

theorem curveOf_of_fits {a b : CurvePoint} {rest : List CurvePoint} (h : CurveFits (a :: b :: rest)) :
    curveOf (a :: b :: rest) = some ⟨a, b, rest⟩ := by
  obtain ⟨-, hlen, hrange, hordered⟩ := h
  exact if_pos ⟨hlen, List.all_eq_true.2 fun q hq => decide_eq_true (hrange q hq),
    (ordered_iff _).2 hordered⟩

theorem curveOf_of_not_fits {l : List CurvePoint} (h : ¬ CurveFits l) : curveOf l = none := by
  unfold curveOf
  split
  · next hc =>
    obtain ⟨hlen, hrange, hordered⟩ := hc
    match l, h with
    | [], _ => rfl
    | [_], _ => rfl
    | a :: b :: rest, h =>
      refine absurd ⟨?_, hlen, fun q hq => ?_, (ordered_iff _).1 hordered⟩ h
      · simp
      · exact of_decide_eq_true (List.all_eq_true.1 hrange q hq)
  · rfl

/-- The body of CURVE_SET is read back. -/
theorem readCurve_body {points : List CurvePoint} (hlen : points.length ≤ 83)
    (hb : ∀ q ∈ points, q.phase < 65536 ∧ q.depth < 256) :
    readCurve (c1 points.length ++ points.flatMap (fun q => c2 q.phase ++ c1 q.depth))
      = some points := by
  have hn : (BitVec.ofNat 8 points.length).toNat = points.length := toNat_ofNat8 _ (by omega)
  rw [show c1 points.length = [BitVec.ofNat 8 points.length] from rfl, List.singleton_append, readCurve,
    hn, if_pos (length_points points), readPoints_points points hb]

/-- Settles O17: the points are read back, the curve is theirs when they fit, and in ACTIVE the change
of settings starts the pass and restarts the job. -/
theorem curveSetReplacesTheCurve : Obligations.CurveSetReplacesTheCurve := by
  intro s p points hlen hb body h role edit fits
  have hx : readCurve body = some points := readCurve_body hlen hb
  have own : ∀ c, curveOf points = some c → ownCurveSet points p s
      = .done (s.setPlan { s.plan with curve := some c }).settingsChanged [] := by
    intro c hc
    rw [ownCurveSet, gated_edit edit, hc]
  refine ⟨fun hf => ?_, fun hf a b rest e => ?_⟩
  · refine review_refused ownCurveSet .range h role hx ?_
    rw [ownCurveSet, gated_edit edit, curveOf_of_not_fits hf]
  · subst e
    have done := review_done ownCurveSet h role hx (own _ (curveOf_of_fits hf))
    refine ⟨fun draft => ?_, fun active => ?_⟩
    · rw [State.settingsChanged_other (by rw [State.setPlan_planState, draft]; exact nofun)] at done
      exact done
    · rw [State.settingsChanged_active (s := s.setPlan { s.plan with curve := some ⟨a, b, rest⟩ })
        active rfl] at done
      exact done

/-! ## LIMITS_SET -/

/-- The nine values of a body are read back. -/
theorem readLimits_body {x : Limits} (hx : x.openT < 65536 ∧ x.closeT < 65536 ∧ x.supportT < 65536
    ∧ x.report < 65536 ∧ x.plug < 65536 ∧ x.attemptLimit < 65536 ∧ x.lease < 65536
    ∧ x.pullLimit < 65536 ∧ x.calInterval < 65536) : readLimits x.body = some x := by
  obtain ⟨h1, h2, h3, h4, h5, h6, h7, h8, h9⟩ := hx
  simp only [Limits.body, c2, List.cons_append, List.nil_append, readLimits, num2_c2 _ h1, num2_c2 _ h2,
    num2_c2 _ h3, num2_c2 _ h4, num2_c2 _ h5, num2_c2 _ h6, num2_c2 _ h7, num2_c2 _ h8, num2_c2 _ h9]

theorem clampTo_eq {lo hi x y : Nat} (hle : lo ≤ hi) (h : y = min hi (max lo x)) :
    clampTo lo hi x = y := by
  unfold clampTo; omega

/-- The two passes: seven values to fixed ranges, then two to ranges that those give. -/
theorem limits_clamped_eq {x y : Limits}
    (ho : y.openT = min 10000 (max 100 x.openT)) (hs : y.supportT = min 20000 (max 500 x.supportT))
    (hp : y.plug = min 100 (max 1 x.plug)) (ha : y.attemptLimit = min 5 (max 1 x.attemptLimit))
    (hl : y.lease = min 3600 (max 30 x.lease)) (hq : y.pullLimit = min 600 (max 10 x.pullLimit))
    (hi : y.calInterval = min 480 (max 30 x.calInterval))
    (hc : y.closeT = min (y.openT - 1) (max 50 x.closeT)) (hr : y.report = min y.plug x.report) :
    x.clamped = y := by
  have hlow : 100 ≤ y.openT := ho ▸ le_min (by decide) (le_max_left _ _)
  have hopen : 50 ≤ y.openT - 1 := le_trans (by decide) (Nat.sub_le_sub_right hlow 1)
  have hreport : y.report = min y.plug (max 0 x.report) := by rw [hr, Nat.zero_max]
  unfold Limits.clamped
  dsimp only
  rw [clampTo_eq (by decide) ho, clampTo_eq (by decide) hs, clampTo_eq (by decide) hp,
    clampTo_eq (by decide) ha, clampTo_eq (by decide) hl, clampTo_eq (by decide) hq,
    clampTo_eq (by decide) hi, clampTo_eq hopen hc, clampTo_eq (Nat.zero_le _) hreport]

/-- Settles O18: the values are read back and clamped, then the expiries and the change of settings. -/
theorem limitsSetClampsInTwoPasses : Obligations.LimitsSetClampsInTwoPasses := by
  intro s p x y hx body h role ho hs hp ha hl hq hi hc hr plan' cal'
  have hclamped : x.clamped = y := limits_clamped_eq ho hs hp ha hl hq hi hc hr
  have done : s.editable → exec (.limitsSet p (body x)) s
      = .next (((s.setPlan (s.plan.withLimits y)).takeIntervals.settingsChanged).answered p 0xF0
          (body y)) := by
    intro edit
    refine review_done ownLimitsSet h role (readLimits_body hx) ?_
    rw [ownLimitsSet, gated_edit edit, hclamped]
    rfl
  refine ⟨fun draft => ?_, fun active lock curve hcurve => ?_⟩
  · rw [done (.inl draft), State.settingsChanged_other (by
      show s.planState ≠ .active
      rw [draft]; exact nofun), State.takeIntervals_eq]
    rfl
  · rw [done (.inr ⟨active, lock⟩), State.settingsChanged_active (c := curve)
      (s := (s.setPlan (s.plan.withLimits y)).takeIntervals) active hcurve, State.takeIntervals_eq]
    rfl

/-! ## TRACES_SET -/

theorem detectionOf_code {t : Trace}
    (h : t ∈ [Trace.raw .f1d, .raw .f2d, .raw .f3d, .raw .f4d, .m1, .m2]) :
    detectionOf (BitVec.ofNat 8 t.code) = some t := by
  simp only [List.mem_cons, List.not_mem_nil, or_false] at h
  rcases h with rfl | rfl | rfl | rfl | rfl | rfl <;> rfl

theorem supportOf_code {t : Trace}
    (h : t ∈ [Trace.raw .f1a, .raw .f2a, .raw .f3a, .raw .f4a]) :
    supportOf (BitVec.ofNat 8 t.code) = some t := by
  simp only [List.mem_cons, List.not_mem_nil, or_false] at h
  rcases h with rfl | rfl | rfl | rfl <;> rfl

theorem code_of_detectionOf {b : Byte} {t : Trace} (h : detectionOf b = some t) :
    b.toNat ∈ [0, 2, 4, 6, 8, 9] := by
  unfold detectionOf at h
  split at h <;> simp_all

theorem code_of_supportOf {b : Byte} {t : Trace} (h : supportOf b = some t) :
    b.toNat ∈ [1, 3, 5, 7] := by
  unfold supportOf at h
  split at h <;> simp_all

theorem code_of_rawTraceOf {b : Byte} {t : RawTrace} (h : rawTraceOf b = some t) : b.toNat ≤ 7 := by
  unfold rawTraceOf at h
  split at h <;> simp_all

/-- A pair that is a definition names two raw traces, which differ. -/
theorem pair_of_mixDefOf {x : Byte × Byte} {d : MixDef} (h : mixDefOf x = some d) :
    x.1.toNat ≤ 7 ∧ x.2.toNat ≤ 7 ∧ x.1 ≠ x.2 := by
  unfold mixDefOf at h
  split at h
  · next a b ha hb =>
    refine ⟨code_of_rawTraceOf ha, code_of_rawTraceOf hb, fun e => ?_⟩
    rw [e, hb] at ha
    cases ha
    rw [if_pos rfl] at h
    cases h
  · cases h

theorem pairs_of_mixDefsOf {pairs : List (Byte × Byte)} {l : List MixDef}
    (h : mixDefsOf pairs = some l) :
    l.length = pairs.length ∧ ∀ x ∈ pairs, x.1.toNat ≤ 7 ∧ x.2.toNat ≤ 7 ∧ x.1 ≠ x.2 := by
  induction pairs generalizing l with
  | nil => cases h; exact ⟨rfl, nofun⟩
  | cons x rest ih =>
    unfold mixDefsOf at h
    split at h
    · next d l' hd hl' =>
      cases h
      obtain ⟨hlen, hrest⟩ := ih hl'
      exact ⟨congrArg (· + 1) hlen, List.forall_mem_cons.2 ⟨pair_of_mixDefOf hd, hrest⟩⟩
    · cases h

theorem readPairs_pairs (pairs : List (Byte × Byte)) :
    readPairs (pairs.flatMap (fun x => [x.1, x.2])) = some pairs := by
  induction pairs with
  | nil => rfl
  | cons x rest ih =>
    show (readPairs (rest.flatMap _)).map _ = _
    rw [ih]
    rfl

/-- A body of two codes, a count and that many pairs is read back. -/
theorem readTraces_body {a b : Byte} {n : Nat} {l : List Byte} {pairs : List (Byte × Byte)}
    (hn : n < 256) (hlen : l.length = 2 * n) (hl : readPairs l = some pairs) :
    readTraces ([a] ++ [b] ++ c1 n ++ l) = some ⟨a, b, pairs⟩ := by
  show (if l.length = 2 * (BitVec.ofNat 8 n).toNat then (readPairs l).map _ else none) = _
  rw [toNat_ofNat8 n hn, if_pos hlen, hl]
  rfl

/-- What keeps TRACES_SET busy: in ACTIVE a pull or a job, in DRAFT a calibration pull (R11). -/
theorem tracesBusy_iff (s : State) :
    s.tracesBusy = true ↔ ¬ (if s.planState = .active then s.noPull ∧ s.noJob else s.noCalPull) := by
  unfold State.tracesBusy
  split
  · rw [Bool.or_eq_true, anyInFlight_iff, jobsWaiting_iff, not_and_or]
  · exact anyCalInFlight_iff s

section
variable {x : TracesBody} (edit : s.editable)
include edit

theorem ownTracesSet_busy (h : s.tracesBusy = true) : ownTracesSet x p s = .refused .busy := by
  rw [ownTracesSet, gated_edit edit, if_pos h]

theorem ownTracesSet_none (quiet : ¬ s.tracesBusy = true) (h : x.traces = none) :
    ownTracesSet x p s = .refused .range := by
  rw [ownTracesSet, gated_edit edit, if_neg quiet, h]

theorem ownTracesSet_some {t : Traces} (quiet : ¬ s.tracesBusy = true) (h : x.traces = some t) :
    ownTracesSet x p s
      = if s.planState = .active ∧ detectionDefined t.detection t.mixes.length = false then
          .refused .state
        else .done (s.setTraces t) [] := by
  rw [ownTracesSet, gated_edit edit, if_neg quiet, h]

end

/-- The traces of a body whose codes and pairs are those of traces and definitions. -/
theorem traces_of_codes {a b : Byte} {pairs : List (Byte × Byte)} {d u : Trace} {l : List MixDef}
    (hd : detectionOf a = some d) (hu : supportOf b = some u) (hl : mixDefsOf pairs = some l)
    (hlen : l.length ≤ 2) : TracesBody.traces ⟨a, b, pairs⟩ = some ⟨d, u, l⟩ := by
  simp only [TracesBody.traces, hd, hu, hl, if_pos hlen]

/-- A body that passes check 2 of R11 has codes that the rule allows. -/
theorem codes_of_traces {x : TracesBody} {t : Traces} (h : x.traces = some t) :
    x.detection.toNat ∈ [0, 2, 4, 6, 8, 9] ∧ x.support.toNat ∈ [1, 3, 5, 7] ∧ x.mixes.length ≤ 2
      ∧ ∀ y ∈ x.mixes, y.1.toNat ≤ 7 ∧ y.2.toNat ≤ 7 ∧ y.1 ≠ y.2 := by
  unfold TracesBody.traces at h
  split at h
  · next d u l hd hu hl =>
    split at h
    · next hlen =>
      obtain ⟨hn, hpairs⟩ := pairs_of_mixDefsOf hl
      exact ⟨code_of_detectionOf hd, code_of_supportOf hu, hn ▸ hlen, hpairs⟩
    · cases h
  · cases h

/-- Settles O19: the definitions are read back; the checks come in the order BUSY, RANGE, STATE. -/
theorem tracesSetUnlearnsChangedMixes : Obligations.TracesSetUnlearnsChangedMixes := by
  refine ⟨?_, ?_⟩
  · intro s p detection support mixes hdet hsup hlen hdiff body h role edit quiet defined
    obtain ⟨pairs, hpairs, hmixes⟩ := readPairs_mixDefs mixes hdiff
    have hx : readTraces body = some
        ⟨BitVec.ofNat 8 detection.code, BitVec.ofNat 8 support.code, pairs⟩ :=
      readTraces_body (by omega) (length_mixDefs mixes) hpairs
    have ht := traces_of_codes (detectionOf_code hdet) (supportOf_code hsup) hmixes hlen
    refine ⟨fun busy => ?_, fun hq active hd => ?_, fun hq hd => ?_⟩
    · exact review_refused ownTracesSet .busy h role hx
        (ownTracesSet_busy edit ((tracesBusy_iff s).2 busy))
    · refine review_refused ownTracesSet .state h role hx ?_
      rw [ownTracesSet_some edit (fun e => (tracesBusy_iff s).1 e hq) ht, if_pos]
      exact ⟨active, eq_false_of_ne_true (mt (detectionDefined_iff _ _).1 hd)⟩
    · refine review_done ownTracesSet h role hx ?_
      rw [ownTracesSet_some edit (fun e => (tracesBusy_iff s).1 e hq) ht, if_neg]
      · rfl
      · rintro ⟨active, e⟩
        rw [(detectionDefined_iff _ _).2 (hd active)] at e
        cases e
  · intro s p a b pairs hlen body h role edit quiet fits
    have hx : readTraces body = some ⟨a, b, pairs⟩ :=
      readTraces_body (n := pairs.length) (by omega) (by
        simp [List.length_flatMap, Nat.mul_comm]) (readPairs_pairs pairs)
    refine ⟨fun busy => ?_, fun hq hf => ?_⟩
    · exact review_refused ownTracesSet .busy h role hx
        (ownTracesSet_busy edit ((tracesBusy_iff s).2 busy))
    · refine review_refused ownTracesSet .range h role hx ?_
      refine ownTracesSet_none edit (fun e => (tracesBusy_iff s).1 e hq) ?_
      exact Option.eq_none_iff_forall_ne_some.2 fun t ht => hf (codes_of_traces ht)

end Sys2Proof.Machine
end

section
/-!
ROW_ADD, TUBE_MARK, SCOPE_SET and TUBE_REPULL (R13, R17 to R19).
-/

namespace Sys2Proof.Machine

variable {s : State} {p : Port}

/-! ## ROW_ADD -/

/-- A row number ascends when it is above that of the last row. -/
theorem ascends_iff (s : State) (row : Nat) :
    s.ascends row = true ↔ ∀ r, s.rows.getLast? = some r → r.row < row := by
  unfold State.ascends
  cases s.rows.getLast? <;> simp

/-- Settles O20: the three checks in their order, then the appended row and its tubes. -/
theorem rowAddAppendsTheRowAndItsTubes : Obligations.RowAddAppendsTheRowAndItsTubes := by
  intro s p r0 r1 f0 f1 l0 l1 n body row first last h role draft inRange ascends count
  have hx : readRowAdd body = some ⟨row, first, last, n.toNat⟩ := rfl
  have range : RowAddBody.inRange ⟨row, first, last, n.toNat⟩ = true ↔ inRange := decide_eq_true_iff
  refine ⟨fun hr => ?_, fun hr ha => ?_, fun hr ha hc => ?_, fun hr ha hc => ?_⟩
  · refine review_refused ownRowAdd .range h role hx ?_
    rw [ownRowAdd, gated_draft draft, eq_false_of_ne_true (mt range.1 hr)]
    rfl
  · refine review_refused ownRowAdd .order h role hx ?_
    rw [ownRowAdd, gated_draft draft, range.2 hr, eq_false_of_ne_true (mt (ascends_iff s row).1 ha)]
    rfl
  · refine review_refused ownRowAdd .full h role hx ?_
    rw [ownRowAdd, gated_draft draft, range.2 hr, (ascends_iff s row).2 ha]
    exact if_pos hc
  · have done : ownRowAdd ⟨row, first, last, n.toNat⟩ p s
        = .done (s.addRow ⟨row, first, last, n.toNat⟩) (c2 s.tubes.length ++ c2 count) := by
      rw [ownRowAdd, gated_draft draft, range.2 hr, (ascends_iff s row).2 ha]
      exact if_neg (Nat.not_lt.2 hc)
    have e := review_done ownRowAdd h role hx done
    rw [State.addRow, newTubes_eq] at e
    exact e

/-! ## TUBE_MARK -/

section
variable {x : PlaceAnd} {i : Nat} {tb : Tube} (draft : s.planState = .draft)
  (hm : x.extra.toNat ≤ 2) (ht : s.tubeAt x.place = some (i, tb))
include draft hm ht

/-- A mark that gives the tube a status. -/
theorem ownTubeMark_marked {st : Status} (h : markStatus x.extra tb.status = some (some st)) :
    ownTubeMark x p s = .done { s with tubes := s.tubes.set i { tb with status := st } }
      (c1 tb.status.code ++ c1 st.code) := by
  simp only [ownTubeMark, gated_draft draft, if_neg (Nat.not_lt.2 hm), ht, h,
    State.modTube_of_get _ (State.tubeAt_get ht)]

/-- A mark that the tube's status does not take. -/
theorem ownTubeMark_notClaimable (h : markStatus x.extra tb.status = some none) :
    ownTubeMark x p s = .refused .notClaimable := by
  simp only [ownTubeMark, gated_draft draft, if_neg (Nat.not_lt.2 hm), ht, h]

end

/-- Settles O21: the checks in their order; the status that a mark gives is that of its code. -/
theorem tubeMarkSetsTheStatus : Obligations.TubeMarkSetsTheStatus := by
  intro s p r0 r1 k0 k1 m body place h role draft
  have hx : readPlaceAnd body = some ⟨place, m⟩ := rfl
  refine ⟨fun hm => ?_, fun hm ht => ?_, fun i tb ht => ⟨fun hm hs => ?_, fun st hst => ?_⟩⟩
  · refine review_refused ownTubeMark .range h role hx ?_
    rw [ownTubeMark, gated_draft draft, if_pos hm]
  · refine review_refused ownTubeMark .noTube h role hx ?_
    rw [ownTubeMark, gated_draft draft, if_neg (Nat.not_lt.2 hm), ht]
  · refine review_refused ownTubeMark .notClaimable h role hx ?_
    have hmark : markStatus m tb.status = some none := by
      rw [markStatus, hm]
      rcases hs with e | e <;> rw [e] <;> rfl
    exact ownTubeMark_notClaimable draft hm.le ht hmark
  · refine review_done ownTubeMark h role hx ?_
    have hmark : m.toNat ≤ 2 ∧ markStatus m tb.status = some (some st) := by
      rw [markStatus]
      obtain ⟨hm, rfl⟩ | ⟨hm, rfl⟩ | ⟨hm, hs, rfl⟩ := hst <;> rw [hm]
      · exact ⟨by decide, rfl⟩
      · exact ⟨by decide, rfl⟩
      · exact ⟨le_rfl, congrArg some (if_pos hs)⟩
    exact ownTubeMark_marked draft hmark.1 ht hmark.2

/-! ## SCOPE_SET -/

/-- Settles O22: the rectangle is checked, and the tubes that move are those of the rule. -/
theorem scopeSetMovesARectangle : Obligations.ScopeSetMovesARectangle := by
  intro s p a0 a1 b0 b1 d0 d1 e0 e1 dir body firstRow lastRow firstCol lastCol h role edit fits
    inside moved
  have hx : readScope body = some ⟨⟨firstRow, lastRow, firstCol, lastCol⟩, dir⟩ := rfl
  have hfits : (Rect.valid ⟨firstRow, lastRow, firstCol, lastCol⟩ && decide (dir.toNat ≤ 1)) = true
      ↔ fits := by
    rw [Bool.and_eq_true, Rect.valid, decide_eq_true_iff, decide_eq_true_iff]
    tauto
  have hmoves : ∀ tb : Tube, tb.moves dir.toNat = moved tb := by
    intro tb
    have hnone : tb.claim.isNone = decide (tb.claim = none) := by cases tb.claim <;> rfl
    rw [Tube.moves, hnone, ← Bool.decide_and]
    rfl
  have hscoped : Tube.scoped ⟨firstRow, lastRow, firstCol, lastCol⟩ dir.toNat
      = fun tb => if inside tb && moved tb then
          { tb with status := if dir.toNat = 1 then .outOfScope else .pending }
        else tb := by
    funext tb
    rw [Tube.scoped, hmoves]
    rfl
  refine ⟨fun hf => ?_, fun hf => ?_⟩
  · refine review_refused ownScopeSet .range h role hx ?_
    rw [ownScopeSet, gated_edit edit, if_neg (mt hfits.1 hf)]
  · refine review_done ownScopeSet h role hx ?_
    rw [ownScopeSet, gated_edit edit, if_pos (hfits.2 hf)]
    simp only [scopeChanged, scopeSkipped, ← List.countP_eq_length_filter, hmoves, hscoped]
    rfl

/-! ## TUBE_REPULL -/

theorem isDone_iff (st : Status) :
    st.isDone = true ↔ st = .clear ∨ st = .reportable ∨ st = .plug ∨ ∃ why, st = .unresolved why := by
  cases st <;> simp [Status.isDone]

/-- Settles O23: a done tube is sent back; other tubes and places are refused. -/
theorem tubeRepullSendsADoneTubeBack : Obligations.TubeRepullSendsADoneTubeBack := by
  intro s p r0 r1 k0 k1 body place h role active
  have hx : readPlace body = some place := rfl
  refine ⟨fun ht => ?_, fun i tb ht => ⟨fun hd => ?_, fun hd => ?_⟩⟩
  · refine review_refused ownTubeRepull .noTube h role hx ?_
    rw [ownTubeRepull, gated_active active, ht]
  · refine review_refused ownTubeRepull .notClaimable h role hx ?_
    rw [ownTubeRepull, gated_active active, ht]
    exact if_neg (mt (isDone_iff _).1 hd)
  · refine review_done ownTubeRepull h role hx ?_
    rw [ownTubeRepull, gated_active active, ht]
    dsimp only
    rw [if_pos ((isDone_iff _).2 hd), State.modTube_of_get _ (State.tubeAt_get ht)]

end Sys2Proof.Machine
end

section
/-!
The ends of a pull on a fault of its own event: a coil-open event, the reverse report, and the pull
deadline (R63, R81, R83, R119).
-/

namespace Sys2Proof.Machine

variable {s : State} {c : Chan} {rec : PullRecord} {tp : TubePull} {tb : Tube} {d : Bool}
  {f : PullFault}

/-! ## Tube pulls -/

/-- The state with one fault in the latch of a channel's Pull Controller. -/
def State.latched (s : State) (c : Chan) (f : PullFault) : State :=
  s.setPull c { s.pull.get c with latch := [f] }

theorem State.latched_pull (s : State) (c : Chan) (f : PullFault) :
    (s.latched c f).pull.get c = { s.pull.get c with latch := [f] } := Quad.get_set_same ..

theorem endWith_of_empty (hl : (s.pull.get c).latch = []) :
    s.endWith c f = (s.latched c f).endOnFault c := by
  rw [State.endWith, hl]
  rfl

theorem endOnFault_tube (hr : (s.pull.get c).record = some rec) (htube : rec.tube = some tp)
    (hl : (s.pull.get c).latch = [f]) (he : f.isError = true) :
    s.endOnFault c = s.errorEnd c rec tp := by
  simp only [State.endOnFault, hr, htube, State.settleTube, hl, reported_single, he, if_true]

theorem endOnFault_cal (hr : (s.pull.get c).record = some rec) (htube : rec.tube = none) :
    s.endOnFault c = s.endCal c rec.kind := by
  simp only [State.endOnFault, hr, htube]

/-- An error-type end discards the open window and the buffer. -/
theorem discarded_eq (k : PullCtl) (r : Option Result) :
    { k.discardOpen with buffer := [], result := r } = Discarded k k.latch r := by
  obtain ⟨record, samples, null, armed, supports, supportAt, detector, buffer, found, latch, result⟩ := k
  cases detector <;> rfl

/-- The error-type end of a tube pull whose latch holds one fault. -/
theorem errorEnd_eq (ht : s.tubes[tp.index]? = some tb)
    (hs : s.slot rec.port tp.tag = some ⟨tp.index, .inPull, d⟩) (hl : (s.pull.get c).latch = [f])
    (h5 : tb.attempts ≤ 5) (hlimit : s.plan.attemptLimit ≤ 5) :
    s.errorEnd c rec tp = ErrorEnded s c rec tp tb d [f] f := by
  have hres : ∀ status, Result.tube (faultedResult c rec tp (s.pull.get c) (s.chan.get c).thin status)
      = FaultedRecord c rec tp (s.pull.get c) (s.chan.get c).thin f (decide (1 < [f].length)) status := by
    intro status
    rw [faultedResult, hl]
    rfl
  have hstatus : s.errorAssigned tp.index = errorStatus s.plan.attemptLimit tb.attempts := by
    rw [State.errorAssigned, ht]
    rfl
  unfold State.errorEnd ErrorEnded
  dsimp only
  rw [discarded_eq, hres, hstatus, hl]
  by_cases hlt : tb.attempts + 1 < s.plan.attemptLimit
  · have hbelow : attemptsAfter tb.attempts < s.plan.attemptLimit := by
      unfold attemptsAfter; omega
    rw [State.errorCommit_below hs ht hbelow, errorStatus, if_neg (Nat.not_le.2 hbelow)]
    simp only [hlt, decide_true, if_true]
    rfl
  · have hat : s.plan.attemptLimit ≤ attemptsAfter tb.attempts := by
      unfold attemptsAfter; omega
    rw [State.errorCommit_at hs ht hat, errorStatus, if_pos hat]
    simp only [hlt, decide_false]
    rfl

/-- A fault of its own event that is of the error type ends a tube pull. -/
theorem endWith_tube (h : InTubePull s c rec tp tb d) (h5 : tb.attempts ≤ 5)
    (hlimit : s.plan.attemptLimit ≤ 5) (he : f.isError = true) :
    s.endWith c f = ErrorEnded s c rec tp tb d [f] f := by
  obtain ⟨-, hr, htube, hl, ht, hs⟩ := h
  have hk := s.latched_pull c f
  have hlatch : ((s.latched c f).pull.get c).latch = [f] := by rw [hk]
  rw [endWith_of_empty hl, endOnFault_tube (by rw [hk]; exact hr) htube hlatch he,
    errorEnd_eq (s := s.latched c f) ht hs hlatch h5 hlimit]
  simp only [ErrorEnded, State.latched, State.setPull_pull, Quad.set_set, Quad.get_set_same]
  rfl

/-! ## Calibration pulls -/

/-- The end of a calibration pull whose latch holds one fault, from what the unit judges. -/
theorem endCal_judged {x : Judgement} (hl : (s.pull.get c).latch = [f])
    (hv : judge s c rec.kind
      = ⟨{ s with tubes := x.tubes, cal := s.cal.set c x.unit }, x.outcome, x.reason, x.traces, x.mixes,
          x.invalidated⟩) :
    s.endCal c rec.kind = JudgedAs s c rec x := by
  unfold State.endCal JudgedAs
  simp only [hv, calResultOf, hl, reported_single, State.setCal, State.setPull, State.setChan,
    Quad.get_set_same, Quad.set_set, decide_eq_true_eq, List.head?_cons, further]

theorem firstCheckFault_eq (u : CalUnit) :
    u.firstCheckFault
      = { u with
          state := if u.state = .calibrated then .checkDue else u.state
          checkFaults := 1 } := by
  unfold CalUnit.firstCheckFault CalUnit.due
  split <;> rfl

/-- A calibration pull whose latch holds a fault is judged FAULTED by its kind (R122, R125). -/
theorem judge_faulted {x : Judgement} (hl : (s.pull.get c).latch = [f]) (h : JudgedBy s c rec x) :
    judge s c rec.kind
      = ⟨{ s with tubes := x.tubes, cal := s.cal.set c x.unit }, x.outcome, x.reason, x.traces, x.mixes,
          x.invalidated⟩ := by
  have hjudge : judge s c rec.kind = judgeUnmeasured s c rec.kind .faulted none := by
    simp only [judge, hl]
    rfl
  have hne : (s.pull.get c).latch ≠ [] := by rw [hl]; exact nofun
  rw [hjudge, judgeUnmeasured]
  obtain ⟨hk, o, r, hu, hx⟩ | ⟨hk, h0, o, r, hu, hx⟩ | ⟨hk, h0, o, r, hu, hx⟩ | ⟨-, hn, -⟩ | ⟨-, hn, -⟩
    | ⟨-, hn, -⟩ | ⟨-, hn, -⟩ := h
  case inl =>
    obtain ⟨-, rfl, rfl⟩ | ⟨hn, -⟩ := hu
    · rw [hk, if_neg nofun, hx]
      rfl
    · exact absurd hn hne
  case inr.inl =>
    obtain ⟨-, rfl, rfl⟩ | ⟨hn, -⟩ := hu
    · rw [hk, if_pos rfl, faultCheck, if_pos h0, firstCheckFault_eq, hx]
      rfl
    · exact absurd hn hne
  case inr.inr.inl =>
    obtain ⟨-, rfl, rfl⟩ | ⟨hn, -⟩ := hu
    · rw [hk, if_pos rfl, faultCheck, if_neg h0, hx, failCheck, invalidate_parts,
        invalidateTubes_eq_mapIdx]
      rfl
    · exact absurd hn hne
  all_goals exact absurd hn hne

/-- A fault of its own event ends a calibration pull, which is judged with the fault in its latch. -/
theorem endWith_cal {x : Judgement} (h : InCalPull s c rec) (hx : JudgedBy (s.latched c f) c rec x) :
    s.endWith c f = JudgedAs (s.latched c f) c rec x := by
  obtain ⟨-, hr, htube, hl, -⟩ := h
  have hk := s.latched_pull c f
  have hlatch : ((s.latched c f).pull.get c).latch = [f] := by rw [hk]
  rw [endWith_of_empty hl, endOnFault_cal (by rw [hk]; exact hr) htube]
  exact endCal_judged hlatch (judge_faulted hlatch hx)

/-! ## The three events -/

/-- A coil-open event on a PULLING channel sets the condition and ends the pull (R63). -/
theorem exec_coilOpen (hp : (s.chan.get c).state = .pulling) :
    exec (.coilOpen c) s
      = .next (({ s with chan := s.chan.set c { s.chan.get c with probeOpen := true } } : State).endWith
          c .probeOpen) := by
  simp only [exec, execCoilOpen, hp, State.setChan]

theorem exec_encoderReverse (hp : (s.chan.get c).state = .pulling)
    (hrev : (s.chan.get c).reverseReported = true) :
    exec (.encoderReverse c) s = .next (s.endWith c .encoderReverse) :=
  congrArg _ (if_pos ⟨hp, hrev⟩)

theorem exec_timeout (hp : (s.chan.get c).state = .pulling)
    (hr : (s.pull.get c).record = some rec) (hd : rec.deadline ≤ s.now) :
    exec (.timeout c) s = .next (s.endWith c .timeout) := by
  refine congrArg _ (if_pos ⟨hp, ?_⟩)
  rw [State.pullTimedOut, hr]
  exact decide_eq_true hd

/-- A coil-open event leaves the pull in flight as it was before the pull ends on it. -/
theorem inTubePull_probeOpen (h : InTubePull s c rec tp tb d) :
    InTubePull { s with chan := s.chan.set c { s.chan.get c with probeOpen := true } } c rec tp tb d :=
  ⟨by simpa using h.1, h.2⟩

theorem inCalPull_probeOpen (h : InCalPull s c rec) :
    InCalPull { s with chan := s.chan.set c { s.chan.get c with probeOpen := true } } c rec :=
  ⟨by simpa using h.1, h.2⟩

/-- Settles O37: each of the three events latches its fault and ends the pull on it. -/
theorem faultsEndATubePull : Obligations.FaultsEndATubePull := by
  refine ⟨?_, ?_, ?_⟩
  · intro s c rec tp tb d h h5 _ hlimit
    have hp := h.1
    have hr := h.2.1
    refine ⟨?_, fun hrev => ?_, fun hd => ?_⟩
    · rintro s' rfl
      rw [exec_coilOpen hp, endWith_tube (inTubePull_probeOpen h) h5 hlimit rfl]
    · rw [exec_encoderReverse hp hrev, endWith_tube h h5 hlimit rfl]
    · rw [exec_timeout hp hr hd, endWith_tube h h5 hlimit rfl]
  · intro s c rec h latched
    have hp := h.1
    have hr := h.2.1
    refine ⟨?_, fun x hrev hx => ?_, fun x hd hx => ?_⟩
    · rintro _ x rfl hx
      exact (exec_coilOpen hp).trans (congrArg _ (endWith_cal (inCalPull_probeOpen h) hx))
    · exact (exec_encoderReverse hp hrev).trans (congrArg _ (endWith_cal h hx))
    · exact (exec_timeout hp hr hd).trans (congrArg _ (endWith_cal h hx))
  · refine fun s c => ⟨fun h => congrArg _ (if_neg ?_), fun h => congrArg _ (if_neg ?_)⟩
    · rintro ⟨hp, hrev⟩
      rcases h with h | h
      · exact h hp
      · rw [hrev] at h; cases h
    · rintro ⟨hp, hd⟩
      rcases h with h | h
      · exact h hp
      · unfold State.pullTimedOut at hd
        split at hd
        · next rec hr => exact absurd (h rec hr) (Nat.not_lt.2 (of_decide_eq_true hd))
        · cases hd

end Sys2Proof.Machine
end

section
/-!
The write of a re-screen step (R25, R157, R163, R165), and the depth of the deepest record (R142).
-/

namespace Sys2Proof.Machine

variable {s : State} {st : Settings} {tb : Tube}

/-! ## The deepest record -/

/-- The figure by which depths are ranked: INDEFINITE before every other (R142). -/
def Depth.rank : Depth → WithTop Nat
  | .indefinite => ⊤
  | .pct n => n

/-- The figures by which records are ranked: depth, then amplitude, then position (R142). -/
def rankKey (x : Indication) : WithTop Nat ×ₗ Nat ×ₗ Nat :=
  toLex (x.depth.rank, toLex (x.amplitude, x.position))

theorem Depth.rank_injective : Function.Injective Depth.rank := by
  intro a b h
  cases a with
  | indefinite =>
    cases b with
    | indefinite => rfl
    | pct n => cases h
  | pct m =>
    cases b with
    | indefinite => cases h
    | pct n => exact congrArg Depth.pct (WithTop.coe_injective h)

theorem Depth.rank_lt_iff (a b : Depth) :
    b.rank < a.rank ↔ (a = .indefinite ∧ b ≠ .indefinite) ∨ ∃ x y, a = .pct x ∧ b = .pct y ∧ y < x := by
  cases a <;> cases b <;> simp [Depth.rank]

/-- A record is deeper than another exactly when it ranks above it. -/
theorem deeper_iff_rankKey (a b : Indication) : Deeper a b ↔ rankKey b < rankKey a := by
  rw [rankKey, rankKey, Prod.Lex.toLex_lt_toLex, Prod.Lex.toLex_lt_toLex, Depth.rank_lt_iff, Deeper,
    Depth.rank_injective.eq_iff, eq_comm (a := b.depth), eq_comm (a := b.amplitude), and_or_left,
    or_assoc]

theorem deeper_iff (a b : Indication) : deeper a b = true ↔ Deeper a b := by
  unfold deeper Deeper strongerOf
  cases ha : a.depth with
  | indefinite => cases hb : b.depth <;> simp
  | pct x =>
    cases hb : b.depth with
    | indefinite => simp
    | pct y =>
      simp only [Bool.or_eq_true, Bool.and_eq_true, decide_eq_true_eq, Depth.pct.injEq, reduceCtorEq,
        false_and, false_or, exists_and_left, exists_eq_left', and_or_left]

/-- The order of R142 is not cyclic. -/
theorem deeper_asymm {a b : Indication} (h : Deeper a b) : ¬ Deeper b a := by
  rw [deeper_iff_rankKey] at h ⊢
  exact h.not_gt

/-- What is not deeper than what is not deeper than a record is not deeper than it. -/
theorem not_deeper_trans {a b c : Indication} (h : ¬ Deeper b a) (k : ¬ Deeper c b) :
    ¬ Deeper c a := by
  rw [deeper_iff_rankKey, not_lt] at h k ⊢
  exact k.trans h

/-- The ranking puts no record after one that it is deeper than. -/
theorem ranked_sorted (l : List Indication) : (ranked l).Pairwise (fun a b => ¬ Deeper b a) := by
  induction l with
  | nil => exact .nil
  | cons a l ih =>
    refine insertBy_sorted _ _ _ _ ih (fun b _ h => ?_) (fun b _ h => ?_)
      fun _ _ _ => not_deeper_trans
    · exact deeper_asymm ((deeper_iff b a).1 h)
    · exact fun hd => by rw [(deeper_iff b a).2 hd] at h; cases h

theorem worstOf_eq_none (l : List Indication) : worstOf l = none ↔ l = [] := by
  rw [worstOf, Option.map_eq_none_iff, List.head?_eq_none_iff]
  exact ⟨fun h => (h ▸ (sortBy_perm deeper l).symm : l.Perm []).eq_nil, fun h => by rw [h]; rfl⟩

/-- The worst depth is that of a record that no other is deeper than. -/
theorem worstOf_eq_some {l : List Indication} {d : Depth} (h : worstOf l = some d) :
    ∃ x ∈ l, x.depth = d ∧ ∀ y ∈ l, ¬ Deeper y x := by
  obtain ⟨x, hx, hd⟩ := Option.map_eq_some_iff.1 h
  have hperm : (ranked l).Perm l := sortBy_perm deeper l
  obtain ⟨rest, hrest⟩ := List.head?_eq_some_iff.1 hx
  have hsorted := ranked_sorted l
  rw [hrest, List.pairwise_cons] at hsorted
  rw [hrest] at hperm
  refine ⟨x, hperm.mem_iff.1 (List.mem_cons_self ..), hd, fun y hy => ?_⟩
  rcases List.mem_cons.1 (hperm.mem_iff.2 hy) with rfl | hy
  · exact fun h => deeper_asymm h h
  · exact hsorted.1 y hy

/-! ## The record and its classification -/

/-- The rows of R145 by the worst depth. -/
theorem classifyDepth_eq (worst : Option Depth) :
    classifyDepth st worst
      = match worst with
        | none => .clear
        | some .indefinite => .unresolved .indefiniteDepth
        | some (.pct n) =>
          if st.plug ≤ n then .plug else if st.report ≤ n then .reportable else .clear := by
  have above : ∀ n t, (Depth.pct n).atOrAbove t = decide (t ≤ n) := by
    intro n t
    unfold Depth.atOrAbove Depth.compareTo
    dsimp only
    rcases lt_trichotomy t n with h | h | h
    · simp [h, h.le]
    · simp [h]
    · simp [h.not_gt, h.ne, h]
  have ordered : ∀ n t, (Depth.pct n).compareTo t ≠ .unordered := by
    intro n t
    unfold Depth.compareTo
    dsimp only
    repeat' split
    all_goals exact nofun
  match worst with
  | none => rfl
  | some .indefinite => rfl
  | some (.pct n) => simp only [classifyDepth, if_neg (ordered n _), above, decide_eq_true_eq]

/-- A tube that a step passes over holds a claim or is not judged. -/
theorem passedOver_iff (tb : Tube) :
    tb.passedOver = false ↔ tb.claim = none
      ∧ (tb.status = .clear ∨ tb.status = .reportable ∨ tb.status = .plug
        ∨ tb.status = .unresolved .indefiniteDepth) := by
  rw [Tube.passedOver, Bool.or_eq_false_iff, Option.isSome_eq_false_iff, Option.isNone_iff_eq_none]
  refine and_congr_right fun _ => ?_
  cases hs : tb.status with
  | unresolved why => cases why <;> simp
  | _ => simp

theorem reread_eq (c : Curve) (x : Indication) :
    x.reread c
      = { x with
          depth := if x.clipped then .indefinite else .pct (c.read x.phase).1
          outOfCurve := if x.clipped then false else (c.read x.phase).2 } := by
  unfold Indication.reread depthOf
  cases x.clipped <;> rfl

/-! ## The pass -/

/-- The write of a step: the tube at the cursor, the cursor, and at the last tube the end of the
pass. -/
theorem writeStep_eq (ht : s.tubes[s.rescreen.cursor]? = some tb) :
    s.writeStep st = { s with
      tubes := s.tubes.set s.rescreen.cursor (tb.stepped st)
      rescreen :=
        { s.rescreen with
          cursor := s.rescreen.cursor + 1
          phase := if s.rescreen.cursor + 1 = s.tubes.length then .done else s.rescreen.phase }
      sizing := { s.sizing with step := none }
      ports := s.ports.map (fun x =>
        if s.rescreen.cursor + 1 = s.tubes.length ∧ x.role = .review then
          { x with notices := { x.notices with rescreenDone := true } }
        else x) } := by
  have hlt : s.rescreen.cursor < s.tubes.length := (List.getElem?_eq_some_iff.1 ht).1
  have hwrite : s.writeStep st = if s.tubes.length ≤ s.rescreen.cursor + 1
      then (s.stepping st).completePass else s.stepping st := by
    rw [State.writeStep, State.stepping]
    simp only [List.length_modify]
  rw [hwrite, State.stepping, modify_of_get _ ht]
  by_cases hlast : s.rescreen.cursor + 1 = s.tubes.length
  · rw [if_pos (by omega)]
    simp only [hlast, true_and, if_true]
    rfl
  · rw [if_neg (by omega)]
    simp only [hlast, false_and, if_false]
    rfl

/-- Settles O46: the ranking's first record is the deepest; a step rewrites the tube at the cursor where
it is not passed over. -/
theorem rescreenStepRereadsTheTube : Obligations.RescreenStepRereadsTheTube := by
  refine ⟨fun l => ⟨worstOf_eq_none l, fun d => worstOf_eq_some⟩, ?_⟩
  intro s st tb hstep _ ht judged list tb' last
  have hlist : tb.list.map (Indication.reread st.curve) = list :=
    List.map_congr_left fun x _ => reread_eq st.curve x
  have hrescreened : tb.rescreened st = tb' := by
    rw [Tube.rescreened, hlist, classifyDepth_eq] <;> rfl
  have htube : s.tubes.set s.rescreen.cursor (tb.stepped st)
      = if tb.claim = none ∧ judged then s.tubes.set s.rescreen.cursor tb' else s.tubes := by
    unfold Tube.stepped
    by_cases hj : tb.claim = none ∧ judged
    · rw [(passedOver_iff tb).2 hj, if_pos hj, hrescreened]
      rfl
    · rw [eq_true_of_ne_false (mt (passedOver_iff tb).1 hj), if_neg hj]
      exact (List.getElem?_eq_some_iff.1 ht).2 ▸ List.set_getElem_self _
  have hexec : exec .rescreenStepWrite s = .next (s.writeStep st) := by
    simp only [exec, execRescreenStepWrite, hstep]
  rw [hexec, writeStep_eq ht, htube]

end Sys2Proof.Machine
end

section
/-!
The sizing commit (R23, R41, R130, R146, R147, R152, R155), part by part and then whole.
-/

namespace Sys2Proof.Machine

variable {s : State} {j : Job} {st : Settings} {tb : Tube} {d : Bool}

/-! ## The parts of the commit -/

/-- STORE_LOW to an attached station when the free count has fallen below 512 (R155). -/
def PortState.warned (free before : Nat) (x : PortState) : PortState :=
  { x with
    notices :=
      if x.role ≠ .none ∧ free < 512 ∧ free < before then { x.notices with storeLow := true }
      else x.notices }

theorem warnStore_eq (t : State) (before : Nat) :
    t.warnStore before = { t with ports := t.ports.map (PortState.warned t.free before) } := by
  have hports : (t.warnStore before).ports = t.ports.map (PortState.warned t.free before) := by
    refine Quad.ext_get fun p => ?_
    rw [Quad.get_map, State.warnStore, PortState.warned]
    by_cases hlow : t.free < 512 ∧ t.free < before
    · rw [if_pos (by exact hlow)]
      dsimp only
      rw [Quad.get_map, PortState.tellStoreLow]
      by_cases hr : (t.ports.get p).role = .none
      · rw [if_pos hr, if_neg fun e => e.1 hr]
      · rw [if_neg hr, if_pos ⟨hr, hlow⟩]
    · rw [if_neg (by exact hlow), if_neg fun e => hlow e.2]
  rw [← hports]
  unfold State.warnStore
  split <;> rfl

/-- The unit of the job's channel: the tube in its group, CHECK_DUE when the append fills it (R130). -/
theorem joined_eq (u : CalUnit) (i : Nat) :
    u.joined i
      = { u with
          group := if i ∈ u.group then u.group else u.group ++ [i]
          state :=
            if u.state = .calibrated ∧ u.group.length < 512
                ∧ 512 ≤ (if i ∈ u.group then u.group else u.group ++ [i]).length then .checkDue
            else u.state } := by
  have hgroup : joinGroup i u.group = if i ∈ u.group then u.group else u.group ++ [i] := by
    simp only [joinGroup, List.contains_iff_mem]
  unfold CalUnit.joined
  rw [hgroup]
  generalize (if i ∈ u.group then u.group else u.group ++ [i]) = group
  by_cases hfull : u.group.length < 512 ∧ 512 ≤ group.length
  · simp only [Config.groupMax, hfull, and_self, and_true, if_true, CalUnit.due]
    split <;> rfl
  · simp only [Config.groupMax, hfull, and_false, if_false]

theorem groupsAfter_own (cal : Quad CalUnit) (c : Chan) (i : Nat) :
    (groupsAfter cal c i).get c = (cal.get c).joined i := by
  rw [groupsAfter, Quad.get_ofFn, if_pos rfl]

theorem groupsAfter_other (cal : Quad CalUnit) {c e : Chan} (i : Nat) (h : e ≠ c) :
    (groupsAfter cal c i).get e
      = { cal.get e with group := (cal.get e).group.filter (fun k => k != i) } := by
  rw [groupsAfter, Quad.get_ofFn, if_neg h]
  rfl

/-- An unbind takes the channel out of the set of the port that its binding names. -/
theorem unbindChan_ports (s : State) (c : Chan) (p : Port) :
    (s.unbindChan c).ports.get p
      = { s.ports.get p with
          bound :=
            if (s.chan.get c).binding = some p then (s.ports.get p).bound.set c false
            else (s.ports.get p).bound } := by
  cases hb : (s.chan.get c).binding with
  | none => rw [State.unbindChan_of_free hb]; rfl
  | some q =>
    rw [State.unbindChan_of_bound hb]
    dsimp only
    rw [Quad.get_set]
    by_cases hp : p = q
    · subst hp
      simp
    · rw [if_neg hp, if_neg fun e => hp (Option.some.inj e).symm]

/-- So does a forced unbind. -/
theorem forceUnbind_ports (s : State) (c : Chan) (p : Port) :
    (s.forceUnbind c).ports.get p
      = { s.ports.get p with
          bound :=
            if (s.chan.get c).binding = some p then (s.ports.get p).bound.set c false
            else (s.ports.get p).bound } :=
  unbindChan_ports (s.setPull c { s.pull.get c with result := none }) c p

theorem stored_length (j : Job) (st : Settings) (old : List Indication) (free : Nat) :
    (sizeJob j st old free).stored.length
      = min (keptOf st.curve j.records).length (free + old.length) := by
  show (ascending _).length = _
  rw [ascending, (sortBy_perm _ _).length_eq, List.length_take]
  omega

/-! ## The commit -/

/-- The state of a commit before the channel is left, field by field. -/
def State.committedState (s : State) (j : Job) (z : Sizing) (tb : Tube) : State :=
  { s with
    sizing := { s.sizing with flight := none }
    claims := s.claims.set j.port ((s.claims.get j.port).set j.tag none)
    tubes := s.tubes.set j.index { tb.committed j z with claim := none }
    free := z.free
    cal := groupsAfter s.cal j.chan j.index
    ports := s.ports.map (PortState.warned z.free s.free) }

theorem commitJob_eq (ht : s.tubes[j.index]? = some tb)
    (hs : s.slot j.port j.tag = some ⟨j.index, .inPull, d⟩) :
    s.commitJob j st
      = (s.committedState j (sizeJob j st tb.list s.free) tb).releaseChan j
          (sizeJob j st tb.list s.free) := by
  rw [commitJob_of_tube ht, committing_dropClaim _ ht hs, warnStore_eq]
  rfl

/-- A channel that goes on is HELD with the result. -/
theorem releaseChan_held {t : State} (z : Sizing) (ho : j.orphan = false)
    (hp : (t.chan.get j.chan).passed = false) :
    t.releaseChan j z = { t with
      pull := t.pull.set j.chan
        { t.pull.get j.chan with result := some (.tube (committedResult j z)) }
      chan := t.chan.set j.chan { t.chan.get j.chan with state := .held } } := by
  have hstays : (j.orphan || (t.chan.get j.chan).passed) = false := by rw [ho, hp]; rfl
  exact if_neg (by rw [hstays]; exact nofun)

/-- A channel of a departed station is unbound by force. -/
theorem releaseChan_unbound {t : State} (z : Sizing)
    (h : j.orphan = true ∨ (t.chan.get j.chan).passed = true) :
    t.releaseChan j z = t.forceUnbind j.chan :=
  if_pos (Bool.or_eq_true_iff.2 h)

/-- Settles O45: the parts of the commit put together, for a channel that goes on and for one that is
unbound. -/
theorem sizingCommitWritesTheTube : Obligations.SizingCommitWritesTheTube := by
  intro s j st tb d hf ht hs kept free m u group
  generalize hz : sizeJob j st tb.list s.free = z
  have hstored : z.stored = ascending (kept.take m) := hz ▸ rfl
  have hfree : z.free = free - m := hz ▸ rfl
  have hlength : z.stored.length = m := hz ▸ stored_length j st tb.list s.free
  have hexec : exec .sizingCommit s
      = .next ((s.committedState j z tb).releaseChan j z) := by
    rw [← hz, ← commitJob_eq ht hs]
    simp only [exec, execSizingCommit, hf]
  have hperm : z.stored.Perm (kept.take m) := by rw [hstored]; exact sortBy_perm _ _
  have hsorted : z.stored.Pairwise (fun a b => a.position ≤ b.position) := by
    rw [hstored]; exact ascending_sorted _
  have hwarned : ∀ p, (s.committedState j z tb).ports.get p = (s.ports.get p).warned z.free s.free :=
    Quad.get_map _ s.ports
  by_cases hleave : j.orphan = true ∨ (s.chan.get j.chan).passed = true
  · obtain ⟨ports, e⟩ := forceUnbind_parts (s.committedState j z tb) j.chan
    have hports := forceUnbind_ports (s.committedState j z tb) j.chan
    rw [releaseChan_unbound (t := s.committedState j z tb) z hleave, e] at hexec
    rw [e] at hports
    refine ⟨_, z.stored, hexec, hperm, hsorted, hfree, rfl, rfl, fun p => ?_, fun c hc => ?_,
      rfl, rfl, rfl, rfl, rfl, rfl, rfl, fun committed hcommitted => ⟨fun ho hp => ?_, fun _ => ?_⟩⟩
    · simp only [hleave, true_and]
      refine (hports p).trans ?_
      rw [hwarned]
      rfl
    · refine ⟨Quad.get_set_ne _ _ hc, Quad.get_set_ne _ _ hc, ?_⟩
      exact (Quad.get_set_ne _ _ hc).trans (groupsAfter_other s.cal j.index hc)
    · rcases hleave with h | h
      · rw [ho] at h; cases h
      · rw [hp] at h; cases h
    · have hown : (s.committedState j z tb).cal.get j.chan = u.joined j.index := groupsAfter_own ..
      have hgroup : (u.joined j.index).group = group := by rw [joined_eq]
      refine ⟨?_, Quad.get_set_same .., ?_, Quad.get_set_same ..⟩
      · subst hcommitted
        dsimp only
        rw [hown, hgroup, invalidateTubes_eq_mapIdx, ← hz]
        rfl
      · refine (Quad.get_set_same ..).trans ?_
        rw [hown, joined_eq]
        rfl
  · obtain ⟨ho, hp⟩ := not_or.1 hleave
    rw [Bool.not_eq_true] at ho hp
    rw [releaseChan_held (t := s.committedState j z tb) z ho hp] at hexec
    refine ⟨_, z.stored, hexec, hperm, hsorted, hfree, rfl, rfl, fun p => ?_, fun c hc => ?_,
      rfl, rfl, rfl, rfl, rfl, rfl, rfl, fun committed hcommitted => ⟨fun _ _ => ?_, fun h => ?_⟩⟩
    · simp only [hleave, false_and, if_false]
      exact hwarned p
    · exact ⟨Quad.get_set_ne _ _ hc, Quad.get_set_ne _ _ hc, groupsAfter_other s.cal j.index hc⟩
    · subst hcommitted
      refine ⟨?_, Quad.get_set_same .., ?_, ?_⟩
      · rw [← hz]
        rfl
      · exact (groupsAfter_own ..).trans (joined_eq u j.index)
      · refine (Quad.get_set_same ..).trans ?_
        rw [committedResult, hlength, ← hz]
        rfl
    · exact absurd h hleave

end Sys2Proof.Machine
end

section
/-!
The resets (R27, R28), the laws after power-on reset, and the step itself.
-/

namespace Sys2Proof.Machine

/-! ## The resets -/

/-- The tubes after a warm reset: those of every group as an invalidation writes them, and no claim. -/
theorem warm_tubes (s : State) :
    s.warm.tubes = s.tubes.mapIdx (fun i tb =>
      if ∃ c, i ∈ (s.cal.get c).group then
        { tb with status := .repull, suspect := true, claim := none }
      else { tb with claim := none }) := by
  have listed : ∀ i, i ∈ s.cal.toList.flatMap CalUnit.group ↔ ∃ c, i ∈ (s.cal.get c).group := by
    intro i
    simp only [List.mem_flatMap, Quad.mem_toList]
    exact ⟨fun ⟨_, ⟨c, hc⟩, hi⟩ => ⟨c, hc ▸ hi⟩, fun ⟨c, hi⟩ => ⟨_, ⟨c, rfl⟩, hi⟩⟩
  apply List.ext_getElem?
  intro i
  simp only [State.warm, invalidateAll, List.getElem?_map, invalidateTubes_get, List.getElem?_mapIdx,
    Option.map_map]
  congr 1
  funext tb
  by_cases h : ∃ c, i ∈ (s.cal.get c).group
  · rw [if_pos h, Function.comp_apply, if_pos ((listed i).2 h)]
    rfl
  · rw [if_neg h, Function.comp_apply, if_neg (mt (listed i).1 h)]

/-- Settles O50: a warm reset writes the tubes as said; the other values are the model's reset values. -/
theorem resetsLeaveTheResetValues : Obligations.ResetsLeaveTheResetValues := by
  intro s
  refine ⟨?_, rfl, rfl⟩
  rw [← warm_tubes]
  rfl

/-! ## The laws after power-on reset -/

theorem reset_port (p : Port) : State.reset.ports.get p = PortState.reset := Quad.get_fill ..

theorem reset_chan (c : Chan) : State.reset.chan.get c = Channel.reset := Quad.get_fill ..

theorem reset_pull (c : Chan) : State.reset.pull.get c = PullCtl.reset := Quad.get_fill ..

theorem reset_cal (c : Chan) : State.reset.cal.get c = CalUnit.reset := Quad.get_fill ..

theorem reset_slot (p : Port) (u : Tag) : State.reset.slot p u = none := by
  simp [State.slot, State.reset]

theorem stationLaw_reset : StationLaw State.reset where
  toClaimLaw := (PullLaw.reset []).toClaimLaw
  oneReview := fun p q h => by rw [reset_port] at h; cases h
  policy := fun p => by rw [reset_port]; rfl
  bound := fun p => by rw [reset_port]; decide
  boundCrew := fun p _ => by rw [reset_port]; rfl
  claimsCrew := fun p u cl h => by rw [reset_slot] at h; cases h
  notices := fun p _ => by rw [reset_port]; rfl

theorem channelLaw_reset : ChannelLaw State.reset where
  binding := fun c => by rw [reset_chan]; rfl
  excited := fun c => by rw [reset_chan]; rfl
  settle := fun c => by rw [reset_chan]; rfl
  probe := fun c _ => by rw [reset_chan]; rfl
  kind := fun c => by rw [reset_chan]; rfl
  held := fun c => by rw [reset_chan, reset_pull]; rfl
  sets := fun p c h => by
    rw [State.holdsChan, reset_port] at h
    exact absurd h (by simp [PortState.reset, FourSet.empty])
  record := fun c h => by rw [reset_chan] at h; cases h
  sizing := fun c h => by rw [reset_chan] at h; cases h
  jobs := fun j h => by cases h
  oneJob := .nil

theorem calLaw_reset : CalLaw State.reset where
  toChannelLaw := channelLaw_reset
  calibrated := fun c h => by rw [reset_chan] at h; cases h.1
  uncalibrated := fun c _ => by rw [reset_cal]; rfl
  room := fun c h => by rw [reset_cal] at h; cases h
  size := fun c => by rw [reset_cal]; exact Nat.zero_le _
  full := fun c h => by rw [reset_chan] at h; cases h
  once := fun c => by rw [reset_cal]; exact .nil
  apart := fun c d _ => by rw [reset_cal]; exact List.disjoint_nil_left _

theorem valueLaw_reset : ValueLaw State.reset where
  curve := fun c h => by cases h
  flight := fun j st h => by cases h
  step := fun st h => by cases h
  buffer := fun c f h => by rw [reset_pull] at h; cases h
  jobs := fun j h => by cases h
  stored := fun tb h => by cases h
  worst := fun tb h => by cases h

/-- Settles O53: each law of the reset state. -/
theorem lawsHoldAtReset : Obligations.LawsHoldAtReset :=
  ⟨.of_empty rfl rfl, fun _ h => (by cases h), .of_empty rfl rfl, fun h => (by cases h),
    stationLaw_reset, GroupLaw.reset [], calLaw_reset, valueLaw_reset, TimeLaw.reset []⟩

/-! ## The step -/

/-- Settles O1: the step looks at the front of the queue. -/
theorem stepRunsTheFrontCommand : Obligations.StepRunsTheFrontCommand := by
  intro c rest s h
  rw [step, h]

end Sys2Proof.Machine
end

section
/-!
Every step keeps the law of claims (R30), with no other law to rest on: each action writes a slot together
with the claim field of its tube, or leaves both as they are.
-/

namespace Sys2Proof.Machine

variable {s t : State} {p : Port} {u : Tag} {i : Nat} {c : Chan}

/-! ## Actions that write no claim -/

theorem ClaimLaw.of_same (h : ClaimLaw s) (hp : t.planState = s.planState) (hc : t.claims = s.claims)
    (ht : t.tubes = s.tubes) : ClaimLaw t :=
  h.of_retubed (R := fun _ tb tb' => tb' = tb) hp hc (by rw [ht]; exact .refl fun _ _ _ => rfl)
    fun _ _ _ e => by rw [e]

theorem ClaimLaw.of_quiet (h : ClaimLaw s) (k : Quiet s t) : ClaimLaw t :=
  h.of_same k.planState k.claims k.tubes

/-- One record rewritten, its claim the same. -/
theorem ClaimLaw.of_modify {f : Tube → Tube} (h : ClaimLaw s) (hp : t.planState = s.planState)
    (hc : t.claims = s.claims) (ht : t.tubes = s.tubes.modify i f)
    (hf : ∀ tb, (f tb).claim = tb.claim) : ClaimLaw t :=
  h.of_retubed (R := fun _ tb tb' => tb'.claim = tb.claim) hp hc
    (by rw [ht]; exact .modify (fun _ _ => rfl) fun tb _ => hf tb) fun _ _ _ e => e

theorem ClaimLaw.scope (h : ClaimLaw s) (r : Rect) (dir : Nat) :
    ClaimLaw { s with tubes := s.tubes.map (Tube.scoped r dir) } :=
  h.of_retubed (R := fun _ tb tb' => tb'.claim = tb.claim) rfl rfl
    (.of_map (f := fun _ => Tube.scoped r dir) (fun _ => List.getElem?_map ..)
      fun _ tb _ => (scoped_place r dir tb).2.2.2.2)
    fun _ _ _ e => e

theorem ClaimLaw.invalidate (h : ClaimLaw s) (c : Chan) : ClaimLaw (s.invalidate c) :=
  h.of_retubed (R := fun _ tb tb' => tb'.claim = tb.claim) rfl rfl
    (.invalidate (fun _ _ => rfl) fun _ _ _ _ => rfl) fun _ _ _ e => e

theorem ClaimLaw.judged (h : ClaimLaw s) (hj : Judged s c t) : ClaimLaw t := by
  obtain ⟨_, rfl, -⟩ | rfl := hj
  · exact h.of_same rfl rfl rfl
  · exact h.invalidate c

theorem ClaimLaw.endCal (h : ClaimLaw s) (c : Chan) (kind : PullKind) :
    ClaimLaw (s.endCal c kind) := by
  obtain ⟨_, _, _, _, hv, e, -⟩ := endCal_parts s c kind
  rw [e]
  exact (h.judged hv).of_same rfl rfl rfl

theorem ClaimLaw.forceUnbind (h : ClaimLaw s) (c : Chan) : ClaimLaw (s.forceUnbind c) := by
  obtain ⟨_, e⟩ := forceUnbind_parts s c
  rw [e]
  exact (h.invalidate c).of_same rfl rfl rfl

theorem ClaimLaw.stepWrite (h : ClaimLaw s) (st : Settings) : ClaimLaw (s.writeStep st) := by
  obtain ⟨_, _, e⟩ := writeStep_parts s st
  rw [e]
  exact h.of_modify rfl rfl rfl (Tube.stepped_claim st)

/-! ## Plan states -/

/-- With no tube claimed every slot is empty. -/
theorem ClaimLaw.slots_empty (h : ClaimLaw s) (ht : ∀ tb ∈ s.tubes, tb.claim = none) (p : Port)
    (u : Tag) : s.slot p u = none := by
  cases hs : s.slot p u with
  | none => rfl
  | some cl =>
    obtain ⟨tb, htb, hcf⟩ := h.slotTube p u cl hs
    rw [ht tb (List.mem_of_getElem? htb)] at hcf
    cases hcf

/-- Outside ACTIVE the slots are empty, so the law speaks of the tubes alone. -/
theorem ClaimLaw.of_unclaimed (h : ClaimLaw s) (hne : s.planState ≠ .active)
    (hc : t.claims = s.claims) (ht : ∀ tb ∈ t.tubes, tb.claim = none) : ClaimLaw t :=
  .of_free ht fun p u => by rw [State.slot, hc]; exact h.onlyActive hne p u

theorem ClaimLaw.newPlan (h : ClaimLaw s) (gate : s.planState = .empty ∨ s.planState = .draft
    ∨ s.planState = .closed ∧ s.lock = false) : ClaimLaw s.newPlan := by
  refine h.of_unclaimed ?_ rfl fun tb hm => by cases hm
  rcases gate with e | e | ⟨e, -⟩ <;> rw [e] <;> exact nofun

theorem ClaimLaw.planOpen (h : ClaimLaw s) (draft : s.planState = .draft) :
    ClaimLaw { s with planState := .active } := by
  have hne : s.planState ≠ .active := by rw [draft]; exact nofun
  exact h.of_unclaimed hne rfl fun tb hm => h.unclaimed hne hm

theorem ClaimLaw.planClose (h : ClaimLaw s) (quiet : s.inProgress = false) :
    ClaimLaw { s with planState := .closed } := by
  simp only [State.inProgress, Bool.or_eq_false_iff, List.any_eq_false, Option.not_isSome_iff_eq_none]
    at quiet
  obtain ⟨⟨⟨hfree, -⟩, -⟩, -⟩ := quiet
  exact .of_free hfree (h.slots_empty hfree)

theorem ClaimLaw.addRow (h : ClaimLaw s) (draft : s.planState = .draft) (x : RowAddBody) :
    ClaimLaw (s.addRow x) := by
  have hne : s.planState ≠ .active := by rw [draft]; exact nofun
  refine h.of_unclaimed hne rfl fun tb hm => ?_
  rcases List.mem_append.1 hm with hm | hm
  · exact h.unclaimed hne hm
  · rw [newTubes_eq] at hm
    obtain ⟨_, -, rfl⟩ := List.mem_map.1 hm
    rfl

theorem ClaimLaw.warm (s : State) : ClaimLaw s.warm := by
  refine .of_free (fun tb' hm => ?_) fun p u => ?_
  · obtain ⟨_, -, rfl⟩ := List.mem_map.1 hm
    rfl
  · show ((Quad.fill (Quad.fill none)).get p).get u = none
    rw [Quad.get_fill, Quad.get_fill]

/-! ## Grants, marks and ends of claims -/

theorem ClaimLaw.grant (h : ClaimLaw s) {tb : Tube} (active : s.planState = .active)
    (empty : s.slot p u = none) (tube : s.tubes[i]? = some tb) (unclaimed : tb.claim = none) :
    ClaimLaw (s.grant p u i) := by
  rw [State.grant_eq tube]
  refine h.claimWrite ⟨tube, fun cf e => ?_, fun cl e => ?_⟩ (.inr ⟨_, _, rfl, rfl⟩) fun _ => active
  · rw [unclaimed] at e; cases e
  · rw [empty] at e; cases e

/-- A claim held anew on its slot: in pull, or on a new lease. -/
theorem ClaimLaw.rehold (h : ClaimLaw s) {hold hold' : Hold} {d : Bool} {tb : Tube}
    (hs : s.slot p u = some ⟨i, hold, d⟩) (hw : s.Writable p u i tb) :
    ClaimLaw (s.claimWrite p u (some ⟨i, hold', d⟩) i
      { tb with claim := some ⟨p, u, decide (hold' = .inPull)⟩ }) :=
  h.claimWrite hw (.inr ⟨_, _, rfl, rfl⟩) fun _ => h.active_of_slot hs

theorem ClaimLaw.markInPull (h : ClaimLaw s) (p : Port) (u : Tag) : ClaimLaw (s.markInPull p u) := by
  cases hs : s.slot p u with
  | none => rw [(State.claimOps_of_empty hs).1]; exact h
  | some cl =>
    obtain ⟨tb, hw, -⟩ := h.writable hs
    rw [State.markInPull_eq hs hw.tube]
    exact h.rehold (hold' := .inPull) hs hw

theorem ClaimLaw.keepClaim (h : ClaimLaw s) (p : Port) (u : Tag) : ClaimLaw (s.keepClaim p u) := by
  cases hs : s.slot p u with
  | none => rw [(State.claimOps_of_empty hs).2.1]; exact h
  | some cl =>
    obtain ⟨tb, hw, -⟩ := h.writable hs
    rw [State.keepClaim_eq hs hw.tube]
    exact h.rehold (hold' := .leased _) hs hw

theorem ClaimLaw.dropClaim (h : ClaimLaw s) (p : Port) (u : Tag) : ClaimLaw (s.dropClaim p u) := by
  cases hs : s.slot p u with
  | none => rw [(State.claimOps_of_empty hs).2.2]; exact h
  | some cl =>
    obtain ⟨tb, hw, -⟩ := h.writable hs
    rw [State.dropClaim_eq hs hw.tube]
    exact h.claimWrite hw (.inl ⟨rfl, rfl⟩) fun e => absurd rfl e

theorem ClaimLaw.expire (h : ClaimLaw s) (p : Port) (u : Tag) : ClaimLaw (s.expire p u) := by
  unfold State.expire
  dsimp only
  split
  · exact h.dropClaim p u
  · exact (h.dropClaim p u).of_same rfl rfl rfl

theorem ClaimLaw.revoke (h : ClaimLaw s) (p : Port) (u : Tag) :
    ClaimLaw (if s.departedClaim p u then s.dropClaim p u else (s.dropClaim p u).addRevoked p u) := by
  split
  · exact h.dropClaim p u
  · exact (h.dropClaim p u).of_same rfl rfl rfl

theorem ClaimLaw.tick (h : ClaimLaw s) :
    ClaimLaw { s with seconds := s.seconds + 1 }.takeLeases.takeIntervals := by
  have h1 : ClaimLaw { s with seconds := s.seconds + 1 } := h.of_same rfl rfl rfl
  exact (takeLeases_keeps (fun _ p u h _ => h.expire p u) h1).of_quiet (.takeIntervals _)

/-- A slot that differs in its departed mark alone holds the same claim but for the mark. -/
theorem slot_of_same_claim {cl : Claim} (hs : s.slot p u = some cl)
    (h : (t.slot p u).map Claim.depart = (s.slot p u).map Claim.depart) :
    ∃ d, t.slot p u = some ⟨cl.tube, cl.hold, d⟩ := by
  rw [hs] at h
  obtain ⟨⟨i, hold, d⟩, ht, e⟩ := Option.map_eq_some_iff.1 h
  cases e
  exact ⟨d, ht⟩

/-- The law does not speak of the departed marks. -/
theorem ClaimLaw.of_marks (h : ClaimLaw s) (hp : t.planState = s.planState) (ht : t.tubes = s.tubes)
    (hs : ∀ p u, (t.slot p u).map Claim.depart = (s.slot p u).map Claim.depart) : ClaimLaw t := by
  refine ⟨fun p u cl e => ?_, fun i tb cf hi hcf => ?_, fun ha p u => ?_⟩
  · obtain ⟨d, e'⟩ := slot_of_same_claim e (hs p u).symm
    rw [ht]
    exact h.slotTube p u ⟨cl.tube, cl.hold, d⟩ e'
  · rw [ht] at hi
    obtain ⟨cl, e, rfl⟩ := h.tubeSlot i tb cf hi hcf
    obtain ⟨d, e'⟩ := slot_of_same_claim e (hs _ _)
    exact ⟨_, e', rfl⟩
  · have e := hs p u
    rw [h.onlyActive (hp ▸ ha) p u] at e
    exact Option.map_eq_none_iff.1 e

theorem ClaimLaw.detach (h : ClaimLaw s) (p : Port) : ClaimLaw (s.detachPort p) := by
  refine h.of_marks rfl rfl fun q v => ?_
  rw [slot_detachPort]
  split
  · rw [Option.map_map]; rfl
  · rfl

/-! ## The ends of pulls, and the commit -/

theorem ClaimLaw.abort (h : ClaimLaw s) (c : Chan) : ClaimLaw (s.abortPull c) := by
  unfold State.abortPull
  dsimp only
  split
  · exact h.of_same rfl rfl rfl
  · split
    · refine ClaimLaw.keepClaim ?_ _ _
      exact h.of_same rfl rfl rfl
    · exact h.of_same rfl rfl rfl

theorem ClaimLaw.errorCommit (h : ClaimLaw s) (p : Port) (u : Tag) (i : Nat) :
    ClaimLaw (s.errorCommit p u i) := by
  unfold State.errorCommit
  split
  · exact h
  · dsimp only
    split
    · refine ClaimLaw.dropClaim ?_ p u
      exact h.of_modify rfl rfl rfl fun _ => rfl
    · refine ClaimLaw.keepClaim ?_ p u
      exact h.of_modify rfl rfl rfl fun _ => rfl

theorem ClaimLaw.errorEnd (h : ClaimLaw s) (c : Chan) (rec : PullRecord) (tp : TubePull) :
    ClaimLaw (s.errorEnd c rec tp) :=
  (h.errorCommit rec.port tp.tag tp.index).of_same rfl rfl rfl

theorem ClaimLaw.releaseChan (h : ClaimLaw s) (j : Job) (z : Sizing) :
    ClaimLaw (s.releaseChan j z) := by
  unfold State.releaseChan
  dsimp only
  split
  · exact h.forceUnbind j.chan
  · exact h.of_same rfl rfl rfl

theorem ClaimLaw.commit (h : ClaimLaw s) (j : Job) (st : Settings) : ClaimLaw (s.commitJob j st) := by
  cases ht : s.tubes[j.index]? with
  | none => rw [commitJob_of_none ht]; exact h.of_same rfl rfl rfl
  | some tb =>
    rw [commitJob_of_tube ht]
    generalize sizeJob j st tb.list s.free = z
    have hwrite : ClaimLaw (s.committing j z) := h.of_modify rfl rfl rfl fun _ => rfl
    have hwarn : ClaimLaw (((s.committing j z).dropClaim j.port j.tag).warnStore s.free) := by
      obtain ⟨_, e⟩ := warnStore_parts ((s.committing j z).dropClaim j.port j.tag) s.free
      rw [e]
      exact (hwrite.dropClaim j.port j.tag).of_same rfl rfl rfl
    exact hwarn.releaseChan j z

/-! ## All actions -/

theorem ClaimLaw.act (h : ClaimLaw s) (a : Act s t) : ClaimLaw t := by
  cases a with
  | quiet a => exact h.of_quiet a.quiet
  | newPlan gate _ => exact h.newPlan gate
  | planOpen draft => exact h.planOpen draft
  | planClose _ quiet => exact h.planClose quiet
  | planLock | planSet | standardSet | tracesSet | jobEnd => exact h.of_same rfl rfl rfl
  | curveSet _ l cv _ =>
    refine ClaimLaw.of_quiet ?_ (.settingsChanged _)
    exact h.of_same rfl rfl rfl
  | limitsSet _ x =>
    refine (ClaimLaw.of_quiet ?_ (.takeIntervals _)).of_quiet (.settingsChanged _)
    exact h.of_same rfl rfl rfl
  | addRow draft x _ _ _ => exact h.addRow draft x
  | mark | repull => exact h.of_modify rfl rfl rfl fun _ => rfl
  | scope _ r dir => exact h.scope r dir
  | grant active _ _ _ _ _ empty tube _ unclaimed => exact h.grant active empty tube unclaimed
  | drop p u _ _ _ => exact h.dropClaim p u
  | revoke _ _ cf _ _ _ => exact h.revoke cf.port cf.tag
  | expire p u _ => exact h.expire p u
  | detach p => exact h.detach p
  | startTube p u _ _ _ _ _ _ _ _ _ _ _ => exact (h.markInPull p u).of_same rfl rfl rfl
  | abort c _ => exact h.abort c
  | errorEnd c rec tp _ => exact h.errorEnd c rec tp
  | endCal c _ _ _ _ => exact h.endCal c _
  | commit j st _ => exact h.commit j st
  | stepWrite st _ => exact h.stepWrite st
  | forceUnbind c _ _ => exact h.forceUnbind c
  | warm => exact .warm s
  | tick => exact h.tick

theorem ClaimLaw.reset (l : List Instr) : ClaimLaw { State.reset with pending := l } :=
  (PullLaw.reset l).toClaimLaw

/-- Settles O56: each action writes a slot with its tube's claim field, or leaves both as they are. -/
theorem claimLawIsKept : Obligations.ClaimLawIsKept :=
  kept_of_acts (fun _ _ h a => h.act a) ClaimLaw.reset

end Sys2Proof.Machine
end

section
/-!
SUPPORT. A request that its port takes from an attached station; and what the tests of the Claim Table's
requests say of a tube.
-/

namespace Sys2Proof.Machine

variable {s t : State} {p : Port} {u : Tag} {i : Nat}

/-! ## A request of an attached station -/

section
variable {α : Type} {code : Byte} {body out : List Byte} {fields : Option α} {x : α}
  (owner : α → Port → State → Answer) (why : RefusalCode)

/-- A request that its owner refuses is answered REFUSED. -/
theorem attached_refused (h : s.takes p ⟨code, body, false⟩) (role : (s.ports.get p).role ≠ .none)
    (hx : fields = some x) (ho : owner x p s = .refused why) :
    request p code body .attached fields owner s = .next (s.answered p 0xF1 [why.code]) := by
  rw [request_owner h (Rights.attached_allows role) hx, ho, State.answer_refused]

/-- A request that its owner accepts is answered DONE. -/
theorem attached_done (h : s.takes p ⟨code, body, false⟩) (role : (s.ports.get p).role ≠ .none)
    (hx : fields = some x) (ho : owner x p s = .done t out) :
    request p code body .attached fields owner s = .next (t.answered p 0xF0 out) := by
  rw [request_owner h (Rights.attached_allows role) hx, ho, State.answer_done]

end

theorem attached_of_crew (role : (s.ports.get p).role = .crew) : (s.ports.get p).role ≠ .none := by
  rw [role]; exact nofun

/-! ## Open tubes and candidates -/

theorem isOpen_iff (st : Status) : st.isOpen = true ↔ st = .pending ∨ st = .repull := by
  cases st <;> simp [Status.isOpen]

theorem candidate_iff (s : State) (r : Rect) (st : Status) (i : Nat) :
    Candidate s r st i ↔ ∃ tb, s.tubes[i]? = some tb ∧ candidate r st tb = true := by
  simp only [Candidate, candidate, Rect.holds, Bool.and_eq_true, decide_eq_true_eq,
    Option.isNone_iff_eq_none, and_assoc]

/-- The first index with a candidate is the lowest candidate. -/
theorem firstIndex_candidate (s : State) (r : Rect) (st : Status) (i : Nat) :
    firstIndex (candidate r st) 0 s.tubes = some i
      ↔ Candidate s r st i ∧ ∀ j, j < i → ¬ Candidate s r st j := by
  rw [firstIndex_eq_some, candidate_iff]
  simp only [Nat.zero_le, true_and, Nat.sub_zero, Nat.zero_add]
  refine and_congr_right fun _ => ⟨fun h j hlt hj => ?_, fun h j tb htb hf => ?_⟩
  · obtain ⟨tb, htb, hf⟩ := (candidate_iff s r st j).1 hj
    exact absurd (h j tb htb hf) (Nat.not_le.2 hlt)
  · exact Nat.not_lt.1 fun hlt => h j hlt ((candidate_iff s r st j).2 ⟨tb, htb, hf⟩)

theorem firstIndex_no_candidate {r : Rect} {st : Status} (h : ∀ j, ¬ Candidate s r st j) :
    firstIndex (candidate r st) 0 s.tubes = none := by
  refine firstIndex_eq_none.2 fun tb hm => ?_
  obtain ⟨j, hj⟩ := List.getElem?_of_mem hm
  exact eq_false_of_ne_true fun hf => h j ((candidate_iff s r st j).2 ⟨tb, hj, hf⟩)

/-- CLAIM_NEXT chooses the lowest REPULL candidate, or else the lowest PENDING one (R34). -/
theorem chooseNext_of_lowest {r : Rect}
    (h : Candidate s r .repull i ∧ (∀ j, j < i → ¬ Candidate s r .repull j)
      ∨ (∀ j, ¬ Candidate s r .repull j) ∧ Candidate s r .pending i
        ∧ ∀ j, j < i → ¬ Candidate s r .pending j) : chooseNext r s.tubes = some i := by
  obtain h | ⟨hnone, h⟩ := h
  · rw [chooseNext, (firstIndex_candidate s r .repull i).2 h]
  · rw [chooseNext, firstIndex_no_candidate hnone]
    exact (firstIndex_candidate s r .pending i).2 h

theorem chooseNext_of_none {r : Rect}
    (h : ∀ j, ¬ Candidate s r .repull j ∧ ¬ Candidate s r .pending j) :
    chooseNext r s.tubes = none := by
  rw [chooseNext, firstIndex_no_candidate fun j => (h j).1]
  exact firstIndex_no_candidate fun j => (h j).2

end Sys2Proof.Machine
end

section
/-!
The Claim Table's requests and the expiry of a lease (R33 to R37, R42, R43, R45).
-/

namespace Sys2Proof.Machine

variable {s : State} {p : Port} {u : Tag} {i : Nat} {hold : Hold} {d : Bool} {tb : Tube}

/-! ## CLAIM -/

/-- Settles O25: the seven checks in their order, then the grant. -/
theorem claimGrantsAnOpenTube : Obligations.ClaimGrantsAnOpenTube := by
  intro s p tag r0 r1 k0 k1 body place h attached
  have hx : readTagPlace body = some ⟨tag, place⟩ := rfl
  refine ⟨fun hp => ?_, fun active role => ?_, fun active role hgt => ?_,
    fun active role t ht => ⟨fun hs => ?_, fun hs hat => ?_, fun hs i tb hat =>
      ⟨fun hpending hrepull => ?_, fun hopen => ⟨fun hc => ?_, fun hc => ?_⟩⟩⟩⟩
  · refine attached_refused ownClaim .state h attached hx ?_
    rw [ownClaim, if_pos hp]
  · refine attached_refused ownClaim .role h attached hx ?_
    rw [ownClaim, if_neg (not_not.2 active), if_pos role]
  · refine attached_refused ownClaim .range h attached hx ?_
    simp [ownClaim, active, role, fin4_of_gt hgt]
  · refine attached_refused ownClaim .tagBusy h attached hx ?_
    simp [ownClaim, active, role, fin4_of_val ht, Option.isSome_iff_ne_none.2 hs]
  · refine attached_refused ownClaim .noTube h attached hx ?_
    simp [ownClaim, active, role, fin4_of_val ht, hs, hat]
  · refine attached_refused ownClaim .notClaimable h attached hx ?_
    have hshut : tb.status.isOpen = false := eq_false_of_ne_true fun e =>
      ((isOpen_iff _).1 e).elim hpending hrepull
    simp [ownClaim, active, role, fin4_of_val ht, hs, hat, hshut]
  · refine attached_refused ownClaim .taken h attached hx ?_
    simp [ownClaim, active, role, fin4_of_val ht, hs, hat, (isOpen_iff _).2 hopen,
      Option.isSome_iff_ne_none.2 hc]
  · have own : ownClaim ⟨tag, place⟩ p s = .done (s.grant p t i) (grantBody t i tb s.plan.lease) := by
      simp [ownClaim, active, role, fin4_of_val ht, hs, hat, (isOpen_iff _).2 hopen, hc]
    have e := attached_done ownClaim h attached hx own
    rw [State.grant_eq (State.tubeAt_get hat)] at e
    exact e

/-! ## CLAIM_NEXT -/

theorem rectValid_iff (r : Rect) : r.valid = true ↔
    1 ≤ r.firstRow ∧ r.firstRow ≤ r.lastRow ∧ r.lastRow ≤ 256
      ∧ 1 ≤ r.firstCol ∧ r.firstCol ≤ r.lastCol ∧ r.lastCol ≤ 256 := by
  rw [Rect.valid, decide_eq_true_iff]
  tauto

/-- Settles O26: the checks in their order; the choice is the lowest candidate. -/
theorem claimNextGrantsTheLowestCandidate : Obligations.ClaimNextGrantsTheLowestCandidate := by
  refine ⟨?_, ?_⟩
  · intro s p tag a0 a1 b0 b1 d0 d1 e0 e1 t body r h role active ht hs h1 h2 h3 h4 h5 h6
    have hx : readClaimNext body = some ⟨r, tag⟩ := rfl
    have attached := attached_of_crew role
    have hvalid : r.valid = true := (rectValid_iff r).2 ⟨h1, h2, h3, h4, h5, h6⟩
    refine ⟨fun i tb htb hlow => ?_, fun hnone => ?_⟩
    · have own : ownClaimNext ⟨r, tag⟩ p s
          = .done (s.grant p t i) (grantBody t i tb s.plan.lease) := by
        simp [ownClaimNext, active, role, fin4_of_val ht, hvalid, hs, chooseNext_of_lowest hlow, htb]
      have e := attached_done ownClaimNext h attached hx own
      rw [State.grant_eq htb] at e
      exact e
    · refine attached_refused ownClaimNext .noneLeft h attached hx ?_
      simp [ownClaimNext, active, role, fin4_of_val ht, hvalid, hs, chooseNext_of_none hnone]
  · intro s p tag a0 a1 b0 b1 d0 d1 e0 e1 body firstRow lastRow firstCol lastCol fits h attached
    have hx : readClaimNext body = some ⟨⟨firstRow, lastRow, firstCol, lastCol⟩, tag⟩ := rfl
    have hrect := rectValid_iff ⟨firstRow, lastRow, firstCol, lastCol⟩
    refine ⟨fun hp => ?_, fun active role => ?_, fun active role hf => ?_,
      fun active role hf t ht hs => ?_⟩
    · refine attached_refused ownClaimNext .state h attached hx ?_
      rw [ownClaimNext, if_pos hp]
    · refine attached_refused ownClaimNext .role h attached hx ?_
      rw [ownClaimNext, if_neg (not_not.2 active), if_pos role]
    · refine attached_refused ownClaimNext .range h attached hx ?_
      rcases Nat.lt_or_ge 3 tag.toNat with hgt | hle
      · simp [ownClaimNext, active, role, fin4_of_gt hgt]
      · have hinvalid : Rect.valid ⟨firstRow, lastRow, firstCol, lastCol⟩ = false :=
          eq_false_of_ne_true fun e => hf ⟨hle, hrect.1 e⟩
        have htag : fin4 tag = some ⟨tag.toNat, Nat.lt_succ_of_le hle⟩ := fin4_of_val rfl
        simp [ownClaimNext, active, role, htag, hinvalid]
    · refine attached_refused ownClaimNext .tagBusy h attached hx ?_
      simp [ownClaimNext, active, role, fin4_of_val ht, hrect.2 hf.2, Option.isSome_iff_ne_none.2 hs]

/-! ## RELEASE and TUBE_RELEASE -/

theorem departedClaim_eq (hs : s.slot p u = some ⟨i, hold, d⟩) : s.departedClaim p u = d := by
  rw [State.departedClaim, hs]

/-- The removal of a station's claim by TUBE_RELEASE, written out. -/
theorem revoke_eq (hs : s.slot p u = some ⟨i, hold, d⟩) (ht : s.tubes[i]? = some tb) :
    (if s.departedClaim p u then s.dropClaim p u else (s.dropClaim p u).addRevoked p u)
      = { s with
          claims := s.claims.set p ((s.claims.get p).set u none)
          tubes := s.tubes.set i { tb with claim := none }
          ports :=
            if d then s.ports
            else s.ports.set p
              { s.ports.get p with
                notices :=
                  { (s.ports.get p).notices with
                    claimRevoked := (s.ports.get p).notices.claimRevoked.set u true } } } := by
  rw [departedClaim_eq hs, State.dropClaim_eq hs ht]
  cases d <;> rfl

/-- The expiry of a claim, written out. -/
theorem expire_eq (hs : s.slot p u = some ⟨i, hold, d⟩) (ht : s.tubes[i]? = some tb) :
    s.expire p u
      = { s with
          claims := s.claims.set p ((s.claims.get p).set u none)
          tubes := s.tubes.set i { tb with claim := none }
          ports :=
            if d then s.ports
            else s.ports.set p
              { s.ports.get p with
                notices :=
                  { (s.ports.get p).notices with
                    claimExpired := (s.ports.get p).notices.claimExpired.set u true } } } := by
  rw [State.expire, departedClaim_eq hs, State.dropClaim_eq hs ht]
  cases d <;> rfl

/-- Settles O27: the refusals of both requests in their orders, and the claim ended. -/
theorem releasesEndTheClaim : Obligations.ReleasesEndTheClaim := by
  refine ⟨?_, ?_⟩
  · intro s p tag h attached
    have hx : readOne [tag] = some tag := rfl
    refine ⟨fun role => ?_, fun role hgt => ?_, fun role t ht =>
      ⟨fun hs => ?_, fun i d hs => ?_, fun i deadline d tb hs htb => ?_⟩⟩
    · refine attached_refused ownRelease .role h attached hx ?_
      rw [ownRelease, if_pos role]
    · refine attached_refused ownRelease .range h attached hx ?_
      simp [ownRelease, role, fin4_of_gt hgt]
    · refine attached_refused ownRelease .noClaim h attached hx ?_
      simp [ownRelease, role, fin4_of_val ht, hs]
    · refine attached_refused ownRelease .inPull h attached hx ?_
      simp [ownRelease, role, fin4_of_val ht, hs]
    · have own : ownRelease tag p s = .done (s.dropClaim p t) (c2 tb.row ++ c2 tb.col) := by
        simp [ownRelease, role, fin4_of_val ht, hs, placeBody, htb]
      have e := attached_done ownRelease h attached hx own
      rw [State.dropClaim_eq hs htb] at e
      exact e
  · intro s p r0 r1 k0 k1 body place h attached
    have hx : readPlace body = some place := rfl
    refine ⟨fun role => ?_, fun role => ⟨fun hat => ?_, fun i tb hat =>
      ⟨fun hc => ?_, fun q t hc => ?_, fun q t deadline departed hc hs => ?_⟩⟩⟩
    · refine attached_refused ownTubeRelease .role h attached hx ?_
      rw [ownTubeRelease, if_pos role]
    · refine attached_refused ownTubeRelease .noTube h attached hx ?_
      simp [ownTubeRelease, role, hat]
    · refine attached_refused ownTubeRelease .noClaim h attached hx ?_
      simp [ownTubeRelease, role, hat, hc]
    · refine attached_refused ownTubeRelease .inPull h attached hx ?_
      simp [ownTubeRelease, role, hat, hc]
    · have own : ownTubeRelease place p s
          = .done (if s.departedClaim q t then s.dropClaim q t else (s.dropClaim q t).addRevoked q t)
              (c1 q.val ++ c1 t.val) := by
        simp [ownTubeRelease, role, hat, hc]
      have e := attached_done ownTubeRelease h attached hx own
      rw [revoke_eq hs (State.tubeAt_get hat)] at e
      exact e

/-! ## LEASE_EXPIRY -/

theorem leaseRunOut_leased {deadline : Nat} (hs : s.slot p u = some ⟨i, .leased deadline, d⟩) :
    s.leaseRunOut p u = decide (deadline ≤ s.now) := by
  rw [State.leaseRunOut, hs]

theorem leaseRunOut_inPull (hs : s.slot p u = some ⟨i, .inPull, d⟩) : s.leaseRunOut p u = false := by
  rw [State.leaseRunOut, hs]

theorem leaseExpiry_early (h : ¬ s.leaseRunOut p u = true) : exec (.leaseExpiry p u) s = .next s :=
  congrArg _ (if_neg h)

theorem leaseExpiry_due (h : s.leaseRunOut p u = true) :
    exec (.leaseExpiry p u) s = .next (s.expire p u) :=
  congrArg _ (if_pos h)

/-- Settles O28: a lease that has run out expires; one that runs on and a claim in pull stay. -/
theorem leaseExpiryEndsTheClaim : Obligations.LeaseExpiryEndsTheClaim := by
  intro s p t i departed
  refine ⟨fun deadline tb hs htb hdue => ?_, fun deadline hs hearly => ?_, fun hs => ?_⟩
  · rw [leaseExpiry_due ((leaseRunOut_leased hs).trans (decide_eq_true hdue)), expire_eq hs htb]
  · refine leaseExpiry_early ?_
    rw [leaseRunOut_leased hs, decide_eq_true_iff]
    exact Nat.not_le.2 hearly
  · refine leaseExpiry_early ?_
    rw [leaseRunOut_inPull hs]
    exact nofun

end Sys2Proof.Machine
end

section
/-!
The start and the abort of a pull (R38, R40, R70, R85, R89).
-/

namespace Sys2Proof.Machine

variable {s : State} {p : Port} {c : Chan} {rec : PullRecord} {tp : TubePull} {tb : Tube} {d : Bool}

/-! ## PULL_START -/

theorem slotOn_raw {slots : Quad (Option Nat)} {t : Trace}
    (h : ∀ r, t = .raw r → slots.get r.slot ≠ none) : t.slotOn slots = true := by
  cases t with
  | raw r => exact Option.isSome_iff_ne_none.2 (h r rfl)
  | m1 | m2 => rfl

theorem mixReady_learned {slots : Quad (Option Nat)} {m : MixDef} {k : Option Coef} (hk : k ≠ none)
    (hp : slots.get m.primary.slot ≠ none) (hs : slots.get m.secondary.slot ≠ none) :
    mixReady slots (some m) k = true := by
  obtain ⟨k, rfl⟩ := Option.ne_none_iff_exists'.1 hk
  exact Bool.and_eq_true_iff.2 ⟨Option.isSome_iff_ne_none.2 hp, Option.isSome_iff_ne_none.2 hs⟩

/-- The detection trace of the plan can be read on channel `c`, and `mix` is its mix definition where it
is a mix (R69, R70). -/
def State.detects (s : State) (c : Chan) (mix : Option MixDef) : Prop :=
  (∃ r, s.plan.detection = .raw r ∧ (s.chan.get c).slots.get r.slot ≠ none ∧ mix = none)
    ∨ (∃ m, s.plan.detection = .m1 ∧ s.plan.mixes[0]? = some m ∧ (s.cal.get c).mix1 ≠ none
        ∧ (s.chan.get c).slots.get m.primary.slot ≠ none
        ∧ (s.chan.get c).slots.get m.secondary.slot ≠ none ∧ mix = some m)
    ∨ (∃ m, s.plan.detection = .m2 ∧ s.plan.mixes[1]? = some m ∧ (s.cal.get c).mix2 ≠ none
        ∧ (s.chan.get c).slots.get m.primary.slot ≠ none
        ∧ (s.chan.get c).slots.get m.secondary.slot ≠ none ∧ mix = some m)

theorem State.detects.mix {mix : Option MixDef} (h : s.detects c mix) :
    s.plan.detectionMix = mix := by
  obtain ⟨r, e, -, rfl⟩ | ⟨m, e, hm, -, -, -, rfl⟩ | ⟨m, e, hm, -, -, -, rfl⟩ := h
  · simp only [Plan.detectionMix, e]
  · simp only [Plan.detectionMix, e, hm]
  · simp only [Plan.detectionMix, e, hm]

theorem State.detects.slotOn {mix : Option MixDef} (h : s.detects c mix) :
    s.plan.detection.slotOn (s.chan.get c).slots = true := by
  refine slotOn_raw fun r hr => ?_
  obtain ⟨r', e, hslot, -⟩ | ⟨m, e, -⟩ | ⟨m, e, -⟩ := h <;> rw [e] at hr <;> cases hr
  exact hslot

theorem State.detects.ready {mix : Option MixDef} (h : s.detects c mix) :
    detectionReady (s.chan.get c).slots s.plan (s.cal.get c) = true := by
  have hmix := h.mix
  obtain ⟨r, e, -⟩ | ⟨m, e, -, hk, hp, hs, rfl⟩ | ⟨m, e, -, hk, hp, hs, rfl⟩ := h
  · simp only [detectionReady, e]
  · simp only [detectionReady, e, hmix, mixReady_learned hk hp hs]
  · simp only [detectionReady, e, hmix, mixReady_learned hk hp hs]

/-- Checks 7 to 10 of R69 pass. -/
theorem tubeStartRefusal_none {mix : Option MixDef} (probe : (s.chan.get c).probeOpen = false)
    (calibrated : (s.cal.get c).state = .calibrated)
    (support : ∀ r, s.plan.support = .raw r → (s.chan.get c).slots.get r.slot ≠ none)
    (h : s.detects c mix) : s.tubeStartRefusal c = none := by
  simp [State.tubeStartRefusal, probe, calibrated, slotOn_raw support, h.slotOn, h.ready]

/-- Settles O34: every check passes, and the one action is written out. -/
theorem pullStartBeginsAPull : Obligations.PullStartBeginsAPull := by
  intro s p a b t c i deadline d tb policy mix h role hpolicy ha hb holds ready probe calibrated support
    detects hs htb
  have own : ownPullStart (a, b) p s = .done (s.startTube p t c i tb) (pullStartBody s t c tb) := by
    simp [ownPullStart, role, fin4_of_val ha, fin4_of_val hb, holds, ready, startRefusal,
      tubeStartRefusal_none probe calibrated support detects, hs, htb]
  have hx : readTwo [a, b] = some (a, b) := rfl
  have e := attached_done ownPullStart h (attached_of_crew role) hx own
  rw [State.startTube, State.markInPull_eq hs htb, State.tubeRecord, hpolicy,
    State.detects.mix detects, pullStartBody, c1_of_toNat ha, c1_of_toNat hb] at e
  exact e

/-! ## PULL_ABORT -/

/-- An abort discards the open window, the latch and the buffer. -/
theorem abort_discarded (k : PullCtl) :
    { k.discardOpen with latch := [], buffer := [] } = Discarded k [] k.result := by
  obtain ⟨record, samples, null, armed, supports, supportAt, detector, buffer, found, latch, result⟩ := k
  cases detector <;> rfl

/-- The abort of a tube pull whose claim is in a slot and names a tube of the map. -/
theorem abortPull_tube {hold : Hold} (hr : (s.pull.get c).record = some rec)
    (htube : rec.tube = some tp) (hs : s.slot rec.port tp.tag = some ⟨tp.index, hold, d⟩)
    (ht : s.tubes[tp.index]? = some tb) :
    s.abortPull c = { s with
      pull := s.pull.set c (Discarded (s.pull.get c) [] (s.pull.get c).result)
      chan := s.chan.set c { s.chan.get c with state := .ready, kind := none, waiting := [] }
      claims := s.claims.set rec.port ((s.claims.get rec.port).set tp.tag
        (some ⟨tp.index, .leased (s.now + s.plan.lease), d⟩))
      tubes := s.tubes.set tp.index { tb with claim := some ⟨rec.port, tp.tag, false⟩ } } := by
  simp only [State.abortPull, hr, htube]
  rw [State.keepClaim_eq (i := tp.index) (hold := hold) (d := d) (by exact hs) (by exact ht),
    abort_discarded]
  rfl

/-- The abort of a calibration pull. -/
theorem abortPull_cal (hr : (s.pull.get c).record = some rec) (htube : rec.tube = none) :
    s.abortPull c = { s with
      pull := s.pull.set c (Discarded (s.pull.get c) [] (s.pull.get c).result)
      chan := s.chan.set c { s.chan.get c with state := .ready, kind := none, waiting := [] }
      cal := s.cal.set c { s.cal.get c with capture := Capture.empty } } := by
  simp only [State.abortPull, hr, htube]
  rw [abort_discarded]
  rfl

/-- Settles O36: the refusals in their order, and the abort of either kind of pull. -/
theorem pullAbortKeepsTheClaim : Obligations.PullAbortKeepsTheClaim := by
  refine ⟨?_, ?_⟩
  · intro s p b h attached
    have hx : readOne [b] = some b := rfl
    refine ⟨fun role => ?_, fun role hgt => ?_, fun role c hc holds => ?_⟩
    · refine attached_refused ownPullAbort .role h attached hx ?_
      rw [ownPullAbort, if_pos role]
    · refine attached_refused ownPullAbort .range h attached hx ?_
      simp [ownPullAbort, role, fin4_of_gt hgt]
    · refine attached_refused ownPullAbort .notBound h attached hx ?_
      simp [ownPullAbort, role, fin4_of_val hc, holds]
  · intro s p b c rec h role hc holds
    have hx : readOne [b] = some b := rfl
    have attached := attached_of_crew role
    have refused : ∀ why, endRefusal (s.chan.get c).state = some why →
        ownPullAbort b p s = .refused why := fun why e => by
      simp [ownPullAbort, role, fin4_of_val hc, holds, e]
    have accepted : (s.chan.get c).state = .pulling →
        ownPullAbort b p s = .done (s.abortPull c) ([b] ++ c2 (s.pull.get c).samples) := fun e => by
      simp [ownPullAbort, role, fin4_of_val hc, holds, e, endRefusal, c1_of_toNat hc]
    refine ⟨fun hst => ?_, fun hst => ?_, fun pulling hr hres => ⟨fun tp d tb htube hs ht => ?_,
      fun htube => ?_⟩⟩
    · refine attached_refused ownPullAbort .state h attached hx (refused _ ?_)
      rcases hst with e | e <;> rw [e] <;> rfl
    · refine attached_refused ownPullAbort .ended h attached hx (refused _ ?_)
      rcases hst with e | e <;> rw [e] <;> rfl
    · have e := attached_done ownPullAbort h attached hx (accepted pulling)
      rw [abortPull_tube hr htube hs ht, hres] at e
      exact e
    · have e := attached_done ownPullAbort h attached hx (accepted pulling)
      rw [abortPull_cal hr htube, hres] at e
      exact e

end Sys2Proof.Machine
end

section
/-!
The tick of the Time Base and the expiry of a calibration interval (R31, R37, R45, R127, R128).
-/

namespace Sys2Proof.Machine

variable {s : State} {c : Chan}

/-! ## The tick -/

/-- The state in which the count has advanced and no expiry has been taken yet. -/
def State.ticked (s : State) : State := { s with seconds := s.seconds + 1 }

theorem ticked_now (h : s.seconds.toNat < 4294967295) : s.ticked.now = s.seconds.toNat + 1 := by
  show (s.seconds + 1).toNat = s.seconds.toNat + 1
  rw [BitVec.toNat_add, show (1 : BitVec 32).toNat = 1 from rfl]
  exact Nat.mod_eq_of_lt (by omega)

/-- The leases that the new count reaches are those due by it. -/
theorem ticked_leaseRunOut (h : s.seconds.toNat < 4294967295) (p : Port) (u : Tag) :
    s.ticked.leaseRunOut p u = DueBy s p u (s.seconds.toNat + 1) := by
  rw [State.leaseRunOut, DueBy, ticked_now h]
  rfl

theorem departedClaim_eq_false (p : Port) (u : Tag) (h : (s.slot p u).isSome = true) :
    s.departedClaim p u = false ↔ ∃ cl, s.slot p u = some cl ∧ cl.departed = false := by
  obtain ⟨cl, hs⟩ := Option.isSome_iff_exists.1 h
  simp [State.departedClaim, hs]

theorem slot_of_due {p : Port} {u : Tag} {n : Nat} (h : DueBy s p u n = true) :
    (s.slot p u).isSome = true := by
  unfold DueBy at h
  split at h
  · next hs => rw [hs]; rfl
  · cases h

/-- A tick ends the leases due by the new count, and then takes the intervals. -/
theorem tick_parts (h : s.seconds.toNat < 4294967295) :
    ∃ t, ClaimsEnded (fun p u => DueBy s p u (s.seconds.toNat + 1) = true)
        (fun p u => DueBy s p u (s.seconds.toNat + 1) = true
          ∧ ∃ cl, s.slot p u = some cl ∧ cl.departed = false) s.ticked t
      ∧ exec .timeBaseTick s = .next t.takeIntervals := by
  have ended := s.ticked.takeLeases_ended
  simp only [ticked_leaseRunOut h] at ended
  have told : (fun p u => DueBy s p u (s.seconds.toNat + 1) = true
        ∧ s.ticked.departedClaim p u = false)
      = (fun p u => DueBy s p u (s.seconds.toNat + 1) = true
        ∧ ∃ cl, s.slot p u = some cl ∧ cl.departed = false) := by
    funext p u
    exact propext (and_congr_right fun due =>
      departedClaim_eq_false (s := s.ticked) p u (slot_of_due due))
  rw [told] at ended
  exact ⟨_, ended, rfl⟩

/-! ## The interval -/

theorem intervalPassed_of_calibrated {good : Nat} (hc : (s.cal.get c).state = .calibrated)
    (hg : (s.cal.get c).lastGood = some good) :
    s.intervalPassed c = decide (good + 60 * s.plan.calInterval ≤ s.now) := by
  simp [State.intervalPassed, hc, hg]

theorem intervalPassed_of_other (hc : (s.cal.get c).state ≠ .calibrated) :
    s.intervalPassed c = false := by
  simp [State.intervalPassed, hc]

theorem intervalExpiry_early (h : ¬ s.intervalPassed c = true) :
    exec (.calibrationIntervalExpiry c) s = .next s :=
  congrArg _ (if_neg h)

theorem intervalExpiry_due (h : s.intervalPassed c = true) :
    exec (.calibrationIntervalExpiry c) s = .next (s.setCal c (s.cal.get c).due) :=
  congrArg _ (if_pos h)

/-- Settles O49: the leases that the new count reaches end together, and then the intervals. -/
theorem timeMakesAChannelCheckDue : Obligations.TimeMakesAChannelCheckDue := by
  intro s c
  refine ⟨fun hlt => ?_, fun good hc hg => ⟨fun hdue => ?_, fun hearly => ?_⟩, fun hc => ?_⟩
  · obtain ⟨t, ended, e⟩ := tick_parts hlt
    have hrest := ended.rest
    have hseconds : t.seconds.toNat = s.seconds.toNat + 1 := by rw [hrest]; exact ticked_now hlt
    have hcal : t.cal = s.cal := by rw [hrest]; rfl
    have hplan : t.plan = s.plan := by rw [hrest]; rfl
    refine ⟨t.takeIntervals, e, hseconds, ?_, fun p u => ?_, ended.count, ended.tubes, ended.ports⟩
    · rw [State.takeIntervals_eq, State.now, hseconds, hcal, hplan]
      rw [hrest]
      rfl
    · by_cases due : DueBy s p u (s.seconds.toNat + 1) = true
      · rw [if_pos due]; exact (ended.slots p u).1 due
      · rw [if_neg due]; exact (ended.slots p u).2 due
  · rw [intervalExpiry_due ((intervalPassed_of_calibrated hc hg).trans (decide_eq_true hdue)),
      CalUnit.due, if_pos hc]
    rfl
  · refine intervalExpiry_early ?_
    rw [intervalPassed_of_calibrated hc hg, decide_eq_true_iff]
    exact Nat.not_le.2 hearly
  · refine intervalExpiry_early ?_
    rw [intervalPassed_of_other hc]
    exact nofun

end Sys2Proof.Machine
end

section
/-!
The parts of the detach course (R46, R65, R85, R89, R132, R134, R147, R186), and when the turn of each has
come.
-/

namespace Sys2Proof.Machine

variable {s t : State} {p q : Port} {u : Tag} {c d : Chan} {i : Nat}

/-! ## The turn of a part -/

theorem departedFrom_iff (s : State) (p : Port) (c : Chan) :
    s.departedFrom p c = true ↔ (s.chan.get c).binding = some p ∧ s.holdsChan p c = false := by
  rw [State.departedFrom, Bool.and_eq_true, decide_eq_true_iff]
  refine and_congr_right fun hb => ?_
  simp [State.departed, hb]

theorem mem_departedIn (s : State) (p : Port) (f : PullState → Bool) (c : Chan) :
    c ∈ s.departedIn p f ↔ ((s.chan.get c).binding = some p ∧ s.holdsChan p c = false)
      ∧ f (s.chan.get c).state = true := by
  rw [State.departedIn, List.mem_filter, Bool.and_eq_true, departedFrom_iff]
  exact and_iff_right (mem_four c)

theorem departedIn_isEmpty (s : State) (p : Port) (f : PullState → Bool) :
    (s.departedIn p f).isEmpty = true
      ↔ ∀ c, (s.chan.get c).binding = some p ∧ s.holdsChan p c = false →
          f (s.chan.get c).state = false := by
  rw [List.isEmpty_iff, List.eq_nil_iff_forall_not_mem]
  refine forall_congr' fun c => ?_
  rw [mem_departedIn, not_and, Bool.not_eq_true]

theorem abortsDone_iff (s : State) (p : Port) : s.abortsDone p = true
    ↔ ∀ c, ¬ (((s.chan.get c).binding = some p ∧ s.holdsChan p c = false)
        ∧ (s.chan.get c).state = .pulling) := by
  rw [State.abortsDone, departedIn_isEmpty]
  exact forall_congr' fun c => by rw [decide_eq_false_iff_not, not_and]

theorem claimToRemove_iff (s : State) (p : Port) (u : Tag) : s.claimToRemove p u = true
    ↔ ∃ i deadline, s.slot p u = some ⟨i, .leased deadline, true⟩ := by
  unfold State.claimToRemove
  split
  · next h => simp [h]
  · next h => exact ⟨nofun, fun ⟨i, deadline, e⟩ => absurd e (h i deadline)⟩

theorem removalsDone_iff (s : State) (p : Port) : s.removalsDone p = true
    ↔ ∀ u, ¬ ∃ i deadline, s.slot p u = some ⟨i, .leased deadline, true⟩ := by
  rw [State.removalsDone, Bool.not_eq_true', List.any_eq_false]
  refine ⟨fun h u => ?_, fun h u _ => ?_⟩
  · rw [← claimToRemove_iff]; exact h u (mem_four u)
  · rw [claimToRemove_iff]; exact h u

theorem unbindsDone_iff (s : State) (p : Port) : s.unbindsDone p = true
    ↔ (∀ u, ¬ ∃ i deadline, s.slot p u = some ⟨i, .leased deadline, true⟩)
      ∧ ∀ c, (s.chan.get c).binding = some p ∧ s.holdsChan p c = false →
          (s.chan.get c).state = .sizing := by
  rw [State.unbindsDone, Bool.and_eq_true, removalsDone_iff, departedIn_isEmpty]
  simp only [ne_eq, decide_eq_false_iff_not, not_not]

/-! ## Step 1: the aborts -/

/-- The slot that the pull record of a controller names (R67). -/
def PullCtl.names (k : PullCtl) (p : Port) (u : Tag) : Prop :=
  ∃ rec tp, k.record = some rec ∧ rec.tube = some tp ∧ rec.port = p ∧ tp.tag = u

/-- A claim on a new lease. -/
def Claim.relet (deadline : Nat) (cl : Claim) : Claim := { cl with hold := .leased deadline }

/-- What an abort leaves of a Calibration Unit: the capture of a calibration pull is emptied (R89). -/
def CalUnit.aborted (u : CalUnit) (k : PullCtl) : CalUnit :=
  if ∃ rec, k.record = some rec ∧ rec.tube = none then { u with capture := Capture.empty } else u

theorem aborted_of_tube {x : CalUnit} {k : PullCtl} (h : k.names p u) : x.aborted k = x := by
  obtain ⟨rec, tp, hr, htube, -⟩ := h
  refine if_neg fun ⟨rec', hr', hnone⟩ => ?_
  rw [hr] at hr'
  cases hr'
  rw [htube] at hnone
  cases hnone

/-- The channel's part of an abort: its controller, its pull state and its unit. -/
def State.abortedChan (s : State) (c : Chan) : State :=
  { s with
    pull := s.pull.set c (Discarded (s.pull.get c) [] (s.pull.get c).result)
    chan := s.chan.set c { s.chan.get c with state := .ready, kind := none, waiting := [] }
    cal := s.cal.set c ((s.cal.get c).aborted (s.pull.get c)) }

/-- The abort of a tube pull keeps the claim of its slot on a new lease. -/
theorem abortPull_names (h : (s.pull.get c).names p u) :
    s.abortPull c = (s.abortedChan c).keepClaim p u := by
  have hcal := aborted_of_tube (x := s.cal.get c) h
  obtain ⟨rec, tp, hr, htube, rfl, rfl⟩ := h
  simp only [State.abortPull, hr, htube]
  rw [abort_discarded, State.abortedChan, hcal, Quad.set_get]
  rfl

/-- The abort of any other pull touches no claim. -/
theorem abortPull_nameless (h : ∀ p u, ¬ (s.pull.get c).names p u) :
    s.abortPull c = s.abortedChan c := by
  cases hr : (s.pull.get c).record with
  | none =>
    have hcal : (s.cal.get c).aborted (s.pull.get c) = s.cal.get c :=
      if_neg fun ⟨rec, e, _⟩ => by rw [hr] at e; cases e
    simp only [State.abortPull, hr]
    rw [abort_discarded, State.abortedChan, hcal, Quad.set_get]
    rfl
  | some rec =>
    cases htube : rec.tube with
    | some tp => exact absurd ⟨rec, tp, hr, htube, rfl, rfl⟩ (h rec.port tp.tag)
    | none =>
      have hcal : (s.cal.get c).aborted (s.pull.get c)
          = { s.cal.get c with capture := Capture.empty } := if_pos ⟨rec, hr, htube⟩
      rw [abortPull_cal hr htube, State.abortedChan, hcal]

theorem slot_keepClaim (s : State) (p q : Port) (u v : Tag) :
    (s.keepClaim p u).slot q v
      = if q = p ∧ v = u then (s.slot q v).map (Claim.relet s.leaseDeadline) else s.slot q v := by
  cases hs : s.slot p u with
  | none =>
    rw [(State.claimOps_of_empty hs).2.1]
    split
    · next e => rw [e.1, e.2, hs]; rfl
    · rfl
  | some cl =>
    simp only [State.keepClaim, hs, State.slot_modTube, State.slot_setSlot]
    split
    · next e => rw [e.1, e.2, hs]; rfl
    · rfl

theorem PullCtl.names_unique {k : PullCtl} {v : Tag} (h : k.names p u) (h' : k.names q v) :
    q = p ∧ v = u := by
  obtain ⟨rec, tp, hr, htube, rfl, rfl⟩ := h
  obtain ⟨rec', tp', hr', htube', rfl, rfl⟩ := h'
  rw [hr] at hr'
  cases hr'
  rw [htube] at htube'
  cases htube'
  exact ⟨rfl, rfl⟩

/-- After the channel's part, an abort writes claims alone. -/
theorem abortPull_written (s : State) (c : Chan) :
    ClaimsWritten (s.abortedChan c) (s.abortPull c) ∧ (s.abortPull c).ports = s.ports := by
  by_cases h : ∃ p u, (s.pull.get c).names p u
  · obtain ⟨p, u, h⟩ := h
    rw [abortPull_names h]
    refine ⟨.keepClaim .., ?_⟩
    unfold State.keepClaim
    split <;> rfl
  · rw [abortPull_nameless fun p u hn => h ⟨p, u, hn⟩]
    exact ⟨.refl _, rfl⟩

/-- An abort keeps the claim of the slot that the pull record names, on a new lease. -/
theorem slot_abortPull_named (h : (s.pull.get c).names p u) :
    (s.abortPull c).slot p u = (s.slot p u).map (Claim.relet s.leaseDeadline) := by
  rw [abortPull_names h, slot_keepClaim, if_pos ⟨rfl, rfl⟩]
  rfl

theorem slot_abortPull_other (h : ¬ (s.pull.get c).names p u) :
    (s.abortPull c).slot p u = s.slot p u := by
  by_cases hn : ∃ q v, (s.pull.get c).names q v
  · obtain ⟨q, v, hn⟩ := hn
    rw [abortPull_names hn, slot_keepClaim, if_neg]
    · rfl
    · rintro ⟨rfl, rfl⟩
      exact h hn
  · rw [abortPull_nameless fun q v h => hn ⟨q, v, h⟩]
    rfl

/-- The pulls of the channels of a list have been aborted: the controllers, channels and units of these
channels, the slots that their pull records name, and the claim fields of the tubes. -/
structure Aborted (l : List Chan) (s t : State) : Prop where
  pull : ∀ d, t.pull.get d
    = if d ∈ l then Discarded (s.pull.get d) [] (s.pull.get d).result else s.pull.get d
  chan : ∀ d, t.chan.get d
    = if d ∈ l then { s.chan.get d with state := .ready, kind := none, waiting := [] }
      else s.chan.get d
  cal : ∀ d, t.cal.get d
    = if d ∈ l then (s.cal.get d).aborted (s.pull.get d) else s.cal.get d
  named : ∀ q v, (∃ d ∈ l, (s.pull.get d).names q v) →
    t.slot q v = (s.slot q v).map (Claim.relet s.leaseDeadline)
  other : ∀ q v, (¬ ∃ d ∈ l, (s.pull.get d).names q v) → t.slot q v = s.slot q v
  tubes : Retubed ClaimWrite s.tubes t.tubes
  rest : t = { s with
    pull := t.pull, chan := t.chan, cal := t.cal, claims := t.claims, tubes := t.tubes }

theorem Aborted.nil (s : State) : Aborted [] s s where
  pull := fun _ => rfl
  chan := fun _ => rfl
  cal := fun _ => rfl
  named := fun _ _ ⟨_, hm, _⟩ => by cases hm
  other := fun _ _ _ => rfl
  tubes := .refl fun _ _ _ => rfl
  rest := rfl

/-- The registers of a list of channels are written one after another: first that of `c`, then those of
`l`. -/
theorem get_of_course {α : Type} {x y z : Quad α} {g g' : Chan → α} {l : List Chan} (hc : c ∉ l)
    (hy : y = x.set c (g c)) (hz : ∀ d, z.get d = if d ∈ l then g' d else y.get d)
    (hg : ∀ d, d ≠ c → g' d = g d) (d : Chan) :
    z.get d = if d ∈ c :: l then g d else x.get d := by
  subst hy
  rw [hz]
  by_cases hd : d = c
  · subst hd
    rw [if_neg hc, if_pos List.mem_cons_self, Quad.get_set_same]
  · rw [Quad.get_set_ne _ _ hd, hg d hd]
    simp only [List.mem_cons, hd, false_or]

/-- One abort, and then those of other channels. -/
theorem Aborted.cons {l : List Chan} (hc : c ∉ l) (h : Aborted l (s.abortPull c) t) :
    Aborted (c :: l) s t := by
  obtain ⟨written, hports⟩ := abortPull_written s c
  have hdeadline : (s.abortPull c).leaseDeadline = s.leaseDeadline := by
    rw [State.leaseDeadline, State.now, written.seconds, written.plan]; rfl
  have hpull : ∀ d, d ≠ c → (s.abortPull c).pull.get d = s.pull.get d := fun d hd => by
    rw [written.pull]; exact Quad.get_set_ne _ _ hd
  have hchan : ∀ d, d ≠ c → (s.abortPull c).chan.get d = s.chan.get d := fun d hd => by
    rw [written.chan]; exact Quad.get_set_ne _ _ hd
  have hcal : ∀ d, d ≠ c → (s.abortPull c).cal.get d = s.cal.get d := fun d hd => by
    rw [written.cal]; exact Quad.get_set_ne _ _ hd
  have named_iff : ∀ q v, (∃ d ∈ l, ((s.abortPull c).pull.get d).names q v)
      ↔ ∃ d ∈ l, (s.pull.get d).names q v := fun q v =>
    exists_congr fun d => and_congr_right fun hd => by rw [hpull d fun e => hc (e ▸ hd)]
  refine ⟨get_of_course hc written.pull h.pull fun d hd => ?_,
    get_of_course hc written.chan h.chan fun d hd => ?_,
    get_of_course hc written.cal h.cal fun d hd => ?_, fun q v hn => ?_, fun q v hn => ?_, ?_, ?_⟩
  · rw [hpull d hd]
  · rw [hchan d hd]
  · rw [hcal d hd, hpull d hd]
  · by_cases hl : ∃ d ∈ l, (s.pull.get d).names q v
    · rw [h.named q v ((named_iff q v).2 hl), hdeadline]
      by_cases hq : (s.pull.get c).names q v
      · rw [slot_abortPull_named hq, Option.map_map]; rfl
      · rw [slot_abortPull_other hq]
    · rw [h.other q v (mt (named_iff q v).1 hl)]
      obtain ⟨d, hd, hdn⟩ := hn
      rcases List.mem_cons.1 hd with rfl | hd
      · exact slot_abortPull_named hdn
      · exact absurd ⟨d, hd, hdn⟩ hl
  · rw [h.other q v fun e => hn ?_, slot_abortPull_other fun e => hn ⟨c, List.mem_cons_self, e⟩]
    obtain ⟨d, hd, hdn⟩ := (named_iff q v).1 e
    exact ⟨d, List.mem_cons_of_mem c hd, hdn⟩
  · exact written.tubes.trans h.tubes fun i x y z _ hxy hyz => by
      rw [ClaimWrite] at *
      rw [hyz, hxy]
  · refine h.rest.trans ?_
    rw [written.rest, hports]
    rfl

/-- The aborts of step 1, one after another. -/
theorem overChans_aborted (l : List Chan) :
    ∀ s, l.Nodup → Aborted l s (overChans State.abortPull l s) := by
  induction l with
  | nil => exact fun s _ => .nil s
  | cons c l ih =>
    intro s hn
    obtain ⟨hc, hl⟩ := List.nodup_cons.1 hn
    exact .cons hc (ih _ hl)

end Sys2Proof.Machine
end

section
/-!
What each part of the detach course leaves (R46, R65, R85, R89, R132, R134, R147, R186).
-/

namespace Sys2Proof.Machine

variable {s t : State} {p q : Port} {u : Tag} {c d : Chan} {i : Nat} {tb : Tube}

/-! ## Step 1: the aborts -/

/-- A tube's claim field names a slot exactly when the slot names the tube, with the same marker (R30). -/
theorem ClaimLaw.claim_iff (h : ClaimLaw s) (ht : s.tubes[i]? = some tb) (cf : TubeClaim) :
    tb.claim = some cf
      ↔ ∃ hold b, s.slot cf.port cf.tag = some ⟨i, hold, b⟩ ∧ cf.inPull = decide (hold = .inPull) := by
  have agree : ∀ hold b, s.slot cf.port cf.tag = some ⟨i, hold, b⟩ →
      tb.claim = some ⟨cf.port, cf.tag, decide (hold = .inPull)⟩ := by
    intro hold b hs
    obtain ⟨tb', ht', hcf⟩ := h.slotTube _ _ _ hs
    rw [ht] at ht'
    cases ht'
    exact hcf
  refine ⟨fun e => ?_, fun ⟨hold, b, hs, hmark⟩ => ?_⟩
  · obtain ⟨⟨k, hold, b⟩, hs, rfl⟩ := h.tubeSlot i tb cf ht e
    have hmark := agree hold b hs
    rw [e] at hmark
    exact ⟨hold, b, hs, congrArg TubeClaim.inPull (Option.some.inj hmark)⟩
  · rw [agree hold b hs, ← hmark]

/-- Where claims alone are written and the law holds before and after, a tube whose slots are the same is
the same. -/
theorem tube_of_same_slots (hw : Retubed ClaimWrite s.tubes t.tubes) (h : ClaimLaw s) (k : ClaimLaw t)
    (ht : s.tubes[i]? = some tb)
    (same : ∀ p u hold b, t.slot p u = some ⟨i, hold, b⟩ ↔ s.slot p u = some ⟨i, hold, b⟩) :
    t.tubes[i]? = some tb := by
  obtain ⟨tb', ht', e⟩ := hw.fwd ht
  have hclaim : tb'.claim = tb.claim := Option.ext fun cf => by
    rw [k.claim_iff ht' cf, h.claim_iff ht cf]
    simp only [same]
  rw [ht', e, hclaim]

/-- Where claims alone are written and the law holds after, the tube of a slot is claimed by it. -/
theorem tube_of_slot (hw : Retubed ClaimWrite s.tubes t.tubes) (k : ClaimLaw t)
    (ht : s.tubes[i]? = some tb) {hold : Hold} {b : Bool} (hs : t.slot p u = some ⟨i, hold, b⟩) :
    t.tubes[i]? = some { tb with claim := some ⟨p, u, decide (hold = .inPull)⟩ } := by
  obtain ⟨tb', ht', e⟩ := hw.fwd ht
  have hclaim := (k.claim_iff ht' ⟨p, u, decide (hold = .inPull)⟩).2 ⟨hold, b, hs, rfl⟩
  rw [ht', e, hclaim]

theorem names_of_tubePull (h : s.tubePull c p u i) : (s.pull.get c).names p u := by
  obtain ⟨-, rec, tp, hr, htube, hp, hu, -⟩ := h
  exact ⟨rec, tp, hr, htube, hp, hu⟩

theorem tubePull_of_names (hc : (s.chan.get c).state = .pulling) (h : (s.pull.get c).names p u) :
    ∃ i, s.tubePull c p u i := by
  obtain ⟨rec, tp, hr, htube, hp, hu⟩ := h
  exact ⟨tp.index, hc, rec, tp, hr, htube, hp, hu, rfl⟩

/-- The unit of a channel in pull, by the kind of its pull. -/
theorem ChannelLaw.aborted (h : ChannelLaw s) (hc : (s.chan.get c).state = .pulling) :
    (s.cal.get c).aborted (s.pull.get c)
      = if (s.chan.get c).kind = some .tube then s.cal.get c
        else { s.cal.get c with capture := Capture.empty } := by
  obtain ⟨rec, hr, hkind, htube⟩ := h.record c hc
  have hcal : (∃ rec', (s.pull.get c).record = some rec' ∧ rec'.tube = none)
      ↔ ¬ (s.chan.get c).kind = some .tube := by
    rw [hr, hkind]
    simp only [Option.some.injEq, exists_eq_left']
    rw [← Option.not_isSome_iff_eq_none, htube, decide_eq_true_iff]
  by_cases hk : (s.chan.get c).kind = some .tube
  · rw [if_pos hk]; exact if_neg fun e => hcal.1 e hk
  · rw [if_neg hk]; exact if_pos (hcal.2 hk)

/-- In PULLING no result is held. -/
theorem ChannelLaw.no_result (h : ChannelLaw s) (hc : (s.chan.get c).state = .pulling) :
    (s.pull.get c).result = none := by
  have held := h.held c
  rw [hc] at held
  exact Option.not_isSome_iff_eq_none.1 (by rw [held]; decide)

section
variable {l : List Chan} (a : Aborted l s t) (hl : ∀ c ∈ l, (s.chan.get c).state = .pulling)
include a

/-- The claim of an aborted tube pull goes on with a new lease, in its slot and in its tube. -/
theorem Aborted.claim_kept (k : ClaimLaw t) (hc : c ∈ l) (hp : s.tubePull c p u i) {b : Bool}
    (hs : s.slot p u = some ⟨i, .inPull, b⟩) (ht : s.tubes[i]? = some tb) :
    t.slot p u = some ⟨i, .leased (s.now + s.plan.lease), b⟩
      ∧ t.tubes[i]? = some { tb with claim := some ⟨p, u, false⟩ } := by
  have hslot : t.slot p u = some ⟨i, .leased (s.now + s.plan.lease), b⟩ := by
    rw [a.named p u ⟨c, hc, names_of_tubePull hp⟩, hs]
    rfl
  exact ⟨hslot, tube_of_slot a.tubes k ht hslot⟩

include hl

theorem Aborted.slot_same (hn : ∀ c i, c ∈ l → ¬ s.tubePull c p u i) : t.slot p u = s.slot p u :=
  a.other p u fun ⟨c, hc, hnames⟩ =>
    (tubePull_of_names (hl c hc) hnames).elim fun i hi => hn c i hc hi

/-- A tube that no aborted pull is on is the same. -/
theorem Aborted.tube_same (h : PullLaw s) (k : ClaimLaw t) (ht : s.tubes[i]? = some tb)
    (hn : ∀ c p u, c ∈ l → ¬ s.tubePull c p u i) : t.tubes[i]? = some tb := by
  refine tube_of_same_slots a.tubes h.toClaimLaw k ht fun p u hold b => ?_
  by_cases hnames : ∃ c ∈ l, (s.pull.get c).names p u
  · obtain ⟨c, hc, hcn⟩ := hnames
    obtain ⟨j, hj⟩ := tubePull_of_names (hl c hc) hcn
    obtain ⟨b', hs⟩ := h.pulls c p u j hj
    have hne : j ≠ i := fun e => hn c p u hc (e ▸ hj)
    rw [a.named p u ⟨c, hc, hcn⟩, hs]
    refine iff_of_false (fun e => ?_) fun e => ?_ <;> cases e <;> exact hne rfl
  · rw [a.other p u hnames]

end

/-- Step 1 has nothing to do. -/
theorem detachPullAbort_done (h : s.abortsDone p = true) : exec (.detachPullAbort p) s = .next s := by
  show execDetachPullAbort p s = _
  rw [execDetachPullAbort, List.isEmpty_iff.1 h]
  rfl

/-! ## Step 2: the claims -/

theorem ClaimsEnded.ports_eq {ends : Port → Tag → Prop} (h : ClaimsEnded ends (fun _ _ => False) s t) :
    t.ports = s.ports := by
  refine Quad.ext_get fun p => ?_
  obtain ⟨told, htold, e⟩ := h.ports p
  have hsame : told = (s.ports.get p).notices.claimExpired :=
    Quad.ext_get fun u => Bool.eq_iff_iff.2 ((htold u).trans (or_iff_left id))
  rw [e, hsame]

theorem detachClaimRemoval_turn (h : s.abortsDone p = true) :
    exec (.detachClaimRemoval p) s = .next (removeDeparted p four s) :=
  congrArg _ (if_pos h)

theorem detachClaimRemoval_early (h : ¬ s.abortsDone p = true) :
    exec (.detachClaimRemoval p) s = .next s :=
  congrArg _ (if_neg h)

/-! ## Step 3: the unbinds -/

/-- A channel whose station has departed is in no set, so its unbind writes no port. -/
theorem forceUnbind_departed (hb : (s.chan.get c).binding = some p) (hd : s.holdsChan p c = false) :
    s.forceUnbind c = { s with
      pull := s.pull.set c { s.pull.get c with result := none }
      chan := s.chan.set c
        { s.chan.get c with
          binding := none, state := .unbound, kind := none, excited := false
          settle := none, probeOpen := false, waiting := [], passed := false }
      tubes := InvalidatedTubes (s.cal.get c).group s.tubes
      cal := s.cal.set c { Uncalibrated (s.cal.get c) with group := [] } } := by
  have hset : (s.ports.get p).bound.set c false = (s.ports.get p).bound :=
    (congrArg _ hd.symm).trans (Quad.set_get _ c)
  have hports : (s.forceUnbind c).ports = s.ports := by
    refine Quad.ext_get fun q => ?_
    rw [forceUnbind_ports]
    split
    · next e =>
      rw [hb] at e
      cases e
      rw [hset]
    · rfl
  obtain ⟨ports, e⟩ := forceUnbind_parts s c
  rw [e] at hports
  rw [e, show ports = s.ports from hports, invalidateTubes_eq_mapIdx]
  rfl

theorem forcedUnbind_free (hb : (s.chan.get c).binding = none) :
    exec (.forcedUnbind c) s = .next s := by
  show execForcedUnbind c s = _
  simp only [execForcedUnbind, hb]

theorem forcedUnbind_bound (hb : (s.chan.get c).binding = some p) :
    exec (.forcedUnbind c) s
      = .next (if s.departed c && s.abortsDone p && s.removalsDone p then
          (if (s.chan.get c).state = .sizing then
            s.setChan c { s.chan.get c with passed := true }
          else s.forceUnbind c)
        else s) := by
  show execForcedUnbind c s = _
  simp only [execForcedUnbind, hb]

theorem departed_of_bound (hb : (s.chan.get c).binding = some p) :
    s.departed c = !s.holdsChan p c := by
  simp only [State.departed, hb]

/-! ## Step 4: the orphan marks -/

theorem markJob_eq (s : State) (p : Port) (j : Job) :
    s.markJob p j
      = if (s.chan.get j.chan).binding = some p ∧ s.holdsChan p j.chan = false then
          { j with orphan := true }
        else j := by
  simp only [State.markJob, departedFrom_iff]

theorem orphanMark_turn (h : s.unbindsDone p = true) :
    exec (.orphanMark p) s
      = .next (s.setSizing
        { s.sizing with
          queue := s.sizing.queue.map (s.markJob p)
          flight := s.sizing.flight.map (fun x => (s.markJob p x.1, x.2)) }) :=
  congrArg _ (if_pos h)

theorem orphanMark_early (h : ¬ s.unbindsDone p = true) : exec (.orphanMark p) s = .next s :=
  congrArg _ (if_neg h)

/-! ## The course -/

/-- Settles O51: each part once its turn has come, and nothing before. -/
theorem detachCourseFreesTheStation : Obligations.DetachCourseFreesTheStation := by
  intro s p departed pulls step1 ends step2 step3
  have aborts : s.abortsDone p = true ↔ step1 := abortsDone_iff s p
  have removals : s.removalsDone p = true ↔ ∀ u, ¬ ends u := removalsDone_iff s p
  have unbinds : s.unbindsDone p = true ↔ step3 := by
    rw [unbindsDone_iff]
    refine ⟨fun ⟨h2, h3⟩ => ⟨⟨fun c hc => ?_, h2⟩, h3⟩, fun ⟨⟨_, h2⟩, h3⟩ => ⟨h2, h3⟩⟩
    have hpulling := (h3 c hc.1).symm.trans hc.2
    cases hpulling
  refine ⟨fun hpull hchan => ?_, fun h => detachPullAbort_done (aborts.2 h), fun h => ?_,
    fun h => detachClaimRemoval_early (mt aborts.1 h), fun c hd h2 => ?_,
    fun c hc => ?_, fun h => ?_, fun h => orphanMark_early (mt unbinds.1 h)⟩
  · have mem : ∀ c, c ∈ s.departedIn p (fun st => st = .pulling) ↔ pulls c := fun c => by
      rw [mem_departedIn, decide_eq_true_iff]
    have a := overChans_aborted (s.departedIn p (fun st => st = .pulling)) s
      (List.Nodup.filter _ (by decide))
    have k : ClaimLaw (overChans State.abortPull (s.departedIn p (fun st => st = .pulling)) s) :=
      (departedAborts_acts p).keeps (fun _ _ h a => h.act a) hpull.toClaimLaw
    have hl : ∀ c ∈ s.departedIn p (fun st => st = .pulling), (s.chan.get c).state = .pulling :=
      fun c hc => ((mem c).1 hc).2
    refine ⟨_, rfl, a.rest, a.tubes.length, fun c hc => ⟨?_, ?_, ?_⟩, fun c hc => ⟨?_, ?_, ?_⟩,
      fun c q u i b tb hc hp hs ht => a.claim_kept k ((mem c).2 hc) hp hs ht,
      fun q u hn => a.slot_same hl fun c i hc => hn c i ((mem c).1 hc),
      fun i tb hn ht => a.tube_same hl hpull k ht fun c q u hc => hn c q u ((mem c).1 hc)⟩
    · rw [a.pull, if_pos ((mem c).2 hc), hchan.no_result hc.2]
    · rw [a.chan, if_pos ((mem c).2 hc)]
    · rw [a.cal, if_pos ((mem c).2 hc), hchan.aborted hc.2]
    · rw [a.pull, if_neg (mt (mem c).1 hc)]
    · rw [a.chan, if_neg (mt (mem c).1 hc)]
    · rw [a.cal, if_neg (mt (mem c).1 hc)]
  · have ended := removeDeparted_ended p s
    simp only [claimToRemove_iff] at ended
    refine ⟨_, detachClaimRemoval_turn (aborts.2 h), ended.rest.trans (by rw [ended.ports_eq]),
      ended.slots, ended.count, fun i tb ht => ⟨fun ⟨u, deadline, hs⟩ => ?_, fun hn => ?_⟩,
      fun law => (removeDeparted_acts p four s).keeps (fun _ _ h a => h.act a) law⟩
    · exact (ended.tubes i tb ht).1 ⟨p, u, _, ⟨rfl, i, deadline, hs⟩, hs, rfl⟩
    · refine (ended.tubes i tb ht).2 ?_
      rintro q u cl ⟨rfl, j, deadline, e⟩ hs rfl
      rw [hs] at e
      cases e
      exact hn u deadline hs
  · have turn : (s.departed c && s.abortsDone p && s.removalsDone p) = true := by
      rw [departed_of_bound hd.1, hd.2, aborts.2 h2.1, removals.2 h2.2]
      rfl
    refine ⟨fun hs => ?_, fun hs => ?_⟩
    · rw [forcedUnbind_bound hd.1, if_pos turn, if_neg hs, forceUnbind_departed hd.1 hd.2]
    · rw [forcedUnbind_bound hd.1, if_pos turn, if_pos hs]
      rfl
  · obtain hb | ⟨hb, hc⟩ := hc
    · exact forcedUnbind_free hb
    · rw [forcedUnbind_bound hb, if_neg]
      rw [departed_of_bound hb, Bool.and_eq_true, Bool.and_eq_true]
      rintro ⟨⟨hd, h1⟩, h2⟩
      obtain hc | hc := hc
      · rw [hc] at hd
        cases hd
      · exact hc ⟨aborts.1 h1, removals.1 h2⟩
  · rw [orphanMark_turn (unbinds.2 h)]
    simp only [markJob_eq, funext (markJob_eq s p)]
    rfl

end Sys2Proof.Machine
end

section
/-!
SUPPORT. The law of a channel's items read channel by channel: what it says of one channel and its Pull
Controller, and what is enough for a write of one channel, or of none, to keep it.
-/

namespace Sys2Proof.Machine

variable {s t r : State} {p : Port} {c d : Chan} {ch x : Channel} {k k' : PullCtl}

/-! ## One channel -/

/-- What the law says of a channel with its Pull Controller (R48, R49, R91). -/
structure Channel.Fits (ch : Channel) (k : PullCtl) : Prop where
  binding : ch.binding.isSome = decide (ch.state ≠ .unbound)
  excited : ch.excited = ch.binding.isSome
  settle : ch.settle.isSome = decide (ch.state = .settling)
  probe : ch.state = .unbound → ch.probeOpen = false
  kind : ch.kind.isSome
    = decide (ch.state = .pulling ∨ ch.state = .sizing ∨ ch.state = .held)
  held : k.result.isSome = decide (ch.state = .held)
  record : ch.state = .pulling → ∃ rec, k.record = some rec ∧ ch.kind = some rec.kind
    ∧ rec.tube.isSome = decide (rec.kind = .tube)
  sizing : ch.state = .sizing → ch.kind = some .tube

/-- A channel with a station, whose excitation runs. -/
def Channel.Bound (ch : Channel) : Prop := ch.binding.isSome = true ∧ ch.excited = true

theorem Channel.Fits.bound (h : ch.Fits k) (hs : ch.state ≠ .unbound) : ch.Bound := by
  have hb : ch.binding.isSome = true := h.binding.trans (decide_eq_true hs)
  exact ⟨hb, h.excited.trans hb⟩

theorem Channel.Fits.settle_none (h : ch.Fits k) (hs : ch.state ≠ .settling) : ch.settle = none :=
  Option.isSome_eq_false_iff.1 (h.settle.trans (decide_eq_false hs)) |> Option.isNone_iff_eq_none.1

theorem Channel.Fits.result_none (h : ch.Fits k) (hs : ch.state ≠ .held) : k.result = none :=
  Option.isSome_eq_false_iff.1 (h.held.trans (decide_eq_false hs)) |> Option.isNone_iff_eq_none.1

theorem Channel.Fits.kind_none (h : ch.Fits k)
    (hs : ch.state = .settling ∨ ch.state = .ready ∨ ch.state = .unbound) : ch.kind = none := by
  have hkind := h.kind
  obtain e | e | e := hs <;> rw [e] at hkind <;> simpa using hkind

/-- A channel without a station is UNBOUND. -/
theorem Channel.Fits.unbound_of_free (h : ch.Fits k) (hb : ch.binding = none) :
    ch.state = .unbound := by
  have hbinding := h.binding
  rw [hb] at hbinding
  exact not_not.1 (of_decide_eq_false hbinding.symm)

/-- A channel with a station is not UNBOUND. -/
theorem Channel.Fits.state_of_bound (h : ch.Fits k) (hb : ch.binding = some p) :
    ch.state ≠ .unbound := by
  have hbinding := h.binding
  rw [hb] at hbinding
  exact of_decide_eq_true hbinding.symm

/-- The law speaks of the pull record and the result of a controller alone. -/
theorem Channel.Fits.of_ctl (h : ch.Fits k) (hrec : k'.record = k.record)
    (hres : k'.result = k.result) : ch.Fits k' where
  binding := h.binding
  excited := h.excited
  settle := h.settle
  probe := h.probe
  kind := h.kind
  held := by rw [hres]; exact h.held
  record := by rw [hrec]; exact h.record
  sizing := h.sizing

/-! ## The channel a pull state needs -/

theorem Channel.fits_unbound (ch : Channel) (hr : k.result = none) : ch.unbound.Fits k where
  binding := rfl
  excited := rfl
  settle := rfl
  probe := fun _ => rfl
  kind := rfl
  held := by rw [hr]; rfl
  record := nofun
  sizing := nofun

theorem Channel.fits_beginSettle (hb : ch.binding.isSome = true) (hk : ch.kind = none)
    (hr : k.result = none) : ch.beginSettle.Fits k where
  binding := hb
  excited := hb.symm
  settle := rfl
  probe := nofun
  kind := by rw [Channel.beginSettle, hk]; rfl
  held := by rw [hr]; rfl
  record := nofun
  sizing := nofun

theorem Channel.fits_ready (hs : ch.state = .ready) (hb : ch.Bound) (ht : ch.settle = none)
    (hk : ch.kind = none) (hr : k.result = none) : ch.Fits k where
  binding := by rw [hb.1, hs]; rfl
  excited := by rw [hb.1, hb.2]
  settle := by rw [ht, hs]; rfl
  probe := by rw [hs]; exact nofun
  kind := by rw [hk, hs]; rfl
  held := by rw [hr, hs]; rfl
  record := by rw [hs]; exact nofun
  sizing := by rw [hs]; exact nofun

theorem Channel.fits_pulling {rec : PullRecord} (hs : ch.state = .pulling) (hb : ch.Bound)
    (ht : ch.settle = none) (hr : k.result = none) (hrec : k.record = some rec)
    (hk : ch.kind = some rec.kind) (htube : rec.tube.isSome = decide (rec.kind = .tube)) :
    ch.Fits k where
  binding := by rw [hb.1, hs]; rfl
  excited := by rw [hb.1, hb.2]
  settle := by rw [ht, hs]; rfl
  probe := by rw [hs]; exact nofun
  kind := by rw [hk, hs]; rfl
  held := by rw [hr, hs]; rfl
  record := fun _ => ⟨rec, hrec, hk, htube⟩
  sizing := by rw [hs]; exact nofun

theorem Channel.fits_sizing (hs : ch.state = .sizing) (hb : ch.Bound) (ht : ch.settle = none)
    (hk : ch.kind = some .tube) (hr : k.result = none) : ch.Fits k where
  binding := by rw [hb.1, hs]; rfl
  excited := by rw [hb.1, hb.2]
  settle := by rw [ht, hs]; rfl
  probe := by rw [hs]; exact nofun
  kind := by rw [hk, hs]; rfl
  held := by rw [hr, hs]; rfl
  record := by rw [hs]; exact nofun
  sizing := fun _ => hk

theorem Channel.fits_held (hs : ch.state = .held) (hb : ch.Bound) (ht : ch.settle = none)
    (hk : ch.kind.isSome = true) (hr : k.result.isSome = true) : ch.Fits k where
  binding := by rw [hb.1, hs]; rfl
  excited := by rw [hb.1, hb.2]
  settle := by rw [ht, hs]; rfl
  probe := by rw [hs]; exact nofun
  kind := by rw [hk, hs]; rfl
  held := by rw [hr, hs]; rfl
  record := by rw [hs]; exact nofun
  sizing := by rw [hs]; exact nofun

/-! ## The channels together -/

/-- The channels of the jobs queued or in flight. -/
def State.jobChans (s : State) : List Chan := s.jobs.map Job.chan

theorem ChannelLaw.fits (h : ChannelLaw s) (c : Chan) : (s.chan.get c).Fits (s.pull.get c) where
  binding := h.binding c
  excited := h.excited c
  settle := h.settle c
  probe := h.probe c
  kind := h.kind c
  held := h.held c
  record := h.record c
  sizing := h.sizing c

theorem ChannelLaw.sizing_of_job (h : ChannelLaw s) (hd : d ∈ s.jobChans) :
    (s.chan.get d).state = .sizing := by
  obtain ⟨j, hj, rfl⟩ := List.mem_map.1 hd
  exact h.jobs j hj

/-- A channel that is not SIZING has no job. -/
theorem ChannelLaw.no_job (h : ChannelLaw s) (hc : (s.chan.get c).state ≠ .sizing) :
    c ∉ s.jobChans := fun hj => hc (h.sizing_of_job hj)

theorem ChannelLaw.of_fits (fits : ∀ c, (s.chan.get c).Fits (s.pull.get c))
    (sets : ∀ p c, s.holdsChan p c = true → (s.chan.get c).binding = some p)
    (jobs : ∀ d ∈ s.jobChans, (s.chan.get d).state = .sizing) (oneJob : s.jobChans.Nodup) :
    ChannelLaw s where
  binding := fun c => (fits c).binding
  excited := fun c => (fits c).excited
  settle := fun c => (fits c).settle
  probe := fun c => (fits c).probe
  kind := fun c => (fits c).kind
  held := fun c => (fits c).held
  sets := sets
  record := fun c => (fits c).record
  sizing := fun c => (fits c).sizing
  jobs := fun j hj => jobs j.chan (List.mem_map_of_mem hj)
  oneJob := oneJob

/-- The channels are the same, the controllers keep their pull records and results, no port's set gains
a channel, and no job is new. -/
structure ChannelsKept (s t : State) : Prop where
  chan : t.chan = s.chan
  record : ∀ d, (t.pull.get d).record = (s.pull.get d).record
  result : ∀ d, (t.pull.get d).result = (s.pull.get d).result
  sets : ∀ p d, t.holdsChan p d = true → s.holdsChan p d = true
  jobs : t.jobChans.Subperm s.jobChans

theorem ChannelsKept.trans (h : ChannelsKept s t) (k : ChannelsKept t r) : ChannelsKept s r where
  chan := k.chan.trans h.chan
  record := fun d => (k.record d).trans (h.record d)
  result := fun d => (k.result d).trans (h.result d)
  sets := fun p d hd => h.sets p d (k.sets p d hd)
  jobs := k.jobs.trans h.jobs

/-- A state in which the channels, the controllers, the sets and the jobs are the same. -/
theorem ChannelsKept.of_eq (hc : t.chan = s.chan) (hp : t.pull = s.pull)
    (hb : ∀ p, (t.ports.get p).bound = (s.ports.get p).bound) (hj : t.jobs = s.jobs) :
    ChannelsKept s t where
  chan := hc
  record := fun d => by rw [hp]
  result := fun d => by rw [hp]
  sets := fun p d hd => by rwa [State.holdsChan, hb] at hd
  jobs := by rw [State.jobChans, hj]; exact .refl _

/-- A write of claims that leaves the sets as they are. -/
theorem ChannelsKept.of_claims (h : ClaimsWritten s t)
    (hb : ∀ p, (t.ports.get p).bound = (s.ports.get p).bound) : ChannelsKept s t :=
  .of_eq h.chan h.pull hb (by rw [State.jobs, h.sizing]; rfl)

/-- A write of one port that adds no channel to its set. -/
theorem ChannelsKept.setPort {x : PortState}
    (hx : ∀ d, x.bound.get d = true → (s.ports.get p).bound.get d = true) :
    ChannelsKept s (s.setPort p x) where
  chan := rfl
  record := fun _ => rfl
  result := fun _ => rfl
  sets := fun q d hd => by
    rw [State.holdsChan, State.setPort_ports, Quad.get_set] at hd
    split at hd
    · next e => subst e; exact hx d hd
    · exact hd
  jobs := .refl _

/-- A write of one controller that keeps its pull record and its result. -/
theorem ChannelsKept.setPull (hrec : k.record = (s.pull.get c).record)
    (hres : k.result = (s.pull.get c).result) : ChannelsKept s (s.setPull c k) where
  chan := rfl
  record := fun d => by
    rw [State.setPull_pull, Quad.get_set]; split
    · next e => subst e; exact hrec
    · rfl
  result := fun d => by
    rw [State.setPull_pull, Quad.get_set]; split
    · next e => subst e; exact hres
    · rfl
  sets := fun _ _ => id
  jobs := .refl _

/-- The Sizing Unit with no new job. -/
theorem ChannelsKept.setSizing {x : SizingUnit}
    (hj : (s.setSizing x).jobChans.Subperm s.jobChans) : ChannelsKept s (s.setSizing x) :=
  ⟨rfl, fun _ => rfl, fun _ => rfl, fun _ _ => id, hj⟩

theorem ChannelLaw.of_kept (h : ChannelLaw s) (k : ChannelsKept s t) : ChannelLaw t := by
  refine .of_fits (fun c => ?_) (fun p c hc => ?_) (fun d hd => ?_) ?_
  · rw [k.chan]; exact (h.fits c).of_ctl (k.record c) (k.result c)
  · rw [k.chan]; exact h.sets p c (k.sets p c hc)
  · rw [k.chan]; exact h.sizing_of_job (k.jobs.subset hd)
  · obtain ⟨l, hl, hsub⟩ := k.jobs
    exact hl.nodup_iff.1 (h.oneJob.sublist hsub)

/-- A write of one channel, with its controller, its port's set and its job: what the law says of them
is enough. -/
theorem ChannelLaw.of_write (h : ChannelLaw s) (hc : t.chan = s.chan.set c x)
    (hp : ∀ d, d ≠ c → t.pull.get d = s.pull.get d) (fits : x.Fits (t.pull.get c))
    (hset : ∀ p, t.holdsChan p c = true → x.binding = some p)
    (hsets : ∀ p d, d ≠ c → t.holdsChan p d = true → s.holdsChan p d = true)
    (hjob : c ∈ t.jobChans → x.state = .sizing)
    (hjobs : ∀ d ∈ t.jobChans, d ≠ c → d ∈ s.jobChans) (hone : t.jobChans.Nodup) :
    ChannelLaw t := by
  refine .of_fits (fun d => ?_) (fun p d hd => ?_) (fun d hd => ?_) hone
  all_goals
    rw [hc, Quad.get_set]
    split
  · next e => subst e; exact fits
  · next e => rw [hp d e]; exact h.fits d
  · next e => subst e; exact hset p hd
  · next e => exact h.sets p d (hsets p d e hd)
  · next e => subst e; exact hjob hd
  · next e => exact h.sizing_of_job (hjobs d hd e)

/-- A write of one channel that leaves its station, the sets and the jobs as they are. -/
theorem ChannelLaw.of_chan (h : ChannelLaw s) (hc : t.chan = s.chan.set c x)
    (hp : ∀ d, d ≠ c → t.pull.get d = s.pull.get d) (fits : x.Fits (t.pull.get c))
    (hports : t.ports = s.ports) (hj : t.jobs = s.jobs) (hb : x.binding = (s.chan.get c).binding)
    (hz : (s.chan.get c).state = .sizing → x.state = .sizing) : ChannelLaw t := by
  have hchans : t.jobChans = s.jobChans := congrArg (List.map Job.chan) hj
  have hsets : ∀ p d, t.holdsChan p d = s.holdsChan p d := fun p d => by
    rw [State.holdsChan, hports]; rfl
  refine h.of_write hc hp fits (fun p hd => ?_) (fun p d _ hd => ?_) (fun hd => ?_) (fun d hd _ => ?_) ?_
  · rw [hb]; exact h.sets p c (hsets p c ▸ hd)
  · exact hsets p d ▸ hd
  · exact hz (h.sizing_of_job (hchans ▸ hd))
  · exact hchans ▸ hd
  · rw [hchans]; exact h.oneJob

end Sys2Proof.Machine
end

section
/-!
Every step keeps the law of a channel's items and of the sizing queue (R48, R49, R91, R138): the actions
that touch no channel, then each action that writes one.
-/

namespace Sys2Proof.Machine

variable {s t r : State} {p : Port} {c d : Chan} {u : Tag}

/-! ## Actions that write no channel -/

theorem dropClaim_ports (s : State) (p : Port) (u : Tag) : (s.dropClaim p u).ports = s.ports := by
  unfold State.dropClaim; split <;> rfl

theorem markInPull_ports (s : State) (p : Port) (u : Tag) : (s.markInPull p u).ports = s.ports := by
  unfold State.markInPull; split <;> rfl

theorem ChannelsKept.dropClaim (s : State) (p : Port) (u : Tag) : ChannelsKept s (s.dropClaim p u) :=
  .of_claims (.dropClaim s p u) fun _ => by rw [dropClaim_ports]

/-- A notice for a station writes no set. -/
theorem ChannelsKept.notices (s : State) (p : Port) (x : Notices) :
    ChannelsKept s (s.setPort p { s.ports.get p with notices := x }) :=
  .setPort fun _ => id

theorem ChannelsKept.expire (s : State) (p : Port) (u : Tag) : ChannelsKept s (s.expire p u) := by
  unfold State.expire
  dsimp only
  split
  · exact .dropClaim s p u
  · exact (ChannelsKept.dropClaim s p u).trans (.notices _ p _)

theorem ChannelsKept.revoke (s : State) (p : Port) (u : Tag) :
    ChannelsKept s (if s.departedClaim p u then s.dropClaim p u
      else (s.dropClaim p u).addRevoked p u) := by
  split
  · exact .dropClaim s p u
  · exact (ChannelsKept.dropClaim s p u).trans (.notices _ p _)

theorem ChannelsKept.takeLeases (s : State) : ChannelsKept s s.takeLeases := by
  refine .of_claims (.takeLeases s) fun p => ?_
  obtain ⟨_, -, e⟩ := (State.takeLeases_ended s).ports p
  rw [e]

theorem ChannelsKept.detach (s : State) (p : Port) : ChannelsKept s (s.detachPort p) := by
  have hport : ChannelsKept s (s.setPort p (s.ports.get p).detached) :=
    .setPort fun d hd => absurd (Quad.get_fill false d ▸ hd) Bool.false_ne_true
  exact hport.trans (.of_eq rfl rfl (fun _ => rfl) rfl)

theorem ChannelsKept.warnStore (s : State) (n : Nat) : ChannelsKept s (s.warnStore n) := by
  unfold State.warnStore
  split
  · refine .of_eq rfl rfl (fun p => ?_) rfl
    rw [Quad.get_map, PortState.tellStoreLow]
    split <;> rfl
  · exact .of_eq rfl rfl (fun _ => rfl) rfl

theorem ChannelsKept.writeStep (s : State) (st : Settings) : ChannelsKept s (s.writeStep st) := by
  unfold State.writeStep
  dsimp only
  split
  · refine .of_eq rfl rfl (fun p => ?_) rfl
    rw [State.completePass, Quad.get_map, PortState.tellRescreenDone]
    split <;> rfl
  · exact .of_eq rfl rfl (fun _ => rfl) rfl

theorem ChannelsKept.settingsChanged (s : State) : ChannelsKept s s.settingsChanged := by
  unfold State.settingsChanged
  split
  · refine .of_eq ?_ ?_ (fun p => ?_) (by rw [startPass_jobs, restartJob_jobs])
    all_goals
      unfold State.startPass State.restartJob
      split <;> rfl
  · exact .of_eq rfl rfl (fun _ => rfl) rfl

theorem ChannelsKept.replies (s : State) : ChannelsKept s s.advanceReplies := by
  refine .of_eq rfl rfl (fun p => ?_) rfl
  rw [State.advanceReplies, Quad.get_map, PortState.sendNext]
  split
  · split <;> rfl
  · rfl

/-- An idle unit takes the next job. -/
theorem ChannelsKept.jobBegin {j : Job} {rest : List Job} (st : Settings) (idle : s.unitIdle = true)
    (queue : s.sizing.queue = j :: rest) :
    ChannelsKept s (s.setSizing { s.sizing with queue := rest, flight := some (j, st) }) :=
  .setSizing ((jobBegin_jobs st idle queue).map Job.chan).subperm

/-- An orphan mark leaves the job of each channel. -/
theorem ChannelsKept.orphan (s : State) (p : Port) :
    ChannelsKept s (s.setSizing
      { s.sizing with
        queue := s.sizing.queue.map (s.markJob p)
        flight := s.sizing.flight.map (fun x => (s.markJob p x.1, x.2)) }) := by
  have hchan : Job.chan ∘ s.markJob p = Job.chan := funext fun j => by
    rw [Function.comp_apply, State.markJob]
    split <;> rfl
  refine .setSizing ?_
  rw [State.jobChans, orphan_jobs, List.map_map, hchan]
  exact .refl _

/-! ## Binding and settling -/

theorem ChannelLaw.bind (h : ChannelLaw s) (free : (s.chan.get c).binding = none) :
    ChannelLaw (s.bindChan p c) := by
  have hfits := h.fits c
  have hs := hfits.unbound_of_free free
  refine h.of_write (c := c) rfl (fun _ _ => rfl)
    (Channel.fits_beginSettle rfl (hfits.kind_none (.inr (.inr hs)))
      (hfits.result_none (by rw [hs]; exact nofun))) (fun q hq => ?_) (fun q d hd hq => ?_)
    (fun hj => absurd hj (h.no_job (by rw [hs]; exact nofun))) (fun _ hj _ => hj) h.oneJob
  all_goals
    rw [State.holdsChan, State.bindChan, State.setChan_ports, State.setPort_ports, Quad.get_set] at hq
    split at hq
  · next e => rw [e]; rfl
  · exact absurd (h.sets q c hq) (by rw [free]; exact nofun)
  · next e => rw [Quad.get_set_ne _ _ hd] at hq; rw [e]; exact hq
  · exact hq

/-- An unbind takes the channel out of every set, and leaves the other channels in theirs. -/
theorem unbindChan_sets (sets : s.holdsChan p c = true → (s.chan.get c).binding = some p)
    (hd : (s.unbindChan c).holdsChan p d = true) : d ≠ c ∧ s.holdsChan p d = true := by
  rw [State.holdsChan, unbindChan_ports] at hd
  dsimp only at hd
  split at hd
  · rw [Quad.get_set] at hd
    split at hd
    · cases hd
    · next e => exact ⟨e, hd⟩
  · next e => exact ⟨fun hdc => e (sets (hdc ▸ hd)), hd⟩

/-- A channel without a job is unbound, and no result of it is held. -/
theorem ChannelLaw.unbound (h : ChannelLaw s) (hc : t.chan = s.chan.set c (s.chan.get c).unbound)
    (hp : ∀ d, d ≠ c → t.pull.get d = s.pull.get d) (hr : (t.pull.get c).result = none)
    (hports : t.ports = (s.unbindChan c).ports) (hj : t.jobs = s.jobs) (hjob : c ∉ s.jobChans) :
    ChannelLaw t := by
  have hchans : t.jobChans = s.jobChans := congrArg (List.map Job.chan) hj
  have hsets : ∀ p d, t.holdsChan p d = true → d ≠ c ∧ s.holdsChan p d = true := fun p d hd =>
    unbindChan_sets (h.sets p c) (by rwa [State.holdsChan, hports] at hd)
  refine h.of_write hc hp (Channel.fits_unbound _ hr) (fun p hd => absurd rfl (hsets p c hd).1)
    (fun p d _ hd => (hsets p d hd).2) (fun hd => absurd (hchans ▸ hd) hjob)
    (fun d hd _ => hchans ▸ hd) ?_
  rw [hchans]
  exact h.oneJob

theorem unbindChan_pull (s : State) (c : Chan) : (s.unbindChan c).pull = s.pull := by
  obtain ⟨_, e⟩ := unbindChan_parts s c
  rw [e]

/-- What UNBIND and FREQ_SET check of the channel: it is the station's, SETTLING or READY. -/
theorem ChannelLaw.state_of_free (h : ChannelLaw s) (free : s.freeRefusal p c = none) :
    (s.chan.get c).binding = some p
      ∧ ((s.chan.get c).state = .settling ∨ (s.chan.get c).state = .ready) := by
  unfold State.freeRefusal at free
  split at free
  · cases free
  · next hb =>
    have hbinding := h.sets p c (by simpa using hb)
    have hstate := (h.fits c).state_of_bound hbinding
    refine ⟨hbinding, ?_⟩
    cases hs : (s.chan.get c).state with
    | settling => exact .inl rfl
    | ready => exact .inr rfl
    | unbound => exact absurd hs hstate
    | pulling | sizing | held => rw [hs] at free; cases free

theorem ChannelLaw.unbind (h : ChannelLaw s) (free : s.freeRefusal p c = none) :
    ChannelLaw ((s.unbindChan c).dropCal c) := by
  obtain ⟨-, hs⟩ := h.state_of_free free
  obtain ⟨ports, e⟩ := unbindChan_parts s c
  have hpull : ((s.unbindChan c).dropCal c).pull = s.pull := unbindChan_pull s c
  refine h.unbound (c := c) (by rw [State.dropCal, State.setCal_chan, e]) (fun d _ => by rw [hpull]) ?_
    rfl (by rw [State.dropCal, e]; rfl) (h.no_job ?_)
  · rw [hpull]
    exact (h.fits c).result_none (by obtain hs | hs := hs <;> rw [hs] <;> exact nofun)
  · obtain hs | hs := hs <;> rw [hs] <;> exact nofun

theorem ChannelLaw.freqSet (h : ChannelLaw s) (slots : Quad (Option Nat))
    (free : s.freeRefusal p c = none) :
    ChannelLaw ((s.setChan c { s.chan.get c with slots := slots }.beginSettle).dropCal c) := by
  obtain ⟨hb, hs⟩ := h.state_of_free free
  have hfits := h.fits c
  refine h.of_chan (c := c) rfl (fun _ _ => rfl) (Channel.fits_beginSettle (by rw [hb]; rfl)
    (hfits.kind_none (hs.imp_right .inl)) (hfits.result_none ?_)) rfl rfl rfl fun e => ?_
  · obtain hs | hs := hs <;> rw [hs] <;> exact nofun
  · obtain hs | hs := hs <;> rw [hs] at e <;> cases e

theorem ChannelLaw.settled (h : ChannelLaw s) (hs : (s.chan.get c).state = .settling) :
    ChannelLaw (s.setChan c { s.chan.get c with state := .ready, settle := none }) := by
  have hfits := h.fits c
  have hb := hfits.bound (by rw [hs]; exact nofun)
  exact h.of_chan rfl (fun _ _ => rfl)
    (Channel.fits_ready rfl hb rfl (hfits.kind_none (.inl hs))
      (hfits.result_none (by rw [hs]; exact nofun))) rfl rfl rfl fun e => by rw [hs] at e; cases e

/-- The law asks nothing of the probe-open condition of a channel with a station. -/
theorem ChannelLaw.coil (h : ChannelLaw s) (isOpen : Bool) (bound : (s.chan.get c).state ≠ .unbound) :
    ChannelLaw (s.setChan c { s.chan.get c with probeOpen := isOpen }) :=
  h.of_chan rfl (fun _ _ => rfl)
    { h.fits c with probe := fun e => absurd e bound } rfl rfl rfl id

theorem ChannelLaw.passed (h : ChannelLaw s) :
    ChannelLaw (s.setChan c { s.chan.get c with passed := true }) :=
  h.of_chan rfl (fun _ _ => rfl) { h.fits c with } rfl rfl rfl id

end Sys2Proof.Machine
end

section
/-!
SUPPORT. The step of one output on a channel in PULLING (R60, R61, R68), for a tube pull and for a
calibration pull.
-/

namespace Sys2Proof.Machine

variable {s : State} {c : Chan} {rec : PullRecord} {tp : TubePull}

/-- The thin-data report of a step: OVERSPEED enters the latch at the limit (R61). -/
def PullCtl.reportThin (k : PullCtl) (thin : Nat) : PullCtl :=
  if 64 ≤ thin then { k with latch := latchAdd .overspeed k.latch } else k

theorem PullCtl.reportThin_record (k : PullCtl) (thin : Nat) :
    (k.reportThin thin).record = k.record := by
  unfold PullCtl.reportThin; split <;> rfl

theorem PullCtl.reportThin_result (k : PullCtl) (thin : Nat) :
    (k.reportThin thin).result = k.result := by
  unfold PullCtl.reportThin; split <;> rfl

theorem PullCtl.reportThin_below (k : PullCtl) {thin : Nat} (h : thin < 64) : k.reportThin thin = k :=
  if_neg (Nat.not_le.2 h)

theorem PullCtl.reportThin_limit (k : PullCtl) {thin : Nat} (h : 64 ≤ thin) :
    k.reportThin thin = { k with latch := latchAdd .overspeed k.latch } := if_pos h

/-- The thin-data count after the step of the positions waiting (R61). -/
def Channel.thinAfter (ch : Channel) : Nat := ch.thin + (ch.waiting.length - 1)

/-- The channel after the step of the positions waiting. -/
def Channel.sampled (ch : Channel) : Channel := { ch with waiting := [], thin := ch.thinAfter }

theorem stepPositions_length (l : List Int) : (stepPositions l).length = l.length := List.length_map ..

/-- In a tube pull the Pull Controller processes the samples. -/
theorem processStep_tube (hr : (s.pull.get c).record = some rec) (htube : rec.tube = some tp)
    (raw : RawSample) :
    s.processStep c raw = { s with
      chan := s.chan.set c (s.chan.get c).sampled
      pull := s.pull.set c
        ((tubeStep (s.cal.get c) tp raw (stepPositions (s.chan.get c).waiting)
          (s.pull.get c)).reportThin (s.chan.get c).thinAfter) } := by
  simp only [State.processStep, hr, Option.bind_some, htube, stepPositions_length]
  rfl

/-- In a calibration pull the Pull Controller counts the samples and the Calibration Unit captures
them. -/
theorem processStep_cal (hr : (s.pull.get c).record.bind PullRecord.tube = none) (raw : RawSample) :
    s.processStep c raw = { s with
      chan := s.chan.set c (s.chan.get c).sampled
      pull := s.pull.set c
        (({ s.pull.get c with
            samples := (calStep raw (stepPositions (s.chan.get c).waiting) (s.pull.get c).samples
              (s.cal.get c).capture).1 } : PullCtl).reportThin (s.chan.get c).thinAfter)
      cal := s.cal.set c
        { s.cal.get c with
          capture := (calStep raw (stepPositions (s.chan.get c).waiting) (s.pull.get c).samples
            (s.cal.get c).capture).2 } } := by
  simp only [State.processStep, hr, stepPositions_length]
  rfl

theorem tubeSample_result (u : CalUnit) (tp : TubePull) (raw : RawSample) (k : PullCtl) (pos : Nat) :
    (k.tubeSample u tp raw pos).result = k.result := by
  unfold PullCtl.tubeSample PullCtl.countSupport PullCtl.detect PullCtl.saturate PullCtl.close
  dsimp only
  repeat' split
  all_goals rfl

theorem tubeStep_result (u : CalUnit) (tp : TubePull) (raw : RawSample) (l : List Nat) :
    ∀ k, (tubeStep u tp raw l k).result = k.result := by
  induction l with
  | nil => exact fun _ => rfl
  | cons pos rest ih =>
    intro k
    unfold tubeStep
    split
    · rw [ih, tubeSample_result]
    · rfl

/-- A step of samples writes the positions waiting and the thin-data count of the channel, its
controller, which keeps its pull record and its result, and its unit. -/
theorem processStep_channel (s : State) (c : Chan) (raw : RawSample) :
    ∃ k cal, s.processStep c raw
        = { s with chan := s.chan.set c (s.chan.get c).sampled, pull := s.pull.set c k, cal := cal }
      ∧ k.record = (s.pull.get c).record ∧ k.result = (s.pull.get c).result := by
  cases hr : (s.pull.get c).record.bind PullRecord.tube with
  | none =>
    exact ⟨_, _, processStep_cal hr raw, PullCtl.reportThin_record .., PullCtl.reportThin_result ..⟩
  | some tp =>
    obtain ⟨rec, hrec, htube⟩ := Option.bind_eq_some_iff.1 hr
    exact ⟨_, s.cal, processStep_tube hrec htube raw,
      (PullCtl.reportThin_record ..).trans (tubeStep_record ..),
      (PullCtl.reportThin_result ..).trans (tubeStep_result ..)⟩

end Sys2Proof.Machine
end

section
/-!
Every step keeps the law of a channel's items and of the sizing queue (R48, R49, R91, R138): the starts
and the ends of pulls, the sizing commit, the resets, and all actions together.
-/

namespace Sys2Proof.Machine

variable {s t : State} {p : Port} {c d : Chan} {u : Tag} {i : Nat} {rec : PullRecord} {tp : TubePull}

/-! ## Starting a pull, and its course -/

theorem ChannelLaw.startCal (h : ChannelLaw s) (ready : (s.chan.get c).state = .ready)
    {kind : PullKind} (isCal : kind = .calFull ∨ kind = .calCheck) (sd : Standard) :
    ChannelLaw (s.startCal p c kind sd) := by
  have hfits := h.fits c
  refine h.of_chan (c := c) rfl (fun d hd => Quad.get_set_ne _ _ hd) ?_ rfl rfl rfl
    fun e => by rw [ready] at e; cases e
  refine Channel.fits_pulling (rec := s.calRecord p c kind) rfl
    (hfits.bound (by rw [ready]; exact nofun)) (hfits.settle_none (by rw [ready]; exact nofun))
    ?_ ?_ rfl ?_
  · exact congrArg PullCtl.result (Quad.get_set_same ..)
  · exact congrArg PullCtl.record (Quad.get_set_same ..)
  · obtain rfl | rfl := isCal <;> rfl

theorem ChannelLaw.startTube (h : ChannelLaw s) (ready : (s.chan.get c).state = .ready) (tb : Tube) :
    ChannelLaw (s.startTube p u c i tb) := by
  have hmark : ClaimsWritten s (s.markInPull p u) := .markInPull s p u
  have hfits := h.fits c
  refine (h.of_kept (.of_claims hmark fun q => by rw [markInPull_ports])).of_chan (c := c) rfl
    (fun d hd => Quad.get_set_ne _ _ hd) ?_ rfl rfl (by rw [hmark.chan]; rfl)
    fun e => by rw [hmark.chan, ready] at e; cases e
  refine Channel.fits_pulling (rec := s.tubeRecord p u c i tb) rfl
    (hfits.bound (by rw [ready]; exact nofun)) (hfits.settle_none (by rw [ready]; exact nofun))
    ?_ ?_ rfl rfl
  · exact congrArg PullCtl.result (Quad.get_set_same ..)
  · exact congrArg PullCtl.record (Quad.get_set_same ..)

/-- A count step leaves the items that the law speaks of. -/
theorem count_fits {ch : Channel} {k : PullCtl} (h : ch.Fits k) (dir : EncoderDir) :
    (ch.count dir).Fits k := by
  unfold Channel.count
  cases dir <;> dsimp only <;> split <;> exact { h with }

theorem count_binding (ch : Channel) (dir : EncoderDir) :
    (ch.count dir).binding = ch.binding ∧ (ch.count dir).state = ch.state := by
  unfold Channel.count
  cases dir <;> dsimp only <;> split <;> exact ⟨rfl, rfl⟩

theorem ChannelLaw.count (h : ChannelLaw s) (dir : EncoderDir) :
    ChannelLaw (s.setChan c ((s.chan.get c).count dir)) := by
  obtain ⟨hb, hs⟩ := count_binding (s.chan.get c) dir
  exact h.of_chan rfl (fun _ _ => rfl) (count_fits (h.fits c) dir) rfl rfl hb hs.trans

theorem ChannelLaw.processStep (h : ChannelLaw s) (raw : RawSample) :
    ChannelLaw (s.processStep c raw) := by
  obtain ⟨k, cal, e, hrec, hres⟩ := processStep_channel s c raw
  rw [e]
  refine h.of_chan rfl (fun d hd => Quad.get_set_ne _ _ hd) ?_ rfl rfl rfl id
  rw [Quad.get_set_same]
  exact { (h.fits c).of_ctl hrec hres with }

theorem closeOpen_result (k : PullCtl) (trace : Trace) : (k.closeOpen trace).result = k.result := by
  unfold PullCtl.closeOpen; split <;> rfl

theorem ChannelLaw.takeResult (h : ChannelLaw s) (held : (s.chan.get c).state = .held) :
    ChannelLaw (s.takeResult c) := by
  have hfits := h.fits c
  refine h.of_chan (c := c) rfl (fun d hd => Quad.get_set_ne _ _ hd) ?_ rfl rfl rfl
    fun e => by rw [held] at e; cases e
  exact Channel.fits_ready rfl (hfits.bound (by rw [held]; exact nofun))
    (hfits.settle_none (by rw [held]; exact nofun)) rfl (congrArg PullCtl.result (Quad.get_set_same ..))

/-! ## The ends of pulls -/

section
variable (h : ChannelLaw s) (pulling : (s.chan.get c).state = .pulling)
include h pulling

/-- What an end of a pull may rely on: a channel in PULLING is bound, no settle runs, no result is held,
and its kind is that of its pull record. -/
theorem ChannelLaw.of_pulling : (s.chan.get c).Bound ∧ (s.chan.get c).settle = none
    ∧ (s.pull.get c).result = none ∧ (s.chan.get c).kind.isSome = true := by
  have hfits := h.fits c
  obtain ⟨rec, -, hkind, -⟩ := hfits.record pulling
  exact ⟨hfits.bound (by rw [pulling]; exact nofun), hfits.settle_none (by rw [pulling]; exact nofun),
    hfits.result_none (by rw [pulling]; exact nofun), by rw [hkind]; rfl⟩

theorem ChannelLaw.abort : ChannelLaw (s.abortPull c) := by
  obtain ⟨hb, hset, hres, -⟩ := h.of_pulling pulling
  obtain ⟨hwritten, hports⟩ := abortPull_written s c
  have habort : ChannelLaw (s.abortedChan c) := by
    refine h.of_chan (c := c) rfl (fun d hd => Quad.get_set_ne _ _ hd) ?_ rfl rfl rfl
      fun e => by rw [pulling] at e; cases e
    exact Channel.fits_ready rfl hb hset rfl
      ((congrArg PullCtl.result (Quad.get_set_same ..)).trans hres)
  exact habort.of_kept (.of_claims hwritten fun q => by rw [hports]; rfl)

/-- A pull ends HELD with its result record. -/
theorem ChannelLaw.hold (hc : t.chan = s.chan.set c { s.chan.get c with state := .held, waiting := [] })
    (hp : ∀ d, d ≠ c → t.pull.get d = s.pull.get d) (hr : (t.pull.get c).result.isSome = true)
    (hports : t.ports = s.ports) (hj : t.jobs = s.jobs) : ChannelLaw t := by
  obtain ⟨hb, hset, -, hkind⟩ := h.of_pulling pulling
  exact h.of_chan hc hp (Channel.fits_held rfl hb hset hkind hr) hports hj rfl
    fun e => by rw [pulling] at e; cases e

end

/-- The error-type fault commit touches the tubes and the claims alone. -/
theorem errorCommit_parts (s : State) (p : Port) (u : Tag) (i : Nat) :
    ∃ tubes claims, s.errorCommit p u i = { s with tubes := tubes, claims := claims } := by
  unfold State.errorCommit
  split
  · exact ⟨_, _, rfl⟩
  · dsimp only
    split
    · unfold State.dropClaim; split <;> exact ⟨_, _, rfl⟩
    · unfold State.keepClaim; split <;> exact ⟨_, _, rfl⟩

theorem ChannelLaw.errorEnd (h : ChannelLaw s) (pull : s.pullsTube c rec tp) :
    ChannelLaw (s.errorEnd c rec tp) := by
  obtain ⟨tubes, claims, e⟩ := errorCommit_parts s rec.port tp.tag tp.index
  refine h.hold pull.1 ?_ (fun d hd => ?_) ?_ ?_ ?_
  all_goals
    unfold State.errorEnd
    dsimp only
    rw [e]
  · rfl
  · exact Quad.get_set_ne _ _ hd
  · exact congrArg (fun k : PullCtl => k.result.isSome) (Quad.get_set_same ..)
  · rfl
  · rfl

theorem ChannelLaw.endCal (h : ChannelLaw s) (pulling : (s.chan.get c).state = .pulling)
    (kind : PullKind) : ChannelLaw (s.endCal c kind) := by
  obtain ⟨hchan, hpull, hports, hsizing⟩ : (judge s c kind).state.chan = s.chan
      ∧ (judge s c kind).state.pull = s.pull ∧ (judge s c kind).state.ports = s.ports
      ∧ (judge s c kind).state.sizing = s.sizing := by
    obtain ⟨x, e, -⟩ | e := judge_judged s c kind <;> rw [e] <;> exact ⟨rfl, rfl, rfl, rfl⟩
  refine h.hold pulling ?_ (fun d hd => ?_) ?_ hports (congrArg (fun z : SizingUnit =>
    z.queue ++ (z.flight.map Prod.fst).toList) hsizing)
  all_goals
    unfold State.endCal
    dsimp only [State.setChan_chan, State.setChan_pull, State.setPull_chan, State.setPull_pull,
      State.setCal_chan, State.setCal_pull]
  · rw [hchan]
  · rw [Quad.get_set_ne _ _ hd, hpull]
  · rw [Quad.get_set_same]; rfl

theorem ChannelLaw.jobEnd (h : ChannelLaw s) (pull : s.pullsTube c rec tp) :
    ChannelLaw (s.jobEnd c rec tp) := by
  obtain ⟨pulling, hrec, htube⟩ := pull
  obtain ⟨hb, hset, hres, -⟩ := h.of_pulling pulling
  obtain ⟨rec', hrec', hkind, hkindTube⟩ := h.record c pulling
  rw [hrec] at hrec'
  cases hrec'
  rw [htube] at hkindTube
  rw [of_decide_eq_true hkindTube.symm] at hkind
  have hjobs : (s.jobEnd c rec tp).jobChans.Perm (c :: s.jobChans) := by
    refine List.Perm.map Job.chan (l₂ := jobOf c rec tp (s.pull.get c) (s.chan.get c).thin :: s.jobs) ?_
    simp only [State.jobs, State.jobEnd, State.setChan_sizing, State.setSizing_sizing,
      List.append_assoc, List.singleton_append]
    exact List.perm_middle
  refine h.of_write (c := c) rfl (fun _ _ => rfl) (Channel.fits_sizing rfl hb hset hkind hres)
    (fun q hq => h.sets q c hq) (fun q d _ hq => hq) (fun _ => rfl) (fun d hd hne => ?_) ?_
  · exact (List.mem_cons.1 (hjobs.subset hd)).resolve_left hne
  · exact hjobs.nodup_iff.2 (List.nodup_cons.2 ⟨h.no_job (by rw [pulling]; exact nofun), h.oneJob⟩)

/-! ## The forced unbind and the sizing commit -/

theorem ChannelLaw.forceUnbind (h : ChannelLaw s) (hjob : c ∉ s.jobChans) :
    ChannelLaw (s.forceUnbind c) := by
  have hports : (s.forceUnbind c).ports = (s.unbindChan c).ports := Quad.ext_get fun q => by
    rw [forceUnbind_ports, unbindChan_ports]
  obtain ⟨ports, e⟩ := forceUnbind_parts s c
  rw [e] at hports ⊢
  exact h.unbound rfl (fun d hd => Quad.get_set_ne _ _ hd)
    (congrArg PullCtl.result (Quad.get_set_same ..)) hports rfl hjob

/-- The channel of a job that is no longer in the unit is left HELD with the completed result, or
unbound. -/
theorem ChannelLaw.releaseChan (h : ChannelLaw s) {j : Job} (z : Sizing) (hjob : j.chan ∉ s.jobChans)
    (sizing : (s.chan.get j.chan).state = .sizing) : ChannelLaw (s.releaseChan j z) := by
  have hfits := h.fits j.chan
  unfold State.releaseChan
  dsimp only
  split
  · exact h.forceUnbind hjob
  · refine h.of_write (c := j.chan) rfl (fun d hd => Quad.get_set_ne _ _ hd) ?_
      (fun q hq => h.sets q _ hq) (fun q d _ hq => hq) (fun hj => absurd hj hjob) (fun _ hj _ => hj)
      h.oneJob
    exact Channel.fits_held rfl (hfits.bound (by rw [sizing]; exact nofun))
      (hfits.settle_none (by rw [sizing]; exact nofun)) (by rw [hfits.sizing sizing]; rfl)
      (congrArg (fun k : PullCtl => k.result.isSome) (Quad.get_set_same ..))

theorem ChannelLaw.commit (h : ChannelLaw s) {j : Job} {st : Settings}
    (flight : s.sizing.flight = some (j, st)) : ChannelLaw (s.commitJob j st) := by
  have hjobs : s.jobChans = s.sizing.queue.map Job.chan ++ [j.chan] := by
    rw [State.jobChans, State.jobs, flight, List.map_append]; rfl
  have hrest : (s.setSizing { s.sizing with flight := none }).jobChans
      = s.sizing.queue.map Job.chan := by simp [State.jobChans, State.jobs]
  have hless : (s.setSizing { s.sizing with flight := none }).jobChans.Subperm s.jobChans := by
    rw [hrest, hjobs]
    exact (List.sublist_append_left ..).subperm
  have hleft : j.chan ∉ s.sizing.queue.map Job.chan := fun hm =>
    (List.nodup_append.1 (hjobs ▸ h.oneJob)).2.2 _ hm _ (List.mem_singleton_self _) rfl
  cases ht : s.tubes[j.index]? with
  | none =>
    rw [commitJob_of_none ht]
    exact h.of_kept (.setSizing hless)
  | some tb =>
    rw [commitJob_of_tube ht]
    generalize sizeJob j st tb.list s.free = z
    have hwrite : ChannelsKept s (s.committing j z) :=
      ⟨rfl, fun _ => rfl, fun _ => rfl, fun _ _ => id, hless⟩
    have hkept := (hwrite.trans (.dropClaim _ j.port j.tag)).trans (.warnStore _ s.free)
    refine (h.of_kept hkept).releaseChan z (fun hm => hleft (hrest ▸ ?_)) ?_
    · exact ((ChannelsKept.dropClaim (s.committing j z) j.port j.tag).trans
        (.warnStore _ s.free)).jobs.subset hm
    · rw [hkept.chan]
      exact h.jobs j (by rw [State.jobs, flight]; simp)

/-! ## The resets, and all actions -/

theorem ChannelLaw.warm (s : State) : ChannelLaw s.warm := by
  refine .of_fits (fun c => ?_) (fun p c hc => ?_) (fun d hd => ?_) .nil
  · rw [State.warm, Quad.get_fill, Quad.get_fill]
    exact reset_chan c ▸ reset_pull c ▸ channelLaw_reset.fits c
  · rw [State.holdsChan, State.warm, Quad.get_map] at hc
    exact absurd (Quad.get_fill false c ▸ hc) Bool.false_ne_true
  · cases hd

theorem ChannelLaw.quietAct (h : ChannelLaw s) (a : QuietAct s t) : ChannelLaw t := by
  cases a with
  | queue l => exact h.of_kept (.of_eq rfl rfl (fun _ => rfl) rfl)
  | line p x same =>
    obtain ⟨-, -, hb, -⟩ := same
    exact h.of_kept (.setPort fun d hd => by rwa [hb] at hd)
  | replies => exact h.of_kept (.replies s)
  | clearNotices p => exact h.of_kept (.notices s p _)
  | attach p _ _ _ _ _ _ _ =>
    exact h.of_kept (.setPort fun d hd => absurd (Quad.get_fill false d ▸ hd) Bool.false_ne_true)
  | bind p c _ free _ => exact h.bind free
  | unbind p c free => exact h.unbind free
  | freqSet p c slots _ free => exact h.freqSet slots free
  | settled c settling => exact h.settled settling
  | coil c isOpen bound => exact h.coil isOpen bound
  | count c dir _ => exact h.count dir
  | passed c _ _ => exact h.passed
  | startCal p c kind sd _ ready isCal _ _ => exact h.startCal ready isCal sd
  | processStep c raw _ _ => exact h.processStep raw
  | latch c f _ => exact h.of_kept (.setPull rfl rfl)
  | endChecks c _ trace _ _ =>
    exact h.of_kept (.setPull (closeOpen_record _ _) (closeOpen_result _ trace))
  | takeResult c held => exact h.takeResult held
  | intervalExpiry c => exact h.of_kept (.of_eq rfl rfl (fun _ => rfl) rfl)
  | jobBegin j rest st idle queue _ => exact h.of_kept (.jobBegin st idle queue)
  | startPass => exact h.of_kept (.of_eq rfl rfl (fun _ => rfl) rfl)
  | stepBegin st _ => exact h.of_kept (.of_eq rfl rfl (fun _ => rfl) rfl)
  | orphan p => exact h.of_kept (.orphan s p)

theorem ChannelLaw.act (h : ChannelLaw s) (a : Act s t) : ChannelLaw t := by
  cases a with
  | quiet a => exact h.quietAct a
  | newPlan | planOpen | planClose | planLock | planSet | standardSet | tracesSet | addRow | mark
  | scope | repull | grant => exact h.of_kept (.of_eq rfl rfl (fun _ => rfl) rfl)
  | curveSet _ _ cv _ =>
    refine ChannelLaw.of_kept ?_ (.settingsChanged _)
    exact h.of_kept (.of_eq rfl rfl (fun _ => rfl) rfl)
  | limitsSet _ x =>
    refine ChannelLaw.of_kept ?_ (.settingsChanged _)
    exact h.of_kept (.of_eq rfl rfl (fun _ => rfl) rfl)
  | drop p u _ _ _ => exact h.of_kept (.dropClaim s p u)
  | revoke _ _ cf _ _ _ => exact h.of_kept (.revoke s cf.port cf.tag)
  | expire p u _ => exact h.of_kept (.expire s p u)
  | detach p => exact h.of_kept (.detach s p)
  | startTube p u c i _ _ tb _ _ ready _ _ _ => exact h.startTube ready tb
  | abort c pulling => exact h.abort pulling
  | errorEnd c rec tp pull => exact h.errorEnd pull
  | jobEnd c rec tp pull => exact h.jobEnd pull
  | endCal c rec pulling _ _ => exact h.endCal pulling rec.kind
  | commit j st flight => exact h.commit flight
  | stepWrite st _ => exact h.of_kept (.writeStep s st)
  | forceUnbind c _ idle =>
    refine h.forceUnbind (h.no_job fun hs => ?_)
    simp [Channel.inFlight, hs] at idle
  | warm => exact .warm s
  | tick =>
    have hticked : ChannelsKept s { s with seconds := s.seconds + 1 } :=
      .of_eq rfl rfl (fun _ => rfl) rfl
    exact h.of_kept ((hticked.trans (.takeLeases _)).trans (.of_eq rfl rfl (fun _ => rfl) rfl))

theorem ChannelLaw.reset (l : List Instr) : ChannelLaw { State.reset with pending := l } :=
  channelLaw_reset.of_kept (.of_eq rfl rfl (fun _ => rfl) rfl)

/-- Settles O58: each action writes at most one channel, with its controller, its port's set and its
job. -/
theorem channelLawIsKept : Obligations.ChannelLawIsKept :=
  kept_of_acts (fun _ _ h a => h.act a) ChannelLaw.reset

end Sys2Proof.Machine
end

section
/-!
BIND, UNBIND and FREQ_SET, the settle completion, the coil events that end no pull, and the encoder
(R51 to R54, R57, R58, R62, R63, R133).
-/

namespace Sys2Proof.Machine

variable {s : State} {p : Port} {c : Chan} {b : Byte} {slots : Quad (Option Nat)}

/-! ## The slots of a channel -/

/-- The largest divider of the active slots is the one that the settle time goes by (R54). -/
theorem lowDivider_of_settleOf {low : Nat} (h : SettleOf slots low) : lowDivider slots = low := by
  obtain ⟨⟨i, hi⟩, hle⟩ := h
  have bound : ∀ j, (slots.get j).getD 0 ≤ low := fun j => by
    cases hj : slots.get j with
    | none => exact Nat.zero_le _
    | some d => exact hle j d hj
  have hmem : ∀ j, (slots.get j).getD 0 ≤ lowDivider slots := by
    simp [Fin.forall_fin_succ, Quad.get, lowDivider, Quad.toList]
  refine le_antisymm ?_ (by simpa [hi] using hmem i)
  exact max_le (bound 0) (max_le (bound 1) (max_le (bound 2) (max_le (bound 3) (Nat.zero_le _))))

theorem settleTime_of_settleOf {low : Nat} (h : SettleOf slots low) :
    settleTime slots = 256 * (low + 1) := by rw [settleTime, lowDivider_of_settleOf h]

theorem slotsBody_eq (slots : Quad (Option Nat)) : slotsBody slots = slots.toList.flatMap o2 := by
  simp [slotsBody, Quad.toList]

/-- A divider field as a reply writes it is read back, FFFFh as off (R188). -/
theorem dividerField_o2 {d : Option Nat} (h : ∀ n, d = some n → n < 65535) :
    dividerField (num2 (BitVec.ofNat 8 (d.getD 65535)) (BitVec.ofNat 8 (d.getD 65535 / 256))) = d := by
  cases d with
  | none => rfl
  | some n =>
    have hn := h n rfl
    rw [Option.getD_some, num2_c2 n (by omega), dividerField, if_neg (by omega)]

/-- The body of a FREQ_SET is read as its channel and its four slots. -/
theorem readFreq_body (b : Byte) (h : ∀ i d, slots.get i = some d → d < 65535) :
    ∃ x, readFreq (b :: slots.toList.flatMap o2) = some x ∧ x.chan = b
      ∧ x.slots.map dividerField = slots := by
  refine ⟨_, rfl, rfl, Quad.ext_get fun i => ?_⟩
  rw [Quad.get_map]
  have hslot := dividerField_o2 (h i)
  revert hslot
  revert i
  simp only [Fin.forall_fin_succ]
  exact ⟨id, id, id, id, nofun⟩

/-- What FREQ_SET asks of the slots (R53). -/
theorem slotsValid_iff (slots : Quad (Option Nat)) : slotsValid slots = true ↔
    (∀ i d, slots.get i = some d → d ≤ 999)
      ∧ (∀ i j d, slots.get i = some d → slots.get j = some d → i = j)
      ∧ ∃ i, slots.get i ≠ none := by
  have hrange : (∀ d ∈ dividers slots, d ≤ 999) ↔ ∀ i d, slots.get i = some d → d ≤ 999 := by
    simp only [mem_dividers]
    exact ⟨fun h i d hd => h d ⟨i, hd⟩, fun h d ⟨i, hd⟩ => h i d hd⟩
  have hsome : dividers slots ≠ [] ↔ ∃ i, slots.get i ≠ none := by
    rw [Ne, List.eq_nil_iff_forall_not_mem]
    simp only [mem_dividers, not_forall, not_not, Option.ne_none_iff_exists']
    exact exists_comm
  rw [slotsValid, Bool.and_eq_true, Bool.and_eq_true, List.all_eq_true, decide_eq_true_iff,
    decide_eq_true_iff, dividers_nodup_iff, hsome, ← hrange, and_assoc]
  simp only [decide_eq_true_eq]

/-! ## BIND -/

/-- Settles O29: the refusals in their order, and the binding with its settle. -/
theorem bindStartsTheSettle : Obligations.BindStartsTheSettle := by
  intro s p b h attached
  have hx : readOne [b] = some b := rfl
  refine ⟨fun role => ?_, fun role hgt => ?_, fun role c hc => ⟨fun hb => ?_, fun hb hfull => ?_,
    fun hb hroom low hlow => ?_⟩⟩
  · refine attached_refused ownBind .role h attached hx ?_
    rw [ownBind, if_pos role]
  · refine attached_refused ownBind .range h attached hx ?_
    simp [ownBind, role, fin4_of_gt hgt]
  · refine attached_refused ownBind .busy h attached hx ?_
    simp [ownBind, role, fin4_of_val hc, Option.isSome_iff_ne_none.2 hb]
  · refine attached_refused ownBind .full h attached hx ?_
    simp [ownBind, role, fin4_of_val hc, hb, hfull]
  · have own : ownBind b p s = .done (s.bindChan p c)
        (c1 c.val ++ slotsBody (s.chan.get c).slots ++ c4 (settleTime (s.chan.get c).slots)) := by
      simp [ownBind, role, fin4_of_val hc, hb, Nat.not_le.2 hroom]
    have e := attached_done ownBind h attached hx own
    rw [State.bindChan, slotsBody_eq] at e
    simp only [Channel.beginSettle, settleTime_of_settleOf hlow] at e
    exact e

/-! ## UNBIND and FREQ_SET -/

/-- Checks 3 to 6 of UNBIND and FREQ_SET in their order (R52, R53). -/
theorem freeRefusal_eq (s : State) (p : Port) (c : Chan) :
    (s.holdsChan p c = false → s.freeRefusal p c = some .notBound)
    ∧ (s.holdsChan p c = true →
        ((s.chan.get c).state = .pulling ∨ (s.chan.get c).state = .sizing →
          s.freeRefusal p c = some .busy)
        ∧ ((s.chan.get c).state = .held → s.freeRefusal p c = some .held)
        ∧ ((s.chan.get c).state = .settling ∨ (s.chan.get c).state = .ready →
          ((s.cal.get c).group ≠ [] → s.freeRefusal p c = some .groupOpen)
          ∧ ((s.cal.get c).group = [] → s.freeRefusal p c = none))) := by
  unfold State.freeRefusal
  refine ⟨fun h => by simp [h], fun h => ⟨?_, fun hs => by simp [h, hs], ?_⟩⟩
  · rintro (hs | hs) <;> simp [h, hs]
  · rintro (hs | hs) <;> exact ⟨fun hg => by simp [h, hs, hg], fun hg => by simp [h, hs, hg]⟩

section
variable (role : (s.ports.get p).role = .crew) (hc : b.toNat = c.val)
include role hc

theorem ownUnbind_refused {why : RefusalCode} (h : s.freeRefusal p c = some why) :
    ownUnbind b p s = .refused why := by
  simp [ownUnbind, role, fin4_of_val hc, h]

theorem ownUnbind_done (h : s.freeRefusal p c = none) :
    ownUnbind b p s = .done ((s.unbindChan c).dropCal c) [b] := by
  simp [ownUnbind, role, fin4_of_val hc, h, c1_of_toNat hc]

variable {x : FreqBody} (hx : x.chan = b) (hslots : x.slots.map dividerField = slots)
  (valid : slotsValid slots = true)
include hx hslots valid

theorem ownFreqSet_refused {why : RefusalCode} (h : s.freeRefusal p c = some why) :
    ownFreqSet x p s = .refused why := by
  simp [ownFreqSet, role, hx, fin4_of_val hc, hslots, valid, h]

theorem ownFreqSet_done (h : s.freeRefusal p c = none) :
    ownFreqSet x p s
      = .done ((s.setChan c { s.chan.get c with slots := slots }.beginSettle).dropCal c)
          (slots.toList.flatMap o2 ++ c4 (settleTime slots)) := by
  simp [ownFreqSet, role, hx, fin4_of_val hc, hslots, valid, h, slotsBody_eq]

end

/-- FREQ_SET is refused with RANGE for a channel above 3 or slots that do not fit. -/
theorem ownFreqSet_range {x : FreqBody} (role : (s.ports.get p).role = .crew) (hx : x.chan = b)
    (hslots : x.slots.map dividerField = slots) (h : ¬ (b.toNat ≤ 3 ∧ slotsValid slots = true)) :
    ownFreqSet x p s = .refused .range := by
  rcases Nat.lt_or_ge 3 b.toNat with hgt | hle
  · simp [ownFreqSet, role, hx, fin4_of_gt hgt]
  · have hv : slotsValid slots = false := eq_false_of_ne_true fun e => h ⟨hle, e⟩
    simp [ownFreqSet, role, hx, fin4_of_val (i := ⟨b.toNat, by omega⟩) rfl, hslots, hv]

/-- Settles O30: the refusals of both requests in their orders; the channel unbound or settling anew,
with its calibration gone. -/
theorem unbindAndFreqSetDropTheCalibration : Obligations.UnbindAndFreqSetDropTheCalibration := by
  refine ⟨?_, ?_⟩
  · intro s p b h attached
    have hx : readOne [b] = some b := rfl
    refine ⟨fun role => ?_, fun role hgt => ?_, fun role c hc => ?_⟩
    · refine attached_refused ownUnbind .role h attached hx ?_
      rw [ownUnbind, if_pos role]
    · refine attached_refused ownUnbind .range h attached hx ?_
      simp [ownUnbind, role, fin4_of_gt hgt]
    · obtain ⟨notBound, held⟩ := freeRefusal_eq s p c
      have refused : ∀ why, s.freeRefusal p c = some why → Refuses (.unbind p [b]) s p why.code :=
        fun why hr => attached_refused ownUnbind why h attached hx (ownUnbind_refused role hc hr)
      refine ⟨fun hn => refused _ (notBound hn), fun hh => ?_⟩
      obtain ⟨busy, held, free⟩ := held hh
      refine ⟨fun hs => refused _ (busy hs), fun hs => refused _ (held hs), fun hs =>
        ⟨fun hg => refused _ ((free hs).1 hg), fun hg hb => ?_⟩⟩
      have e := attached_done ownUnbind h attached hx (ownUnbind_done role hc ((free hs).2 hg))
      rw [State.dropCal, State.unbindChan_of_bound hb] at e
      exact e
  · intro s p b slots hsmall body h attached fits
    obtain ⟨x, hx, hchan, hslots⟩ := readFreq_body b hsmall
    have hfits : fits ↔ b.toNat ≤ 3 ∧ slotsValid slots = true := by rw [slotsValid_iff]
    refine ⟨fun role => ?_, fun role hn => ?_, fun role hf c hc => ?_⟩
    · refine attached_refused ownFreqSet .role h attached hx ?_
      rw [ownFreqSet, if_pos role]
    · exact attached_refused ownFreqSet .range h attached hx
        (ownFreqSet_range role hchan hslots (mt hfits.2 hn))
    · have valid := (hfits.1 hf).2
      obtain ⟨notBound, held⟩ := freeRefusal_eq s p c
      have refused : ∀ why, s.freeRefusal p c = some why → Refuses (.freqSet p body) s p why.code :=
        fun why hr => attached_refused ownFreqSet why h attached hx
          (ownFreqSet_refused role hc hchan hslots valid hr)
      refine ⟨fun hn => refused _ (notBound hn), fun hh => ?_⟩
      obtain ⟨busy, held, free⟩ := held hh
      refine ⟨fun hs => refused _ (busy hs), fun hs => refused _ (held hs), fun hs =>
        ⟨fun hg => refused _ ((free hs).1 hg), fun hg low hlow => ?_⟩⟩
      have e := attached_done ownFreqSet h attached hx
        (ownFreqSet_done role hc hchan hslots valid ((free hs).2 hg))
      simp only [Channel.beginSettle, settleTime_of_settleOf hlow] at e
      exact e

/-! ## The settle completion and the coil events -/

/-- Settles O31: each event in the pull states that have it, and in those that do not. -/
theorem settleAndCoilEvents : Obligations.SettleAndCoilEvents := by
  refine fun s c => ⟨fun hs ht => congrArg _ (if_pos ⟨hs, Option.isSome_iff_ne_none.2 ht⟩),
    fun hs => congrArg _ (if_neg fun h => hs h.1), fun hu hp => ?_,
    fun hu => congrArg _ (if_neg hu), fun hu => ⟨?_, congrArg _ (if_pos hu)⟩⟩
  · show execCoilOpen c s = _
    unfold execCoilOpen
    cases hs : (s.chan.get c).state with
    | unbound => exact absurd hs hu
    | pulling => exact absurd hs hp
    | settling | ready | sizing | held => simp only [hs]; rfl
  · show execCoilOpen c s = _
    simp only [execCoilOpen, hu]

/-! ## The encoder -/

/-- A count step of a PULLING channel writes the channel. -/
theorem encoderStep_pulling (hp : (s.chan.get c).state = .pulling) (dir : EncoderDir) :
    exec (.encoderStep c dir) s
      = .next { s with chan := s.chan.set c ((s.chan.get c).count dir) } :=
  congrArg _ (if_pos hp)

/-- Settles O32: a step toward the near end with its due position or without, and a step toward the far
end with its report or without. -/
theorem encoderStepsMoveThePosition : Obligations.EncoderStepsMoveThePosition := by
  refine fun s c dir => ⟨fun hp => congrArg _ (if_neg hp), fun hp => ⟨?_, ?_, ?_, ?_⟩⟩
  all_goals rintro x rfl
  · intro h0 h10 hd
    rw [encoderStep_pulling hp, Channel.count]
    simp only [becomesDue, h10, h0, hd, and_self, decide_true, if_true]
  · intro hn
    have hdue : ¬ (((s.chan.get c).position - 1) % 10 = 0 ∧ 0 ≤ (s.chan.get c).position - 1
        ∧ (s.chan.get c).position - 1 < (s.chan.get c).lastDue) := by omega
    rw [encoderStep_pulling hp, Channel.count]
    simp only [becomesDue, hdue, decide_false, Bool.false_eq_true, if_false]
  · intro hle
    rw [encoderStep_pulling hp, Channel.count, if_neg (Int.not_lt.2 hle)]
  · intro hlt
    rw [encoderStep_pulling hp, Channel.count, if_pos hlt]

end Sys2Proof.Machine
end

section
/-!
SUPPORT. What a Pull Controller makes of the samples of one output (R64, R68, R71 to R76, R78): the null
stage written out, the support counter and the detector each as one write, and with them a sample and
the samples of a step as the statements describe them.
-/

namespace Sys2Proof.Machine

variable {u : CalUnit} {tp : TubePull} {raw : RawSample} {k k' : PullCtl} {pos : Nat} {v w : Sig}

/-! ## The null stage -/

/-- The sum of a trace after `n` more samples of the same raw values, where the trace is active and
calibrated (R71). -/
def sumAfter (u : CalUnit) (raw : RawSample) (z : Null) (n : Nat) (r : RawTrace) : Option Vec :=
  (u.gains.get r).bind fun g => (raw.get r).map fun x =>
    ⟨((z.sums.get r).getD ⟨0, 0⟩).x + n * (calibrate g x).value.x,
      ((z.sums.get r).getD ⟨0, 0⟩).y + n * (calibrate g x).value.y⟩

/-- The null that the sums of all traces make at a sample number. -/
def nullOf (samples : Nat) (sums : RawTrace → Option Vec) : Null :=
  if samples < 16 then .summing (Eight.ofFn sums)
  else .formed (Eight.ofFn fun r => (sums r).map nullOfSum)

theorem nullAfter_eq (u : CalUnit) (raw : RawSample) (z : Null) (samples n : Nat) :
    NullAfter u raw z samples n = nullOf (samples + n) (sumAfter u raw z n) := by
  have hsum : ∀ f : RawTrace → Option Vec, f = sumAfter u raw z n →
      (if samples + n < 16 then Null.summing (Eight.ofFn f)
        else .formed (Eight.ofFn fun r => (f r).map nullOfSum))
        = nullOf (samples + n) (sumAfter u raw z n) := fun f hf => by rw [hf]; rfl
  refine hsum _ (funext fun r => ?_)
  unfold sumAfter
  have h0 : ((Eight.ofFn fun _ => (none : Option Vec)).get r).getD ⟨0, 0⟩ = ⟨0, 0⟩ := by
    rw [Eight.get_ofFn]; rfl
  cases u.gains.get r with
  | none => rfl
  | some g =>
    cases raw.get r with
    | none => rfl
    | some x =>
      cases z with
      | summing sums => rfl
      | absent | formed => simp only [Null.sums, h0, Option.bind_some, Option.map_some]

theorem null_add_eq (u : CalUnit) (raw : RawSample) (z : Null) (n : Nat) :
    z.add n (calibrateAll u.gains raw) = nullOf n (sumAfter u raw z 1) := by
  have hsum : addToSums z.sums (calibrateAll u.gains raw) = Eight.ofFn (sumAfter u raw z 1) := by
    refine congrArg Eight.ofFn (funext fun r => ?_)
    rw [calibrateAll, Eight.get_ofFn, sumAfter]
    cases u.gains.get r <;> cases raw.get r <;> simp
  rw [Null.add, hsum, nullOf, nullsOf]
  simp only [Eight.get_ofFn]

theorem nullOf_summing {samples : Nat} (h : samples < 16) (sums : RawTrace → Option Vec) :
    nullOf samples sums = .summing (Eight.ofFn sums) := if_pos h

theorem add_multiples (a b : Int) (n : Nat) :
    a + ((1 : Nat) : Int) * b + n * b = a + ((1 + n : Nat) : Int) * b := by
  push_cast; ring

/-- The sums over several samples are those over the first and then the others. -/
theorem sumAfter_summing (u : CalUnit) (raw : RawSample) (z : Null) (n : Nat) :
    sumAfter u raw (.summing (Eight.ofFn (sumAfter u raw z 1))) n = sumAfter u raw z (1 + n) := by
  have hget : ∀ f : RawTrace → Option Vec, ∀ r, (Null.sums (.summing (Eight.ofFn f))).get r = f r :=
    fun f r => Eight.get_ofFn f r
  funext r
  rw [sumAfter, hget, sumAfter, sumAfter]
  cases u.gains.get r with
  | none => simp only [Option.bind_none]
  | some g =>
    cases raw.get r with
    | none => simp only [Option.bind_some, Option.map_none]
    | some x =>
      simp only [Option.bind_some, Option.map_some, Option.getD_some]
      exact congrArg some (congrArg₂ Vec.mk (add_multiples _ _ n) (add_multiples _ _ n))

/-- The null stage over several samples is the null stage over the first and then the others. -/
theorem nullAfter_succ (u : CalUnit) (raw : RawSample) (z : Null) {samples : Nat} (n : Nat)
    (h : samples + 1 < 16) :
    NullAfter u raw (NullAfter u raw z samples 1) (samples + 1) n = NullAfter u raw z samples (1 + n) := by
  rw [nullAfter_eq, nullAfter_eq, nullAfter_eq, nullOf_summing h, sumAfter_summing, Nat.add_assoc]

/-- A sample of the null stage writes the sample count and the null alone. -/
theorem tubeSample_null (h : k.samples < 16) (tp : TubePull) (pos : Nat) :
    k.tubeSample u tp raw pos
      = { k with samples := k.samples + 1, null := NullAfter u raw k.null k.samples 1 } := by
  unfold PullCtl.tubeSample
  dsimp only
  rw [if_pos (show k.samples + 1 ≤ 16 by omega), null_add_eq, nullAfter_eq]

theorem tubeStep_cons (hl : k.latch = []) (u : CalUnit) (tp : TubePull) (raw : RawSample) (pos : Nat)
    (rest : List Nat) :
    tubeStep u tp raw (pos :: rest) k = tubeStep u tp raw rest (k.tubeSample u tp raw pos) := by
  rw [tubeStep, if_pos (by rw [hl]; rfl)]

/-- The samples of a step in the null stage. -/
theorem tubeStep_nullStage (u : CalUnit) (tp : TubePull) (raw : RawSample) (l : List Nat) :
    ∀ (pos : Nat) (k : PullCtl), k.latch = [] → k.samples + (1 + l.length) ≤ 16 →
    tubeStep u tp raw (pos :: l) k
      = { k with
          samples := k.samples + (1 + l.length)
          null := NullAfter u raw k.null k.samples (1 + l.length) } := by
  induction l with
  | nil =>
    intro pos k hl h
    rw [List.length_nil] at h
    rw [tubeStep_cons hl, tubeSample_null (by omega)]
    rfl
  | cons pos' rest ih =>
    intro pos k hl h
    rw [List.length_cons] at h ⊢
    rw [tubeStep_cons hl, tubeSample_null (by omega),
      ih pos' { k with samples := k.samples + 1, null := NullAfter u raw k.null k.samples 1 } hl
        (by dsimp only; omega)]
    dsimp only
    rw [nullAfter_succ _ _ _ _ (by omega), Nat.add_comm rest.length, Nat.add_assoc]

/-! ## The sampling stage -/

theorem nulledTrace_of {z : Null} {r : RawTrace} (h : NulledValue u z raw r v) :
    nulledTrace z (calibrateAll u.gains raw) r = some v := by
  obtain ⟨g, x, n, hg, hx, hn, rfl⟩ := h
  simp only [nulledTrace, calibrateAll, Eight.get_ofFn, hg, hx, hn]

theorem mixTrace_of {z : Null} {m : MixDef} {c : Coef} {a b : Sig}
    (ha : NulledValue u z raw m.primary a) (hb : NulledValue u z raw m.secondary b) :
    mixTrace z (calibrateAll u.gains raw) (some m) (some c) = some (mixValue c a b) := by
  simp only [mixTrace, nulledTrace_of ha, nulledTrace_of hb]

theorem traceValue_of {z : Null} {trace : Trace} (h : TraceValue u tp z raw trace v) :
    traceValue u tp z (calibrateAll u.gains raw) trace = some v := by
  cases trace with
  | raw r => exact nulledTrace_of h
  | m1 | m2 =>
    obtain ⟨m, c, a, b, hm, hc, ha, hb, rfl⟩ := h
    rw [traceValue, hm, hc]
    exact mixTrace_of ha hb

/-- The squared magnitude of a value, as the thresholds are compared with it (R99). -/
def Sig.size (v : Sig) : Int := v.value.x * v.value.x + v.value.y * v.value.y

theorem atOrAbove_eq (v : Sig) (t : Nat) : atOrAbove v.value t = decide ((t : Int) * t ≤ v.size) :=
  decide_eq_decide.2 (magSq_compare v.value t).1

theorem below_eq (v : Sig) (t : Nat) : below v.value t = decide (v.size < (t : Int) * t) :=
  decide_eq_decide.2 (magSq_compare v.value t).2.1

theorem belowHalf_eq (v : Sig) (t : Nat) :
    belowHalf v.value t = decide (4 * v.size < (t : Int) * t) :=
  decide_eq_decide.2 (magSq_compare v.value t).2.2

/-- The support value crosses the threshold of an armed counter (R73). -/
def PullCtl.Crosses (k : PullCtl) (t : Nat) (w : Sig) : Prop :=
  k.armed = true ∧ (t : Int) * t ≤ w.size

/-- A crossing is counted, and its position kept for the first 64 (R73). -/
theorem countSupport_crosses {t : Nat} (h : k.Crosses t w) (pos : Nat) :
    k.countSupport pos w.value t
      = { k with
          armed := false
          supports := k.supports + 1
          supportAt := if k.supportAt.length < 64 then k.supportAt ++ [pos] else k.supportAt } := by
  rw [PullCtl.countSupport, if_pos h.1, atOrAbove_eq, if_pos (decide_eq_true h.2)]

/-- Any other value at most arms the counter again (R73). -/
theorem countSupport_other {t : Nat} (h : ¬ k.Crosses t w) (pos : Nat) :
    k.countSupport pos w.value t
      = { k with armed := k.armed || decide (4 * w.size < (t : Int) * t) } := by
  obtain ⟨record, samples, null, armed, supports, supportAt, detector, buffer, found, latch, result⟩ := k
  cases armed with
  | true =>
    rw [PullCtl.countSupport, if_pos rfl, atOrAbove_eq, if_neg fun e => h ⟨rfl, of_decide_eq_true e⟩]
    rfl
  | false =>
    rw [PullCtl.countSupport, if_neg Bool.false_ne_true, belowHalf_eq]
    by_cases hb : 4 * w.size < (t : Int) * t <;> simp [hb]

/-- A window is open at a detection value, which then stands in it (R74). -/
def PullCtl.WindowAt (k : PullCtl) (tp : TubePull) (v : Sig) : Prop :=
  (∃ ws, k.detector = .opened ws) ∨ k.detector = .armed ∧ (tp.openT : Int) * tp.openT ≤ v.size

/-- SATURATED enters the latch under UNMASKED on a clipped value (R78). -/
theorem saturate_eq {latch : List PullFault}
    (hsat : tp.policy = .unmasked ∧ v.clipped = true → latch = latchAdd .saturated k.latch)
    (hkeep : ¬ (tp.policy = .unmasked ∧ v.clipped = true) → latch = k.latch) :
    k.saturate tp.policy v = { k with latch := latch } := by
  unfold PullCtl.saturate
  split
  · next h => rw [hsat h]
  · next h => rw [hkeep h]

/-- The detector writes itself, the records and the latch alone: what it makes of the records is as
described, and it latches SATURATED under UNMASKED on a clipped value in an open window (R74 to R78). -/
theorem detect_eq {latch : List PullFault} (h : Detects tp pos v k k')
    (hsat : tp.policy = .unmasked ∧ v.clipped = true ∧ k.WindowAt tp v →
      latch = latchAdd .saturated k.latch)
    (hkeep : ¬ (tp.policy = .unmasked ∧ v.clipped = true ∧ k.WindowAt tp v) → latch = k.latch) :
    k.detect tp pos v
      = { k with detector := k'.detector, found := k'.found, buffer := k'.buffer, latch := latch } := by
  have hwindow : k.WindowAt tp v → k.saturate tp.policy v = { k with latch := latch } := fun hw =>
    saturate_eq (fun hp => hsat ⟨hp.1, hp.2, hw⟩) fun hp => hkeep fun h => hp ⟨h.1, h.2.1⟩
  have hsize : v.value.x * v.value.x + v.value.y * v.value.y = v.size := rfl
  unfold Detects at h
  unfold PullCtl.detect
  simp only [hsize] at h
  cases hd : k.detector with
  | armed =>
    rw [hd] at h
    obtain ⟨⟨hfound, hbuffer⟩, hdet⟩ := h
    dsimp only
    rw [atOrAbove_eq, hfound, hbuffer, hdet]
    by_cases ho : (tp.openT : Int) * tp.openT ≤ v.size
    · rw [if_pos (decide_eq_true ho), if_pos ho]
      refine saturate_eq (latch := latch)
        (fun hp => hsat ⟨hp.1, hp.2, .inr ⟨hd, ho⟩⟩) fun hp => hkeep fun h => hp ⟨h.1, h.2.1⟩
    · have hclosed : ¬ k.WindowAt tp v := by
        rintro (⟨ws, e⟩ | ⟨-, e⟩)
        · rw [hd] at e; cases e
        · exact ho e
      rw [if_neg (fun e => ho (of_decide_eq_true e)), if_neg ho, hkeep fun h => hclosed h.2.2, ← hd]
  | blocked =>
    rw [hd] at h
    obtain ⟨⟨hfound, hbuffer⟩, hdet⟩ := h
    have hclosed : ¬ k.WindowAt tp v := by
      rintro (⟨ws, e⟩ | ⟨e, -⟩) <;> rw [hd] at e <;> cases e
    dsimp only
    rw [below_eq, hfound, hbuffer, hdet, hkeep fun h => hclosed h.2.2]
    by_cases hb : v.size < (tp.closeT : Int) * tp.closeT
    · rw [if_pos (decide_eq_true hb), if_pos hb]
    · rw [if_neg (fun e => hb (of_decide_eq_true e)), if_neg hb, ← hd]
  | opened ws =>
    rw [hd] at h
    dsimp only at h ⊢
    rw [hwindow (.inl ⟨ws, hd⟩), below_eq]
    by_cases hb : v.size < (tp.closeT : Int) * tp.closeT
    · obtain ⟨hdet, hfound, hbuffer⟩ := (if_pos hb).mp h
      rw [if_pos (decide_eq_true hb), hdet, hfound, hbuffer]
      rfl
    · replace h := (if_neg hb).mp h
      rw [if_neg (fun e => hb (of_decide_eq_true e)), List.length_append]
      by_cases hmax : ws.length + 1 = 256
      · obtain ⟨hdet, hfound, hbuffer⟩ := (if_pos hmax).mp h
        rw [if_pos (show ws.length + [_].length = Config.windowMax from hmax), hdet, hfound, hbuffer]
        rfl
      · obtain ⟨⟨hfound, hbuffer⟩, hdet⟩ := (if_neg hmax).mp h
        rw [if_neg (show ws.length + [_].length ≠ Config.windowMax from hmax), hdet, hfound, hbuffer]

end Sys2Proof.Machine
end

section
/-!
SUPPORT. The samples of one output in a tube pull, as the statements describe them, are those that the Pull
Controller makes (R64, R68, R71 to R76, R78); what an output does then (R61, R79); and the error-type end
on any latch (R83).
-/

namespace Sys2Proof.Machine

variable {u : CalUnit} {tp : TubePull} {raw : RawSample} {k k' : PullCtl} {pos : Nat} {v w : Sig}

/-! ## One sample -/

/-- A sample of the sampling stage, on the values of its support and detection traces. -/
theorem tubeSample_values (h : 16 ≤ k.samples)
    (hv : TraceValue u tp k.null raw tp.detection v) (hw : TraceValue u tp k.null raw tp.support w)
    (pos : Nat) :
    k.tubeSample u tp raw pos
      = (({ k with samples := k.samples + 1 } : PullCtl).countSupport pos w.value tp.supportT).detect
          tp pos v := by
  unfold PullCtl.tubeSample
  dsimp only
  rw [if_neg (show ¬ k.samples + 1 ≤ 16 by omega), traceValue_of hv, traceValue_of hw]

/-- A sample as described, on an empty latch, is the one that the Pull Controller makes. -/
theorem sampleOf_eq (hl : k.latch = []) (h : SampleOf u tp raw pos k k') :
    k' = k.tubeSample u tp raw pos := by
  obtain ⟨hrec, hsamples, hres, hnullStage, hsampling⟩ := h
  rcases Nat.lt_or_ge k.samples 16 with hn | hn
  · rw [tubeSample_null hn, hnullStage hn]
  · obtain ⟨hnull, v, w, hv, hw, hdet, ⟨hcross, hother⟩, hsat, hkeep⟩ := hsampling hn
    rw [tubeSample_values hn hv hw]
    have hcount : ({ k with samples := k.samples + 1 } : PullCtl).countSupport pos w.value tp.supportT
        = { k with
            samples := k.samples + 1, armed := k'.armed, supports := k'.supports
            supportAt := k'.supportAt } := by
      by_cases hc : k.Crosses tp.supportT w
      · obtain ⟨harmed, hsup, hat⟩ := hcross hc
        rw [countSupport_crosses (k := { k with samples := k.samples + 1 }) hc, harmed, hsup, hat]
      · obtain ⟨hsup, hat, harmed⟩ := hother hc
        rw [countSupport_other (k := { k with samples := k.samples + 1 }) hc, harmed, hsup, hat]
        rfl
    rw [hcount]
    refine .trans ?_ (detect_eq (k := { k with
        samples := k.samples + 1, armed := k'.armed, supports := k'.supports
        supportAt := k'.supportAt }) (k' := k') (latch := k'.latch) hdet
      (fun hs => (hsat hs).trans (by rw [hl]; rfl)) hkeep).symm
    obtain ⟨record, samples, null, armed, supports, supportAt, detector, buffer, found, latch, result⟩ := k'
    cases hrec; cases hsamples; cases hres; cases hnull
    rfl

/-! ## The samples of an output -/

/-- The latch of a tube pull while its samples are processed: empty, or SATURATED alone. -/
def PullCtl.AtMostSaturated (k : PullCtl) : Prop := k.latch = [] ∨ k.latch = [.saturated]

/-- A sample as described leaves the latch empty or SATURATED alone. -/
theorem sampleOf_latch (hl : k.latch = []) (h : SampleOf u tp raw pos k k') : k'.AtMostSaturated := by
  obtain ⟨-, -, -, hnullStage, hsampling⟩ := h
  rcases Nat.lt_or_ge k.samples 16 with hn | hn
  · exact .inl (by rw [hnullStage hn]; exact hl)
  · obtain ⟨-, v, w, -, -, -, -, hsat, hkeep⟩ := hsampling hn
    by_cases hs : tp.policy = .unmasked ∧ v.clipped = true ∧ k.WindowAt tp v
    · exact .inr (by rw [hsat hs, hl]; rfl)
    · exact .inl ((hkeep hs).trans hl)

/-- The samples of an output as described are those that the Pull Controller makes. -/
theorem samples_eq (l : List Int) : ∀ k : PullCtl, k.AtMostSaturated → Samples u tp raw l k k' →
    k' = tubeStep u tp raw (stepPositions l) k ∧ k'.AtMostSaturated := by
  induction l with
  | nil => rintro k hk rfl; exact ⟨rfl, hk⟩
  | cons x rest ih =>
    rintro k hk (⟨hl, rfl⟩ | ⟨hl, m, hm, hrest⟩)
    · refine ⟨?_, hk⟩
      have hfull : ¬ k.latch.isEmpty = true := fun e => hl (List.isEmpty_iff.1 e)
      rw [stepPositions, List.map_cons, tubeStep, if_neg hfull, List.length_map]
    · obtain ⟨hk', hlatch⟩ := ih m (sampleOf_latch hl hm) hrest
      refine ⟨?_, hlatch⟩
      rw [stepPositions, List.map_cons, tubeStep_cons hl, ← sampleOf_eq hl hm]
      exact hk'

/-- The thin-data report on such a latch appends OVERSPEED at the limit (R61). -/
theorem reportThin_eq (hk : k.AtMostSaturated) (thin : Nat) :
    k.reportThin thin = { k with latch := if 64 ≤ thin then k.latch ++ [.overspeed] else k.latch } := by
  rcases Nat.lt_or_ge thin 64 with h | h
  · rw [k.reportThin_below h, if_neg (Nat.not_le.2 h)]
  · rw [k.reportThin_limit h, if_pos h]
    obtain hl | hl := hk <;> rw [hl] <;> rfl

/-! ## What an output does -/

section
variable {s : State} {c : Chan} {values : Eight Raw}

/-- The sample of an output on a channel (R55, R60). -/
def Channel.rawOf (ch : Channel) (values : Eight Raw) : RawSample := sampleOf ch.slots values

theorem exec_output_discarded (h : (s.chan.get c).state ≠ .pulling ∨ (s.chan.get c).waiting = []) :
    exec (.demodulatorOutput c values) s = .next s := by
  refine congrArg _ (if_neg ?_)
  rintro ⟨hp, hw⟩
  exact h.elim (· hp) hw

variable (hp : (s.chan.get c).state = .pulling) (hw : (s.chan.get c).waiting ≠ []) {t : State}
  (ht : s.processStep c ((s.chan.get c).rawOf values) = t)
include hp hw ht

theorem exec_output_continues (hl : (t.pull.get c).latch = []) (h0 : 0 ∉ (s.chan.get c).waiting) :
    exec (.demodulatorOutput c values) s = .next t := by
  refine congrArg _ ((if_pos ⟨hp, hw⟩).trans ?_)
  rw [Channel.rawOf] at ht
  simp only [State.takeOutput, ht, hl, List.isEmpty_nil, Bool.not_true, Bool.false_eq_true, if_false,
    List.contains_eq_mem, h0, decide_false]

theorem exec_output_faulted (hl : (t.pull.get c).latch ≠ []) :
    exec (.demodulatorOutput c values) s = .next (t.endOnFault c) := by
  refine congrArg _ ((if_pos ⟨hp, hw⟩).trans ?_)
  rw [Channel.rawOf] at ht
  simp only [State.takeOutput, ht, Bool.not_eq_true', List.isEmpty_eq_false_iff, ne_eq, hl,
    not_false_eq_true, if_true]

theorem exec_output_ends (hl : (t.pull.get c).latch = []) (h0 : 0 ∈ (s.chan.get c).waiting) :
    exec (.demodulatorOutput c values) s = .next (t.endBy c .positionZero) := by
  refine congrArg _ ((if_pos ⟨hp, hw⟩).trans ?_)
  rw [Channel.rawOf] at ht
  simp only [State.takeOutput, ht, hl, List.isEmpty_nil, Bool.not_true, Bool.false_eq_true, if_false,
    List.contains_eq_mem, h0, decide_true, if_true]

end

/-! ## The error-type end -/

section
variable {s : State} {c : Chan} {rec : PullRecord} {tb : Tube} {d : Bool} {f : PullFault}

/-- The error-type end of a tube pull, on a latch whose reported fault is `f` and whatever the number of
attempts (R22, R83). -/
theorem errorEnd_reported (ht : s.tubes[tp.index]? = some tb)
    (hs : s.slot rec.port tp.tag = some ⟨tp.index, .inPull, d⟩)
    (hf : reported (s.pull.get c).latch = some f) (hlimit : s.plan.attemptLimit ≤ 5) :
    s.errorEnd c rec tp = ErrorEnded s c rec tp tb d (s.pull.get c).latch f := by
  have hres : ∀ status, Result.tube (faultedResult c rec tp (s.pull.get c) (s.chan.get c).thin status)
      = FaultedRecord c rec tp (s.pull.get c) (s.chan.get c).thin f
          (decide (1 < (s.pull.get c).latch.length)) status := by
    intro status
    rw [faultedResult, hf]
    rfl
  have hstatus : s.errorAssigned tp.index = errorStatus s.plan.attemptLimit tb.attempts := by
    rw [State.errorAssigned, ht]
    rfl
  unfold State.errorEnd ErrorEnded
  dsimp only
  rw [discarded_eq, hres, hstatus]
  by_cases hlt : tb.attempts + 1 < s.plan.attemptLimit
  · have hbelow : attemptsAfter tb.attempts < s.plan.attemptLimit := by
      unfold attemptsAfter; omega
    rw [State.errorCommit_below hs ht hbelow, errorStatus, if_neg (Nat.not_le.2 hbelow)]
    simp only [hlt, decide_true, if_true]
    rfl
  · have hat : s.plan.attemptLimit ≤ attemptsAfter tb.attempts := by
      unfold attemptsAfter; omega
    rw [State.errorCommit_at hs ht hat, errorStatus, if_pos hat]
    simp only [hlt, decide_false]
    rfl

/-- A tube pull whose latch reports an error-type fault ends on it. -/
theorem endOnFault_reported (hr : (s.pull.get c).record = some rec) (htube : rec.tube = some tp)
    (ht : s.tubes[tp.index]? = some tb) (hs : s.slot rec.port tp.tag = some ⟨tp.index, .inPull, d⟩)
    (hf : reported (s.pull.get c).latch = some f) (he : f.isError = true)
    (hlimit : s.plan.attemptLimit ≤ 5) :
    s.endOnFault c = ErrorEnded s c rec tp tb d (s.pull.get c).latch f := by
  rw [← errorEnd_reported ht hs hf hlimit]
  simp only [State.endOnFault, hr, htube, State.settleTube, hf, he, if_true]

end

end Sys2Proof.Machine
end

section
/-!
What an output does in a tube pull (R60, R61, R68, R79): the step that goes on, the ends on a fault, and
the end by the sample of position 0.
-/

namespace Sys2Proof.Machine

variable {s : State} {c : Chan} {values : Eight Raw} {rec : PullRecord} {tp : TubePull} {tb : Tube}
  {d : Bool} {k' : PullCtl}

/-! ## The end by position 0 -/

theorem closeOpen_latch (k : PullCtl) (trace : Trace) : (k.closeOpen trace).latch = k.latch := by
  unfold PullCtl.closeOpen; split <;> rfl

theorem supportMismatch_of_row {row : Row} (hrow : s.rows.find? (fun r => r.row == tp.row) = some row)
    (n : Nat) : s.supportMismatch tp n = decide (row.supports ≠ 0 ∧ n ≠ row.supports) := by
  rw [State.supportMismatch, rowEntry, hrow]

/-- The end check at position 0 on an empty latch can find a support mismatch alone (R80). -/
theorem endChecks_positionZero (lowest : Int) (mismatch : Bool) :
    endChecks .positionZero lowest mismatch [] = if mismatch then [.supportMismatch] else [] := rfl

/-- A tube pull whose latch holds at most one fault, and not of the error type, ends with its job. -/
theorem settleTube_queued {k : PullCtl} {l : List PullFault} (hl : reported l = l.head?)
    (he : ∀ f, reported l = some f → f.isError = false) :
    (s.setPull c { k with latch := l }).settleTube c rec tp = JobQueued s c rec tp k l := by
  have hjob : (s.setPull c { k with latch := l }).jobEnd c rec tp = JobQueued s c rec tp k l := by
    simp only [State.jobEnd, jobOf, JobQueued, State.setPull, State.setSizing, State.setChan,
      Quad.get_set_same, hl, further]
  rw [State.settleTube, State.setPull_pull, Quad.get_set_same]
  cases hf : reported l with
  | none => exact hjob
  | some f => simp only [he f hf, Bool.false_eq_true, if_false]; exact hjob

/-- The end of a tube pull by the sample of position 0 with no fault latched (R79, R80, R84). -/
theorem endBy_positionZero (hr : (s.pull.get c).record = some rec) (htube : rec.tube = some tp)
    (hl : (s.pull.get c).latch = []) {row : Row}
    (hrow : s.rows.find? (fun r => r.row == tp.row) = some row) :
    s.endBy c .positionZero
      = JobQueued s c rec tp ((s.pull.get c).closeOpen tp.detection)
          (if row.supports ≠ 0 ∧ ((s.pull.get c).closeOpen tp.detection).supports ≠ row.supports then
            [.supportMismatch] else []) := by
  simp only [State.endBy, hr, htube, closeOpen_latch, hl, endChecks_positionZero,
    supportMismatch_of_row hrow, decide_eq_true_eq]
  refine settleTube_queued ?_ ?_
  · split <;> rfl
  · split
    · rintro f ⟨⟩; rfl
    · exact nofun

/-! ## The step of an output -/

/-- The state after the step of an output on channel `c` that leaves the controller `k`. -/
def State.stepped (s : State) (c : Chan) (k : PullCtl) : State :=
  { s with
    chan := s.chan.set c
      { s.chan.get c with waiting := [], thin := (s.chan.get c).thin + ((s.chan.get c).waiting.length - 1) }
    pull := s.pull.set c k }

theorem stepped_pull (s : State) (c : Chan) (k : PullCtl) : (s.stepped c k).pull.get c = k :=
  Quad.get_set_same ..

theorem processStep_stepped (h : InTubePull s c rec tp tb d) (raw : RawSample) :
    s.processStep c raw
      = s.stepped c ((tubeStep (s.cal.get c) tp raw (stepPositions (s.chan.get c).waiting)
          (s.pull.get c)).reportThin ((s.chan.get c).thin + ((s.chan.get c).waiting.length - 1))) := by
  obtain ⟨-, hr, htube, -⟩ := h
  exact processStep_tube hr htube raw

/-- The samples of an output in the null stage latch nothing and make no end. -/
theorem exec_output_nullStage (h : InTubePull s c rec tp tb d) (hw : (s.chan.get c).waiting ≠ [])
    (hn : (s.pull.get c).samples + (s.chan.get c).waiting.length ≤ 16)
    (hthin : (s.chan.get c).thin + ((s.chan.get c).waiting.length - 1) < 64)
    (h0 : 0 ∉ (s.chan.get c).waiting) :
    exec (.demodulatorOutput c values) s
      = .next (s.stepped c { s.pull.get c with
          samples := (s.pull.get c).samples + (s.chan.get c).waiting.length
          null := NullAfter (s.cal.get c) ((s.chan.get c).rawOf values) (s.pull.get c).null
            (s.pull.get c).samples (s.chan.get c).waiting.length }) := by
  have hl : (s.pull.get c).latch = [] := h.2.2.2.1
  have hstep : ∀ l : List Int, l ≠ [] → (s.pull.get c).samples + l.length ≤ 16 →
      tubeStep (s.cal.get c) tp ((s.chan.get c).rawOf values) (stepPositions l) (s.pull.get c)
        = { s.pull.get c with
            samples := (s.pull.get c).samples + l.length
            null := NullAfter (s.cal.get c) ((s.chan.get c).rawOf values) (s.pull.get c).null
              (s.pull.get c).samples l.length } := by
    intro l hne hlen
    cases l with
    | nil => exact absurd rfl hne
    | cons x rest =>
      have hcount : (x :: rest).length = 1 + (stepPositions rest).length := by
        rw [stepPositions_length, List.length_cons, Nat.add_comm]
      rw [hcount] at hlen ⊢
      exact tubeStep_nullStage _ _ _ _ _ _ hl hlen
  refine exec_output_continues h.1 hw
    ((processStep_stepped h _).trans ?_) ?_ h0
  · rw [PullCtl.reportThin_below _ hthin, hstep _ hw hn]
  · rw [stepped_pull]; exact hl

/-- The step of an output whose samples are as described. -/
theorem processStep_samples (h : InTubePull s c rec tp tb d)
    (hk : Samples (s.cal.get c) tp ((s.chan.get c).rawOf values) (s.chan.get c).waiting
      (s.pull.get c) k') :
    s.processStep c ((s.chan.get c).rawOf values)
      = s.stepped c { k' with
          latch := if 64 ≤ (s.chan.get c).thin + ((s.chan.get c).waiting.length - 1) then
            k'.latch ++ [.overspeed] else k'.latch } := by
  obtain ⟨hstep, hlatch⟩ := samples_eq _ _ (.inl h.2.2.2.1) hk
  rw [processStep_stepped h, ← hstep, reportThin_eq hlatch]

/-- A latched fault of the error type after the step of an output ends the pull on it. -/
theorem exec_output_errorEnd {k : PullCtl} {f : PullFault} (h : InTubePull s c rec tp tb d)
    (hw : (s.chan.get c).waiting ≠ [])
    (hstep : s.processStep c ((s.chan.get c).rawOf values) = s.stepped c k)
    (hr : k.record = (s.pull.get c).record) (hf : reported k.latch = some f) (he : f.isError = true)
    (hlimit : s.plan.attemptLimit ≤ 5) :
    exec (.demodulatorOutput c values) s
      = .next (ErrorEnded (s.stepped c k) c rec tp tb d k.latch f) := by
  obtain ⟨hp, hrec, htube, -, ht, hs⟩ := h
  have hk := stepped_pull s c k
  have hne : k.latch ≠ [] := fun e => by rw [e] at hf; cases hf
  rw [exec_output_faulted hp hw hstep (by rw [hk]; exact hne),
    endOnFault_reported (s := s.stepped c k) (tb := tb) (d := d) (by rw [hk, hr]; exact hrec) htube ht hs
      (by rw [hk]; exact hf) he hlimit, hk]

/-- The state after an error-type end takes of the latch before it only what it is given. -/
theorem errorEnded_setLatch (s : State) (c : Chan) (k : PullCtl) (latch : List PullFault)
    (f : PullFault) :
    ErrorEnded (s.stepped c { k with latch := latch }) c rec tp tb d latch f
      = ErrorEnded (s.stepped c k) c rec tp tb d latch f := by
  simp only [ErrorEnded, stepped_pull]
  simp only [State.stepped, Quad.set_set]
  rfl

/-- Under MASKED the thin-data limit ends the pull on OVERSPEED alone. -/
theorem exec_output_overspeedMasked (h : InTubePull s c rec tp tb d)
    (hw : (s.chan.get c).waiting ≠ []) (hmasked : tp.policy = .masked)
    (hthin : 64 ≤ (s.chan.get c).thin + ((s.chan.get c).waiting.length - 1))
    (hlimit : s.plan.attemptLimit ≤ 5) :
    ∃ k', k'.record = (s.pull.get c).record
      ∧ k'.samples = (s.pull.get c).samples + (s.chan.get c).waiting.length
      ∧ k'.result = (s.pull.get c).result
      ∧ exec (.demodulatorOutput c values) s
        = .next (ErrorEnded (s.stepped c k') c rec tp tb d [.overspeed] .overspeed) := by
  obtain ⟨hlatch, hsamples, hrec, hres⟩ := tubeStep_masked (u := s.cal.get c)
    (raw := (s.chan.get c).rawOf values) (stepPositions (s.chan.get c).waiting) (s.pull.get c)
    h.2.2.2.1 hmasked
  rw [stepPositions_length] at hsamples
  refine ⟨_, hrec, hsamples, hres, ?_⟩
  have hstep := processStep_stepped h ((s.chan.get c).rawOf values)
  rw [PullCtl.reportThin_limit _ hthin, hlatch] at hstep
  rw [exec_output_errorEnd h hw hstep hrec rfl rfl hlimit]
  exact congrArg _ (errorEnded_setLatch s c _ [.overspeed] .overspeed)

/-- What the samples of an output leave of the pull record and the latch. -/
theorem samples_controller (h : InTubePull s c rec tp tb d)
    (hk : Samples (s.cal.get c) tp ((s.chan.get c).rawOf values) (s.chan.get c).waiting
      (s.pull.get c) k') :
    k'.record = (s.pull.get c).record ∧ k'.AtMostSaturated := by
  obtain ⟨hstep, hlatch⟩ := samples_eq _ _ (.inl h.2.2.2.1) hk
  exact ⟨by rw [hstep]; exact tubeStep_record .., hlatch⟩

/-- A latch that the thin-data report leaves empty is as the samples left it (R61). -/
theorem latch_kept {l : List PullFault} {p : Prop} [Decidable p]
    (h : (if p then l ++ [.overspeed] else l) = []) : (if p then l ++ [.overspeed] else l) = l := by
  by_cases hp : p
  · rw [if_pos hp] at h
    exact absurd h (List.append_ne_nil_of_right_ne_nil l (List.cons_ne_nil _ _))
  · exact if_neg hp

/-- With no fault latched the sample of position 0 ends the pull with its job. -/
theorem exec_output_positionZero {row : Row} (h : InTubePull s c rec tp tb d)
    (hw : (s.chan.get c).waiting ≠ [])
    (hstep : s.processStep c ((s.chan.get c).rawOf values) = s.stepped c k')
    (hr : k'.record = (s.pull.get c).record) (hl : k'.latch = []) (h0 : 0 ∈ (s.chan.get c).waiting)
    (hrow : s.rows.find? (fun r => r.row == tp.row) = some row) :
    exec (.demodulatorOutput c values) s
      = .next (JobQueued (s.stepped c k') c rec tp (k'.closeOpen tp.detection)
          (if row.supports ≠ 0 ∧ (k'.closeOpen tp.detection).supports ≠ row.supports then
            [.supportMismatch] else [])) := by
  obtain ⟨hp, hrec, htube, -⟩ := h
  have hk := stepped_pull s c k'
  rw [exec_output_ends hp hw hstep (by rw [hk]; exact hl) h0,
    endBy_positionZero (s := s.stepped c k') (by rw [hk, hr]; exact hrec) htube (by rw [hk]; exact hl) hrow,
    hk]

end Sys2Proof.Machine
end

section
/-!
What an output does in a calibration pull (R60, R61, R68, R115, R118, R119), and with it all that an
output does.
-/

namespace Sys2Proof.Machine

variable {s : State} {c : Chan} {values : Eight Raw} {rec : PullRecord} {raw : RawSample} {sd : Standard}

/-! ## The captured samples -/

/-- The capture after the samples of an output at the positions waiting, the first of number `n + 1`
(R118). -/
def Capture.takeAll (k : Capture) (sd : Standard) (raw : RawSample) (n : Nat) (l : List Nat) : Capture :=
  { k with
    nulls := k.nulls ++ List.replicate (min l.length (16 - n)) raw
    hole := k.hole ++ List.replicate (l.countP (inWindow sd.hole sd.half)) raw
    ring := k.ring ++ List.replicate (l.countP (inWindow sd.ring sd.half)) raw }

theorem take_of_standard {k : Capture} (hs : k.standard = some sd) (n pos : Nat) (raw : RawSample) :
    k.take n pos raw = { k with
      nulls := if n ≤ 16 then k.nulls ++ [raw] else k.nulls
      hole := if inWindow sd.hole sd.half pos then k.hole ++ [raw] else k.hole
      ring := if inWindow sd.ring sd.half pos then k.ring ++ [raw] else k.ring } := by
  rw [Capture.take, hs]

/-- A sample captured or not, and then those of the other positions. -/
theorem appended_replicate {α : Type} (l : List α) (a : α) (b : Prop) [Decidable b] {m n : Nat}
    (h : n = m + if b then 1 else 0) :
    (if b then l ++ [a] else l) ++ List.replicate m a = l ++ List.replicate n a := by
  subst h
  by_cases hb : b
  · rw [if_pos hb, if_pos hb, List.append_assoc, List.singleton_append, ← List.replicate_succ]
  · rw [if_neg hb, if_neg hb, Nat.add_zero]

/-- The samples of an output are counted, and captured where their number or their step says. -/
theorem calStep_eq (raw : RawSample) (l : List Nat) : ∀ (n : Nat) (k : Capture),
    k.standard = some sd → calStep raw l n k = (n + l.length, k.takeAll sd raw n l) := by
  induction l with
  | nil => intro n k _; simp [calStep, Capture.takeAll]
  | cons pos rest ih =>
    intro n k hs
    have htake := take_of_standard hs (n + 1) pos raw
    rw [calStep, ih _ _ (by rw [htake]; exact hs), htake, List.length_cons]
    refine Prod.ext (by dsimp only; omega) ?_
    have hnulls := appended_replicate k.nulls raw (n + 1 ≤ 16) (m := min rest.length (16 - (n + 1)))
      (n := min (rest.length + 1) (16 - n)) (by split <;> omega)
    simp only [Capture.takeAll, List.length_cons, List.countP_cons, hnulls,
      appended_replicate k.hole raw (inWindow sd.hole sd.half pos = true) rfl,
      appended_replicate k.ring raw (inWindow sd.ring sd.half pos = true) rfl]

/-- The state after the step of an output in a calibration pull that leaves the controller `k` and the
capture `cap`. -/
def State.captured (s : State) (c : Chan) (k : PullCtl) (cap : Capture) : State :=
  { s.stepped c k with cal := s.cal.set c { s.cal.get c with capture := cap } }

/-- The thin-data report on an empty latch (R61). -/
theorem reportThin_of_empty {k : PullCtl} (hl : k.latch = []) (thin : Nat) :
    k.reportThin thin = { k with latch := if 64 ≤ thin then [.overspeed] else [] } := by
  rw [reportThin_eq (.inl hl), hl]
  rfl

/-- The step of an output in a calibration pull. -/
theorem processStep_captured (hr : (s.pull.get c).record.bind PullRecord.tube = none)
    (hl : (s.pull.get c).latch = []) (hs : (s.cal.get c).capture.standard = some sd) (raw : RawSample) :
    s.processStep c raw = s.captured c
      { s.pull.get c with
        samples := (s.pull.get c).samples + (s.chan.get c).waiting.length
        latch := if 64 ≤ (s.chan.get c).thin + ((s.chan.get c).waiting.length - 1) then [.overspeed]
          else [] }
      ((s.cal.get c).capture.takeAll sd raw (s.pull.get c).samples
        (stepPositions (s.chan.get c).waiting)) := by
  rw [processStep_cal hr, calStep_eq _ _ _ _ hs, stepPositions_length, State.captured, State.stepped]
  exact congrArg (fun k => ({ s with
    chan := s.chan.set c (s.chan.get c).sampled
    pull := s.pull.set c k
    cal := s.cal.set c { s.cal.get c with
      capture := (s.cal.get c).capture.takeAll sd raw (s.pull.get c).samples
        (stepPositions (s.chan.get c).waiting) } } : State))
    (reportThin_of_empty (k := { s.pull.get c with
      samples := (s.pull.get c).samples + (s.chan.get c).waiting.length }) hl _)

/-! ## The judgement -/

/-- The samples have passed both windows of the standard (R119). -/
def Measured (s : State) (c : Chan) : Prop :=
  ∃ sd, (s.cal.get c).capture.standard = some sd
    ∧ 2 * sd.length ≤ 2 * (sd.hole - sd.half) + (s.pull.get c).samples
    ∧ 2 * sd.length ≤ 2 * (sd.ring - sd.half) + (s.pull.get c).samples

/-- A pull with no fault latched is judged by its kind where its samples have passed both windows. -/
theorem judge_measured (hl : (s.pull.get c).latch = []) (h : Measured s c) (kind : PullKind) :
    judge s c kind = if kind = .calCheck then judgeCheck s c else judgeFull s c := by
  obtain ⟨sd, hs, hpassed⟩ := h
  have hw : windowsPassed sd (s.pull.get c).samples = true := decide_eq_true hpassed
  simp only [judge, hl, hs, hw, List.isEmpty_nil, Bool.not_true, Bool.false_eq_true, if_false]

/-- Otherwise it is judged SHORT. -/
theorem judge_short (hl : (s.pull.get c).latch = []) (h : ¬ Measured s c) (kind : PullKind) :
    judge s c kind = judgeUnmeasured s c kind .short (some .short) := by
  cases hs : (s.cal.get c).capture.standard with
  | none => simp [judge, hl, hs]
  | some sd =>
    have hw : windowsPassed sd (s.pull.get c).samples = false :=
      decide_eq_false fun e => h ⟨sd, hs, e⟩
    simp [judge, hl, hs, hw]

/-- What the Calibration Unit writes, and what of it the result record says. -/
def verdictOf (s : State) (c : Chan) (x : Judgement) : Verdict :=
  ⟨{ s with tubes := x.tubes, cal := s.cal.set c x.unit }, x.outcome, x.reason, x.traces, x.mixes,
    x.invalidated⟩

/-- A judgement that invalidates the channel (R132). -/
theorem failCheck_eq (s : State) (c : Chan) (outcome : CalOutcome) (reason : Option CalReason)
    (entries : List TraceEntry) :
    failCheck s c outcome reason entries
      = verdictOf s c ⟨{ Uncalibrated (s.cal.get c) with group := [] },
          InvalidatedTubes (s.cal.get c).group s.tubes, outcome, reason, entries, [],
          (s.cal.get c).group.length⟩ := by
  rw [failCheck, invalidate_parts, invalidateTubes_eq_mapIdx]
  rfl

/-- The reason of the first failing trace (R122, R125). -/
theorem firstFailure_of_fails {entries : List TraceEntry} {why : CalReason}
    (h : ∃ before e after, entries = before ++ e :: after ∧ (∀ y ∈ before, y.failed = none)
      ∧ e.failed = some why) : firstFailure entries = some why := by
  obtain ⟨before, e, after, rfl, hbefore, he⟩ := h
  exact firstFailure_eq_some before e after why hbefore he

/-- A calibration pull with no fault latched is judged as described (R119, R121 to R125). -/
theorem judge_unlatched {x : Judgement} (hl : (s.pull.get c).latch = []) (h : JudgedBy s c rec x) :
    judge s c rec.kind = verdictOf s c x := by
  obtain ⟨hk, o, r, hu, hx⟩ | ⟨hk, h0, o, r, hu, hx⟩ | ⟨hk, h0, o, r, hu, hx⟩ | ⟨hk, -, hm, hpass, hx⟩
    | ⟨hk, -, hm, why, hfail, hx⟩ | ⟨hk, -, hm, hpass, hx⟩ | ⟨hk, -, hm, why, hfail, hx⟩ := h
  case inl =>
    obtain ⟨hn, -⟩ | ⟨-, hm, rfl, rfl⟩ := hu
    · exact absurd hl hn
    · rw [judge_short hl hm, judgeUnmeasured, hk, if_neg nofun, hx]
      rfl
  case inr.inl =>
    obtain ⟨hn, -⟩ | ⟨-, hm, rfl, rfl⟩ := hu
    · exact absurd hl hn
    · rw [judge_short hl hm, judgeUnmeasured, hk, if_pos rfl, faultCheck, if_pos h0, firstCheckFault_eq,
        hx]
      rfl
  case inr.inr.inl =>
    obtain ⟨hn, -⟩ | ⟨-, hm, rfl, rfl⟩ := hu
    · exact absurd hl hn
    · rw [judge_short hl hm, judgeUnmeasured, hk, if_pos rfl, faultCheck, if_neg h0, failCheck_eq, hx]
  case inr.inr.inr.inl =>
    rw [judge_measured hl hm, hk, if_pos rfl, judgeCheck]
    simp only [(firstFailure_eq_none _).2 hpass]
    rw [hx]
    rfl
  case inr.inr.inr.inr.inl =>
    rw [judge_measured hl hm, hk, if_pos rfl, judgeCheck]
    simp only [firstFailure_of_fails hfail]
    rw [failCheck_eq, hx]
  case inr.inr.inr.inr.inr.inl =>
    rw [judge_measured hl hm, hk, if_neg nofun, judgeFull]
    simp only [(firstFailure_eq_none _).2 hpass]
    rw [hx]
    rfl
  case inr.inr.inr.inr.inr.inr =>
    rw [judge_measured hl hm, hk, if_neg nofun, judgeFull]
    simp only [firstFailure_of_fails hfail]
    rw [hx]
    rfl

/-- The end of a calibration pull whose latch holds at most one fault, from what the unit judges. -/
theorem endCal_verdict {x : Judgement} (hl : reported (s.pull.get c).latch = (s.pull.get c).latch.head?)
    (hv : judge s c rec.kind = verdictOf s c x) : s.endCal c rec.kind = JudgedAs s c rec x := by
  unfold State.endCal JudgedAs
  simp only [hv, verdictOf, calResultOf, hl, State.setCal, State.setPull, State.setChan,
    Quad.get_set_same, Quad.set_set, decide_eq_true_eq, further]

/-! ## The output -/

/-- A calibration pull that an output ends is judged as described. -/
theorem exec_output_judged {t : State} {x : Judgement} (h : InCalPull s c rec)
    (hw : (s.chan.get c).waiting ≠ [])
    (ht : s.processStep c ((s.chan.get c).rawOf values) = t)
    (hr : (t.pull.get c).record = some rec)
    (hend : (t.pull.get c).latch = [.overspeed]
      ∨ (t.pull.get c).latch = [] ∧ 0 ∈ (s.chan.get c).waiting)
    (hx : JudgedBy t c rec x) :
    exec (.demodulatorOutput c values) s = .next (JudgedAs t c rec x) := by
  obtain ⟨hp, -, htube, -, -⟩ := h
  obtain hl | ⟨hl, h0⟩ := hend
  · rw [exec_output_faulted hp hw ht (by rw [hl]; exact nofun), endOnFault_cal hr htube,
      endCal_judged hl (judge_faulted hl hx)]
  · have hendBy : t.endBy c .positionZero = t.endCal c rec.kind := by
      simp only [State.endBy, hr, htube]
    rw [exec_output_ends hp hw ht hl h0, hendBy, endCal_verdict (by rw [hl]; rfl) (judge_unlatched hl hx)]

/-- The windows of the standard, as the statement counts the positions in them. -/
theorem countP_stepPositions (l : List Int) (centre half : Nat) :
    (stepPositions l).countP (inWindow centre half)
      = l.countP (fun x => decide (2 * (centre - half) ≤ (x / 10).toNat
          ∧ (x / 10).toNat ≤ 2 * (centre + half))) := List.countP_map ..

/-- One sample of a calibration pull at a position other than 0. -/
theorem exec_output_oneCaptured {x : Int} (hp : (s.chan.get c).state = .pulling)
    (hr : (s.pull.get c).record.bind PullRecord.tube = none) (hl : (s.pull.get c).latch = [])
    (hw : (s.chan.get c).waiting = [x]) (hx : 0 < x) (hthin : (s.chan.get c).thin < 64) :
    exec (.demodulatorOutput c values) s
      = .next { s with
          chan := s.chan.set c { s.chan.get c with waiting := [] }
          pull := s.pull.set c { s.pull.get c with samples := (s.pull.get c).samples + 1 }
          cal := s.cal.set c { s.cal.get c with
            capture := (s.cal.get c).capture.take ((s.pull.get c).samples + 1) (x / 10).toNat
              ((s.chan.get c).rawOf values) } } := by
  have hpositions : stepPositions (s.chan.get c).waiting = [(x / 10).toNat] := by rw [hw]; rfl
  have hafter : (s.chan.get c).thinAfter = (s.chan.get c).thin := by rw [Channel.thinAfter, hw]; rfl
  have hsampled : (s.chan.get c).sampled = { s.chan.get c with waiting := [] } := by
    rw [Channel.sampled, hafter]
  have hstep := processStep_cal hr ((s.chan.get c).rawOf values)
  rw [hpositions, hafter, PullCtl.reportThin_below _ hthin, hsampled] at hstep
  refine exec_output_continues hp (by rw [hw]; exact nofun) hstep ?_ ?_
  · exact (congrArg PullCtl.latch (Quad.get_set_same ..)).trans hl
  · rw [hw, List.mem_singleton]; exact hx.ne

/-- Settles O38: the step of an output in a tube pull and in a calibration pull, and what ends it. -/
theorem outputsSampleTheWaitingPositions : Obligations.OutputsSampleTheWaitingPositions := by
  intro s c values ch k u n thin raw
  refine ⟨exec_output_discarded, ?_, ?_, ?_⟩
  · intro rec tp tb d h hw
    refine ⟨exec_output_nullStage h hw, fun hm ht _ hlimit =>
      exec_output_overspeedMasked h hw hm ht hlimit, ?_⟩
    intro k' hk latch s'
    have hstep : s.processStep c (ch.rawOf values) = s.stepped c { k' with latch := latch } :=
      processStep_samples h hk
    obtain ⟨hrec, hlatch⟩ := samples_controller h hk
    refine ⟨fun hl h0 => exec_output_continues h.1 hw hstep ?_ h0,
      fun _ hlimit => ⟨fun ht => ?_, fun ht hne => ?_⟩, fun row hl h0 hrow => ?_⟩
    · exact (congrArg PullCtl.latch (stepped_pull ..)).trans hl
    · have hl : latch = k'.latch ++ [.overspeed] := if_pos ht
      refine exec_output_errorEnd h hw hstep hrec ?_ rfl hlimit
      dsimp only
      obtain e | e := hlatch <;> rw [hl, e] <;> rfl
    · have hl : latch = k'.latch := if_neg (Nat.not_le.2 ht)
      refine exec_output_errorEnd h hw hstep hrec ?_ rfl hlimit
      dsimp only
      rw [hl, hlatch.resolve_left hne]
      rfl
    · have hkept : latch = k'.latch := latch_kept hl
      have hs' : s' = s.stepped c k' :=
        congrArg (fun l => s.stepped c { k' with latch := l }) hkept
      rw [hs']
      exact exec_output_positionZero h hw (hstep.trans hs') hrec (hkept.symm.trans hl) h0 hrow
  · intro rec sd x hp hr htube hl hw hx hthin hs step inWindow
    have hnone : k.record.bind PullRecord.tube = none := by rw [hr]; exact htube
    rw [exec_output_oneCaptured hp hnone hl hw hx hthin, take_of_standard hs]
    rfl
  · intro rec sd h hw hs within s'
    have hnone : k.record.bind PullRecord.tube = none := by
      rw [h.2.1]; exact h.2.2.1
    have hstep : s.processStep c (ch.rawOf values) = s' := by
      rw [processStep_captured hnone h.2.2.2.1 hs, Capture.takeAll, stepPositions_length,
        countP_stepPositions, countP_stepPositions]
      rfl
    have hpull : (s'.pull.get c).latch = if 64 ≤ thin then [.overspeed] else [] :=
      congrArg PullCtl.latch (Quad.get_set_same ..)
    refine ⟨fun ht h0 => exec_output_continues h.1 hw hstep ?_ h0, fun hends x hx =>
      exec_output_judged h hw hstep ?_ ?_ hx⟩
    · rw [hpull, if_neg (Nat.not_le.2 ht)]
    · exact (congrArg PullCtl.record (Quad.get_set_same ..)).trans h.2.1
    · rw [hpull]
      by_cases ht : 64 ≤ thin
      · exact .inl (if_pos ht)
      · exact .inr ⟨if_neg ht, hends.resolve_left ht⟩

end Sys2Proof.Machine
end

section
/-!
SUPPORT. The laws of calibrated pulls and of calibration groups read channel by channel (R70, R114, R129):
what they say of one Calibration Unit beside its channel, and the changes of the two that keep it.
-/

namespace Sys2Proof.Machine

variable {s t : State} {c d : Chan} {ch x : Channel} {u v : CalUnit}

/-! ## One unit and its channel -/

/-- A tube pull of the channel is in flight, or its job (R49). -/
def Channel.TubeBusy (ch : Channel) : Prop :=
  ch.kind = some .tube ∧ (ch.state = .pulling ∨ ch.state = .sizing)

/-- A full calibration pull of the channel is in flight (R49). -/
def Channel.FullBusy (ch : Channel) : Prop := ch.state = .pulling ∧ ch.kind = some .calFull

/-- What the laws say of a unit, whatever its channel does: UNCALIBRATED goes with an empty group, a
CALIBRATED unit has room in its group, and a group lists no tube twice and at most 512 (R114, R128). -/
structure CalUnit.Sound (u : CalUnit) : Prop where
  uncalibrated : u.state = .uncalibrated → u.group = []
  room : u.state = .calibrated → u.group.length < 512
  size : u.group.length ≤ 512
  once : u.group.Nodup

/-- What the laws say of a unit with its channel (R70, R129). -/
structure CalUnit.Fits (u : CalUnit) (ch : Channel) : Prop extends u.Sound where
  calibrated : ch.TubeBusy → u.state ≠ .uncalibrated ∧ u.group.length < 512
  full : ch.FullBusy → u.group = []

/-- A unit with an empty group is sound. -/
theorem CalUnit.Sound.of_empty (h : u.group = []) : u.Sound where
  uncalibrated := fun _ => h
  room := fun _ => by rw [h]; exact Nat.zero_lt_succ _
  size := by rw [h]; exact Nat.zero_le _
  once := by rw [h]; exact .nil

/-- A sound unit fits a channel with no pull in flight. -/
theorem CalUnit.Sound.fits (h : u.Sound) (hp : ch.state ≠ .pulling) (hz : ch.state ≠ .sizing) :
    u.Fits ch where
  toSound := h
  calibrated := fun hb => (hb.2.elim hp hz).elim
  full := fun hb => (hp hb.1).elim

/-! ## Changes that keep what the laws say -/

/-- A unit that becomes no more than CHECK_DUE, with no tube new in its group. -/
structure CalUnit.Eases (u v : CalUnit) : Prop where
  group : v.group.Sublist u.group
  state : v.state = u.state ∨ u.state = .calibrated ∧ v.state = .checkDue

/-- A channel on which no pull is in flight that was not. -/
structure Channel.LessBusy (x ch : Channel) : Prop where
  tube : x.TubeBusy → ch.TubeBusy
  full : x.FullBusy → ch.FullBusy

theorem CalUnit.Eases.refl (u : CalUnit) : u.Eases u := ⟨.refl _, .inl rfl⟩

theorem Channel.LessBusy.refl (ch : Channel) : ch.LessBusy ch := ⟨id, id⟩

/-- The law reads the pull state and the kind of a channel alone. -/
theorem Channel.LessBusy.of_eq (hs : x.state = ch.state) (hk : x.kind = ch.kind) : x.LessBusy ch where
  tube := fun h => by rwa [TubeBusy, hs, hk] at h
  full := fun h => by rwa [FullBusy, hs, hk] at h

theorem Channel.LessBusy.of_idle (hp : x.state ≠ .pulling) (hz : x.state ≠ .sizing) : x.LessBusy ch where
  tube := fun h => (h.2.elim hp hz).elim
  full := fun h => (hp h.1).elim

/-- The interval expiry of a unit (R128). -/
theorem CalUnit.Eases.due (u : CalUnit) : u.Eases u.due := by
  unfold CalUnit.due
  split
  · next h => exact ⟨.refl _, .inr ⟨h, rfl⟩⟩
  · exact .refl u

theorem CalUnit.Sound.eases (h : u.Sound) (e : u.Eases v) : v.Sound where
  uncalibrated := fun hv => by
    have hu : u.state = .uncalibrated := by
      obtain hs | ⟨-, hs⟩ := e.state
      · exact hs.symm.trans hv
      · rw [hs] at hv; cases hv
    exact List.sublist_nil.1 (h.uncalibrated hu ▸ e.group)
  room := fun hv => by
    have hu : u.state = .calibrated := by
      obtain hs | ⟨-, hs⟩ := e.state
      · exact hs.symm.trans hv
      · rw [hs] at hv; cases hv
    exact e.group.length_le.trans_lt (h.room hu)
  size := e.group.length_le.trans h.size
  once := h.once.sublist e.group

theorem CalUnit.Fits.eases (h : u.Fits ch) (e : u.Eases v) (less : x.LessBusy ch) : v.Fits x where
  toSound := h.toSound.eases e
  calibrated := fun hx => by
    obtain ⟨hs, hl⟩ := h.calibrated (less.tube hx)
    refine ⟨?_, e.group.length_le.trans_lt hl⟩
    obtain hv | ⟨-, hv⟩ := e.state <;> rw [hv]
    · exact hs
    · exact nofun
  full := fun hx => List.sublist_nil.1 (h.full (less.full hx) ▸ e.group)

/-! ## The units together -/

/-- Every unit fits its channel. -/
def State.UnitsFit (s : State) : Prop := ∀ c, (s.cal.get c).Fits (s.chan.get c)

/-- No tube stands in the groups of two channels (R129). -/
def State.GroupsApart (s : State) : Prop :=
  ∀ c d, c ≠ d → List.Disjoint (s.cal.get c).group (s.cal.get d).group

theorem State.GroupsApart.of_less (h : s.GroupsApart) (less : GroupsLess s t) : t.GroupsApart :=
  fun c d hcd i hc hd => h c d hcd (less c i hc) (less d i hd)

theorem CalLaw.unitsFit (h : CalLaw s) : s.UnitsFit := fun c =>
  { uncalibrated := h.uncalibrated c, room := h.room c, size := h.size c, once := h.once c
    calibrated := h.calibrated c, full := fun hb => h.full c hb.1 hb.2 }

theorem CalLaw.of_units (h : ChannelLaw s) (fits : s.UnitsFit) (apart : s.GroupsApart) : CalLaw s where
  toChannelLaw := h
  calibrated := fun c => (fits c).calibrated
  uncalibrated := fun c => (fits c).uncalibrated
  room := fun c => (fits c).room
  size := fun c => (fits c).size
  full := fun c hs hk => (fits c).full ⟨hs, hk⟩
  once := fun c => (fits c).once
  apart := apart

/-- The units ease, and no channel begins a pull. -/
theorem State.UnitsFit.eases (h : s.UnitsFit) (less : ∀ d, (t.chan.get d).LessBusy (s.chan.get d))
    (eases : ∀ d, (s.cal.get d).Eases (t.cal.get d)) : t.UnitsFit :=
  fun d => (h d).eases (eases d) (less d)

theorem State.UnitsFit.of_eq (h : s.UnitsFit) (hc : t.chan = s.chan) (hu : t.cal = s.cal) :
    t.UnitsFit := fun d => by rw [hc, hu]; exact h d

/-- The units of the same channels ease. -/
theorem State.UnitsFit.units (h : s.UnitsFit) (hc : t.chan = s.chan)
    (eases : ∀ d, (s.cal.get d).Eases (t.cal.get d)) : t.UnitsFit :=
  h.eases (fun d => by rw [hc]; exact .refl _) eases

/-- One channel is written with its unit: what the laws say of the two is enough. -/
theorem State.UnitsFit.write (h : s.UnitsFit) (hc : t.chan = s.chan.set c x)
    (hu : t.cal = s.cal.set c u) (fits : u.Fits x) : t.UnitsFit := by
  intro d
  rw [hc, hu, Quad.get_set, Quad.get_set]
  split
  · exact fits
  · exact h d

/-- One channel is written, and begins no pull. -/
theorem State.UnitsFit.channel (h : s.UnitsFit) (hc : t.chan = s.chan.set c x) (hu : t.cal = s.cal)
    (less : x.LessBusy (s.chan.get c)) : t.UnitsFit :=
  h.write hc (hu.trans (Quad.set_get ..).symm) ((h c).eases (.refl _) less)

end Sys2Proof.Machine
end

section
/-!
Every step keeps the laws of calibrated pulls and of calibration groups (R70, R114, R129).
-/

namespace Sys2Proof.Machine

variable {s t : State} {p : Port} {c d : Chan} {rec : PullRecord} {tp : TubePull}

/-! ## Intervals, settings and channel requests -/

theorem takeIntervals_eases (s : State) (d : Chan) :
    (s.cal.get d).Eases (s.takeIntervals.cal.get d) := by
  rw [State.takeIntervals, Quad.get_ofFn]
  split
  · exact .due _
  · exact .refl _

theorem settingsChanged_units (s : State) :
    s.settingsChanged.chan = s.chan ∧ s.settingsChanged.cal = s.cal := by
  unfold State.settingsChanged State.startPass State.restartJob
  split
  · split <;> exact ⟨rfl, rfl⟩
  · exact ⟨rfl, rfl⟩

/-- PLAN_NEW empties every group, and may make a unit CHECK_DUE (R3, R127). -/
theorem newPlan_eases (s : State) (d : Chan) : (s.cal.get d).Eases (s.newPlan.cal.get d) := by
  obtain ⟨hg, hs⟩ := takeIntervals_eases { s with
    plan := Plan.default, lock := false, rows := [], tubes := [], free := Config.poolSize
    cal := s.cal.map (fun u => { u with group := [] }), rescreen := Rescreen.reset
    planState := .draft } d
  rw [Quad.get_map] at hg hs
  exact ⟨hg.trans (List.nil_sublist _), hs⟩

/-- UNBIND and FREQ_SET are taken on an empty group alone (R52, R53). -/
theorem group_of_free (free : s.freeRefusal p c = none) : (s.cal.get c).group = [] := by
  unfold State.freeRefusal at free
  split at free
  · cases free
  · split at free
    · cases free
    · cases free
    · cases free
    · by_contra hg
      rw [if_pos hg] at free
      cases free

/-- A channel written with its dropped unit, on an empty group or with the group emptied. -/
theorem State.UnitsFit.drop (h : s.UnitsFit) {x : Channel} {u : CalUnit}
    (hc : t.chan = s.chan.set c x) (hu : t.cal = s.cal.set c u) (hg : u.group = [])
    (hp : x.state ≠ .pulling) (hz : x.state ≠ .sizing) : t.UnitsFit :=
  h.write hc hu ((CalUnit.Sound.of_empty hg).fits hp hz)

/-! ## The starts of pulls -/

/-- CAL_START of FULL is taken on an empty group alone (R116). -/
theorem State.UnitsFit.startCal (h : s.UnitsFit) {kind : PullKind} {sd : Standard}
    (isCal : kind = .calFull ∨ kind = .calCheck)
    (noGroup : kind = .calFull → (s.cal.get c).group = []) : (s.startCal p c kind sd).UnitsFit := by
  refine h.write (c := c) rfl rfl
    { (h c).toSound with calibrated := fun hb => ?_, full := fun hb => ?_ }
  · obtain ⟨e, -⟩ := hb
    obtain rfl | rfl := isCal <;> cases e
  · obtain ⟨-, e⟩ := hb
    cases e
    exact noGroup rfl

/-- PULL_START is taken on a CALIBRATED channel alone (R69). -/
theorem calibrated_of_allowed (allowed : s.tubeStartRefusal c = none) :
    (s.cal.get c).state = .calibrated := by
  unfold State.tubeStartRefusal at allowed
  dsimp only at allowed
  split at allowed
  · cases allowed
  · split at allowed
    · cases allowed
    · next hun =>
      split at allowed
      · cases allowed
      · next hdue =>
        cases hs : (s.cal.get c).state with
        | calibrated => rfl
        | uncalibrated => exact absurd (.inl hs) hun
        | checkDue => exact absurd hs hdue

theorem State.UnitsFit.startTube (h : s.UnitsFit) {u : Tag} {i : Nat} {tb : Tube}
    (allowed : s.tubeStartRefusal c = none) : (s.startTube p u c i tb).UnitsFit := by
  have hmark : ClaimsWritten s (s.markInPull p u) := .markInPull s p u
  have hs := calibrated_of_allowed allowed
  refine h.write (c := c) (x := (s.chan.get c).preset .tube s.plan.tubeLength) (u := s.cal.get c)
    (congrArg (Quad.set · c _) hmark.chan) (hmark.cal.trans (Quad.set_get ..).symm)
    { (h c).toSound with calibrated := fun _ => ⟨?_, (h c).room hs⟩, full := fun hb => ?_ }
  · rw [hs]; exact nofun
  · cases hb.2

/-! ## The samples and the ends of pulls -/

/-- The samples of an output write the capture alone of a unit. -/
theorem State.UnitsFit.processStep (h : s.UnitsFit) (raw : RawSample) :
    (s.processStep c raw).UnitsFit := by
  cases hr : (s.pull.get c).record.bind PullRecord.tube with
  | none =>
    rw [processStep_cal hr]
    exact h.write rfl rfl ((h c).eases ⟨.refl _, .inl rfl⟩ (.of_eq rfl rfl))
  | some tp =>
    obtain ⟨rec, hrec, htube⟩ := Option.bind_eq_some_iff.1 hr
    rw [processStep_tube hrec htube]
    exact h.channel rfl rfl (.of_eq rfl rfl)

theorem State.UnitsFit.abort (h : s.UnitsFit) : (s.abortPull c).UnitsFit := by
  have idle : ({ s.chan.get c with state := .ready, kind := none, waiting := [] } : Channel).LessBusy
      (s.chan.get c) := .of_idle nofun nofun
  unfold State.abortPull
  dsimp only
  split
  · exact h.channel (c := c) rfl rfl idle
  · split
    · exact h.channel (c := c) (ClaimsWritten.keepClaim ..).chan (ClaimsWritten.keepClaim ..).cal idle
    · exact h.write (c := c) rfl rfl ((h c).eases ⟨.refl _, .inl rfl⟩ idle)

theorem State.UnitsFit.errorEnd (h : s.UnitsFit) : (s.errorEnd c rec tp).UnitsFit := by
  obtain ⟨tubes, claims, e⟩ := errorCommit_parts s rec.port tp.tag tp.index
  unfold State.errorEnd
  rw [e]
  exact h.channel (c := c) rfl rfl (.of_idle nofun nofun)

/-- The job of a tube pull stands for the pull. -/
theorem State.UnitsFit.jobEnd (h : s.UnitsFit) (pull : s.pullsTube c rec tp) :
    (s.jobEnd c rec tp).UnitsFit :=
  h.channel (c := c) rfl rfl ⟨fun hb => ⟨hb.1, .inl pull.1⟩, fun hb => by cases hb.1⟩

/-- A calibration pull is judged as unmeasured, for a fault in its latch or as SHORT, or else by its
kind (R119). -/
theorem judge_cases (s : State) (c : Chan) (kind : PullKind) :
    (∃ o r, judge s c kind = judgeUnmeasured s c kind o r)
      ∨ judge s c kind = if kind = .calCheck then judgeCheck s c else judgeFull s c := by
  by_cases hl : (s.pull.get c).latch = []
  · by_cases h : Measured s c
    · exact .inr (judge_measured hl h kind)
    · exact .inl ⟨_, _, judge_short hl h kind⟩
  · refine .inl ⟨.faulted, none, if_pos ?_⟩
    rw [Bool.not_eq_true', List.isEmpty_eq_false_iff]
    exact hl

/-- What a judgement makes of the unit: the group is emptied, or that of a FULL is kept, or the unit
eases (R119 to R125). -/
def UnitJudged (s : State) (c : Chan) (kind : PullKind) (u : CalUnit) : Prop :=
  u.group = [] ∨ kind ≠ .calCheck ∧ u.group = (s.cal.get c).group ∨ (s.cal.get c).Eases u

theorem judge_unit (s : State) (c : Chan) (kind : PullKind) :
    ∃ u, (judge s c kind).state.cal = s.cal.set c u ∧ UnitJudged s c kind u := by
  obtain ⟨o, r, e⟩ | e := judge_cases s c kind
  · rw [e]
    unfold judgeUnmeasured faultCheck
    split
    · dsimp only
      split
      · exact ⟨_, rfl, .inr (.inr { CalUnit.Eases.due (s.cal.get c) with })⟩
      · exact ⟨_, rfl, .inl rfl⟩
    · next hk => exact ⟨_, rfl, .inr (.inl ⟨hk, rfl⟩)⟩
  · rw [e]
    split
    · unfold judgeCheck
      dsimp only
      split <;> exact ⟨_, rfl, .inl rfl⟩
    · next hk =>
      unfold judgeFull
      dsimp only
      split <;> exact ⟨_, rfl, .inr (.inl ⟨hk, rfl⟩)⟩

theorem State.UnitsFit.endCal (h : s.UnitsFit) {kind : PullKind}
    (pulling : (s.chan.get c).state = .pulling) (hkind : (s.chan.get c).kind = some kind)
    (isCal : kind ≠ .tube) : (s.endCal c kind).UnitsFit := by
  obtain ⟨u, hcal, hu⟩ := judge_unit s c kind
  have hchan : (judge s c kind).state.chan = s.chan := by
    obtain ⟨x, e, -⟩ | e := judge_judged s c kind <;> rw [e] <;> rfl
  have sound : u.Sound := by
    obtain hg | ⟨hk, hg⟩ | he := hu
    · exact .of_empty hg
    · refine .of_empty (hg.trans ((h c).full ⟨pulling, hkind.trans ?_⟩))
      cases kind with
      | calFull => rfl
      | tube => exact absurd rfl isCal
      | calCheck => exact absurd rfl hk
    · exact (h c).toSound.eases he
  refine h.write (c := c) (x := { s.chan.get c with state := .held, waiting := [] })
    (u := { u with capture := Capture.empty }) ?_ ?_
    (CalUnit.Sound.fits { sound with } nofun nofun)
  · exact congrArg (fun q : Quad Channel =>
      q.set c { q.get c with state := .held, waiting := [] }) hchan
  · refine (congrArg (fun q : Quad CalUnit => q.set c { q.get c with capture := Capture.empty })
      hcal).trans ?_
    rw [Quad.get_set_same, Quad.set_set]

theorem State.UnitsFit.forceUnbind (h : s.UnitsFit) : (s.forceUnbind c).UnitsFit := by
  obtain ⟨ports, e⟩ := forceUnbind_parts s c
  rw [e]
  exact h.drop (c := c) rfl rfl rfl nofun nofun

/-! ## The sizing commit -/

/-- The group of the job's channel lists the job's tube once (R130). -/
theorem joined_nodup {l : List Nat} (h : l.Nodup) (i : Nat) :
    (if i ∈ l then l else l ++ [i]).Nodup := by
  split
  · exact h
  · next hi => exact List.concat_eq_append (as := l) ▸ h.concat hi

theorem joined_length (l : List Nat) (i : Nat) :
    (if i ∈ l then l else l ++ [i]).length ≤ l.length + 1 := by
  split
  · exact Nat.le_succ _
  · exact (List.length_append ..).le

/-- A unit with room takes the tube of a job, and is CHECK_DUE when it has no room left (R128, R130). -/
theorem CalUnit.Sound.joined {u : CalUnit} (h : u.Sound) (hu : u.state ≠ .uncalibrated)
    (hroom : u.group.length < 512) (i : Nat) : (u.joined i).Sound := by
  have hnodup := joined_nodup h.once i
  have hlength := joined_length u.group i
  rw [joined_eq]
  generalize (if i ∈ u.group then u.group else u.group ++ [i]) = group at hnodup hlength
  refine ⟨fun hs => ?_, fun hs => ?_, hlength.trans hroom, hnodup⟩
  · dsimp only at hs
    split at hs
    · cases hs
    · exact absurd hs hu
  · dsimp only at hs
    split at hs
    · cases hs
    · next hfull => exact Nat.lt_of_not_le fun hle => hfull ⟨hs, hroom, hle⟩

/-- After a commit the groups stand apart: the tube that one gains the others lose (R130). -/
theorem State.GroupsApart.committing (h : s.GroupsApart) (j : Job) (z : Sizing) :
    (s.committing j z).GroupsApart := by
  have mem : ∀ (d : Chan) i, i ∈ ((groupsAfter s.cal j.chan j.index).get d).group →
      (i = j.index → d = j.chan) ∧ (i ≠ j.index → i ∈ (s.cal.get d).group) := by
    intro d i hi
    refine ⟨fun e => ?_, fun hne => (mem_groupsAfter hi).resolve_right hne⟩
    by_contra hd
    rw [groupsAfter_other _ _ hd] at hi
    exact absurd e (by simpa using (List.mem_filter.1 hi).2)
  intro c d hcd i hc hd
  obtain ⟨hcj, hcs⟩ := mem c i hc
  obtain ⟨hdj, hds⟩ := mem d i hd
  by_cases e : i = j.index
  · exact hcd ((hcj e).trans (hdj e).symm)
  · exact h c d hcd (hcs e) (hds e)

/-- The channel that a commit leaves holds its result or is unbound, and its unit is the one that the
commit wrote, or empty. -/
theorem releaseChan_units (s : State) (j : Job) (z : Sizing) :
    ∃ x u, (s.releaseChan j z).chan = s.chan.set j.chan x ∧ (s.releaseChan j z).cal = s.cal.set j.chan u
      ∧ (x.state = .held ∨ x.state = .unbound) ∧ (u.group = [] ∨ u = s.cal.get j.chan) := by
  unfold State.releaseChan
  dsimp only
  split
  · obtain ⟨ports, e⟩ := forceUnbind_parts s j.chan
    rw [e]
    exact ⟨_, _, rfl, rfl, .inr rfl, .inl rfl⟩
  · exact ⟨_, _, rfl, (Quad.set_get ..).symm, .inl rfl, .inr rfl⟩

/-- The channels and units after a commit that finds its tube are those of the groups written, but for
the job's channel, which is left. -/
theorem commitJob_units {j : Job} {st : Settings} {tb : Tube} (ht : s.tubes[j.index]? = some tb) :
    ∃ x u, (s.commitJob j st).chan = s.chan.set j.chan x
      ∧ (s.commitJob j st).cal = (groupsAfter s.cal j.chan j.index).set j.chan u
      ∧ (x.state = .held ∨ x.state = .unbound)
      ∧ (u.group = [] ∨ u = (s.cal.get j.chan).joined j.index) := by
  rw [commitJob_of_tube ht]
  generalize sizeJob j st tb.list s.free = z
  have hdrop : ClaimsWritten _ _ := .dropClaim (s.committing j z) j.port j.tag
  obtain ⟨ports, e⟩ := warnStore_parts ((s.committing j z).dropClaim j.port j.tag) s.free
  obtain ⟨x, u, hx, hu, hs, hg⟩ :=
    releaseChan_units (((s.committing j z).dropClaim j.port j.tag).warnStore s.free) j z
  have hchan : (((s.committing j z).dropClaim j.port j.tag).warnStore s.free).chan = s.chan := by
    rw [e]; exact hdrop.chan
  have hcal : (((s.committing j z).dropClaim j.port j.tag).warnStore s.free).cal
      = groupsAfter s.cal j.chan j.index := by
    rw [e]; exact hdrop.cal
  rw [hchan] at hx
  rw [hcal] at hu hg
  rw [groupsAfter_own] at hg
  exact ⟨x, u, hx, hu, hs, hg⟩

theorem CalLaw.commit (h : CalLaw s) {j : Job} {st : Settings}
    (flight : s.sizing.flight = some (j, st)) : CalLaw (s.commitJob j st) := by
  have hlaw : ChannelLaw (s.commitJob j st) := h.toChannelLaw.commit flight
  have sizing : (s.chan.get j.chan).state = .sizing := h.jobs j (by rw [State.jobs, flight]; simp)
  obtain ⟨hun, hroom⟩ := h.calibrated j.chan ⟨h.sizing j.chan sizing, .inr sizing⟩
  cases ht : s.tubes[j.index]? with
  | none =>
    rw [commitJob_of_none ht] at hlaw ⊢
    exact .of_units hlaw (h.unitsFit.of_eq rfl rfl) h.apart
  | some tb =>
    obtain ⟨x, u, hchan, hcal, hx, hu⟩ := commitJob_units (st := st) ht
    refine .of_units hlaw (fun d => ?_) ?_
    · rw [hchan, hcal, Quad.get_set, Quad.get_set]
      split
      · have sound : u.Sound := by
          obtain hu | rfl := hu
          · exact .of_empty hu
          · exact (h.unitsFit j.chan).toSound.joined hun hroom j.index
        obtain e | e := hx <;> exact sound.fits (by rw [e]; exact nofun) (by rw [e]; exact nofun)
      · next hd =>
        rw [groupsAfter_other _ _ hd]
        exact (h.unitsFit d).eases ⟨List.filter_sublist, .inl rfl⟩ (.refl _)
    · have apart : s.GroupsApart := h.apart
      refine (apart.committing j (sizeJob j st tb.list s.free)).of_less (.of_unit hcal ?_)
      intro i hi
      obtain hu | rfl := hu
      · rw [hu] at hi; cases hi
      · exact groupsAfter_own s.cal j.chan j.index ▸ hi

/-! ## All actions -/

theorem State.UnitsFit.quietAct (h : s.UnitsFit) (a : QuietAct s t) : t.UnitsFit := by
  cases a with
  | queue | line | replies | clearNotices | attach | latch | endChecks | jobBegin | startPass
  | stepBegin | orphan => exact h.of_eq rfl rfl
  | bind p c => exact h.channel (c := c) rfl rfl (.of_idle nofun nofun)
  | unbind p c free =>
    obtain ⟨ports, e⟩ := unbindChan_parts s c
    rw [State.dropCal, e]
    exact h.drop (c := c) rfl rfl (u := (s.cal.get c).drop) (group_of_free free) nofun nofun
  | freqSet p c slots _ free =>
    exact h.drop (c := c) rfl rfl (u := (s.cal.get c).drop) (group_of_free free) nofun nofun
  | settled c => exact h.channel (c := c) rfl rfl (.of_idle nofun nofun)
  | coil c | passed c => exact h.channel (c := c) rfl rfl (.of_eq rfl rfl)
  | count c dir =>
    refine h.channel (c := c) rfl rfl (.of_eq (count_binding _ dir).2 ?_)
    unfold Channel.count
    cases dir <;> dsimp only <;> split <;> rfl
  | startCal p c kind sd _ _ isCal noGroup _ => exact h.startCal isCal noGroup
  | processStep c raw => exact h.processStep raw
  | takeResult c => exact h.channel (c := c) rfl rfl (.of_idle nofun nofun)
  | intervalExpiry c =>
    exact h.write (c := c) (Quad.set_get ..).symm rfl ((h c).eases (.due _) (.refl _))

/-- Every action but the commit keeps the units fitting. -/
theorem CalLaw.units_act (h : CalLaw s) (a : Act s t)
    (hcommit : ∀ j st, t = s.commitJob j st → s.sizing.flight ≠ some (j, st)) : t.UnitsFit := by
  have fits := h.unitsFit
  cases a with
  | quiet a => exact fits.quietAct a
  | newPlan => exact fits.units rfl (newPlan_eases s)
  | planOpen | planClose | planLock | planSet | standardSet | addRow | mark | scope | repull | grant
  | detach => exact fits.of_eq rfl rfl
  | curveSet _ _ cv _ =>
    obtain ⟨hc, hu⟩ := settingsChanged_units (s.setPlan { s.plan with curve := some cv })
    exact fits.of_eq hc hu
  | limitsSet _ x =>
    obtain ⟨hc, hu⟩ := settingsChanged_units (s.setPlan (s.plan.withLimits x.clamped)).takeIntervals
    refine fits.units hc fun d => ?_
    rw [hu]
    exact takeIntervals_eases (s.setPlan (s.plan.withLimits x.clamped)) d
  | tracesSet _ x =>
    refine fits.units rfl fun d => ?_
    rw [State.setTraces, Quad.get_map]
    exact ⟨.refl _, .inl rfl⟩
  | drop => exact fits.of_eq (ClaimsWritten.dropClaim ..).chan (ClaimsWritten.dropClaim ..).cal
  | revoke => exact fits.of_eq (ClaimsWritten.revoke ..).chan (ClaimsWritten.revoke ..).cal
  | expire => exact fits.of_eq (ClaimsWritten.expire ..).chan (ClaimsWritten.expire ..).cal
  | startTube p u c i _ _ tb _ _ _ allowed _ _ => exact fits.startTube allowed
  | abort c => exact fits.abort
  | errorEnd c rec tp => exact fits.errorEnd
  | jobEnd c rec tp pull => exact fits.jobEnd pull
  | endCal c rec pulling record isCal =>
    obtain ⟨rec', hrec, hkind, htube⟩ := h.record c pulling
    rw [record] at hrec
    cases hrec
    rw [isCal] at htube
    exact fits.endCal pulling hkind (of_decide_eq_false htube.symm)
  | commit j st flight => exact absurd flight (hcommit j st rfl)
  | stepWrite st =>
    obtain ⟨ports, rescreen, e⟩ := writeStep_parts s st
    rw [e]
    exact fits.of_eq rfl rfl
  | forceUnbind c => exact fits.forceUnbind
  | warm =>
    intro c
    rw [State.warm, Quad.get_fill, Quad.get_map]
    exact (CalUnit.Sound.of_empty rfl).fits nofun nofun
  | tick =>
    have hleases : ClaimsWritten _ _ := .takeLeases { s with seconds := s.seconds + 1 }
    refine fits.units hleases.chan fun d => ?_
    have e : (s.cal.get d) = ({ s with seconds := s.seconds + 1 } : State).takeLeases.cal.get d := by
      rw [hleases.cal]
    rw [e]
    exact takeIntervals_eases _ d

theorem CalLaw.act (h : CalLaw s) (a : Act s t) : CalLaw t := by
  by_cases hc : ∃ j st, t = s.commitJob j st ∧ s.sizing.flight = some (j, st)
  · obtain ⟨j, st, rfl, flight⟩ := hc
    exact h.commit flight
  · exact .of_units (h.toChannelLaw.act a) (h.units_act a fun j st e hf => hc ⟨j, st, e, hf⟩)
      (State.GroupsApart.of_less h.apart (a.groups_cases.resolve_right hc))

theorem CalLaw.reset (l : List Instr) : CalLaw { State.reset with pending := l } :=
  .of_units (ChannelLaw.reset l) (calLaw_reset.unitsFit.of_eq rfl rfl) calLaw_reset.apart

/-- Settles O59: a pull begins on a CALIBRATED channel, which has room; the commit alone fills a group,
and takes its tube out of the others. -/
theorem calLawIsKept : Obligations.CalLawIsKept :=
  kept_of_acts (fun _ _ h a => h.act a) CalLaw.reset

end Sys2Proof.Machine
end

section
/-!
The eleven checks of PULL_START in their order (R69).
-/

namespace Sys2Proof.Machine

variable {s : State} {p : Port} {c : Chan} {t : Tag} {a b : Byte} {why : RefusalCode}

/-! ## The checks of the channel and its unit -/

theorem slotOn_off {slots : Quad (Option Nat)} {trace : Trace}
    (h : ∃ r, trace = .raw r ∧ slots.get r.slot = none) : trace.slotOn slots = false := by
  obtain ⟨r, rfl, hr⟩ := h
  exact Option.isSome_eq_false_iff.2 (Option.isNone_iff_eq_none.2 hr)

theorem mixReady_unlearned (slots : Quad (Option Nat)) (m : Option MixDef) :
    mixReady slots m none = false := by
  cases m <;> rfl

/-- A mix of which a trace belongs to a slot that is off is not ready. -/
theorem mixReady_off {slots : Quad (Option Nat)} {m : MixDef} (k : Option Coef)
    (h : slots.get m.primary.slot = none ∨ slots.get m.secondary.slot = none) :
    mixReady slots (some m) k = false := by
  cases k with
  | none => rfl
  | some k =>
    refine Bool.and_eq_false_iff.2 (h.imp ?_ ?_) <;>
      exact fun hs => Option.isSome_eq_false_iff.2 (Option.isNone_iff_eq_none.2 hs)

/-- The detection trace of the plan is a mix that is not learned on channel `c`, or of which a trace
belongs to a slot that is off (R69). -/
def State.lacksMix (s : State) (c : Chan) : Prop :=
  s.plan.detection = .m1 ∧ (s.cal.get c).mix1 = none
    ∨ s.plan.detection = .m2 ∧ (s.cal.get c).mix2 = none
    ∨ ∃ m, (s.plan.detection = .m1 ∧ s.plan.mixes[0]? = some m
          ∨ s.plan.detection = .m2 ∧ s.plan.mixes[1]? = some m)
        ∧ ((s.chan.get c).slots.get m.primary.slot = none
          ∨ (s.chan.get c).slots.get m.secondary.slot = none)

theorem State.lacksMix.notReady (h : s.lacksMix c) :
    detectionReady (s.chan.get c).slots s.plan (s.cal.get c) = false := by
  obtain ⟨e, hk⟩ | ⟨e, hk⟩ | ⟨m, ⟨e, hm⟩ | ⟨e, hm⟩, hs⟩ := h
  · simp only [detectionReady, e, hk, mixReady_unlearned]
  · simp only [detectionReady, e, hk, mixReady_unlearned]
  · simp only [detectionReady, Plan.detectionMix, e, hm, mixReady_off _ hs]
  · simp only [detectionReady, Plan.detectionMix, e, hm, mixReady_off _ hs]

theorem State.lacksMix.slotOn (h : s.lacksMix c) :
    s.plan.detection.slotOn (s.chan.get c).slots = true := by
  refine slotOn_raw fun r hr => ?_
  obtain ⟨e, -⟩ | ⟨e, -⟩ | ⟨m, ⟨e, -⟩ | ⟨e, -⟩, -⟩ := h <;> rw [e] at hr <;> cases hr

theorem tubeStartRefusal_probeOpen (h : (s.chan.get c).probeOpen = true) :
    s.tubeStartRefusal c = some .probeOpen := if_pos h

section
variable (probe : (s.chan.get c).probeOpen = false)
include probe

theorem tubeStartRefusal_uncalibrated
    (h : (s.cal.get c).state = .uncalibrated
      ∨ (∃ r, s.plan.detection = .raw r ∧ (s.chan.get c).slots.get r.slot = none)
      ∨ (∃ r, s.plan.support = .raw r ∧ (s.chan.get c).slots.get r.slot = none)) :
    s.tubeStartRefusal c = some .uncalibrated := by
  have hun := h.imp_right (Or.imp slotOn_off slotOn_off)
  simp only [State.tubeStartRefusal, probe, Bool.false_eq_true, if_false, if_pos hun]

theorem tubeStartRefusal_checkDue (due : (s.cal.get c).state = .checkDue)
    (detection : s.plan.detection.slotOn (s.chan.get c).slots = true)
    (support : s.plan.support.slotOn (s.chan.get c).slots = true) :
    s.tubeStartRefusal c = some .checkDue := by
  simp [State.tubeStartRefusal, probe, due, detection, support]

theorem tubeStartRefusal_noMix (calibrated : (s.cal.get c).state = .calibrated)
    (support : s.plan.support.slotOn (s.chan.get c).slots = true) (h : s.lacksMix c) :
    s.tubeStartRefusal c = some .noMix := by
  simp [State.tubeStartRefusal, probe, calibrated, h.slotOn, support, h.notReady]

end

/-! ## The checks of the request -/

section
variable (role : (s.ports.get p).role = .crew)
include role

theorem ownPullStart_range (h : 3 < a.toNat ∨ 3 < b.toNat) :
    ownPullStart (a, b) p s = .refused .range := by
  obtain h | h := h
  · simp [ownPullStart, role, fin4_of_gt h]
  · cases ha : fin4 a <;> simp [ownPullStart, role, ha, fin4_of_gt h]

variable (ha : a.toNat = t.val) (hb : b.toNat = c.val)
include ha hb

theorem ownPullStart_notBound (h : s.holdsChan p c = false) :
    ownPullStart (a, b) p s = .refused .notBound := by
  simp [ownPullStart, role, fin4_of_val ha, fin4_of_val hb, h]

variable (holds : s.holdsChan p c = true)
include holds

theorem ownPullStart_state (h : startRefusal (s.chan.get c).state = some why) :
    ownPullStart (a, b) p s = .refused why := by
  simp [ownPullStart, role, fin4_of_val ha, fin4_of_val hb, holds, h]

variable (ready : (s.chan.get c).state = .ready)
include ready

theorem ownPullStart_tube (h : s.tubeStartRefusal c = some why) :
    ownPullStart (a, b) p s = .refused why := by
  simp [ownPullStart, role, fin4_of_val ha, fin4_of_val hb, holds, ready, startRefusal, h]

/-- The last check: the slot is empty or its claim already in pull (R38). -/
theorem ownPullStart_noClaim (h : s.tubeStartRefusal c = none)
    (slot : s.slot p t = none ∨ ∃ i d, s.slot p t = some ⟨i, .inPull, d⟩) :
    ownPullStart (a, b) p s = .refused .noClaim := by
  obtain hs | ⟨i, d, hs⟩ := slot <;>
    simp [ownPullStart, role, fin4_of_val ha, fin4_of_val hb, holds, ready, startRefusal, h, hs]

end

/-- Settles O33: each check refuses where those before it pass. -/
theorem pullStartChecksInOrder : Obligations.PullStartChecksInOrder := by
  intro s p a b h attached
  have refused : ∀ why, ownPullStart (a, b) p s = .refused why →
      Refuses (.pullStart p [a, b]) s p why.code := fun why =>
    attached_refused ownPullStart why h attached rfl
  refine ⟨fun role => refused .role (if_pos role), fun role hgt =>
    refused .range (ownPullStart_range role hgt), fun role t c ha hb => ⟨fun holds =>
      refused .notBound (ownPullStart_notBound role ha hb holds), fun holds => ?_⟩⟩
  have state : ∀ why, startRefusal (s.chan.get c).state = some why →
      Refuses (.pullStart p [a, b]) s p why.code := fun why e =>
    refused why (ownPullStart_state role ha hb holds e)
  refine ⟨fun e => state .settling (by rw [e]; rfl), fun e => state .busy ?_,
    fun e => state .held (by rw [e]; rfl), fun ready => ?_⟩
  · obtain e | e := e <;> rw [e] <;> rfl
  have tube : ∀ why, s.tubeStartRefusal c = some why →
      Refuses (.pullStart p [a, b]) s p why.code := fun why e =>
    refused why (ownPullStart_tube role ha hb holds ready e)
  refine ⟨fun probe => tube .probeOpen (tubeStartRefusal_probeOpen probe), fun probe =>
    ⟨fun hun => tube .uncalibrated (tubeStartRefusal_uncalibrated probe hun),
      fun due detection support => tube .checkDue
        (tubeStartRefusal_checkDue probe due (slotOn_raw detection) (slotOn_raw support)),
      fun calibrated support => ⟨fun lacks => tube .noMix
        (tubeStartRefusal_noMix probe calibrated (slotOn_raw support) lacks),
        fun detects slot => refused .noClaim
          (ownPullStart_noClaim role ha hb holds ready ?_ slot)⟩⟩⟩
  have hdetects : ∃ mix, s.detects c mix := by
    obtain ⟨r, e, hr⟩ | ⟨m, ⟨e, hm, hk⟩ | ⟨e, hm, hk⟩, hp, hs⟩ := detects
    · exact ⟨none, .inl ⟨r, e, hr, rfl⟩⟩
    · exact ⟨some m, .inr (.inl ⟨m, e, hm, hk, hp, hs, rfl⟩)⟩
    · exact ⟨some m, .inr (.inr ⟨m, e, hm, hk, hp, hs, rfl⟩)⟩
  obtain ⟨mix, hmix⟩ := hdetects
  exact tubeStartRefusal_none probe calibrated support hmix

end Sys2Proof.Machine
end

section
/-!
The sampling stage of a tube pull, one sample at a time (R72 to R76, R78).
-/

namespace Sys2Proof.Machine

variable {s : State} {c : Chan} {values : Eight Raw} {u : CalUnit} {rec : PullRecord} {tp : TubePull}
  {tb : Tube} {d : Bool} {raw : RawSample} {k : PullCtl} {v w : Sig}

/-! ## The support counter and the detector -/

/-- The support counter writes its own three items alone (R73). -/
theorem countSupport_frame (k : PullCtl) (pos : Nat) (w : Vec) (t : Nat) :
    k.countSupport pos w t
      = { k with
          armed := (k.countSupport pos w t).armed
          supports := (k.countSupport pos w t).supports
          supportAt := (k.countSupport pos w t).supportAt } := by
  unfold PullCtl.countSupport
  split
  · split <;> rfl
  · split <;> rfl

theorem saturate_latch (k : PullCtl) (policy : Policy) (v : Sig) :
    ∃ latch, k.saturate policy v = { k with latch := latch } := by
  unfold PullCtl.saturate
  split
  · exact ⟨_, rfl⟩
  · exact ⟨k.latch, rfl⟩

/-- The detector follows its table (R74 to R76). -/
theorem detect_detects (tp : TubePull) (pos : Nat) (v : Sig) (k : PullCtl) :
    Detects tp pos v k (k.detect tp pos v) := by
  have hsize : v.value.x * v.value.x + v.value.y * v.value.y = v.size := rfl
  unfold Detects PullCtl.detect
  simp only [hsize]
  cases hd : k.detector with
  | armed =>
    dsimp only
    rw [atOrAbove_eq]
    by_cases ho : (tp.openT : Int) * tp.openT ≤ v.size
    · obtain ⟨latch, e⟩ := saturate_latch
        { k with detector := .opened [⟨pos, v.value, v.clipped⟩] } tp.policy v
      rw [if_pos (decide_eq_true ho), if_pos ho, e]
      exact ⟨⟨rfl, rfl⟩, rfl⟩
    · rw [if_neg fun e => ho (of_decide_eq_true e), if_neg ho]
      exact ⟨⟨rfl, rfl⟩, hd⟩
  | blocked =>
    dsimp only
    rw [below_eq]
    by_cases hb : v.size < (tp.closeT : Int) * tp.closeT
    · rw [if_pos (decide_eq_true hb), if_pos hb]
      exact ⟨⟨rfl, rfl⟩, rfl⟩
    · rw [if_neg fun e => hb (of_decide_eq_true e), if_neg hb]
      exact ⟨⟨rfl, rfl⟩, hd⟩
  | opened ws =>
    obtain ⟨latch, e⟩ := saturate_latch k tp.policy v
    dsimp only
    rw [below_eq, e, List.length_append]
    by_cases hb : v.size < (tp.closeT : Int) * tp.closeT
    · rw [if_pos (decide_eq_true hb)]
      exact (if_pos hb).mpr ⟨rfl, rfl, rfl⟩
    · rw [if_neg fun e => hb (of_decide_eq_true e)]
      refine (if_neg hb).mpr ?_
      by_cases hmax : ws.length + 1 = 256
      · rw [if_pos (show ws.length + [_].length = Config.windowMax from hmax)]
        exact (if_pos hmax).mpr ⟨rfl, rfl, rfl⟩
      · rw [if_neg (show ws.length + [_].length ≠ Config.windowMax from hmax)]
        exact (if_neg hmax).mpr ⟨⟨rfl, rfl⟩, rfl⟩

/-- Under MASKED the detector writes itself and the records alone (R78). -/
theorem detect_masked (hm : tp.policy = .masked) (pos : Nat) (v : Sig) (k : PullCtl) :
    k.detect tp pos v
      = { k with
          detector := (k.detect tp pos v).detector, found := (k.detect tp pos v).found
          buffer := (k.detect tp pos v).buffer } :=
  detect_eq (latch := k.latch) (detect_detects tp pos v k)
    (fun h => by rw [hm] at h; cases h.1) fun _ => rfl

/-- What one sample from number 17 on leaves of a Pull Controller under MASKED: the support counter has
taken the support value, and the detector the detection value, on its own items. -/
theorem tubeSample_masked (h : 16 ≤ k.samples) (hm : tp.policy = .masked)
    (hv : TraceValue u tp k.null raw tp.detection v) (hw : TraceValue u tp k.null raw tp.support w)
    (pos : Nat) :
    ∃ k', k.tubeSample u tp raw pos = k'
      ∧ k' = { k with
          samples := k.samples + 1
          armed := (k.countSupport pos w.value tp.supportT).armed
          supports := (k.countSupport pos w.value tp.supportT).supports
          supportAt := (k.countSupport pos w.value tp.supportT).supportAt
          detector := k'.detector, found := k'.found, buffer := k'.buffer }
      ∧ Detects tp pos v k k' := by
  have hcount : ({ k with samples := k.samples + 1 } : PullCtl).countSupport pos w.value tp.supportT
      = { k.countSupport pos w.value tp.supportT with samples := k.samples + 1 } := by
    unfold PullCtl.countSupport
    dsimp only
    split
    · split <;> rfl
    · split <;> rfl
  refine ⟨_, tubeSample_values h hv hw pos, ?_, ?_⟩
  · rw [hcount, countSupport_frame]
    exact detect_masked hm pos v _
  · have hdetects := detect_detects tp pos v
      (({ k with samples := k.samples + 1 } : PullCtl).countSupport pos w.value tp.supportT)
    generalize PullCtl.detect _ tp pos v = k' at hdetects ⊢
    rw [hcount, countSupport_frame] at hdetects
    exact hdetects

/-! ## The support counter by its table -/

theorem countSupport_armed_below {t : Nat} (ha : k.armed = true) (hw : w.size < (t : Int) * t)
    (pos : Nat) : k.countSupport pos w.value t = k := by
  rw [countSupport_other (fun h => absurd h.2 (not_le.2 hw)), ha, Bool.true_or, ← ha]

theorem countSupport_disarmed {t : Nat} (ha : k.armed = false) (pos : Nat) :
    k.countSupport pos w.value t = { k with armed := decide (4 * w.size < (t : Int) * t) } := by
  rw [countSupport_other (fun h => Bool.false_ne_true (ha.symm.trans h.1)), ha, Bool.false_or]

/-! ## One output with one position waiting -/

/-- An output with one position waiting, short of the near end and of the thin-data limit, whose sample
latches nothing: the pull goes on with what the sample leaves. -/
theorem exec_output_oneSample {x : Int} (h : InTubePull s c rec tp tb d)
    (hw : (s.chan.get c).waiting = [x]) (hx : 0 < x) (hthin : (s.chan.get c).thin < 64)
    (hl : ((s.pull.get c).tubeSample (s.cal.get c) tp ((s.chan.get c).rawOf values)
      (x / 10).toNat).latch = []) :
    exec (.demodulatorOutput c values) s
      = .next { s with
          chan := s.chan.set c { s.chan.get c with waiting := [] }
          pull := s.pull.set c ((s.pull.get c).tubeSample (s.cal.get c) tp
            ((s.chan.get c).rawOf values) (x / 10).toNat) } := by
  have hne : (s.chan.get c).waiting ≠ [] := by rw [hw]; exact List.cons_ne_nil _ _
  have hzero : 0 ∉ (s.chan.get c).waiting := by
    rw [hw, List.mem_singleton]
    exact hx.ne
  have hstep := processStep_stepped h ((s.chan.get c).rawOf values)
  rw [hw, PullCtl.reportThin_below _ (by exact hthin), stepPositions, List.map_cons, List.map_nil,
    tubeStep_cons h.2.2.2.1, tubeStep] at hstep
  rw [exec_output_continues h.1 hne hstep (by rw [stepped_pull]; exact hl) hzero, State.stepped, hw]
  rfl

theorem rawOf_active {r : RawTrace} (h : ((s.chan.get c).slots.get r.slot).isSome = true) :
    ((s.chan.get c).rawOf values).get r = some (values.get r) := by
  rw [Channel.rawOf, sampleOf, Eight.get_ofFn, if_pos (by exact h)]

/-- Settles O39: the output makes one sample, which the support counter and the detector take by their
tables. -/
theorem samplesReachCounterAndDetector : Obligations.SamplesReachCounterAndDetector := by
  intro s c values rec tp tb d x a b ga gb za zb h hw hx hthin hn hm hdet hsup ha hb hga hgb hza hzb
    k pos v w size window
  have hv : TraceValue (s.cal.get c) tp k.null ((s.chan.get c).rawOf values) tp.detection v := by
    rw [hdet]
    exact ⟨ga, _, za, hga, rawOf_active ha, hza, rfl⟩
  have hw' : TraceValue (s.cal.get c) tp k.null ((s.chan.get c).rawOf values) tp.support w := by
    rw [hsup]
    exact ⟨gb, _, zb, hgb, rawOf_active hb, hzb, rfl⟩
  obtain ⟨k', hk', hframe, hdetects⟩ := tubeSample_masked hn hm hv hw' pos
  have hexec := exec_output_oneSample (values := values) h hw hx hthin (by
    rw [hk', hframe]; exact h.2.2.2.1)
  rw [hk'] at hexec
  have harmed := congrArg PullCtl.armed hframe
  have hsupports := congrArg PullCtl.supports hframe
  have hat := congrArg PullCtl.supportAt hframe
  refine ⟨k', hexec, by rw [hframe], by rw [hframe], by rw [hframe], by rw [hframe], ?_, ?_, ?_, ?_, ?_,
    ?_, ?_⟩
  · rw [hframe]; exact h.2.2.2.1
  · intro hka hcross
    rw [harmed, hsupports, hat, countSupport_crosses (w := w) ⟨hka, hcross⟩]
    exact ⟨rfl, rfl, rfl⟩
  · intro hka hlow
    rw [harmed, hsupports, hat, countSupport_armed_below (w := w) hka hlow]
    exact ⟨hka, rfl, rfl⟩
  · intro hka
    rw [harmed, hsupports, hat, countSupport_disarmed (w := w) hka]
    exact ⟨rfl, rfl, rfl⟩
  all_goals unfold Detects at hdetects
  · intro hd
    rw [hd] at hdetects
    obtain ⟨⟨hfound, hbuffer⟩, hdetector⟩ := hdetects
    exact ⟨hfound, hbuffer, hdetector⟩
  · intro hd
    rw [hd] at hdetects
    obtain ⟨⟨hfound, hbuffer⟩, hdetector⟩ := hdetects
    exact ⟨hfound, hbuffer, hdetector⟩
  · intro ws hd ws' closes
    have hlength : ws'.length = ws.length + 1 := List.length_append ..
    rw [hd, hdet] at hdetects
    refine ⟨fun hc => (if_pos hc).mp hdetects, fun hc hmax => ?_, fun hc hmax => ?_⟩
    · exact (if_pos (hlength ▸ hmax)).mp ((if_neg hc).mp hdetects)
    · obtain ⟨⟨hfound, hbuffer⟩, hdetector⟩ :=
        (if_neg fun e => hmax (hlength.trans e)).mp ((if_neg hc).mp hdetects)
      exact ⟨hdetector, hfound, hbuffer⟩

end Sys2Proof.Machine
end

section
/-!
PULL_END: its refusals, the end checks, and the two ways a tube pull ends (R79, R80, R82 to R84).
-/

namespace Sys2Proof.Machine

variable {s : State} {p : Port} {c : Chan} {b flag : Byte} {rec : PullRecord} {tp : TubePull} {tb : Tube}
  {d : Bool} {row : Row} {why : RefusalCode}

/-! ## The request -/

theorem restrictedOf_set (h : flag.toNat = 1) : restrictedOf flag = some true := by
  rw [restrictedOf, h]
  rfl

theorem restrictedOf_clear (h : flag.toNat = 0) : restrictedOf flag = some false := by
  rw [restrictedOf, h]
  rfl

theorem restrictedOf_flag (h : flag.toNat ≤ 1) : ∃ restricted, restrictedOf flag = some restricted := by
  obtain h | h : flag.toNat = 0 ∨ flag.toNat = 1 := by omega
  · exact ⟨_, restrictedOf_clear h⟩
  · exact ⟨_, restrictedOf_set h⟩

theorem restrictedOf_gt (h : 1 < flag.toNat) : restrictedOf flag = none := by
  unfold restrictedOf
  split
  · omega
  · omega
  · rfl

section
variable (role : (s.ports.get p).role = .crew)
include role

theorem ownPullEnd_range (h : 3 < b.toNat ∨ 1 < flag.toNat) :
    ownPullEnd (b, flag) p s = .refused .range := by
  obtain h | h := h
  · simp [ownPullEnd, role, fin4_of_gt h]
  · cases hb : fin4 b <;> simp [ownPullEnd, role, hb, restrictedOf_gt h]

variable (hc : b.toNat = c.val)
include hc

theorem ownPullEnd_notBound (hf : flag.toNat ≤ 1) (h : s.holdsChan p c = false) :
    ownPullEnd (b, flag) p s = .refused .notBound := by
  obtain ⟨restricted, hr⟩ := restrictedOf_flag hf
  simp [ownPullEnd, role, fin4_of_val hc, hr, h]

variable (holds : s.holdsChan p c = true)
include holds

theorem ownPullEnd_state (hf : flag.toNat ≤ 1) (h : endRefusal (s.chan.get c).state = some why) :
    ownPullEnd (b, flag) p s = .refused why := by
  obtain ⟨restricted, hr⟩ := restrictedOf_flag hf
  simp [ownPullEnd, role, fin4_of_val hc, hr, holds, h]

theorem ownPullEnd_pulling {restricted : Bool} (hr : restrictedOf flag = some restricted)
    (pulling : (s.chan.get c).state = .pulling) :
    ownPullEnd (b, flag) p s
      = .done (s.endBy c (.pullEnd restricted))
          (c1 ((s.endBy c (.pullEnd restricted)).chan.get c).state.code
            ++ c2 (s.pull.get c).samples) := by
  simp [ownPullEnd, role, fin4_of_val hc, hr, holds, pulling, endRefusal]

end

/-! ## The end checks -/

section
variable (lowest : Int) (mismatch : Prop) [Decidable mismatch]

theorem endChecks_restricted :
    endChecks (.pullEnd true) lowest (decide mismatch) []
      = .restricted :: if mismatch then [.supportMismatch] else [] := by
  by_cases h : mismatch <;> simp only [endChecks, h, decide_true, decide_false, if_true, if_false] <;> rfl

theorem endChecks_short (h : 4000 < lowest) :
    endChecks (.pullEnd false) lowest (decide mismatch) []
      = .shortPull :: if mismatch then [.supportMismatch] else [] := by
  have hshort : Config.shortLimit < lowest := h
  by_cases h : mismatch <;>
    simp only [endChecks, hshort, h, decide_true, decide_false, if_true, if_false] <;> rfl

theorem endChecks_long (h : ¬ 4000 < lowest) :
    endChecks (.pullEnd false) lowest (decide mismatch) []
      = if mismatch then [.supportMismatch] else [] := by
  have hshort : ¬ Config.shortLimit < lowest := h
  by_cases h : mismatch <;>
    simp only [endChecks, hshort, h, decide_true, decide_false, if_true, if_false] <;> rfl

end

/-! ## The ends -/

section
variable (h : InTubePull s c rec tp tb d)
  (hrow : s.rows.find? (fun r => r.row == tp.row) = some row)
include h hrow

/-- An end of a tube pull closes the open indication, makes the end checks on the empty latch, and
settles the pull on them (R79, R80). -/
theorem endBy_tube (by_ : EndBy) :
    s.endBy c by_
      = (s.setPull c { (s.pull.get c).closeOpen tp.detection with
          latch := endChecks by_ (s.chan.get c).lowest
            (decide (row.supports ≠ 0
              ∧ ((s.pull.get c).closeOpen tp.detection).supports ≠ row.supports)) [] }).settleTube c
          rec tp := by
  obtain ⟨-, hr, htube, hl, -⟩ := h
  simp only [State.endBy, hr, htube, closeOpen_latch, hl, supportMismatch_of_row hrow]

/-- End checks that find no fault of the error type queue the job. -/
theorem endBy_queued {by_ : EndBy} {l : List PullFault}
    (hl : endChecks by_ (s.chan.get c).lowest
      (decide (row.supports ≠ 0
        ∧ ((s.pull.get c).closeOpen tp.detection).supports ≠ row.supports)) [] = l)
    (hf : reported l = l.head?) (he : ∀ f, reported l = some f → f.isError = false) :
    s.endBy c by_ = JobQueued s c rec tp ((s.pull.get c).closeOpen tp.detection) l := by
  rw [endBy_tube h hrow, hl]
  exact settleTube_queued hf he

/-- End checks that find a fault of the error type end the pull on it. -/
theorem endBy_errorEnd {by_ : EndBy} {l : List PullFault} {f : PullFault}
    (hl : endChecks by_ (s.chan.get c).lowest
      (decide (row.supports ≠ 0
        ∧ ((s.pull.get c).closeOpen tp.detection).supports ≠ row.supports)) [] = l)
    (hf : reported l = some f) (he : f.isError = true) (hlimit : s.plan.attemptLimit ≤ 5) :
    s.endBy c by_
      = ErrorEnded { s with pull := s.pull.set c ((s.pull.get c).closeOpen tp.detection) } c rec tp tb d
          l f := by
  have hsettle := endBy_tube h hrow by_
  obtain ⟨-, -, -, -, ht, hs⟩ := h
  rw [hsettle, hl]
  generalize (s.pull.get c).closeOpen tp.detection = k
  have hk : (s.setPull c { k with latch := l }).pull.get c = { k with latch := l } :=
    Quad.get_set_same ..
  have hreported : reported ((s.setPull c { k with latch := l }).pull.get c).latch = some f := by
    rw [hk]; exact hf
  simp only [State.settleTube, hreported, he, if_true]
  rw [errorEnd_reported (s := s.setPull c { k with latch := l }) ht hs hreported hlimit, hk]
  simp only [ErrorEnded, State.setPull, Quad.set_set, Quad.get_set_same]
  rfl

end

theorem jobQueued_sizing (s : State) (c : Chan) (rec : PullRecord) (tp : TubePull) (k : PullCtl)
    (latch : List PullFault) : ((JobQueued s c rec tp k latch).chan.get c).state = .sizing :=
  congrArg Channel.state (Quad.get_set_same ..)

theorem errorEnded_held (s : State) (c : Chan) (rec : PullRecord) (tp : TubePull) (tb : Tube) (d : Bool)
    (latch : List PullFault) (f : PullFault) :
    ((ErrorEnded s c rec tp tb d latch f).chan.get c).state = .held :=
  congrArg Channel.state (Quad.get_set_same ..)

/-- Settles O40: the refusals in their order, and the end checks with the end that they give. -/
theorem pullEndMakesTheEndChecks : Obligations.PullEndMakesTheEndChecks := by
  refine ⟨?_, ?_⟩
  · intro s p b flag h attached
    have hx : readTwo [b, flag] = some (b, flag) := rfl
    exact ⟨fun role => attached_refused ownPullEnd .role h attached hx (if_pos role),
      fun role hgt => attached_refused ownPullEnd .range h attached hx (ownPullEnd_range role hgt),
      fun role c hc hf holds =>
        attached_refused ownPullEnd .notBound h attached hx (ownPullEnd_notBound role hc hf holds)⟩
  · intro s p b flag c h role hc hf holds
    have hx : readTwo [b, flag] = some (b, flag) := rfl
    have attached := attached_of_crew role
    have refused : ∀ why, endRefusal (s.chan.get c).state = some why →
        Refuses (.pullEnd p [b, flag]) s p why.code := fun why e =>
      attached_refused ownPullEnd why h attached hx (ownPullEnd_state role hc holds hf e)
    refine ⟨fun e => refused .state ?_, fun e => refused .ended ?_, ?_⟩
    · obtain e | e := e <;> rw [e] <;> rfl
    · obtain e | e := e <;> rw [e] <;> rfl
    intro rec tp tb d row pull hrow _ hlimit k mismatch short sent
    have ended : ∀ restricted t, restrictedOf flag = some restricted →
        s.endBy c (.pullEnd restricted) = t →
        exec (.pullEnd p [b, flag]) s
          = .next (t.answered p 0xF0 (c1 (t.chan.get c).state.code ++ sent)) := by
      rintro restricted t hr rfl
      exact attached_done ownPullEnd h attached hx (ownPullEnd_pulling role hc holds hr pull.1)
    refine ⟨fun hr => ?_, fun hr long => ?_, fun hr hshort => ?_⟩
    · rw [ended true _ (restrictedOf_set hr)
        (endBy_queued pull hrow (endChecks_restricted ..) ?_ ?_), jobQueued_sizing]
      · rfl
      · split <;> rfl
      · split <;> rintro f ⟨⟩ <;> rfl
    · rw [ended false _ (restrictedOf_clear hr)
        (endBy_queued pull hrow (endChecks_long _ _ long) ?_ ?_), jobQueued_sizing]
      · rfl
      · split <;> rfl
      · split
        · rintro f ⟨⟩; rfl
        · exact nofun
    · rw [ended false _ (restrictedOf_clear hr)
        (endBy_errorEnd (f := .shortPull) pull hrow (endChecks_short _ _ hshort) ?_ rfl hlimit),
        errorEnded_held]
      · rfl
      · split <;> rfl

end Sys2Proof.Machine
end

section
/-!
How a record is formed, buffered and located (R75 to R77, R79, R84).
-/

namespace Sys2Proof.Machine

/-! ## The record of a window -/

theorem recordOf_centre {w : List WindowSample} {centre : WindowSample}
    (h : w[(w.length - 1) / 2]? = some centre) (trace : Trace) (long : Bool) :
    recordOf w trace long
      = { position := centre.position, trace := trace
          amplitude := peakAmplitude (w.map WindowSample.value)
          phase := peakPhase (w.map WindowSample.value)
          clipped := decide (∃ y ∈ w, y.clipped = true), long := long } := by
  have hclipped : w.any WindowSample.clipped = decide (∃ y ∈ w, y.clipped = true) := by
    rw [Bool.eq_iff_iff, List.any_eq_true, decide_eq_true_iff]
  rw [recordOf, h, hclipped]
  rfl

theorem closeOpen_opened {k : PullCtl} {w : List WindowSample} (h : k.detector = .opened w)
    (trace : Trace) : k.closeOpen trace = k.close w trace false .armed := by
  rw [PullCtl.closeOpen, h]

theorem closeOpen_other {k : PullCtl} (h : ∀ w, k.detector ≠ .opened w) (trace : Trace) :
    k.closeOpen trace = k := by
  unfold PullCtl.closeOpen
  split
  · next w e => exact absurd e (h w)
  · rfl

/-! ## The buffer -/

theorem offer_room {buffer : List Found} (h : buffer.length < 24) (f : Found) :
    offer buffer f = buffer ++ [f] := if_pos h

/-- A full buffer drops one of the 25 records: none has a smaller amplitude, and those that closed after
it have a greater one (R77). -/
theorem offer_full {buffer : List Found} (h : buffer.length = 24) (f : Found) :
    ∃ before dropped after,
      buffer ++ [f] = before ++ dropped :: after ∧ offer buffer f = before ++ after
      ∧ (∀ g ∈ before, dropped.amplitude ≤ g.amplitude)
      ∧ ∀ g ∈ after, dropped.amplitude < g.amplitude := by
  have hoffer : offer buffer f = dropLastOf (leastAmplitude buffer f.amplitude) (buffer ++ [f]) :=
    if_neg (by rw [h]; decide)
  obtain ⟨hoffered, hbuffered, hattained⟩ := leastAmplitude_least buffer f.amplitude
  generalize leastAmplitude buffer f.amplitude = least at *
  have hleast : ∀ g ∈ buffer ++ [f], least ≤ g.amplitude := by
    intro g hg
    obtain hg | hg := List.mem_append.1 hg
    · exact hbuffered g hg
    · rw [List.mem_singleton.1 hg]; exact hoffered
  have hexists : ∃ g ∈ buffer ++ [f], g.amplitude = least := by
    obtain e | ⟨g, hg, e⟩ := hattained
    · exact ⟨f, List.mem_append_right _ (List.mem_singleton_self f), e.symm⟩
    · exact ⟨g, List.mem_append_left _ hg, e⟩
  obtain ⟨before, dropped, after, hsplit, hdrop, rfl, hafter⟩ := dropLastOf_drops least _ hexists
  rw [hsplit] at hleast
  refine ⟨before, dropped, after, hsplit, hoffer.trans hdrop, fun g hg => ?_, fun g hg => ?_⟩
  · exact hleast g (List.mem_append_left _ hg)
  · exact (hleast g (List.mem_append_right _ (List.mem_cons_of_mem _ hg))).lt_of_ne'
      (hafter g hg)

/-! ## The location -/

theorem distance_eq (a b : Nat) : distance a b = ((a : Int) - b).natAbs := by
  unfold distance; omega

theorem mem_numbered {n : Nat} {l : List Nat} {x : Nat × Nat} :
    x ∈ numbered n l ↔ ∃ k, l[k]? = some x.2 ∧ x.1 = n - k := by
  obtain ⟨number, pos⟩ := x
  simp only [List.mem_iff_getElem?, numbered_getElem?, Option.map_eq_some_iff, Prod.mk.injEq]
  constructor
  · rintro ⟨k, a, hk, rfl, rfl⟩
    exact ⟨k, hk, rfl⟩
  · rintro ⟨k, hk, rfl⟩
    exact ⟨k, pos, hk, rfl, rfl⟩

theorem locate_unsupported (n : Nat) (f : Found) : (locate n [] f).support = none := rfl

/-- A record is located at the nearest support, of two equally near at the lower (R84). -/
theorem locate_nearest (n : Nat) {l : List Nat} (h : l ≠ []) (f : Found) :
    ∃ k pos : Nat, l[k]? = some pos
      ∧ (locate n l f).support = some (n - k, (f.position : Int) - pos)
      ∧ ∀ other ∈ l, distance f.position pos ≤ distance f.position other
          ∧ (distance f.position pos = distance f.position other → pos ≤ other) := by
  have hne : numbered n l ≠ [] := by
    cases l with
    | nil => exact absurd rfl h
    | cons => exact List.cons_ne_nil _ _
  obtain ⟨⟨number, pos⟩, hnearest, hmem, hleast⟩ := (nearest_spec f.position (numbered n l)).2 hne
  obtain ⟨k, hk, rfl⟩ := mem_numbered.1 hmem
  refine ⟨k, pos, hk, ?_, fun other hother => ?_⟩
  · simp only [locate, hnearest, Option.map_some]
  · obtain ⟨i, hi⟩ := List.mem_iff_getElem?.1 hother
    exact hleast (n - i, other) (mem_numbered.2 ⟨i, hi, rfl⟩)

/-- Settles O41: the record of a window, the end of an open one, the buffer, and the location. -/
theorem recordsAreBufferedAndLocated : Obligations.RecordsAreBufferedAndLocated := by
  refine ⟨fun w trace long centre h => recordOf_centre h trace long,
    fun k trace => ⟨fun w h => closeOpen_opened h trace, fun h => closeOpen_other h trace⟩,
    fun buffer f => ⟨fun h => offer_room h f, fun h => offer_full h f⟩,
    fun n supportAt f _ => ⟨rfl, ?_, fun h => ?_⟩⟩
  · rintro rfl
    exact locate_unsupported n f
  · obtain ⟨k, pos, hk, hsupport, hleast⟩ := locate_nearest n h f
    simp only [distance_eq] at hleast
    exact ⟨k, pos, hk, hsupport, hleast⟩

end Sys2Proof.Machine
end

section
/-!
SUPPORT. What a curve that CURVE_SET accepts gives at a folded phase (R103, R104).
-/

namespace Sys2Proof.Machine

variable {c : Curve} {p : Nat}

theorem Curve.valid.fits (h : c.valid) : CurveFits c.points := by
  by_contra hn
  rw [Curve.valid, curveOf_of_not_fits hn] at h
  cases h

theorem curveOf_valid {l : List CurvePoint} (h : curveOf l = some c) : c.valid := by
  have hfits : CurveFits l := by
    by_contra hn
    rw [curveOf_of_not_fits hn] at h
    cases h
  match l, hfits, h with
  | a :: b :: rest, hfits, h =>
    rw [curveOf_of_fits hfits] at h
    cases h
    exact curveOf_of_fits hfits

/-- A whole number of steps is its own rounded quotient. -/
theorem roundHalfEven_mul (q : Int) {d : Int} (hd : 0 < d) : roundHalfEven (q * d) d = q :=
  let ⟨hlo, hhi⟩ := roundHalfEven_between (q * d) d hd q q le_rfl le_rfl
  le_antisymm hhi hlo

/-- R93: the rounded quotient, in the words of the statements. -/
theorem roundHalfEven_roundsTo (n : Int) {d : Int} (hd : 0 < d) : RoundsTo n d (roundHalfEven n d) := by
  have hnear := roundHalfEven_nearest n d hd
  rwa [Int.natAbs_mul] at hnear

/-- From the first point on, the reading is that along the points; at the first point they agree. -/
theorem Curve.valid.read_along (h : c.valid) (hp : c.first.phase ≤ p) :
    c.read p = depthAlong p c.first (c.second :: c.more) := by
  rw [Curve.read]
  split
  · next hle =>
    obtain rfl : p = c.first.phase := le_antisymm hle hp
    obtain ⟨-, -, -, ordered⟩ := h.fits
    obtain ⟨hnext, -⟩ := (List.pairwise_cons.1 ordered).1 c.second (List.mem_cons_self ..)
    rw [depthAlong, if_pos hnext, sub_self, zero_mul, add_zero, roundHalfEven_mul _ (by omega),
      Int.toNat_natCast, decide_eq_false (Nat.lt_irrefl _)]
  · rfl

theorem Curve.valid.read_le (h : c.valid) (p : Nat) : (c.read p).1 ≤ 100 := by
  obtain ⟨-, -, hrange, ordered⟩ := h.fits
  rcases le_total c.first.phase p with hp | hp
  · rw [h.read_along hp]
    exact (depthAlong_reads p _ _ hp ordered fun q hq => (hrange q hq).2).1
  · rw [Curve.read, if_pos hp]
    exact (hrange c.first (List.mem_cons_self ..)).2

theorem Curve.valid.first_le (h : c.valid) {q : CurvePoint} (hq : q ∈ c.points) :
    c.first.phase ≤ q.phase := by
  obtain ⟨-, -, -, ordered⟩ := h.fits
  rcases List.mem_cons.1 hq with rfl | hq
  · exact le_rfl
  · exact ((List.pairwise_cons.1 ordered).1 q hq).1.le

theorem Curve.valid.read_last (h : c.valid) {last : CurvePoint} (hl : c.points.getLast? = some last)
    (hp : last.phase ≤ p) : c.read p = (last.depth, decide (last.phase < p)) := by
  have hfirst : c.first.phase ≤ p := (h.first_le (List.mem_of_getLast? hl)).trans hp
  obtain ⟨-, -, hrange, ordered⟩ := h.fits
  obtain ⟨-, reads, -⟩ := depthAlong_reads p _ _ hfirst ordered fun q hq => (hrange q hq).2
  rw [h.read_along hfirst]
  exact reads last hl hp

/-- Between two points the depth is the interpolation rounded half to even, with the flag clear. -/
theorem Curve.valid.read_between (h : c.valid) {i : Nat} {a b : CurvePoint}
    (ha : c.points[i]? = some a) (hb : c.points[i + 1]? = some b) (hap : a.phase ≤ p)
    (hpb : p < b.phase) :
    (c.read p).2 = false ∧ RoundsTo ((a.depth : Int) * ((b.phase : Int) - a.phase)
        + ((p : Int) - a.phase) * ((b.depth : Int) - a.depth)) ((b.phase : Int) - a.phase)
      ((c.read p).1 : Int) := by
  have hfirst : c.first.phase ≤ p := (h.first_le (List.mem_of_getElem? ha)).trans hap
  have hw : (0 : Int) < (b.phase : Int) - a.phase := by omega
  have hn : 0 * ((b.phase : Int) - a.phase) ≤ (a.depth : Int) * ((b.phase : Int) - a.phase)
      + ((p : Int) - a.phase) * ((b.depth : Int) - a.depth) := by
    have h1 : (0 : Int) ≤ a.depth * ((b.phase : Int) - p) := mul_nonneg (by omega) (by omega)
    have h2 : (0 : Int) ≤ ((p : Int) - a.phase) * b.depth := mul_nonneg (by omega) (by omega)
    linarith
  obtain ⟨-, -, hrange, ordered⟩ := h.fits
  obtain ⟨-, -, reads⟩ := depthAlong_reads p _ _ hfirst ordered fun q hq => (hrange q hq).2
  rw [h.read_along hfirst, reads i a b ha hb hap hpb]
  refine ⟨rfl, ?_⟩
  generalize (a.depth : Int) * ((b.phase : Int) - a.phase)
    + ((p : Int) - a.phase) * ((b.depth : Int) - a.depth) = n at hn
  have hrounds := roundHalfEven_roundsTo n hw
  have hpos : 0 ≤ roundHalfEven n ((b.phase : Int) - a.phase) := by
    by_contra hneg
    have : roundHalfEven n ((b.phase : Int) - a.phase) * ((b.phase : Int) - a.phase)
        ≤ (-1) * ((b.phase : Int) - a.phase) :=
      mul_le_mul_of_nonneg_right (by omega) hw.le
    obtain ⟨hdist, -⟩ := hrounds
    omega
  dsimp only
  rw [Int.toNat_of_nonneg hpos]
  exact hrounds

/-- The depth of a record under an accepted curve is INDEFINITE or 0 to 100 (R103, R104). -/
theorem Curve.valid.depthOf_inRange (h : c.valid) (r : Found) : (depthOf c r).1.inRange := by
  unfold depthOf
  split
  · trivial
  · exact h.read_le r.phase

end Sys2Proof.Machine
end

section
/-!
Every step keeps the law of computed values (R105): the curves in use, the phases recorded, the records
stored and the depths that rate a tube are those of the state before, or lie in their ranges.
-/

namespace Sys2Proof.Machine

variable {s t r : State} {c : Chan} {k : PullCtl}

/-! ## The values of a state -/

/-- The curve is the plan's, or the job's or the step's in flight. -/
def State.UsesCurve (s : State) (cv : Curve) : Prop :=
  s.plan.curve = some cv ∨ (∃ j st, s.sizing.flight = some (j, st) ∧ st.curve = cv)
    ∨ ∃ st, s.sizing.step = some st ∧ st.curve = cv

/-- The phase is that of a record in a pull buffer or in a job. -/
def State.RecordsPhase (s : State) (n : Nat) : Prop :=
  (∃ c, ∃ f ∈ (s.pull.get c).buffer, f.phase = n) ∨ ∃ j ∈ s.jobs, ∃ f ∈ j.records, f.phase = n

/-- A stored record whose phase and depth lie in their ranges (R101, R103, R104). -/
def Indication.InRange (x : Indication) : Prop := x.phase < 1800 ∧ x.depth.inRange

/-- A tube whose list and worst depth lie in their ranges. -/
structure Tube.InRange (tb : Tube) : Prop where
  list : ∀ x ∈ tb.list, x.InRange
  worst : ∀ d, tb.worst = some d → d.inRange

/-- Each value of `t` is one of `s`, or lies in its range. -/
structure ValuesKept (s t : State) : Prop where
  curves : ∀ cv, t.UsesCurve cv → s.UsesCurve cv ∨ cv.valid
  phases : ∀ n, t.RecordsPhase n → s.RecordsPhase n ∨ n < 1800
  tubes : ∀ tb ∈ t.tubes, (∃ tb' ∈ s.tubes, tb.list = tb'.list ∧ tb.worst = tb'.worst) ∨ tb.InRange

theorem ValueLaw.curve_valid (h : ValueLaw s) {cv : Curve} (hc : s.UsesCurve cv) : cv.valid := by
  obtain hc | ⟨j, st, hf, rfl⟩ | ⟨st, hst, rfl⟩ := hc
  · exact h.curve cv hc
  · exact h.flight j st hf
  · exact h.step st hst

theorem ValueLaw.phase_lt (h : ValueLaw s) {n : Nat} (hn : s.RecordsPhase n) : n < 1800 := by
  obtain ⟨c, f, hf, rfl⟩ | ⟨j, hj, f, hf, rfl⟩ := hn
  · exact h.buffer c f hf
  · exact h.jobs j hj f hf

theorem ValueLaw.tube_inRange (h : ValueLaw s) {tb : Tube} (ht : tb ∈ s.tubes) : tb.InRange :=
  ⟨h.stored tb ht, h.worst tb ht⟩

theorem ValueLaw.of_kept (h : ValueLaw s) (k : ValuesKept s t) : ValueLaw t := by
  have curves : ∀ cv, t.UsesCurve cv → cv.valid := fun cv hc => (k.curves cv hc).elim h.curve_valid id
  have phases : ∀ n, t.RecordsPhase n → n < 1800 := fun n hn => (k.phases n hn).elim h.phase_lt id
  have tubes : ∀ tb ∈ t.tubes, tb.InRange := fun tb hm => by
    obtain ⟨tb', hm', hl, hw⟩ | hr := k.tubes tb hm
    · obtain ⟨list, worst⟩ := h.tube_inRange hm'
      exact ⟨by rw [hl]; exact list, by rw [hw]; exact worst⟩
    · exact hr
  exact
    { curve := fun cv hc => curves cv (.inl hc)
      flight := fun j st hf => curves _ (.inr (.inl ⟨j, st, hf, rfl⟩))
      step := fun st hst => curves _ (.inr (.inr ⟨st, hst, rfl⟩))
      buffer := fun c f hf => phases _ (.inl ⟨c, f, hf, rfl⟩)
      jobs := fun j hj f hf => phases _ (.inr ⟨j, hj, f, hf, rfl⟩)
      stored := fun tb hm => (tubes tb hm).list
      worst := fun tb hm => (tubes tb hm).worst }

theorem ValuesKept.trans (h : ValuesKept s t) (k : ValuesKept t r) : ValuesKept s r where
  curves := fun cv hc => (k.curves cv hc).elim (h.curves cv) .inr
  phases := fun n hn => (k.phases n hn).elim (h.phases n) .inr
  tubes := fun tb hm => by
    obtain ⟨tb', hm', hl, hw⟩ | hr := k.tubes tb hm
    · obtain ⟨tb'', hm'', hl', hw'⟩ | ⟨list, worst⟩ := h.tubes tb' hm'
      · exact .inl ⟨tb'', hm'', hl.trans hl', hw.trans hw'⟩
      · exact .inr ⟨by rw [hl]; exact list, by rw [hw]; exact worst⟩
    · exact .inr hr

/-! ## Writes of one part -/

/-- The Sizing Unit is the same, and the plan's curve is, or is absent or valid. -/
theorem ValuesKept.of_parts (hplan : ∀ cv, t.plan.curve = some cv → s.plan.curve = some cv ∨ cv.valid)
    (hz : t.sizing = s.sizing)
    (hbuf : ∀ c, ∀ f ∈ (t.pull.get c).buffer, f ∈ (s.pull.get c).buffer ∨ f.phase < 1800)
    (htubes : ∀ tb ∈ t.tubes,
      (∃ tb' ∈ s.tubes, tb.list = tb'.list ∧ tb.worst = tb'.worst) ∨ tb.InRange) :
    ValuesKept s t where
  curves := fun cv hc => by
    obtain hc | hc := hc
    · exact (hplan cv hc).imp .inl id
    · exact .inl (.inr (by rwa [hz] at hc))
  phases := fun n hn => by
    obtain ⟨c, f, hf, rfl⟩ | hj := hn
    · exact (hbuf c f hf).imp (fun hf => .inl ⟨c, f, hf, rfl⟩) id
    · exact .inl (.inr (by rwa [State.jobs, hz] at hj))
  tubes := htubes

theorem same_tubes (ht : t.tubes = s.tubes) : ∀ tb ∈ t.tubes,
    (∃ tb' ∈ s.tubes, tb.list = tb'.list ∧ tb.worst = tb'.worst) ∨ tb.InRange :=
  fun tb hm => .inl ⟨tb, ht ▸ hm, rfl, rfl⟩

theorem ValuesKept.of_eq (hplan : t.plan.curve = s.plan.curve) (hz : t.sizing = s.sizing)
    (hp : t.pull = s.pull) (ht : t.tubes = s.tubes) : ValuesKept s t :=
  .of_parts (fun _ hc => .inl (hplan ▸ hc)) hz (fun c f hf => .inl (by rwa [hp] at hf)) (same_tubes ht)

/-- One controller is written, and its buffer holds no new record of a phase out of range. -/
theorem ValuesKept.of_pull (hplan : t.plan = s.plan) (hz : t.sizing = s.sizing)
    (hp : t.pull = s.pull.set c k) (ht : t.tubes = s.tubes)
    (hk : ∀ f ∈ k.buffer, f ∈ (s.pull.get c).buffer ∨ f.phase < 1800) : ValuesKept s t := by
  refine .of_parts (fun _ hc => .inl (hplan ▸ hc)) hz (fun d f hf => ?_) (same_tubes ht)
  rw [hp, Quad.get_set] at hf
  split at hf
  · next e => subst e; exact hk f hf
  · exact .inl hf

/-- Tube records are rewritten, each with its list and worst depth or with such as lie in range. -/
theorem ValuesKept.of_retubed {R : Nat → Tube → Tube → Prop} (h : Retubed R s.tubes t.tubes)
    (hR : ∀ i tb tb', R i tb tb' → tb'.list = tb.list ∧ tb'.worst = tb.worst ∨ tb'.InRange)
    (hplan : t.plan.curve = s.plan.curve) (hz : t.sizing = s.sizing) (hp : t.pull = s.pull) :
    ValuesKept s t := by
  refine .of_parts (fun _ hc => .inl (hplan ▸ hc)) hz (fun c f hf => .inl (by rwa [hp] at hf))
    fun tb' hm => ?_
  obtain ⟨i, hi⟩ := List.getElem?_of_mem hm
  obtain ⟨tb, htb, hw⟩ := h.bwd hi
  exact (hR i tb tb' hw).imp (fun e => ⟨tb, List.mem_of_getElem? htb, e⟩) id

/-- The tube at one index is written with its list and worst depth, or with such as lie in range. -/
theorem ValuesKept.of_modify {i : Nat} {g : Tube → Tube} (ht : t.tubes = s.tubes.modify i g)
    (hg : ∀ tb, s.tubes[i]? = some tb →
      (g tb).list = tb.list ∧ (g tb).worst = tb.worst ∨ (g tb).InRange)
    (hplan : t.plan.curve = s.plan.curve) (hz : t.sizing = s.sizing) (hp : t.pull = s.pull) :
    ValuesKept s t :=
  .of_retubed
    (R := fun _ tb tb' => tb'.list = tb.list ∧ tb'.worst = tb.worst ∨ tb'.InRange)
    (ht ▸ .modify (fun _ _ => .inl ⟨rfl, rfl⟩) hg) (fun _ _ _ h => h) hplan hz hp

theorem ValuesKept.of_claims (h : ClaimsWritten s t) : ValuesKept s t :=
  .of_retubed h.tubes (fun _ tb tb' e => .inl (by rw [e]; exact ⟨rfl, rfl⟩))
    (congrArg Plan.curve h.plan) h.sizing h.pull

theorem ValuesKept.invalidate (s : State) (c : Chan) : ValuesKept s (s.invalidate c) :=
  .of_retubed (R := fun _ tb tb' => tb'.list = tb.list ∧ tb'.worst = tb.worst)
    (.invalidate (fun _ _ => ⟨rfl, rfl⟩) fun _ _ _ _ => ⟨rfl, rfl⟩) (fun _ _ _ h => .inl h) rfl rfl rfl

theorem ValuesKept.forceUnbind (s : State) (c : Chan) : ValuesKept s (s.forceUnbind c) := by
  obtain ⟨ports, e⟩ := forceUnbind_parts s c
  rw [e]
  refine (ValuesKept.invalidate s c).trans (.of_pull (c := c) rfl rfl rfl rfl fun f hf => .inl hf)

end Sys2Proof.Machine
end

section
/-!
Every step keeps the law of computed values (R105): each action.
-/

namespace Sys2Proof.Machine

variable {s t : State} {c : Chan} {p : Port} {u : Tag} {k k' : PullCtl} {rec : PullRecord} {tp : TubePull}

/-! ## The pull buffer -/

/-- A folded phase is below 180.0 degrees (R101). -/
theorem phaseOf_lt (v : Vec) : phaseOf v < 1800 := Nat.mod_lt _ (by decide)

/-- Each record of `k'` is one of `k`, or its phase lies in range. -/
structure PullCtl.BufferKept (k k' : PullCtl) : Prop where
  phases : ∀ f ∈ k'.buffer, f ∈ k.buffer ∨ f.phase < 1800

theorem PullCtl.BufferKept.of_eq (h : k'.buffer = k.buffer) : k.BufferKept k' :=
  ⟨fun _ hf => .inl (h ▸ hf)⟩

theorem PullCtl.BufferKept.trans {k'' : PullCtl} (h : k.BufferKept k') (h' : k'.BufferKept k'') :
    k.BufferKept k'' := ⟨fun f hf => (h'.phases f hf).elim (h.phases f) .inr⟩

theorem dropLastOf_sublist (a : Nat) (l : List Found) : (dropLastOf a l).Sublist l := by
  induction l with
  | nil => exact .refl _
  | cons f l ih =>
    rw [dropLastOf]
    split
    · exact ih.cons_cons f
    · split
      · exact List.sublist_cons_self f l
      · exact ih.cons_cons f

theorem mem_of_mem_offer {buffer : List Found} {f g : Found} (h : g ∈ offer buffer f) :
    g ∈ buffer ∨ g = f := by
  have happend : g ∈ buffer ++ [f] := by
    unfold offer at h
    split at h
    · exact h
    · exact (dropLastOf_sublist _ _).subset h
  simpa using happend

/-- A window that closes offers a record with a folded phase (R76). -/
theorem bufferKept_close (k : PullCtl) (w : List WindowSample) (trace : Trace) (long : Bool)
    (next : Detector) : k.BufferKept (k.close w trace long next) := by
  refine ⟨fun f hf => ?_⟩
  obtain hf | rfl := mem_of_mem_offer hf
  · exact .inl hf
  · exact .inr (phaseOf_lt _)

theorem bufferKept_closeOpen (k : PullCtl) (trace : Trace) : k.BufferKept (k.closeOpen trace) := by
  unfold PullCtl.closeOpen
  split
  · exact bufferKept_close ..
  · exact .of_eq rfl

theorem bufferKept_detect (k : PullCtl) (tp : TubePull) (pos : Nat) (v : Sig) :
    k.BufferKept (k.detect tp pos v) := by
  have saturated : ∀ x : PullCtl, x.buffer = k.buffer → k.BufferKept (x.saturate tp.policy v) := by
    intro x hx
    obtain ⟨latch, e⟩ := saturate_latch x tp.policy v
    rw [e]
    exact .of_eq hx
  unfold PullCtl.detect
  dsimp only
  split
  · split
    · exact saturated _ rfl
    · exact .of_eq rfl
  · split
    · exact (saturated k rfl).trans (bufferKept_close ..)
    · split
      · exact (saturated k rfl).trans (bufferKept_close ..)
      · exact (saturated k rfl).trans (.of_eq rfl)
  · split <;> exact .of_eq rfl

theorem bufferKept_tubeSample (unit : CalUnit) (tp : TubePull) (raw : RawSample) (k : PullCtl)
    (pos : Nat) : k.BufferKept (k.tubeSample unit tp raw pos) := by
  have counted : ∀ (x : PullCtl) (v : Vec), x.BufferKept (x.countSupport pos v tp.supportT) :=
    fun x v => by
      rw [countSupport_frame]
      exact .of_eq rfl
  have hk : k.BufferKept { k with samples := k.samples + 1 } := .of_eq rfl
  unfold PullCtl.tubeSample
  dsimp only
  split
  · exact .of_eq rfl
  · cases traceValue unit tp k.null (calibrateAll unit.gains raw) tp.support with
    | none =>
      cases traceValue unit tp k.null (calibrateAll unit.gains raw) tp.detection with
      | none => exact hk
      | some v => exact hk.trans (bufferKept_detect ..)
    | some w =>
      cases traceValue unit tp k.null (calibrateAll unit.gains raw) tp.detection with
      | none => exact hk.trans (counted ..)
      | some v => exact (hk.trans (counted ..)).trans (bufferKept_detect ..)

theorem bufferKept_tubeStep (unit : CalUnit) (tp : TubePull) (raw : RawSample) (l : List Nat) :
    ∀ k : PullCtl, k.BufferKept (tubeStep unit tp raw l k) := by
  induction l with
  | nil => exact fun _ => .of_eq rfl
  | cons pos rest ih =>
    intro k
    unfold tubeStep
    split
    · exact (bufferKept_tubeSample ..).trans (ih _)
    · exact .of_eq rfl

theorem bufferKept_reportThin (k : PullCtl) (thin : Nat) : k.BufferKept (k.reportThin thin) := by
  unfold PullCtl.reportThin
  split <;> exact .of_eq rfl

theorem ValuesKept.processStep (s : State) (c : Chan) (raw : RawSample) :
    ValuesKept s (s.processStep c raw) := by
  cases hr : (s.pull.get c).record.bind PullRecord.tube with
  | none =>
    rw [processStep_cal hr]
    have counted : (s.pull.get c).BufferKept { s.pull.get c with
        samples := (calStep raw (stepPositions (s.chan.get c).waiting) (s.pull.get c).samples
          (s.cal.get c).capture).1 } := .of_eq rfl
    exact .of_pull (c := c) rfl rfl rfl rfl (counted.trans (bufferKept_reportThin ..)).phases
  | some tp =>
    obtain ⟨rec, hrec, htube⟩ := Option.bind_eq_some_iff.1 hr
    rw [processStep_tube hrec htube]
    exact .of_pull (c := c) rfl rfl rfl rfl
      ((bufferKept_tubeStep ..).trans (bufferKept_reportThin ..)).phases

/-! ## The Sizing Unit -/

/-- The Sizing Unit is written, with curves in use and with records of phases recorded. -/
theorem ValuesKept.of_sizing (hplan : t.plan = s.plan)
    (hflight : ∀ j st, t.sizing.flight = some (j, st) → s.UsesCurve st.curve)
    (hstep : ∀ st, t.sizing.step = some st → s.UsesCurve st.curve)
    (hjobs : ∀ j ∈ t.jobs, ∀ f ∈ j.records, s.RecordsPhase f.phase)
    (hp : t.pull = s.pull) (ht : t.tubes = s.tubes) : ValuesKept s t where
  curves := fun cv hc => by
    left
    obtain hc | ⟨j, st, hf, rfl⟩ | ⟨st, hst, rfl⟩ := hc
    · exact .inl (hplan ▸ hc)
    · exact hflight j st hf
    · exact hstep st hst
  phases := fun n hn => by
    left
    obtain ⟨c, f, hf, rfl⟩ | ⟨j, hj, f, hf, rfl⟩ := hn
    · exact .inl ⟨c, f, hp ▸ hf, rfl⟩
    · exact hjobs j hj f hf
  tubes := same_tubes ht

theorem jobs_recorded (h : ∀ j ∈ t.jobs, ∃ j' ∈ s.jobs, j.records = j'.records) :
    ∀ j ∈ t.jobs, ∀ f ∈ j.records, s.RecordsPhase f.phase := fun j hj f hf => by
  obtain ⟨j', hj', e⟩ := h j hj
  exact .inr ⟨j', hj', f, e ▸ hf, rfl⟩

/-- Jobs and steps read the curve in force (R140, R163). -/
theorem usesCurve_of_settings {st : Settings} (h : s.plan.settings = some st) :
    s.UsesCurve st.curve := by
  obtain ⟨cv, hcv, rfl⟩ := Option.map_eq_some_iff.1 h
  exact .inl hcv

theorem usesCurve_of_flight {j : Job} {st : Settings} (h : s.sizing.flight = some (j, st)) :
    s.UsesCurve st.curve := .inr (.inl ⟨j, st, h, rfl⟩)

theorem usesCurve_of_step {st : Settings} (h : s.sizing.step = some st) : s.UsesCurve st.curve :=
  .inr (.inr ⟨st, h, rfl⟩)

theorem ValuesKept.jobBegin {j : Job} {rest : List Job} {st : Settings} (idle : s.unitIdle = true)
    (queue : s.sizing.queue = j :: rest) (settings : s.plan.settings = some st) :
    ValuesKept s (s.setSizing { s.sizing with queue := rest, flight := some (j, st) }) := by
  refine .of_sizing rfl (fun j' st' h => ?_) (fun _ h => usesCurve_of_step h)
    (jobs_recorded fun j' hj' => ⟨j', (jobBegin_jobs st idle queue).mem_iff.1 hj', rfl⟩) rfl rfl
  cases h
  exact usesCurve_of_settings settings

theorem ValuesKept.startPass (s : State) : ValuesKept s s.startPass :=
  .of_sizing rfl (fun _ _ h => usesCurve_of_flight h) (fun _ h => by cases h)
    (jobs_recorded fun j hj => ⟨j, hj, rfl⟩) rfl rfl

theorem ValuesKept.stepBegin {st : Settings} (settings : s.plan.settings = some st) :
    ValuesKept s (s.setSizing { s.sizing with step := some st }) :=
  .of_sizing rfl (fun _ _ h => usesCurve_of_flight h)
    (fun _ h => by cases h; exact usesCurve_of_settings settings)
    (jobs_recorded fun j hj => ⟨j, hj, rfl⟩) rfl rfl

theorem ValuesKept.orphan (s : State) (p : Port) :
    ValuesKept s (s.setSizing
      { s.sizing with
        queue := s.sizing.queue.map (s.markJob p)
        flight := s.sizing.flight.map (fun x => (s.markJob p x.1, x.2)) }) := by
  refine .of_sizing rfl (fun j st h => ?_) (fun _ h => usesCurve_of_step h)
    (jobs_recorded fun j hj => ?_) rfl rfl
  · obtain ⟨⟨j', st'⟩, hf, e⟩ := Option.map_eq_some_iff.1 h
    cases e
    exact usesCurve_of_flight hf
  · rw [orphan_jobs] at hj
    obtain ⟨j', hj', rfl⟩ := List.mem_map.1 hj
    refine ⟨j', hj', ?_⟩
    unfold State.markJob
    split <;> rfl

/-- The job in flight begins again under the curve in force (R148). -/
theorem ValuesKept.restartJob (s : State) : ValuesKept s s.restartJob := by
  have hjobs := restartJob_jobs s
  unfold State.restartJob at hjobs ⊢
  split
  · next j old st hf hst =>
    rw [hf, hst] at hjobs
    refine .of_sizing rfl (fun _ _ h => ?_) (fun _ h => usesCurve_of_step h)
      (jobs_recorded fun j' hj' => ⟨j', hjobs ▸ hj', rfl⟩) rfl rfl
    cases h
    exact usesCurve_of_settings hst
  · exact .of_eq rfl rfl rfl rfl

theorem ValuesKept.settingsChanged (s : State) : ValuesKept s s.settingsChanged := by
  unfold State.settingsChanged
  split
  · exact (ValuesKept.restartJob s).trans (.startPass _)
  · exact .of_eq rfl rfl rfl rfl

/-- The job of a pull has the records of its buffer, located (R84). -/
theorem ValuesKept.jobEnd (s : State) (c : Chan) (rec : PullRecord) (tp : TubePull) :
    ValuesKept s (s.jobEnd c rec tp) := by
  refine .of_sizing rfl (fun _ _ h => usesCurve_of_flight h) (fun _ h => usesCurve_of_step h)
    (fun j hj f hf => ?_) rfl rfl
  have hmem : j ∈ s.jobs ∨ j = jobOf c rec tp (s.pull.get c) (s.chan.get c).thin := by
    simpa [State.jobs, State.jobEnd, or_assoc, or_comm, or_left_comm] using hj
  obtain hj | rfl := hmem
  · exact .inr ⟨j, hj, f, hf, rfl⟩
  · obtain ⟨g, hg, rfl⟩ := List.mem_map.1 hf
    exact .inl ⟨c, g, hg, rfl⟩

/-- A unit that empties its flight or its step. -/
theorem ValuesKept.flight_none (s : State) :
    ValuesKept s (s.setSizing { s.sizing with flight := none }) :=
  .of_sizing rfl (fun _ _ h => by cases h) (fun _ h => usesCurve_of_step h)
    (jobs_recorded fun j hj => ⟨j, by
      simp only [State.jobs, State.setSizing_sizing, Option.map_none, Option.toList_none,
        List.append_nil] at hj
      exact List.mem_append_left _ hj, rfl⟩) rfl rfl

theorem ValuesKept.step_none (s : State) :
    ValuesKept s (s.setSizing { s.sizing with step := none }) :=
  .of_sizing rfl (fun _ _ h => usesCurve_of_flight h) (fun _ h => by cases h)
    (jobs_recorded fun j hj => ⟨j, hj, rfl⟩) rfl rfl

end Sys2Proof.Machine
end

section
/-!
Every step keeps the law of computed values (R105): the map, the ends of pulls, and all actions together.
-/

namespace Sys2Proof.Machine

variable {s t : State} {c : Chan} {p : Port} {u : Tag} {cv : Curve}

/-! ## The commit and the re-screen step -/

theorem Tube.InRange.of_indications {tb : Tube} (h : ∀ x ∈ tb.list, x.InRange)
    (hw : ∀ d, tb.worst = some d → ∃ x : Indication, x.InRange ∧ x.depth = d) : tb.InRange where
  list := h
  worst := fun d hd => by
    obtain ⟨x, ⟨-, hdepth⟩, rfl⟩ := hw d hd
    exact hdepth

/-- The records that a job keeps are its own, sized under its curve (R141, R143). -/
theorem keptOf_inRange (hc : cv.valid) {l : List Located} (hl : ∀ f ∈ l, f.phase < 1800) :
    ∀ x ∈ keptOf cv l, x.InRange := by
  intro x hx
  have hmem : x ∈ l.map (sized cv) := (sortBy_perm deeper _).mem_iff.1 (List.mem_of_mem_take hx)
  obtain ⟨f, hf, rfl⟩ := List.mem_map.1 hmem
  exact ⟨hl f hf, hc.depthOf_inRange f.toFound⟩

theorem committed_inRange (tb : Tube) {j : Job} {st : Settings} (hc : st.curve.valid)
    (hj : ∀ f ∈ j.records, f.phase < 1800) (old : List Indication) (free : Nat) :
    (tb.committed j (sizeJob j st old free)).InRange := by
  have kept := keptOf_inRange hc hj
  refine .of_indications (fun x hx => ?_) fun d hd => ?_
  · exact kept x (List.mem_of_mem_take ((sortBy_perm _ _).mem_iff.1 hx))
  · obtain ⟨x, hx, hd, -⟩ := worstOf_eq_some hd
    exact ⟨x, kept x hx, hd⟩

/-- A stored record read again keeps its phase (R157). -/
theorem rescreened_inRange {tb : Tube} (h : tb.InRange) {st : Settings} (hc : st.curve.valid) :
    (tb.rescreened st).InRange := by
  have reread : ∀ x ∈ tb.list.map (Indication.reread st.curve), x.InRange := by
    intro x hx
    obtain ⟨y, hy, rfl⟩ := List.mem_map.1 hx
    exact ⟨(h.list y hy).1, hc.depthOf_inRange y.toFound⟩
  refine .of_indications reread fun d hd => ?_
  obtain ⟨x, hx, hd, -⟩ := worstOf_eq_some hd
  exact ⟨x, reread x hx, hd⟩

theorem stepped_inRange {tb : Tube} (h : tb.InRange) {st : Settings} (hc : st.curve.valid) :
    (tb.stepped st).InRange := by
  unfold Tube.stepped
  split
  · exact h
  · exact rescreened_inRange h hc

theorem ValuesKept.releaseChan (s : State) (j : Job) (z : Sizing) :
    ValuesKept s (s.releaseChan j z) := by
  unfold State.releaseChan
  dsimp only
  split
  · exact .forceUnbind s j.chan
  · exact .of_pull (c := j.chan) rfl rfl rfl rfl fun _ hf => .inl hf

theorem ValuesKept.warnStore (s : State) (n : Nat) : ValuesKept s (s.warnStore n) := by
  obtain ⟨ports, e⟩ := warnStore_parts s n
  rw [e]
  exact .of_eq rfl rfl rfl rfl

theorem ValueLaw.commit (h : ValueLaw s) {j : Job} {st : Settings}
    (flight : s.sizing.flight = some (j, st)) : ValuesKept s (s.commitJob j st) := by
  have hj : j ∈ s.jobs := by simp [State.jobs, flight]
  cases ht : s.tubes[j.index]? with
  | none => rw [commitJob_of_none ht]; exact .flight_none s
  | some tb =>
    rw [commitJob_of_tube ht]
    have written : ValuesKept (s.setSizing { s.sizing with flight := none })
        (s.committing j (sizeJob j st tb.list s.free)) :=
      .of_modify rfl (fun tb _ => .inr (committed_inRange tb (h.flight j st flight) (h.jobs j hj) _ _))
        rfl rfl rfl
    have dropped := ((ValuesKept.flight_none s).trans written).trans
      (.of_claims (.dropClaim _ j.port j.tag))
    exact (dropped.trans (.warnStore ..)).trans (.releaseChan ..)

theorem ValueLaw.stepWrite (h : ValueLaw s) {st : Settings} (step : s.sizing.step = some st) :
    ValuesKept s (s.writeStep st) := by
  obtain ⟨ports, rescreen, e⟩ := writeStep_parts s st
  have written : ValuesKept (s.setSizing { s.sizing with step := none }) (s.stepping st) :=
    .of_modify rfl (fun tb ht => .inr
      (stepped_inRange (h.tube_inRange (List.mem_of_getElem? ht)) (h.step st step))) rfl rfl rfl
  rw [e]
  exact ((ValuesKept.step_none s).trans written).trans (.of_eq rfl rfl rfl rfl)

/-! ## The map and the plan -/

theorem ValuesKept.takeIntervals (s : State) : ValuesKept s s.takeIntervals := .of_eq rfl rfl rfl rfl

/-- A created tube has no record and no worst depth (R15). -/
theorem ValuesKept.addRow (s : State) (x : RowAddBody) : ValuesKept s (s.addRow x) := by
  refine .of_parts (fun _ hc => .inl hc) rfl (fun _ _ hf => .inl hf) fun tb hm => ?_
  rcases List.mem_append.1 hm with hm | hm
  · exact .inl ⟨tb, hm, rfl, rfl⟩
  · rw [newTubes_eq] at hm
    obtain ⟨k, -, rfl⟩ := List.mem_map.1 hm
    exact .inr ⟨nofun, nofun⟩

theorem ValuesKept.scope (s : State) (r : Rect) (dir : Nat) :
    ValuesKept s { s with tubes := s.tubes.map (Tube.scoped r dir) } := by
  refine .of_parts (fun _ hc => .inl hc) rfl (fun _ _ hf => .inl hf) fun tb hm => ?_
  obtain ⟨tb', hm', rfl⟩ := List.mem_map.1 hm
  refine .inl ⟨tb', hm', ?_⟩
  unfold Tube.scoped
  split <;> exact ⟨rfl, rfl⟩

theorem ValuesKept.newPlan (s : State) : ValuesKept s s.newPlan :=
  .of_parts (fun _ hc => by cases hc) rfl (fun _ _ hf => .inl hf) fun _ hm => by cases hm

theorem ValuesKept.setCurve {l : List CurvePoint} (valid : curveOf l = some cv) :
    ValuesKept s (s.setPlan { s.plan with curve := some cv }) := by
  refine .of_parts (fun cv' hc => .inr ?_) rfl (fun _ _ hf => .inl hf) (same_tubes rfl)
  cases hc
  exact curveOf_valid valid

/-- A warm reset empties the buffers and the Sizing Unit (R28, R66). -/
theorem ValuesKept.warm (s : State) : ValuesKept s s.warm := by
  have emptied : ValuesKept s (s.setSizing SizingUnit.reset) :=
    .of_sizing rfl (fun _ _ h => by cases h) (fun _ h => by cases h) (fun _ h => by cases h) rfl rfl
  refine emptied.trans (.of_parts (fun _ hc => .inl hc) rfl (fun c f hf => ?_) fun tb hm => ?_)
  · rw [State.warm, Quad.get_fill] at hf
    cases hf
  · rw [warm_tubes] at hm
    obtain ⟨i, hi, rfl⟩ := List.mem_mapIdx.1 hm
    refine .inl ⟨s.tubes[i], List.getElem_mem hi, ?_⟩
    split <;> exact ⟨rfl, rfl⟩

/-! ## The ends of pulls -/

theorem ValuesKept.errorCommit (s : State) (p : Port) (u : Tag) (i : Nat) :
    ValuesKept s (s.errorCommit p u i) := by
  unfold State.errorCommit
  split
  · exact .of_eq rfl rfl rfl rfl
  · next tb _ =>
    have marked : ValuesKept s (s.modTube i (fun tb =>
        { tb with
          attempts := attemptsAfter tb.attempts
          status := errorStatus s.plan.attemptLimit tb.attempts })) :=
      .of_modify rfl (fun _ _ => .inl ⟨rfl, rfl⟩) rfl rfl rfl
    dsimp only
    split
    · exact marked.trans (.of_claims (.dropClaim ..))
    · exact marked.trans (.of_claims (.keepClaim ..))

theorem ValuesKept.errorEnd (s : State) (c : Chan) (rec : PullRecord) (tp : TubePull) :
    ValuesKept s (s.errorEnd c rec tp) :=
  (ValuesKept.errorCommit s rec.port tp.tag tp.index).trans
    (.of_pull (c := c) rfl rfl rfl rfl fun _ hf => by cases hf)

theorem ValuesKept.abort (s : State) (c : Chan) : ValuesKept s (s.abortPull c) := by
  unfold State.abortPull
  dsimp only
  split
  · exact .of_pull (c := c) rfl rfl rfl rfl fun _ hf => by cases hf
  · split
    · refine ValuesKept.trans ?_ (.of_claims (.keepClaim ..))
      exact .of_pull (c := c) rfl rfl rfl rfl fun _ hf => by cases hf
    · exact .of_pull (c := c) rfl rfl rfl rfl fun _ hf => by cases hf

theorem ValuesKept.judged (h : Judged s c t) : ValuesKept s t := by
  obtain ⟨x, rfl, -⟩ | rfl := h
  · exact .of_eq rfl rfl rfl rfl
  · exact .invalidate s c

theorem ValuesKept.endCal (s : State) (c : Chan) (kind : PullKind) :
    ValuesKept s (s.endCal c kind) := by
  have judged := ValuesKept.judged (judge_judged s c kind)
  unfold State.endCal
  generalize judge s c kind = v at judged
  exact judged.trans (.of_pull (c := c) rfl rfl rfl rfl fun _ hf => .inl hf)

/-! ## All actions -/

theorem QuietAct.valuesKept (a : QuietAct s t) : ValuesKept s t := by
  cases a with
  | queue | line | replies | clearNotices | attach | bind | freqSet | settled | coil | count | passed
  | intervalExpiry => exact .of_eq rfl rfl rfl rfl
  | unbind p c free =>
    obtain ⟨ports, e⟩ := unbindChan_parts s c
    rw [State.dropCal, e]
    exact .of_eq rfl rfl rfl rfl
  | startCal p c => exact .of_pull (c := c) rfl rfl rfl rfl fun _ hf => by cases hf
  | processStep c raw => exact .processStep s c raw
  | latch c | takeResult c => exact .of_pull (c := c) rfl rfl rfl rfl fun _ hf => .inl hf
  | endChecks c by_ trace =>
    exact .of_pull (c := c) rfl rfl rfl rfl (bufferKept_closeOpen _ trace).phases
  | jobBegin j rest st idle queue settings => exact .jobBegin idle queue settings
  | startPass => exact .startPass s
  | stepBegin st settings => exact .stepBegin settings
  | orphan p => exact .orphan s p

theorem ValueLaw.valuesKept (h : ValueLaw s) (a : Act s t) : ValuesKept s t := by
  cases a with
  | quiet a => exact a.valuesKept
  | newPlan => exact .newPlan s
  | planOpen | planClose | planLock | planSet | standardSet | tracesSet => exact .of_eq rfl rfl rfl rfl
  | curveSet _ l cv valid => exact (ValuesKept.setCurve valid).trans (.settingsChanged _)
  | limitsSet _ x =>
    have written : ValuesKept s (s.setPlan (s.plan.withLimits x.clamped)) := .of_eq rfl rfl rfl rfl
    exact (written.trans (.takeIntervals _)).trans (.settingsChanged _)
  | addRow _ x => exact .addRow s x
  | mark | repull => exact .of_modify rfl (fun _ _ => .inl ⟨rfl, rfl⟩) rfl rfl rfl
  | scope _ r dir => exact .scope s r dir
  | grant => exact .of_claims (.grant ..)
  | drop => exact .of_claims (.dropClaim ..)
  | revoke => exact .of_claims (.revoke ..)
  | expire => exact .of_claims (.expire ..)
  | detach => exact .of_claims (.detach ..)
  | startTube p u c =>
    exact (ValuesKept.of_claims (.markInPull s p u)).trans
      (.of_pull (c := c) rfl rfl rfl rfl fun _ hf => by cases hf)
  | abort c => exact .abort s c
  | errorEnd c rec tp => exact .errorEnd s c rec tp
  | jobEnd c rec tp => exact .jobEnd s c rec tp
  | endCal c rec => exact .endCal s c rec.kind
  | commit j st flight => exact h.commit flight
  | stepWrite st step => exact h.stepWrite step
  | forceUnbind c => exact .forceUnbind s c
  | warm => exact .warm s
  | tick =>
    have ticked : ValuesKept s { s with seconds := s.seconds + 1 } := .of_eq rfl rfl rfl rfl
    exact (ticked.trans (.of_claims (.takeLeases _))).trans (.takeIntervals _)

theorem ValueLaw.reset (l : List Instr) : ValueLaw { State.reset with pending := l } :=
  valueLaw_reset.of_kept (.of_eq rfl rfl rfl rfl)

/-- Settles O60: each action keeps the values there are or writes values in their ranges: a phase is folded,
a depth is read from a curve that CURVE_SET accepted. -/
theorem valueLawIsKept : Obligations.ValueLawIsKept :=
  kept_of_acts (fun _ _ h a => h.of_kept (h.valuesKept a)) ValueLaw.reset

end Sys2Proof.Machine
end

section
/-!
How a calibration pull that PULL_END ends is judged (R119, R121 to R125, R132, R136): each judgement is one
of seven, and no pull has two.
-/

namespace Sys2Proof.Machine

variable {s : State} {c : Chan} {rec : PullRecord} {x y : Judgement}

/-! ## Every pull has one judgement -/

/-- A reason is that of the first failing trace (R122, R125). -/
theorem fails_of_firstFailure {entries : List TraceEntry} {why : CalReason}
    (h : firstFailure entries = some why) :
    ∃ before e after, entries = before ++ e :: after ∧ (∀ y ∈ before, y.failed = none)
      ∧ e.failed = some why := by
  induction entries with
  | nil => cases h
  | cons a rest ih =>
    rw [firstFailure] at h
    cases ha : a.failed with
    | some r =>
      rw [ha] at h
      cases h
      exact ⟨[], a, rest, rfl, nofun, ha⟩
    | none =>
      rw [ha] at h
      obtain ⟨before, e, after, rfl, hbefore, he⟩ := ih h
      exact ⟨a :: before, e, after, rfl, List.forall_mem_cons.2 ⟨ha, hbefore⟩, he⟩

/-- The traces of a measured pull all pass, or one is the first that fails. -/
theorem passes_or_fails (entries : List TraceEntry) :
    (∀ e ∈ entries, e.failed = none) ∨ ∃ why before e after, entries = before ++ e :: after
      ∧ (∀ y ∈ before, y.failed = none) ∧ e.failed = some why := by
  cases h : firstFailure entries with
  | none => exact .inl ((firstFailure_eq_none _).1 h)
  | some why => exact .inr ⟨why, fails_of_firstFailure h⟩

/-- A calibration pull with no fault latched has a judgement. -/
theorem judged_exists (hl : (s.pull.get c).latch = []) (hk : rec.kind ≠ .tube) :
    ∃ x, JudgedBy s c rec x := by
  by_cases hm : Measured s c
  · cases hkind : rec.kind with
    | tube => exact absurd hkind hk
    | calCheck =>
      obtain hpass | ⟨why, hfail⟩ := passes_or_fails (checkEntries (s.cal.get c))
      · exact ⟨_, .inr (.inr (.inr (.inl ⟨hkind, hl, hm, hpass, rfl⟩)))⟩
      · exact ⟨_, .inr (.inr (.inr (.inr (.inl ⟨hkind, hl, hm, why, hfail, rfl⟩))))⟩
    | calFull =>
      obtain hpass | ⟨why, hfail⟩ :=
        passes_or_fails (fullEntries (s.chan.get c).slots (s.cal.get c).capture)
      · exact ⟨_, .inr (.inr (.inr (.inr (.inr (.inl ⟨hkind, hl, hm, hpass, rfl⟩)))))⟩
      · exact ⟨_, .inr (.inr (.inr (.inr (.inr (.inr ⟨hkind, hl, hm, why, hfail, rfl⟩)))))⟩
  · cases hkind : rec.kind with
    | tube => exact absurd hkind hk
    | calFull => exact ⟨_, .inl ⟨hkind, _, _, .inr ⟨hl, hm, rfl, rfl⟩, rfl⟩⟩
    | calCheck =>
      by_cases h0 : (s.cal.get c).checkFaults = 0
      · exact ⟨_, .inr (.inl ⟨hkind, h0, _, _, .inr ⟨hl, hm, rfl, rfl⟩, rfl⟩)⟩
      · exact ⟨_, .inr (.inr (.inl ⟨hkind, h0, _, _, .inr ⟨hl, hm, rfl, rfl⟩, rfl⟩))⟩

/-- What the unit judges tells the judgement. -/
theorem verdictOf_injective (h : verdictOf s c x = verdictOf s c y) : x = y := by
  obtain ⟨unit, tubes, outcome, reason, traces, mixes, invalidated⟩ := x
  obtain ⟨unit', tubes', outcome', reason', traces', mixes', invalidated'⟩ := y
  simp only [verdictOf, Verdict.mk.injEq] at h
  obtain ⟨hstate, rfl, rfl, rfl, rfl, rfl⟩ := h
  have htubes : tubes = tubes' := congrArg State.tubes hstate
  have hunit : unit = unit' := by
    simpa only [Quad.get_set_same] using congrArg (fun t : State => t.cal.get c) hstate
  rw [htubes, hunit]

theorem judged_unique (hl : (s.pull.get c).latch = []) (hx : JudgedBy s c rec x)
    (hy : JudgedBy s c rec y) : x = y :=
  verdictOf_injective ((judge_unlatched hl hx).symm.trans (judge_unlatched hl hy))

/-! ## PULL_END of a calibration pull -/

theorem judgedAs_held (s : State) (c : Chan) (rec : PullRecord) (x : Judgement) :
    ((JudgedAs s c rec x).chan.get c).state = .held := congrArg Channel.state (Quad.get_set_same ..)

/-- A calibration pull that an end reaches with no fault latched ends as judged. -/
theorem endBy_judged (h : InCalPull s c rec) (hx : JudgedBy s c rec x) (by_ : EndBy) :
    s.endBy c by_ = JudgedAs s c rec x := by
  obtain ⟨-, hr, htube, hl, -⟩ := h
  have hend : s.endBy c by_ = s.endCal c rec.kind := by simp only [State.endBy, hr, htube]
  rw [hend, endCal_verdict (by rw [hl]; rfl) (judge_unlatched hl hx)]

theorem pullEnd_judged {p : Port} {b flag : Byte} (h : s.takes p ⟨0x35, [b, flag], false⟩)
    (role : (s.ports.get p).role = .crew) (hc : b.toNat = c.val) (hf : flag.toNat ≤ 1)
    (holds : s.holdsChan p c = true) (pull : InCalPull s c rec) (hx : JudgedBy s c rec x) :
    exec (.pullEnd p [b, flag]) s
      = .next (State.answered (JudgedAs s c rec x) p 0xF0 (5 :: c2 (s.pull.get c).samples)) := by
  obtain ⟨restricted, hr⟩ := restrictedOf_flag hf
  have done := attached_done (x := (b, flag)) ownPullEnd h (attached_of_crew role) rfl
    (ownPullEnd_pulling role hc holds hr pull.1)
  rw [endBy_judged pull hx, judgedAs_held] at done
  exact done

end Sys2Proof.Machine
end

section
/-!
What the judgement of a calibration pull reads: the traces of a FULL and of a CHECK, and the mixes (R106 to
R111, R120, R121, R123).
-/

namespace Sys2Proof.Machine

/-! ## Squared magnitudes and lists -/

theorem magSq_cast (v : Vec) : ((magSq v : Nat) : Int) = v.x * v.x + v.y * v.y :=
  Int.toNat_of_nonneg (add_nonneg (mul_self_nonneg _) (mul_self_nonneg _))

/-- A raw value is clipped exactly when a component reaches a limit of its range (R56). -/
theorem rawClipped_iff (r : Raw) : Raw.clipped r = true ↔ r.x.toInt = -32768 ∨ r.x.toInt = 32767
    ∨ r.y.toInt = -32768 ∨ r.y.toInt = 32767 := by
  simp only [Raw.clipped, atLimit, Bool.or_eq_true, decide_eq_true_eq, or_assoc]

/-! ## A FULL (R106 to R108, R120) -/

theorem fullEntries_traces (slots : Quad (Option Nat)) (k : Capture) :
    (fullEntries slots k).map (fun e => e.trace)
      = [RawTrace.f1d, .f1a, .f2d, .f2a, .f3d, .f3a, .f4d, .f4a].filter
          (fun r => (slots.get r.slot).isSome) := by
  rw [fullEntries, List.map_map]
  exact List.map_id _

/-- The failure of a trace is that of the first of its three checks (R108). -/
theorem deriveTrace_failed (r : RawTrace) (raws : List Raw) :
    (deriveTrace r raws).failed
      = if ∃ x ∈ raws, Raw.clipped x = true then some .clipped
        else if magSq (peakVector (raws.map Raw.vec)) < 250000 then some .weak
        else if 1600000000 < magSq (peakVector (raws.map Raw.vec)) then some .strong else none := by
  simp only [deriveTrace, List.any_eq_true]

theorem deriveTrace_written (r : RawTrace) (raws : List Raw) :
    (deriveTrace r raws).written
      = if (deriveTrace r raws).failed = none then
          some ⟨gainOf (magSq (peakVector (raws.map Raw.vec))), rotationOf (peakVector (raws.map Raw.vec))⟩
        else none := by
  simp only [deriveTrace, Option.isNone_iff_eq_none]

/-- The figures of one trace of a FULL, as its raw values of the hole window give them. -/
theorem deriveTrace_figures {e : TraceEntry} {raws : List Raw} (he : e = deriveTrace e.trace raws) :
    let v := peakVector (raws.map (fun r => ⟨r.x.toInt, r.y.toInt⟩))
    let size : Int := v.x * v.x + v.y * v.y
    let clipped : Prop := ∃ r ∈ raws, r.x.toInt = -32768 ∨ r.x.toInt = 32767
      ∨ r.y.toInt = -32768 ∨ r.y.toInt = 32767
    e.amplitude = amplitudeOf size.toNat ∧ e.phase = phaseOf v
      ∧ (clipped → e.failed = some .clipped)
      ∧ (¬ clipped → size < 250000 → e.failed = some .weak)
      ∧ (¬ clipped → 1600000000 < size → e.failed = some .strong)
      ∧ (¬ clipped → 250000 ≤ size → size ≤ 1600000000 → e.failed = none)
      ∧ e.written = if e.failed = none then some ⟨gainOf size.toNat, rotationOf v⟩ else none := by
  intro v size clipped
  have hclipped : (∃ x ∈ raws, Raw.clipped x = true) ↔ clipped := by
    simp only [rawClipped_iff, clipped]
  have hsize : ((magSq v : Nat) : Int) = size := magSq_cast v
  have hfailed : e.failed = if ∃ x ∈ raws, Raw.clipped x = true then some .clipped
      else if magSq v < 250000 then some .weak
      else if 1600000000 < magSq v then some .strong else none :=
    (congrArg TraceEntry.failed he).trans (deriveTrace_failed e.trace raws)
  have hwritten : e.written
      = if e.failed = none then some ⟨gainOf (magSq v), rotationOf v⟩ else none := by
    have hw := (congrArg TraceEntry.written he).trans (deriveTrace_written e.trace raws)
    rwa [← he] at hw
  refine ⟨congrArg TraceEntry.amplitude he, congrArg TraceEntry.phase he, fun h => ?_, fun h hw => ?_,
    fun h hs => ?_, fun h hw hs => ?_, hwritten⟩
  · rw [hfailed, if_pos (hclipped.2 h)]
  · rw [hfailed, if_neg (mt hclipped.1 h), if_pos (by omega)]
  · rw [hfailed, if_neg (mt hclipped.1 h), if_neg (by omega), if_pos (by omega)]
  · rw [hfailed, if_neg (mt hclipped.1 h), if_neg (by omega), if_neg (by omega)]

/-! ## A CHECK (R123) -/

theorem checkTrace_failed (g : GainRot) (k : Capture) (r : RawTrace) :
    (checkTrace g k r).failed
      = if ∃ y ∈ capturedValues g r k k.hole, y.clipped = true then some .clipped
        else if (checkTrace g k r).amplitude < 9000 ∨ 11000 < (checkTrace g k r).amplitude then
          some .amplitude
        else if (checkTrace g k r).phase < 350 ∨ 450 < (checkTrace g k r).phase then some .phase
        else none := by
  simp only [checkTrace, List.any_eq_true]

/-- The figures of one trace of a CHECK, as its values over the hole window give them. -/
theorem checkTrace_figures {e : TraceEntry} {g : GainRot} {k : Capture}
    (he : e = checkTrace g k e.trace) :
    let sigs := capturedValues g e.trace k k.hole
    let v := peakVector (sigs.map (fun y => y.value))
    let clipped : Prop := ∃ y ∈ sigs, y.clipped = true
    let far : Prop := e.amplitude < 9000 ∨ 11000 < e.amplitude
    let turned : Prop := e.phase < 350 ∨ 450 < e.phase
    e.amplitude = amplitudeOf (v.x * v.x + v.y * v.y).toNat ∧ e.phase = phaseOf v
      ∧ e.written = none
      ∧ (clipped → e.failed = some .clipped)
      ∧ (¬ clipped → far → e.failed = some .amplitude)
      ∧ (¬ clipped → ¬ far → turned → e.failed = some .phase)
      ∧ (¬ clipped → ¬ far → ¬ turned → e.failed = none) := by
  intro sigs v clipped far turned
  have hfailed : e.failed = if clipped then some .clipped else if far then some .amplitude
      else if turned then some .phase else none := by
    have hf := (congrArg TraceEntry.failed he).trans (checkTrace_failed g k e.trace)
    rwa [← he] at hf
  refine ⟨congrArg TraceEntry.amplitude he, congrArg TraceEntry.phase he,
    congrArg TraceEntry.written he, fun h => ?_, fun h hf => ?_, fun h hf ht => ?_, fun h hf ht => ?_⟩
  · rw [hfailed, if_pos h]
  · rw [hfailed, if_neg h, if_pos hf]
  · rw [hfailed, if_neg h, if_neg hf, if_pos ht]
  · rw [hfailed, if_neg h, if_neg hf, if_neg ht]

theorem mem_checkEntries {u : CalUnit} {e : TraceEntry} (he : e ∈ checkEntries u) :
    ∃ g, u.gains.get e.trace = some g ∧ e = checkTrace g u.capture e.trace := by
  obtain ⟨r, -, h⟩ := List.mem_filterMap.1 he
  obtain ⟨g, hg, rfl⟩ := Option.map_eq_some_iff.1 h
  exact ⟨g, hg, rfl⟩

theorem checkEntries_traces (u : CalUnit) :
    (checkEntries u).map (fun e => e.trace)
      = [RawTrace.f1d, .f1a, .f2d, .f2a, .f3d, .f3a, .f4d, .f4a].filter
          (fun r => (u.gains.get r).isSome) := by
  rw [checkEntries, List.map_filterMap, ← List.filterMap_eq_filter]
  refine List.filterMap_congr fun r _ => ?_
  cases h : u.gains.get r <;> simp [h, checkTrace, Option.guard]

/-! ## The null of captured samples (R95, R121) -/

/-- A running sum of values is the sum of each component. -/
theorem foldl_values {α : Type} (f : α → Sig) (l : List α) : ∀ v : Vec,
    l.foldl (fun v r => (⟨v.x + (f r).value.x, v.y + (f r).value.y⟩ : Vec)) v
      = ⟨v.x + ((l.map f).map (fun y => y.value.x)).sum,
          v.y + ((l.map f).map (fun y => y.value.y)).sum⟩ := by
  induction l with
  | nil => intro v; simp
  | cons r l ih =>
    intro v
    simp only [List.foldl_cons, ih, List.map_cons, List.sum_cons, add_assoc]

/-- The captured values of a trace are nulled by the null of its captured null samples. -/
theorem capturedValues_eq (g : GainRot) (r : RawTrace) (k : Capture) (samples : List RawSample) :
    let values (l : List RawSample) := (l.filterMap (fun x => x.get r)).map (calibrate g)
    let sum : Vec := ⟨((values k.nulls).map (fun y => y.value.x)).sum,
      ((values k.nulls).map (fun y => y.value.y)).sum⟩
    capturedValues g r k samples = (values samples).map (fun y => nulled y (nullOfSum sum)) := by
  intro values sum
  have hnull : capturedNull g (traceRaws r k.nulls) = nullOfSum sum := by
    rw [capturedNull, foldl_values]
    simp only [zero_add]
    rfl
  rw [capturedValues, hnull]
  exact (List.map_map (f := calibrate g) (g := fun y => nulled y (nullOfSum sum))).symm

theorem learnPosition_absent {gains : Eight (Option GainRot)} {d : MixDef}
    (h : gains.get d.primary = none ∨ gains.get d.secondary = none) (k : Capture) :
    learnPosition gains k (some d) = .absent := by
  obtain h | h := h
  · simp only [learnPosition, h]
  · cases hp : gains.get d.primary <;> simp only [learnPosition, h, hp]

/-! ## A mix (R109 to R111) -/

/-- The primary and secondary values of a window. -/
def valuesOf (w : List (Sig × Sig)) : List (Vec × Vec) := w.map (fun x => (x.1.value, x.2.value))

theorem sumOver_valuesOf (f : Vec → Vec → Int) (w : List (Sig × Sig)) :
    sumOver f (valuesOf w) = (w.map (fun x => f x.1.value x.2.value)).sum := by
  induction w with
  | nil => rfl
  | cons x w ih => exact congrArg (f x.1.value x.2.value + ·) ih

/-- A bound that is not 0 is above the largest exactly when it is above each. -/
theorem largestOver_lt_iff (f : Vec → Vec → Nat) (w : List (Sig × Sig)) {n : Nat} (hn : 0 < n) :
    largestOver f (valuesOf w) < n ↔ ∀ x ∈ w, f x.1.value x.2.value < n := by
  induction w with
  | nil => exact ⟨fun _ => nofun, fun _ => hn⟩
  | cons x w ih =>
    rw [List.forall_mem_cons, ← ih]
    exact max_lt_iff

/-- The largest value is 0 or that of a sample. -/
theorem largestOver_attained (f : Vec → Vec → Nat) (w : List (Sig × Sig)) :
    largestOver f (valuesOf w) = 0 ∨ ∃ x ∈ w, f x.1.value x.2.value = largestOver f (valuesOf w) := by
  induction w with
  | nil => exact .inl rfl
  | cons x w ih =>
    have hcons : largestOver f (valuesOf (x :: w))
        = max (f x.1.value x.2.value) (largestOver f (valuesOf w)) := rfl
    rw [hcons]
    rcases le_total (largestOver f (valuesOf w)) (f x.1.value x.2.value) with hle | hle
    · rw [max_eq_left hle]
      exact .inr ⟨x, List.mem_cons_self .., rfl⟩
    · rw [max_eq_right hle]
      exact ih.imp id fun ⟨y, hy, e⟩ => ⟨y, List.mem_cons_of_mem x hy, e⟩

theorem le_largestOver (f : Vec → Vec → Nat) {w : List (Sig × Sig)} {x : Sig × Sig} (hx : x ∈ w) :
    f x.1.value x.2.value ≤ largestOver f (valuesOf w) :=
  Nat.le_of_lt_succ
    ((largestOver_lt_iff f w (Nat.succ_pos _)).1 (Nat.lt_succ_self _) x hx)

/-- One largest value bounds another exactly when each is bounded by some. -/
theorem largestOver_le_iff (f g : Vec → Vec → Nat) {a b : Nat} {w : List (Sig × Sig)} :
    a * largestOver f (valuesOf w) ≤ b * largestOver g (valuesOf w)
      ↔ ∀ x ∈ w, ∃ y ∈ w, a * f x.1.value x.2.value ≤ b * g y.1.value y.2.value := by
  constructor
  · intro h x hx
    have hbound := (Nat.mul_le_mul_left a (le_largestOver f hx)).trans h
    obtain h0 | ⟨y, hy, e⟩ := largestOver_attained g w
    · exact ⟨x, hx, hbound.trans (by rw [h0]; exact Nat.zero_le _)⟩
    · exact ⟨y, hy, e ▸ hbound⟩
  · intro h
    obtain h0 | ⟨x, hx, e⟩ := largestOver_attained f w
    · rw [h0]
      exact Nat.zero_le _
    · obtain ⟨y, hy, hxy⟩ := h x hx
      exact e ▸ hxy.trans (Nat.mul_le_mul_left b (le_largestOver g hy))

/-- A sample of the window has a clipped mark (R110). -/
def AnyClipped (w : List (Sig × Sig)) : Prop := ∃ x ∈ w, x.1.clipped = true ∨ x.2.clipped = true

/-- Every secondary value lies below 200 mV (R110). -/
def SecondaryWeak (w : List (Sig × Sig)) : Prop :=
  ∀ x ∈ w, x.2.value.x * x.2.value.x + x.2.value.y * x.2.value.y < 40000

/-- The coefficient and its residuals stay within their bounds (R110, R111). -/
def Coef.FitsWindow (k : Coef) (w : List (Sig × Sig)) : Prop :=
  k.a * k.a + k.b * k.b ≤ 1073741824
    ∧ ∀ x ∈ w, ∃ y ∈ w,
      25 * ((4096 * x.1.value.x - k.a * x.2.value.x + k.b * x.2.value.y) ^ 2
          + (4096 * x.1.value.y - k.a * x.2.value.y - k.b * x.2.value.x) ^ 2)
        ≤ 4096 ^ 2 * (y.1.value.x * y.1.value.x + y.1.value.y * y.1.value.y)

theorem residualFails_iff (k : Coef) (w : List (Sig × Sig)) :
    residualFails k (valuesOf w) = false ↔ ∀ x ∈ w, ∃ y ∈ w,
      25 * ((4096 * x.1.value.x - k.a * x.2.value.x + k.b * x.2.value.y) ^ 2
          + (4096 * x.1.value.y - k.a * x.2.value.y - k.b * x.2.value.x) ^ 2)
        ≤ 4096 ^ 2 * (y.1.value.x * y.1.value.x + y.1.value.y * y.1.value.y) := by
  rw [residualFails, decide_eq_false_iff_not, Nat.not_lt, largestOver_le_iff]
  refine forall₂_congr fun x _ => exists_congr fun y => and_congr_right fun _ => ?_
  rw [← Nat.cast_le (α := Int)]
  push_cast
  rw [magSq_cast, magSq_cast]
  simp only [residual, sq]

theorem secondaryWeak_iff (w : List (Sig × Sig)) :
    largestOver (fun _ q => magSq q) (valuesOf w) < 40000 ↔ SecondaryWeak w := by
  rw [largestOver_lt_iff _ _ (by decide)]
  refine forall₂_congr fun x _ => ?_
  rw [← Nat.cast_lt (α := Int), magSq_cast]
  rfl

/-- The four checks of R110 in their order. -/
theorem learnMix_eq (w : List (Sig × Sig)) :
    (AnyClipped w → learnMix w = .ill)
    ∧ (¬ AnyClipped w → SecondaryWeak w → learnMix w = .weak)
    ∧ (¬ AnyClipped w → ¬ SecondaryWeak w → (fitCoef (valuesOf w)).FitsWindow w →
        learnMix w = .learned (fitCoef (valuesOf w)))
    ∧ (¬ AnyClipped w → ¬ SecondaryWeak w → ¬ (fitCoef (valuesOf w)).FitsWindow w →
        learnMix w = .ill) := by
  have hclipped : w.any (fun x => x.1.clipped || x.2.clipped) = true ↔ AnyClipped w := by
    simp only [List.any_eq_true, Bool.or_eq_true, AnyClipped]
  have hlearn : learnMix w
      = if w.any (fun x => x.1.clipped || x.2.clipped) then .ill
        else if largestOver (fun _ q => magSq q) (valuesOf w) < 40000 then .weak
        else if 1073741824 < (fitCoef (valuesOf w)).a * (fitCoef (valuesOf w)).a
            + (fitCoef (valuesOf w)).b * (fitCoef (valuesOf w)).b then .ill
        else if residualFails (fitCoef (valuesOf w)) (valuesOf w) then .ill
        else .learned (fitCoef (valuesOf w)) := rfl
  rw [hlearn]
  generalize fitCoef (valuesOf w) = k
  refine ⟨fun h => if_pos (hclipped.2 h), fun h hw => ?_, fun h hw hf => ?_, fun h hw hf => ?_⟩
  · rw [if_neg (mt hclipped.1 h), if_pos ((secondaryWeak_iff w).2 hw)]
  · obtain ⟨hsize, hres⟩ := hf
    rw [if_neg (mt hclipped.1 h), if_neg (mt (secondaryWeak_iff w).1 hw), if_neg (Int.not_lt.2 hsize),
      (residualFails_iff k w).2 hres, if_neg Bool.false_ne_true]
  · rw [if_neg (mt hclipped.1 h), if_neg (mt (secondaryWeak_iff w).1 hw)]
    split
    · rfl
    · next hsize =>
      refine if_pos ?_
      rw [← Bool.not_eq_false, residualFails_iff]
      exact fun hres => hf ⟨Int.not_lt.1 hsize, hres⟩

/-- The sum of squared secondary values is positive where one does not lie below 200 mV. -/
theorem norm_pos_of_not_weak {w : List (Sig × Sig)} (h : ¬ SecondaryWeak w) :
    0 < (w.map (fun x => x.2.value.x * x.2.value.x + x.2.value.y * x.2.value.y)).sum := by
  have hnonneg : ∀ v : Vec, 0 ≤ v.x * v.x + v.y * v.y := fun v =>
    add_nonneg (mul_self_nonneg _) (mul_self_nonneg _)
  unfold SecondaryWeak at h
  push Not at h
  obtain ⟨x, hx, hsize⟩ := h
  refine lt_of_lt_of_le (by omega) (hsize.trans (List.single_le_sum ?_ _ (List.mem_map_of_mem hx)))
  intro n hn
  obtain ⟨y, -, rfl⟩ := List.mem_map.1 hn
  exact hnonneg y.2.value

theorem fitCoef_rounds {w : List (Sig × Sig)} (h : ¬ SecondaryWeak w) :
    let norm := (w.map (fun x => x.2.value.x * x.2.value.x + x.2.value.y * x.2.value.y)).sum
    RoundsTo (4096 * (w.map (fun x =>
        x.1.value.x * x.2.value.x + x.1.value.y * x.2.value.y)).sum) norm (fitCoef (valuesOf w)).a
    ∧ RoundsTo (4096 * (w.map (fun x =>
        x.1.value.y * x.2.value.x - x.1.value.x * x.2.value.y)).sum) norm (fitCoef (valuesOf w)).b := by
  intro norm
  have hnorm : 0 < norm := norm_pos_of_not_weak h
  simp only [fitCoef, sumOver_valuesOf]
  exact ⟨roundHalfEven_roundsTo _ hnorm, roundHalfEven_roundsTo _ hnorm⟩

/-- Settles O42: the judgement that the pull has, and what it reads trace by trace and mix by mix. -/
theorem calibrationPullsAreJudged : Obligations.CalibrationPullsAreJudged := by
  refine ⟨?_, ?_, ?_, ?_, ?_, ?_⟩
  · intro s p b flag c rec h role hc hf holds pull
    obtain ⟨-, -, -, hl, hk⟩ := id pull
    obtain ⟨x, hx⟩ := judged_exists hl hk
    exact ⟨x, ⟨hx, pullEnd_judged h role hc hf holds pull hx⟩, fun y hy => judged_unique hl hy.1 hx⟩
  · intro slots k
    refine ⟨fullEntries_traces slots k, fun e he => ?_⟩
    obtain ⟨r, -, rfl⟩ := List.mem_map.1 he
    exact deriveTrace_figures rfl
  · intro u
    refine ⟨checkEntries_traces u, fun e he g hg => ?_⟩
    obtain ⟨g', hg', e'⟩ := mem_checkEntries he
    cases hg.symm.trans hg'
    exact checkTrace_figures e'
  · exact capturedValues_eq
  · intro gains k
    refine ⟨rfl, fun d => ⟨fun h => learnPosition_absent h k, fun g h hg hh => ?_⟩⟩
    simp only [learnPosition, hg, hh]
  · intro w
    obtain ⟨hclipped, hweak, hfits, hill⟩ := learnMix_eq w
    refine ⟨hclipped, hweak, fun hc hw => ⟨fitCoef (valuesOf w), ?_⟩⟩
    obtain ⟨⟨ha, ha'⟩, hb, hb'⟩ := fitCoef_rounds hw
    exact ⟨ha, ha', hb, hb', hfits hc hw, hill hc hw⟩

end Sys2Proof.Machine
end

section
/-!
SUPPORT. The figures of Signal Arithmetic: rounded and clamped components (R93 to R98).
-/

namespace Sys2Proof.Machine

/-! ## Clamps (R94, R96 to R98) -/

theorem clampSig_clampsTo (p q : Int) (mark : Bool) : ClampsTo p q mark (clampSig p q mark) := by
  refine ⟨rfl, ?_⟩
  rw [Bool.decide_or, ← Bool.or_assoc]
  rfl

theorem clampSig_range (p q : Int) (mark : Bool) :
    -20000 ≤ (clampSig p q mark).value.x ∧ (clampSig p q mark).value.x ≤ 20000
      ∧ -20000 ≤ (clampSig p q mark).value.y ∧ (clampSig p q mark).value.y ≤ 20000 := by
  obtain ⟨hx, hx'⟩ := clampMv_range p
  obtain ⟨hy, hy'⟩ := clampMv_range q
  exact ⟨hx, hx', hy, hy'⟩

/-! ## The calibrated value (R94) -/

/-- At rotation 0 the factors are 1 and 0. -/
theorem rot_zero : rot 0 = (trigOne, 0) := by
  have power : ∀ (n : Nat) (base acc : Int × Int), cpow n 0 base acc = acc := by
    intro n
    induction n with
    | zero => exact fun _ _ => rfl
    | succ n ih => exact fun base acc => ih (cmul base base) acc
  exact power 13 unitStep _

/-- Over a denominator of few steps only the middle itself is within 2^-100 of it, so the rounding is half
to even. -/
theorem roundTrig_scaled (n : Int) {d s : Int} (hd : 0 < d) (hs : 0 < s) (hsmall : d < 2 ^ 100) :
    roundTrig (n * s) (d * s) = roundHalfEven n d := by
  have hquot : n * s / (d * s) = n / d := Int.mul_ediv_mul_of_pos_left n d hs
  have hrem : n * s % (d * s) = n % d * s := by
    rw [mul_comm n, mul_comm d, Int.mul_emod_mul_of_pos _ _ hs, mul_comm]
  have hoff : 2 * (n % d * s) - d * s = (2 * (n % d) - d) * s := by ring
  have hneg : (2 * (n % d) - d) * s < 0 ↔ 2 * (n % d) < d := by
    have h := mul_lt_mul_iff_left₀ (b := 2 * (n % d) - d) (c := 0) hs
    rwa [zero_mul, sub_neg] at h
  have hmiddle : ((2 * (n % d) - d) * s).natAbs * 2 ^ 100 < (d * s).natAbs ↔ 2 * (n % d) = d := by
    rw [Int.natAbs_mul, Int.natAbs_mul, mul_right_comm,
      Nat.mul_lt_mul_right (Int.natAbs_pos.2 hs.ne')]
    constructor <;> intro h <;> omega
  simp only [roundTrig, roundHalfEven, hquot, hrem, hoff, hneg, hmiddle]
  rcases lt_trichotomy (2 * (n % d)) d with h | h | h
  · rw [if_neg h.ne, if_pos h, if_pos h]
  · rw [if_pos h, if_neg h.not_lt, if_neg h.not_gt]
  · rw [if_neg h.ne', if_neg h.not_gt, if_neg h.not_gt, if_pos h]

/-- The factors stand for a cosine and a sine, and their combination with raw components for the exact
one (R92, R94). -/
theorem roundTrig_component {gain : Nat} (hgain : gain ≤ 16384) {u v a b : Int} {z w : ℝ}
    (hu : |(u : ℝ)| ≤ 32768) (hv : |(v : ℝ)| ≤ 32768) (ha : |(a : ℝ) / 2 ^ 192 - z| ≤ 1 / 10 ^ 12)
    (hb : |(b : ℝ) / 2 ^ 192 - w| ≤ 1 / 10 ^ 12) :
    |((roundTrig (gain * (u * a + v * b)) (256 * trigOne) : Int) : ℝ)
        - (gain : ℝ) / 256 * (u * z + v * w)| ≤ 1 / 2 + 1 / 1000 := by
  have hone : ((trigOne : Int) : ℝ) = 2 ^ 192 := by norm_num [trigOne]
  have hround := roundTrig_near (gain * (u * a + v * b)) (256 * trigOne)
    (mul_pos (by norm_num) (by norm_num [trigOne]))
  have hexact : ((gain * (u * a + v * b) : Int) : ℝ) / ((256 * trigOne : Int) : ℝ)
      - (gain : ℝ) / 256 * (u * z + v * w)
      = (gain : ℝ) / 256 * (u * ((a : ℝ) / 2 ^ 192 - z) + v * ((b : ℝ) / 2 ^ 192 - w)) := by
    push_cast
    rw [hone]
    field_simp
    ring
  have herror : |(gain : ℝ) / 256 * (u * ((a : ℝ) / 2 ^ 192 - z) + v * ((b : ℝ) / 2 ^ 192 - w))|
      ≤ 64 * (32768 * (1 / 10 ^ 12) + 32768 * (1 / 10 ^ 12)) := by
    have hscale : (gain : ℝ) / 256 ≤ 64 := by
      rw [div_le_iff₀ (by norm_num)]
      exact_mod_cast hgain.trans (by norm_num)
    rw [abs_mul, abs_of_nonneg (by positivity : (0 : ℝ) ≤ (gain : ℝ) / 256)]
    refine mul_le_mul hscale ((abs_add_le _ _).trans (add_le_add ?_ ?_)) (abs_nonneg _) (by norm_num)
    · rw [abs_mul]
      exact mul_le_mul hu ha (abs_nonneg _) (by norm_num)
    · rw [abs_mul]
      exact mul_le_mul hv hb (abs_nonneg _) (by norm_num)
  rw [← hexact] at herror
  calc _ ≤ _ := abs_sub_le _ (((gain * (u * a + v * b) : Int) : ℝ) / ((256 * trigOne : Int) : ℝ)) _
    _ ≤ (1 / 2 + 1 / 2 ^ 100) + 64 * (32768 * (1 / 10 ^ 12) + 32768 * (1 / 10 ^ 12)) :=
      add_le_add hround herror
    _ ≤ 1 / 2 + 1 / 1000 := by norm_num

theorem raw_le (x : BitVec 16) : |((x.toInt : Int) : ℝ)| ≤ 32768 := by
  have h1 : -32768 ≤ x.toInt := BitVec.le_toInt x
  have h2 : x.toInt < 32768 := BitVec.toInt_lt
  rw [abs_le]
  constructor
  · exact_mod_cast h1
  · exact_mod_cast h2.le

theorem calibrate_figures {g : GainRot} (hgain : g.gain ≤ 16384) (hrot : g.rotation < 3600) (r : Raw) :
    let scale : ℝ := (g.gain : ℝ) / 256
    let angle : ℝ := (g.rotation : ℝ) * Real.pi / 1800
    let x : Int := r.x.toInt
    let y : Int := r.y.toInt
    ∃ p q : Int,
      |(p : ℝ) - scale * (x * Real.cos angle - y * Real.sin angle)| ≤ 1 / 2 + 1 / 1000
      ∧ |(q : ℝ) - scale * (x * Real.sin angle + y * Real.cos angle)| ≤ 1 / 2 + 1 / 1000
      ∧ (g.rotation = 0 → RoundsTo (g.gain * x) 256 p ∧ RoundsTo (g.gain * y) 256 q)
      ∧ ClampsTo p q (decide (x = -32768 ∨ x = 32767 ∨ y = -32768 ∨ y = 32767))
          (calibrate g r) := by
  intro scale angle x y
  obtain ⟨hcos, hsin⟩ := rot_near (2 * g.rotation) (by omega)
  have hangle : ((2 * g.rotation : Nat) : ℝ) * Real.pi / 3600 = angle := by
    simp only [angle]
    push_cast
    ring
  rw [hangle] at hcos hsin
  have hx : |(x : ℝ)| ≤ 32768 := raw_le r.x
  have hy : |(y : ℝ)| ≤ 32768 := raw_le r.y
  have hmark : Raw.clipped r = decide (x = -32768 ∨ x = 32767 ∨ y = -32768 ∨ y = 32767) :=
    Bool.eq_iff_iff.2 ((rawClipped_iff r).trans decide_eq_true_iff.symm)
  refine ⟨roundTrig (g.gain * (x * (rot (2 * g.rotation)).1 - y * (rot (2 * g.rotation)).2))
      (256 * trigOne),
    roundTrig (g.gain * (x * (rot (2 * g.rotation)).2 + y * (rot (2 * g.rotation)).1))
      (256 * trigOne), ?_, roundTrig_component hgain hx hy hsin hcos, fun h0 => ?_, ?_⟩
  · have hminus := roundTrig_component hgain (v := -y) hx (by push_cast; rwa [abs_neg]) hcos hsin
    push_cast at hminus
    simpa only [neg_mul, ← sub_eq_add_neg] using hminus
  · have hone : (0 : Int) < trigOne := by norm_num [trigOne]
    have exact : ∀ n : Int, roundTrig (n * trigOne) (256 * trigOne) = roundHalfEven n 256 :=
      fun n => roundTrig_scaled n (by norm_num) hone (by norm_num)
    rw [h0, Nat.mul_zero, rot_zero]
    simp only [mul_zero, sub_zero, zero_add, ← mul_assoc, exact]
    exact ⟨roundHalfEven_roundsTo _ (by norm_num), roundHalfEven_roundsTo _ (by norm_num)⟩
  · rw [← hmark]
    exact clampSig_clampsTo ..

end Sys2Proof.Machine
end

section
/-!
SUPPORT. The figures of Signal Arithmetic: the peak-to-peak vector with its amplitude (R100, R102), and the
gain step (R106).
-/

namespace Sys2Proof.Machine

/-! ## The peak-to-peak vector (R100) -/

/-- The best of a first vector against those from `a` to the samples of `l`: it stays where none is
greater, or else it is that to the first sample of the greatest distance. -/
theorem bestFrom_cases (a : Vec) (l : List Vec) : ∀ best : Vec,
    (bestFrom a l best = best ∧ ∀ v ∈ l, magSq (vecTo a v) ≤ magSq best)
    ∨ ∃ (j : Nat) (v : Vec), l[j]? = some v ∧ bestFrom a l best = vecTo a v
      ∧ magSq best < magSq (vecTo a v)
      ∧ ∀ (j' : Nat) (v' : Vec), l[j']? = some v' → magSq (vecTo a v') ≤ magSq (vecTo a v)
        ∧ (magSq (vecTo a v') = magSq (vecTo a v) → j ≤ j') := by
  induction l with
  | nil => exact fun best => .inl ⟨rfl, nofun⟩
  | cons b l ih =>
    intro best
    rw [bestFrom]
    by_cases hb : magSq best < magSq (vecTo a b)
    · rw [if_pos hb]
      right
      obtain ⟨e, hle⟩ | ⟨j, v, hv, e, hlt, hmax⟩ := ih (vecTo a b)
      · refine ⟨0, b, rfl, e, hb, fun j' v' hv' => ⟨?_, fun _ => Nat.zero_le _⟩⟩
        cases j' with
        | zero => cases hv'; exact le_rfl
        | succ j' => exact hle v' (List.mem_of_getElem? hv')
      · refine ⟨j + 1, v, hv, e, hb.trans hlt, fun j' v' hv' => ?_⟩
        cases j' with
        | zero => cases hv'; exact ⟨hlt.le, fun h => absurd h hlt.ne⟩
        | succ j' => exact (hmax j' v' hv').imp id fun h hs => Nat.succ_le_succ (h hs)
    · rw [if_neg hb]
      obtain ⟨e, hle⟩ | ⟨j, v, hv, e, hlt, hmax⟩ := ih best
      · exact .inl ⟨e, List.forall_mem_cons.2 ⟨Nat.not_lt.1 hb, hle⟩⟩
      · refine .inr ⟨j + 1, v, hv, e, hlt, fun j' v' hv' => ?_⟩
        cases j' with
        | zero =>
          cases hv'
          have hsmall := (Nat.not_lt.1 hb).trans_lt hlt
          exact ⟨hsmall.le, fun h => absurd h hsmall.ne⟩
        | succ j' => exact (hmax j' v' hv').imp id fun h hs => Nat.succ_le_succ (h hs)

/-- The pair of places `i` and `j` of a window, with the samples there. -/
structure PairAt (w : List Vec) (i j : Nat) (u v : Vec) : Prop where
  lt : i < j
  first : w[i]? = some u
  second : w[j]? = some v

theorem PairAt.cons {w : List Vec} {i j : Nat} {u v : Vec} (h : PairAt w i j u v) (a : Vec) :
    PairAt (a :: w) (i + 1) (j + 1) u v := ⟨Nat.succ_lt_succ h.lt, h.first, h.second⟩

/-- A pair of a window begins with its first sample, or is one of the rest. -/
theorem PairAt.cases {w : List Vec} {a u v : Vec} {i j : Nat} (h : PairAt (a :: w) i j u v) :
    (i = 0 ∧ u = a ∧ ∃ k, j = k + 1 ∧ w[k]? = some v)
    ∨ ∃ i' k, i = i' + 1 ∧ j = k + 1 ∧ PairAt w i' k u v := by
  obtain ⟨hlt, hu, hv⟩ := h
  cases j with
  | zero => cases hlt
  | succ k =>
    cases i with
    | zero => cases hu; exact .inl ⟨rfl, rfl, k, rfl, hv⟩
    | succ i' => exact .inr ⟨i', k, rfl, rfl, Nat.lt_of_succ_lt_succ hlt, hu, hv⟩

/-- No pair of the window is farther apart than `v` is long. -/
def Bounds (v : Vec) (w : List Vec) : Prop :=
  ∀ i j u' v', PairAt w i j u' v' → magSq (vecTo u' v') ≤ magSq v

/-- The pair at `i` and `j` is the first of the greatest distance, and is farther apart than `best` is
long. -/
structure FirstFarthest (w : List Vec) (best : Vec) (i j : Nat) (u v : Vec) : Prop
    extends PairAt w i j u v where
  better : magSq best < magSq (vecTo u v)
  greatest : Bounds (vecTo u v) w
  earliest : ∀ i' j' u' v', PairAt w i' j' u' v' → magSq (vecTo u' v') = magSq (vecTo u v) →
    i < i' ∨ i = i' ∧ j ≤ j'

theorem bestPair_cases (w : List Vec) : ∀ best : Vec,
    (bestPair w best = best ∧ Bounds best w)
    ∨ ∃ i j u v, bestPair w best = vecTo u v ∧ FirstFarthest w best i j u v := by
  induction w with
  | nil => exact fun best => .inl ⟨rfl, fun _ _ _ _ h => by cases h.first⟩
  | cons a w ih =>
    intro best
    rw [bestPair]
    obtain ⟨e, hbest⟩ | ⟨j, v, hv, e, hlt, hmax⟩ := bestFrom_cases a w best
    · rw [e]
      obtain ⟨e', hrest⟩ | ⟨i, j, u, v, e', hfar⟩ := ih best
      · refine .inl ⟨e', fun i j u v h => ?_⟩
        obtain ⟨-, rfl, k, -, hv⟩ | ⟨i', k, -, -, h'⟩ := h.cases
        · exact hbest v (List.mem_of_getElem? hv)
        · exact hrest i' k u v h'
      · refine .inr ⟨i + 1, j + 1, u, v, e', hfar.toPairAt.cons a, hfar.better,
          fun i' j' u' v' h => ?_, fun i' j' u' v' h hs => ?_⟩
        · obtain ⟨-, rfl, k, -, hv'⟩ | ⟨i', k, -, -, h'⟩ := h.cases
          · exact (hbest v' (List.mem_of_getElem? hv')).trans hfar.better.le
          · exact hfar.greatest i' k u' v' h'
        · obtain ⟨-, rfl, k, -, hv'⟩ | ⟨i', k, rfl, rfl, h'⟩ := h.cases
          · exact absurd hs ((hbest v' (List.mem_of_getElem? hv')).trans_lt hfar.better).ne
          · have := hfar.earliest i' k u' v' h' hs
            omega
    · rw [e]
      obtain ⟨e', hrest⟩ | ⟨i, j', u, v', e', hfar⟩ := ih (vecTo a v)
      · refine .inr ⟨0, j + 1, a, v, e', ⟨Nat.succ_pos j, rfl, hv⟩, hlt, fun i' j' u' v' h => ?_,
          fun i' j' u' v' h hs => ?_⟩
        · obtain ⟨-, rfl, k, -, hv'⟩ | ⟨i', k, -, -, h'⟩ := h.cases
          · exact (hmax k v' hv').1
          · exact hrest i' k u' v' h'
        · obtain ⟨rfl, rfl, k, rfl, hv'⟩ | ⟨i', k, rfl, -, h'⟩ := h.cases
          · exact .inr ⟨rfl, Nat.succ_le_succ ((hmax k v' hv').2 hs)⟩
          · exact .inl (Nat.succ_pos i')
      · refine .inr ⟨i + 1, j' + 1, u, v', e', hfar.toPairAt.cons a, hlt.trans hfar.better,
          fun i' k u' w' h => ?_, fun i' k u' w' h hs => ?_⟩
        · obtain ⟨-, rfl, k, -, hw'⟩ | ⟨i', k, -, -, h'⟩ := h.cases
          · exact ((hmax k w' hw').1).trans hfar.better.le
          · exact hfar.greatest i' k u' w' h'
        · obtain ⟨-, rfl, k, -, hw'⟩ | ⟨i', k, rfl, rfl, h'⟩ := h.cases
          · exact absurd hs (((hmax k w' hw').1).trans_lt hfar.better).ne
          · have := hfar.earliest i' k u' w' h' hs
            omega

theorem magSq_vecTo (u v : Vec) : ((magSq (vecTo u v) : Nat) : Int) = (v.x - u.x) ^ 2 + (v.y - u.y) ^ 2 := by
  rw [magSq_cast]
  simp only [vecTo, sq]

/-- A vector of length 0 is (0, 0). -/
theorem eq_zero_of_magSq {v : Vec} (h : magSq v = 0) : v = ⟨0, 0⟩ := by
  have hsum := magSq_cast v
  rw [h, Nat.cast_zero] at hsum
  obtain ⟨hx, hy⟩ := (add_eq_zero_iff_of_nonneg (mul_self_nonneg _) (mul_self_nonneg _)).1 hsum.symm
  obtain ⟨x, y⟩ := v
  rw [Vec.mk.injEq]
  exact ⟨mul_self_eq_zero.1 hx, mul_self_eq_zero.1 hy⟩

/-- R100: a window of one sample has the vector (0, 0), another that of its first farthest pair. -/
theorem peakVector_figures (w : List Vec) :
    let size (u v : Vec) : Int := (v.x - u.x) ^ 2 + (v.y - u.y) ^ 2
    (w.length ≤ 1 → peakVector w = ⟨0, 0⟩)
    ∧ (2 ≤ w.length → ∃ (i j : Nat) (u v : Vec), i < j ∧ w[i]? = some u ∧ w[j]? = some v
        ∧ peakVector w = ⟨v.x - u.x, v.y - u.y⟩
        ∧ ∀ (i' j' : Nat) (u' v' : Vec), i' < j' → w[i']? = some u' → w[j']? = some v' →
            size u' v' ≤ size u v ∧ (size u' v' = size u v → i < i' ∨ i = i' ∧ j ≤ j')) := by
  intro size
  have hsize : ∀ u v, ((magSq (vecTo u v) : Nat) : Int) = size u v := magSq_vecTo
  refine ⟨fun hlen => ?_, fun hlen => ?_⟩
  · match w, hlen with
    | [], _ => rfl
    | [_], _ => rfl
  · obtain ⟨e, hbound⟩ | ⟨i, j, u, v, e, hfar⟩ := bestPair_cases w ⟨0, 0⟩
    · match w, hlen, e, hbound with
      | u :: v :: rest, _, e, hbound =>
        have zero : ∀ i j u' v', PairAt (u :: v :: rest) i j u' v' → magSq (vecTo u' v') = 0 :=
          fun i j u' v' h => Nat.le_zero.1 (hbound i j u' v' h)
        have huv := zero 0 1 u v ⟨Nat.zero_lt_one, rfl, rfl⟩
        refine ⟨0, 1, u, v, Nat.zero_lt_one, rfl, rfl, e.trans (eq_zero_of_magSq huv).symm,
          fun i' j' u' v' hlt hu hv => ?_⟩
        have hzero := zero i' j' u' v' ⟨hlt, hu, hv⟩
        rw [← hsize, ← hsize, huv, hzero]
        exact ⟨le_rfl, fun _ => by omega⟩
    · refine ⟨i, j, u, v, hfar.lt, hfar.first, hfar.second, e, fun i' j' u' v' hlt hu hv => ?_⟩
      have h : PairAt w i' j' u' v' := ⟨hlt, hu, hv⟩
      rw [← hsize, ← hsize, Nat.cast_le, Nat.cast_inj]
      exact ⟨hfar.greatest i' j' u' v' h, hfar.earliest i' j' u' v' h⟩

/-! ## The amplitude and the gain step (R102, R106) -/

/-- R102: the amplitude is the length rounded; a square root of an integer is never halfway. -/
theorem amplitudeOf_rounds {e : Nat} (he : e < 2 ^ 64) :
    let k : Int := amplitudeOf e
    (e = 0 → k = 0) ∧ (e ≠ 0 → 1 ≤ k ∧ (2 * k - 1) ^ 2 < 4 * e ∧ 4 * e < (2 * k + 1) ^ 2) := by
  intro k
  obtain ⟨hlo, hhi⟩ := isqrt_spec e he
  have hk : k = if (2 * isqrt e + 1) * (2 * isqrt e + 1) < 4 * e then ((isqrt e : Nat) : Int) + 1
      else ((isqrt e : Nat) : Int) := by
    simp only [k, amplitudeOf]
    split <;> push_cast <;> rfl
  rw [hk]
  clear hk k
  generalize isqrt e = r at hlo hhi
  zify at hlo hhi
  have hr : (0 : Int) ≤ r := Int.natCast_nonneg r
  refine ⟨fun h0 => ?_, fun h0 => ?_⟩
  · subst h0
    have : (r : Int) = 0 := by push_cast at hlo; nlinarith
    rw [if_neg (by omega), this]
  · have hpos : (1 : Int) ≤ e := by exact_mod_cast Nat.one_le_iff_ne_zero.2 h0
    have hr1 : (1 : Int) ≤ r := by nlinarith
    split
    · next hup =>
      zify at hup
      refine ⟨by omega, by nlinarith, by nlinarith⟩
    · next hdown =>
      have hodd : 4 * (e : Int) < (2 * r + 1) * (2 * r + 1) := by
        zify at hdown
        have : (2 * (r : Int) + 1) * (2 * r + 1) = 4 * (r * r + r) + 1 := by ring
        omega
      refine ⟨hr1, by nlinarith, by nlinarith⟩

/-- The root that the gain step begins from: 2,560,000 over the length, rounded down. -/
def gainRoot (e : Nat) : Nat := isqrt (2560000 * 2560000 / e)

theorem gainRoot_spec {e : Nat} (h1 : 250000 ≤ e) (h2 : e ≤ 1600000000) :
    64 ≤ gainRoot e ∧ gainRoot e * gainRoot e * e ≤ 2560000 * 2560000
      ∧ 2560000 * 2560000 < (gainRoot e + 1) * (gainRoot e + 1) * e := by
  have hpos : 0 < e := by omega
  obtain ⟨hlo, hhi⟩ := isqrt_spec (2560000 * 2560000 / e)
    ((Nat.div_le_self _ _).trans_lt (by norm_num))
  have hquot : 4096 ≤ 2560000 * 2560000 / e := (Nat.le_div_iff_mul_le hpos).2 (by omega)
  have hbelow : 2560000 * 2560000 / e * e ≤ 2560000 * 2560000 := Nat.div_mul_le_self _ _
  have habove : 2560000 * 2560000 < e * (2560000 * 2560000 / e + 1) := Nat.lt_mul_div_succ _ hpos
  unfold gainRoot
  generalize 2560000 * 2560000 / e = q at *
  generalize isqrt q = r at *
  refine ⟨?_, (Nat.mul_le_mul_right e hlo).trans hbelow, habove.trans_le ?_⟩
  · by_contra hr
    have : (r + 1) * (r + 1) ≤ 64 * 64 := Nat.mul_le_mul (by omega) (by omega)
    omega
  · rw [mul_comm e]
    exact Nat.mul_le_mul_right e hhi

/-- The step above or below the middle, and the even one in the middle. -/
theorem gainOf_cases (e : Nat) :
    gainOf e = gainRoot e + 1
        ∧ (2 * gainRoot e + 1) * (2 * gainRoot e + 1) * e < 5120000 * 5120000
    ∨ gainOf e = gainRoot e ∧ 5120000 * 5120000 < (2 * gainRoot e + 1) * (2 * gainRoot e + 1) * e
    ∨ (gainOf e = gainRoot e ∨ gainOf e = gainRoot e + 1) ∧ gainOf e % 2 = 0
        ∧ (2 * gainRoot e + 1) * (2 * gainRoot e + 1) * e = 5120000 * 5120000 := by
  have hgain : gainOf e
      = if (2 * gainRoot e + 1) * (2 * gainRoot e + 1) * e < 5120000 * 5120000 then gainRoot e + 1
        else if 5120000 * 5120000 < (2 * gainRoot e + 1) * (2 * gainRoot e + 1) * e then gainRoot e
        else if gainRoot e % 2 = 0 then gainRoot e else gainRoot e + 1 := rfl
  rw [hgain]
  generalize gainRoot e = r
  rcases lt_trichotomy ((2 * r + 1) * (2 * r + 1) * e) (5120000 * 5120000) with h | h | h
  · rw [if_pos h]
    exact .inl ⟨rfl, h⟩
  · rw [if_neg h.not_lt, if_neg h.not_gt]
    refine .inr (.inr ?_)
    split
    · next hr => exact ⟨.inl rfl, hr, h⟩
    · next hr => exact ⟨.inr rfl, by omega, h⟩
  · rw [if_neg h.not_gt, if_pos h]
    exact .inr (.inl ⟨rfl, h⟩)

/-- R106: the gain step is 2,560,000 over the length, rounded half to even. -/
theorem gainOf_rounds {e : Nat} (h1 : 250000 ≤ e) (h2 : e ≤ 1600000000) :
    let g : Int := gainOf e
    64 ≤ g ∧ (2 * g - 1) ^ 2 * e ≤ 5120000 ^ 2 ∧ 5120000 ^ 2 ≤ (2 * g + 1) ^ 2 * e
      ∧ ((2 * g - 1) ^ 2 * e = 5120000 ^ 2 ∨ (2 * g + 1) ^ 2 * e = 5120000 ^ 2 → g % 2 = 0) := by
  intro g
  obtain ⟨hroot, hlo, hhi⟩ := gainRoot_spec h1 h2
  have hcases := gainOf_cases e
  generalize gainRoot e = r at *
  zify at h1 hroot hlo hhi hcases
  have below : (2 * (r : Int) - 1) ^ 2 * e < 5120000 ^ 2 := by nlinarith
  have above : (5120000 : Int) ^ 2 < (2 * (r + 1) + 1) ^ 2 * e := by nlinarith
  have middle : (2 * ((r : Int) + 1) - 1) ^ 2 * e = (2 * r + 1) * (2 * r + 1) * e := by ring
  have middle' : (2 * (r : Int) + 1) ^ 2 * e = (2 * r + 1) * (2 * r + 1) * e := by ring
  obtain ⟨hg, h⟩ | ⟨hg, h⟩ | ⟨hg, heven, h⟩ := hcases
  · have hg : g = r + 1 := hg
    rw [hg, middle]
    exact ⟨by omega, by omega, above.le, fun heq => by omega⟩
  · have hg : g = r := hg
    rw [hg, middle']
    exact ⟨hroot, below.le, by omega, fun heq => by omega⟩
  · have heven : g % 2 = 0 := heven
    obtain hg | hg := hg
    · have hg : g = r := hg
      rw [hg, middle']
      exact ⟨hroot, below.le, by omega, fun _ => hg ▸ heven⟩
    · have hg : g = r + 1 := hg
      rw [hg, middle]
      exact ⟨by omega, by omega, above.le, fun _ => hg ▸ heven⟩

end Sys2Proof.Machine
end

section
/-!
The figures of Signal Arithmetic (R92 to R98, R100 to R103, R105 to R107): the angles, and all figures
together.
-/

namespace Sys2Proof.Machine

/-! ## Angles (R101, R107) -/

/-- Away from 0 and from 180 degrees a sine is not small. -/
theorem sin_ge_of_between {x margin : ℝ} (h0 : 0 ≤ margin) (h1 : margin ≤ x)
    (h2 : x ≤ Real.pi - margin) : 2 / Real.pi * margin ≤ Real.sin x := by
  have hpi : 0 ≤ 2 / Real.pi := div_nonneg zero_le_two Real.pi_pos.le
  rcases le_total x (Real.pi / 2) with hx | hx
  · exact (mul_le_mul_of_nonneg_left h1 hpi).trans (Real.mul_le_sin (h0.trans h1) hx)
  · rw [← Real.sin_pi_sub]
    exact (mul_le_mul_of_nonneg_left (by linarith) hpi).trans
      (Real.mul_le_sin (by linarith) (by linarith))

/-- An angle whose sine is small, and that is not near 180 degrees, is within a thousandth of a tenth
of a degree of 0 or negative. -/
theorem le_of_sin_le {x : ℝ} (hx : x ≤ Real.pi - Real.pi / 3600) (h : Real.sin x ≤ 2 / 10 ^ 12) :
    x ≤ Real.pi / 1800000 := by
  have hpi := Real.pi_pos
  by_contra hlt
  have hsin := sin_ge_of_between (x := x) (margin := Real.pi / 1800000) (by positivity)
    (not_le.1 hlt).le (by linarith)
  rw [show 2 / Real.pi * (Real.pi / 1800000) = 1 / 900000 by field_simp; norm_num] at hsin
  norm_num at h hsin
  linarith

/-- A vector of known length and angle points upward, or its opposite does (R101). -/
theorem upward_eq {v : Vec} {length angle : ℝ} (hl : 0 < length) (h0 : 0 ≤ angle)
    (hpi : angle < Real.pi)
    (hv : (v.x : ℝ) = length * Real.cos angle ∧ (v.y : ℝ) = length * Real.sin angle
      ∨ (v.x : ℝ) = -(length * Real.cos angle) ∧ (v.y : ℝ) = -(length * Real.sin angle)) :
    ((upward v).x : ℝ) = length * Real.cos angle ∧ ((upward v).y : ℝ) = length * Real.sin angle := by
  have axis : length * Real.sin angle = 0 → 0 < length * Real.cos angle := by
    intro hs
    have hsin : Real.sin angle = 0 := (mul_eq_zero.1 hs).resolve_left hl.ne'
    have hangle : angle = 0 :=
      h0.eq_of_not_lt' fun h => (Real.sin_pos_of_pos_of_lt_pi h hpi).ne' hsin
    rw [hangle, Real.cos_zero, mul_one]
    exact hl
  have hside : 0 ≤ length * Real.sin angle :=
    mul_nonneg hl.le (Real.sin_nonneg_of_nonneg_of_le_pi h0 hpi.le)
  unfold upward
  obtain ⟨hx, hy⟩ | ⟨hx, hy⟩ := hv
  · rw [if_neg]
    · exact ⟨hx, hy⟩
    · rintro (h | ⟨h, h'⟩)
      · have : (v.y : ℝ) < 0 := by exact_mod_cast h
        linarith
      · have hzero : (v.y : ℝ) = 0 := by exact_mod_cast h
        have hneg : (v.x : ℝ) < 0 := by exact_mod_cast h'
        have := axis (hy ▸ hzero)
        linarith
  · rw [if_pos]
    · push_cast
      rw [hx, hy, neg_neg, neg_neg]
      exact ⟨rfl, rfl⟩
    · rcases hside.lt_or_eq with h | h
      · left
        have : (v.y : ℝ) < 0 := by linarith
        exact_mod_cast this
      · right
        have hzero : (v.y : ℝ) = 0 := by linarith
        have hneg : (v.x : ℝ) < 0 := by
          have := axis h.symm
          linarith
        exact ⟨by exact_mod_cast hzero, by exact_mod_cast hneg⟩

theorem ne_zero_of_length {v : Vec} {length angle : ℝ} (hl : 0 < length)
    (hv : (v.x : ℝ) = length * Real.cos angle ∧ (v.y : ℝ) = length * Real.sin angle
      ∨ (v.x : ℝ) = -(length * Real.cos angle) ∧ (v.y : ℝ) = -(length * Real.sin angle)) :
    v ≠ ⟨0, 0⟩ := by
  rintro rfl
  have hzero : length * Real.cos angle = 0 ∧ length * Real.sin angle = 0 := by
    simpa [eq_comm] using hv
  obtain ⟨hc, hs⟩ := hzero
  have hcos := (mul_eq_zero.1 hc).resolve_left hl.ne'
  have hsin := (mul_eq_zero.1 hs).resolve_left hl.ne'
  have := Real.sin_sq_add_cos_sq angle
  rw [hcos, hsin] at this
  norm_num at this

/-- The search ends at the tenths that the angle lies between the boundaries of (R101). -/
theorem angleTenths_near {v : Vec} {length angle : ℝ} (hl : 0 < length) (h0 : 0 ≤ angle)
    (hpi : angle < Real.pi)
    (hv : (v.x : ℝ) = length * Real.cos angle ∧ (v.y : ℝ) = length * Real.sin angle
      ∨ (v.x : ℝ) = -(length * Real.cos angle) ∧ (v.y : ℝ) = -(length * Real.sin angle)) :
    angleTenths v ≤ 1800
      ∧ |(angleTenths v : ℝ) - angle * 1800 / Real.pi| ≤ 1 / 2 + 1 / 1000 := by
  obtain ⟨hx, hy⟩ := upward_eq hl h0 hpi hv
  have hpos := Real.pi_pos
  rw [angleTenths, if_neg (ne_zero_of_length hl hv)]
  obtain ⟨hlow, hhigh⟩ := tenthsFrom_spec (upward v) 11 0 (.inl rfl) (by norm_num)
  generalize tenthsFrom (upward v) 11 0 = n at hlow hhigh
  have hn : n ≤ 1800 := by
    obtain h | ⟨h, -⟩ := hlow
    · omega
    · exact h
  have hn' : (n : ℝ) ≤ 1800 := by exact_mod_cast hn
  -- the angle is not below the lower boundary, and not above the upper one
  have lower : (n : ℝ) * (Real.pi / 1800) - Real.pi / 3600 - Real.pi / 1800000 ≤ angle := by
    obtain rfl | ⟨-, habove⟩ := hlow
    · push_cast
      linarith
    · obtain rfl | hn0 := Nat.eq_zero_or_pos n
      · push_cast
        linarith
      · have near := (angleAbove_near (upward v) (2 * n - 1) (by omega) length angle hl hx hy).1 habove
        have hcast : ((2 * n - 1 : Nat) : ℝ) = 2 * n - 1 := by
          rw [Nat.cast_sub (by omega)]
          push_cast
          ring
        rw [hcast] at near
        have hsin : Real.sin ((2 * n - 1) * Real.pi / 3600 - angle) ≤ 2 / 10 ^ 12 := by
          rw [← neg_sub, Real.sin_neg]
          linarith
        have := le_of_sin_le (by nlinarith) hsin
        linarith
  have upper : angle ≤ (n : ℝ) * (Real.pi / 1800) + Real.pi / 3600 + Real.pi / 1800000 := by
    rcases hn.lt_or_eq with hlt | rfl
    · have hnot : angleAbove (upward v) (2 * (n + 1) - 1) = false := by
        rw [← Bool.not_eq_true]
        exact fun h => hhigh ⟨hlt, h⟩
      have near := (angleAbove_near (upward v) (2 * (n + 1) - 1) (by omega) length angle hl hx hy).2
        hnot
      rw [show 2 * (n + 1) - 1 = 2 * n + 1 by omega] at near
      push_cast at near
      have hn0 : (0 : ℝ) ≤ n := Nat.cast_nonneg n
      have := le_of_sin_le (by nlinarith) near
      linarith
    · push_cast
      linarith
  refine ⟨hn, ?_⟩
  have hscale : angle * 1800 / Real.pi = angle / (Real.pi / 1800) := by field_simp
  have hunit : 0 < Real.pi / 1800 := by positivity
  rw [hscale, abs_le]
  have hlow' : (n : ℝ) - (1 / 2 + 1 / 1000) ≤ angle / (Real.pi / 1800) := by
    rw [le_div_iff₀ hunit]
    linarith
  have hhigh' : angle / (Real.pi / 1800) ≤ n + (1 / 2 + 1 / 1000) := by
    rw [div_le_iff₀ hunit]
    linarith
  constructor <;> linarith

/-- Settles O52: each figure by its own lemma. -/
theorem computedValuesLieInTheirRanges : Obligations.ComputedValuesLieInTheirRanges := by
  have half : ∀ {d : Int}, 0 < d → ∀ n, RoundsTo n d (roundHalfEven n d) :=
    fun hd n => roundHalfEven_roundsTo n hd
  refine ⟨fun g r null k a b v hm => ?_, fun g r => calibrate_figures (g := g) (r := r), fun sum => ?_,
    fun a null => clampSig_clampsTo .., fun k a b => ?_, peakVector_figures, fun e he => ?_,
    fun e => gainOf_rounds, fun v => ⟨phaseOf_lt v, Nat.mod_lt _ (by decide)⟩, rfl,
    fun v length angle hl h0 hpi hv => ?_, fun c p hc => ?_⟩
  · simp only [List.mem_cons, List.not_mem_nil, or_false] at hm
    obtain rfl | rfl | rfl := hm
    · exact clampSig_range ..
    · exact clampSig_range ..
    · exact clampSig_range ..
  · exact ⟨half (by norm_num) _, half (by norm_num) _⟩
  · refine ⟨_, _, ?_, ?_, clampSig_clampsTo ..⟩
    · rw [sub_sub_eq_add_sub, ← sub_add_eq_add_sub]
      exact half (by norm_num) _
    · rw [← sub_sub]
      exact half (by norm_num) _
  · exact amplitudeOf_rounds (he.trans_lt (by norm_num))
  · obtain ⟨hn, hnear⟩ := angleTenths_near hl h0 hpi hv
    exact ⟨angleTenths v, hn, hnear, rfl, rfl⟩
  · exact ⟨hc.read_le p, fun hp => if_pos hp, fun last hl hp => hc.read_last hl hp,
      fun i a b ha hb hap hpb => by
        obtain ⟨hflag, hdist, heven⟩ := hc.read_between ha hb hap hpb
        exact ⟨hflag, hdist, fun h => by have := heven h; omega⟩⟩

end Sys2Proof.Machine
end

section
/-!
CAL_START: its ten checks in their order, and the calibration pull that it starts (R116, R117).
-/

namespace Sys2Proof.Machine

variable {s : State} {p : Port} {c : Chan} {b k : Byte} {kind : PullKind} {sd : Standard}
  {why : RefusalCode}

/-! ## The kind character -/

/-- The kind character 0 or 1 names the kind FULL or CHECK (R116). -/
theorem calKindOf_of_toNat (h : k.toNat = 0 ∧ kind = .calFull ∨ k.toNat = 1 ∧ kind = .calCheck) :
    calKindOf k = some kind := by
  obtain ⟨h, rfl⟩ | ⟨h, rfl⟩ := h <;> rw [calKindOf, h] <;> rfl

theorem calKindOf_of_le (h : k.toNat ≤ 1) : ∃ kind, calKindOf k = some kind := by
  obtain h | h : k.toNat = 0 ∨ k.toNat = 1 := by omega
  · exact ⟨_, calKindOf_of_toNat (.inl ⟨h, rfl⟩)⟩
  · exact ⟨_, calKindOf_of_toNat (.inr ⟨h, rfl⟩)⟩

theorem calKindOf_of_gt (h : 1 < k.toNat) : calKindOf k = none := by
  unfold calKindOf
  split
  · omega
  · omega
  · rfl

/-! ## The checks -/

section
variable (role : (s.ports.get p).role = .crew)
include role

theorem ownCalStart_range (h : 3 < b.toNat ∨ 1 < k.toNat) :
    ownCalStart (b, k) p s = .refused .range := by
  obtain h | h := h
  · simp [ownCalStart, role, fin4_of_gt h]
  · cases hb : fin4 b <;> simp [ownCalStart, role, hb, calKindOf_of_gt h]

variable (hb : b.toNat = c.val) (hk : calKindOf k = some kind)
include hb hk

theorem ownCalStart_notBound (h : s.holdsChan p c = false) :
    ownCalStart (b, k) p s = .refused .notBound := by
  simp [ownCalStart, role, fin4_of_val hb, hk, h]

variable (holds : s.holdsChan p c = true)
include holds

theorem ownCalStart_state (h : startRefusal (s.chan.get c).state = some why) :
    ownCalStart (b, k) p s = .refused why := by
  simp [ownCalStart, role, fin4_of_val hb, hk, holds, h]

variable (ready : (s.chan.get c).state = .ready)
include ready

theorem ownCalStart_probeOpen (h : (s.chan.get c).probeOpen = true) :
    ownCalStart (b, k) p s = .refused .probeOpen := by
  simp [ownCalStart, role, fin4_of_val hb, hk, holds, ready, startRefusal, h]

variable (probe : (s.chan.get c).probeOpen = false)
include probe

theorem ownCalStart_noStandard (h : s.plan.standard = none) :
    ownCalStart (b, k) p s = .refused .state := by
  simp [ownCalStart, role, fin4_of_val hb, hk, holds, ready, startRefusal, probe, h]

/-- The last two checks read the group for FULL and the calibration state for CHECK (R116). -/
theorem ownCalStart_standard (standard : s.plan.standard = some sd) :
    ownCalStart (b, k) p s
      = if kind = .calFull ∧ (s.cal.get c).group ≠ [] then .refused .groupOpen
        else if kind = .calCheck ∧ (s.cal.get c).state = .uncalibrated then .refused .uncalibrated
        else .done (s.startCal p c kind sd) (calStartBody s c k sd) := by
  simp only [ownCalStart, role, ne_eq, not_true_eq_false, if_false, fin4_of_val hb, hk, holds,
    Bool.not_true, Bool.false_eq_true, ready, startRefusal, probe, standard]

end

/-- A CAL_START that its owners refuse is answered REFUSED. -/
theorem calStart_refused (h : s.takes p ⟨0x33, [b, k], false⟩)
    (attached : (s.ports.get p).role ≠ .none)
    (why : RefusalCode) (own : ownCalStart (b, k) p s = .refused why) :
    Refuses (.calStart p [b, k]) s p why.code :=
  attached_refused ownCalStart why h attached rfl own

/-- Settles O35: each check refuses where those before it pass; where all pass, the one action is the
one written out. -/
theorem calStartBeginsACalibrationPull : Obligations.CalStartBeginsACalibrationPull := by
  refine ⟨fun s p b k h attached => ?_, fun s p b k c kind h role hb hkind holds ready probe => ?_⟩
  · have refused := calStart_refused h attached
    refine ⟨fun role => refused .role (if_pos role),
      fun role hgt => refused .range (ownCalStart_range role hgt), fun role c hb hle => ?_⟩
    obtain ⟨kind, hk⟩ := calKindOf_of_le hle
    refine ⟨fun holds => refused .notBound (ownCalStart_notBound role hb hk holds), fun holds => ?_⟩
    have state : ∀ why, startRefusal (s.chan.get c).state = some why →
        Refuses (.calStart p [b, k]) s p why.code := fun why e =>
      refused why (ownCalStart_state role hb hk holds e)
    refine ⟨fun e => state .settling (by rw [e]; rfl), fun e => state .busy ?_,
      fun e => state .held (by rw [e]; rfl),
      fun ready probe => refused .probeOpen (ownCalStart_probeOpen role hb hk holds ready probe)⟩
    obtain e | e := e <;> rw [e] <;> rfl
  · have hk := calKindOf_of_toNat hkind
    have attached := attached_of_crew role
    have refused := calStart_refused h attached
    refine ⟨fun none =>
      refused .state (ownCalStart_noStandard role hb hk holds ready probe none), fun sd standard => ?_⟩
    have own := ownCalStart_standard role hb hk holds ready probe standard
    refine ⟨fun full hgroup => refused .groupOpen (own.trans (if_pos ⟨full, hgroup⟩)),
      fun check hun => refused .uncalibrated ?_, fun noGroup calibrated => ?_⟩
    · have notFull : ¬ (kind = .calFull ∧ (s.cal.get c).group ≠ []) := fun ⟨full, _⟩ => by
        rw [check] at full; cases full
      rw [own, if_neg notFull, if_pos ⟨check, hun⟩]
    · rw [if_neg fun ⟨full, hgroup⟩ => hgroup (noGroup full),
        if_neg fun ⟨check, hun⟩ => calibrated check hun] at own
      have hx : readTwo [b, k] = some (b, k) := rfl
      have e := attached_done ownCalStart h attached hx own
      rw [calStartBody, c1_of_toNat hb] at e
      exact e

end Sys2Proof.Machine
end

section
/-!
The beginnings of sizing jobs and re-screen steps, and RESCREEN_START (R139, R140, R161 to R163).
-/

namespace Sys2Proof.Machine

variable {s : State} {c : Curve} {st : Settings}

/-! ## Jobs and re-screen steps begin -/

/-- The unit is idle with no job and no step in flight (R139). -/
theorem unitIdle_iff (s : State) :
    s.unitIdle = true ↔ s.sizing.flight = none ∧ s.sizing.step = none := by
  rw [State.unitIdle, Bool.and_eq_true, Option.isNone_iff_eq_none, Option.isNone_iff_eq_none]

theorem passUnderWay_iff (s : State) : s.passUnderWay = true ↔ s.rescreen.phase = .underWay :=
  decide_eq_true_iff

/-- A step may begin in RUNNING, with the unit idle and its queue empty (R163). -/
theorem stepMayBegin_iff (s : State) :
    (s.passUnderWay && !s.jobsWaiting && s.unitIdle) = true
      ↔ (s.sizing.flight = none ∧ s.sizing.step = none) ∧ s.sizing.queue = []
        ∧ s.rescreen.phase = .underWay := by
  simp only [Bool.and_eq_true, Bool.not_eq_true', ← Bool.not_eq_true, jobsWaiting_iff, not_not,
    State.noJob, unitIdle_iff, passUnderWay_iff]
  tauto

theorem settings_of_curve (h : s.plan.curve = some c) :
    s.plan.settings = some ⟨c, s.plan.report, s.plan.plug⟩ := by
  rw [Plan.settings, h]; rfl

theorem settings_of_none (h : s.plan.curve = none) : s.plan.settings = none := by
  rw [Plan.settings, h]; rfl

/-- An idle unit takes the job at the head of the queue (R140). -/
theorem exec_sizingJobBegin {j : Job} {rest : List Job} (idle : s.unitIdle = true)
    (queue : s.sizing.queue = j :: rest) (settings : s.plan.settings = some st) :
    exec .sizingJobBegin s
      = .next (s.setSizing { s.sizing with queue := rest, flight := some (j, st) }) := by
  simp only [exec, execSizingJobBegin, idle, queue, settings]

/-- Where no job can begin, SIZING_JOB_BEGIN changes nothing (log 2). -/
theorem exec_sizingJobBegin_idles
    (h : s.unitIdle ≠ true ∨ s.sizing.queue = [] ∨ s.plan.settings = none) :
    exec .sizingJobBegin s = .next s := by
  simp only [exec, execSizingJobBegin]
  split
  · next idle queue settings =>
    rw [idle, queue, settings] at h
    simp at h
  · rfl

/-- Where a step may begin, it begins under the settings of the plan (R163). -/
theorem exec_rescreenStepBegin
    (may : (s.passUnderWay && !s.jobsWaiting && s.unitIdle) = true)
    (settings : s.plan.settings = some st) :
    exec .rescreenStepBegin s = .next (s.setSizing { s.sizing with step := some st }) := by
  simp only [exec, execRescreenStepBegin, if_pos may, settings]

/-- Where no step can begin, RESCREEN_STEP_BEGIN changes nothing (log 2). -/
theorem exec_rescreenStepBegin_idles
    (h : (s.passUnderWay && !s.jobsWaiting && s.unitIdle) ≠ true ∨ s.plan.settings = none) :
    exec .rescreenStepBegin s = .next s := by
  obtain h | h := h
  · simp only [exec, execRescreenStepBegin, if_neg h]
  · simp only [exec, execRescreenStepBegin, h, ite_self]

/-! ## RESCREEN_START -/

/-- The state that RESCREEN_START reports is RUNNING, or WAITING while jobs are queued or in flight
(R160). -/
theorem c1_rescreenCode_startPass (s : State) :
    c1 s.startPass.rescreenCode
      = [if s.sizing.queue = [] ∧ s.sizing.flight = none then 1 else 2] := by
  have waiting : s.startPass.jobsWaiting = true ↔ ¬ (s.sizing.queue = [] ∧ s.sizing.flight = none) :=
    jobsWaiting_iff s.startPass
  show c1 (if s.startPass.jobsWaiting = true then 2 else 1) = _
  rw [if_congr waiting rfl rfl, ite_not]
  split <;> rfl

/-- Settles O43: each beginning under its condition, and the start of a pass. -/
theorem jobsAndStepsBeginWhenTheUnitIsIdle : Obligations.JobsAndStepsBeginWhenTheUnitIsIdle := by
  refine ⟨fun s curve hc => ?_, fun s hc => ?_, fun s p h role => ⟨fun other => ?_, ?_⟩⟩
  · have settings := settings_of_curve hc
    refine ⟨fun j rest idle queue => ?_, fun stays => ?_, fun idle queue under => ?_, fun stays => ?_⟩
    · rw [exec_sizingJobBegin ((unitIdle_iff s).2 idle) queue settings, ← idle.2]
      rfl
    · refine exec_sizingJobBegin_idles ?_
      rw [ne_eq, unitIdle_iff]
      exact stays.imp_right .inl
    · rw [exec_rescreenStepBegin ((stepMayBegin_iff s).2 ⟨idle, queue, under⟩) settings, ← idle.1,
        ← queue]
      rfl
    · refine exec_rescreenStepBegin_idles (.inl ?_)
      rw [ne_eq, stepMayBegin_iff]
      exact fun ⟨idle, queue, under⟩ => stays.elim (· idle) (·.elim (· queue) (· under))
  · have settings := settings_of_none hc
    exact ⟨exec_sizingJobBegin_idles (.inr (.inr settings)),
      exec_rescreenStepBegin_idles (.inr settings)⟩
  · exact review_refused ownRescreenStart .state h role (x := ()) rfl (if_pos other)
  · rintro active restarts code rfl rfl
    have e := review_done ownRescreenStart h role (x := ()) rfl (if_neg (not_not.2 active))
    rw [c1_rescreenCode_startPass] at e
    exact e

end Sys2Proof.Machine
end

section
/-!
The ranking of a job's records, those it keeps, and its classification (R141 to R145).
-/

namespace Sys2Proof.Machine

variable {c : Curve} {l : List Indication} {records : List Located} {r : Located}

/-! ## Ranking -/

/-- Of two records at distinct positions one is deeper than the other (R142). -/
theorem deeper_total {a b : Indication} (h : a.position ≠ b.position) : Deeper a b ∨ Deeper b a := by
  rw [deeper_iff_rankKey, deeper_iff_rankKey]
  refine (lt_or_gt_of_ne fun e => h ?_).symm
  exact congrArg (fun k => (ofLex (ofLex k).2).2) e

/-- Records at distinct positions are ranked strictly. -/
theorem ranked_deeper (h : (l.map (fun x => x.position)).Nodup) : (ranked l).Pairwise Deeper := by
  have apart : (ranked l).Pairwise (fun a b => a.position ≠ b.position) :=
    List.pairwise_map.1 (((sortBy_perm deeper l).map _).nodup_iff.2 h)
  exact (apart.and (ranked_sorted l)).imp fun ⟨hne, hb⟩ => (deeper_total hne).resolve_right hb

/-- The ranking leaves a ranked list as it is. -/
theorem ranked_of_sorted (h : l.Pairwise (fun a b => ¬ Deeper b a)) : ranked l = l := by
  induction l with
  | nil => rfl
  | cons a l ih =>
    obtain ⟨first, rest⟩ := List.pairwise_cons.1 h
    show insertBy deeper a (ranked l) = a :: l
    rw [ih rest]
    cases l with
    | nil => rfl
    | cons b l => exact if_neg (mt (deeper_iff b a).1 (first b (List.mem_cons_self ..)))

theorem ranked_perm_sized (c : Curve) (records : List Located) :
    (ranked (records.map (sized c))).Perm (records.map (sized c)) :=
  sortBy_perm deeper _

/-! ## The records that a job keeps -/

theorem keptOf_length_eq (c : Curve) (records : List Located) :
    (keptOf c records).length = min 16 records.length := by
  rw [keptOf, List.length_take, (ranked_perm_sized c records).length_eq, List.length_map]

/-- A kept record is a record of the job, sized. -/
theorem exists_of_mem_keptOf {x : Indication} (h : x ∈ keptOf c records) :
    ∃ r ∈ records, sized c r = x :=
  List.mem_map.1 ((ranked_perm_sized c records).mem_iff.1 (List.mem_of_mem_take h))

/-- A record of the job, sized, is kept or ranks among those after the kept ones. -/
theorem mem_keptOf_or_drop (h : r ∈ records) :
    sized c r ∈ keptOf c records
      ∨ sized c r ∈ (ranked (records.map (sized c))).drop Config.keptMax := by
  rw [keptOf, ← List.mem_append, List.take_append_drop]
  exact (ranked_perm_sized c records).mem_iff.2 (List.mem_map_of_mem h)

/-- A clipped record has no definite depth (R141). -/
theorem sized_of_clipped (h : r.clipped = true) :
    (sized c r).depth = .indefinite ∧ (sized c r).outOfCurve = false := by
  simp only [sized, depthOf, if_pos h, and_self]

/-- Any other is sized through the curve at its phase (R141). -/
theorem sized_of_not_clipped (h : r.clipped = false) :
    (sized c r).depth = .pct (c.read r.phase).1 ∧ (sized c r).outOfCurve = (c.read r.phase).2 := by
  simp only [sized, depthOf, h, Bool.false_eq_true, if_false, and_self]

/-- The worst depth of a ranked list is that of its first record (R143). -/
theorem worstOf_of_sorted (h : l.Pairwise Deeper) : worstOf l = l.head?.map Indication.depth := by
  rw [worstOf, ranked_of_sorted (h.imp deeper_asymm)]

/-- Settles O44: the sized records at distinct positions are ranked strictly, a job keeps the first 16 of
them, and the classification reads the rows of R145. -/
theorem jobsKeepTheDeepestAndClassify : Obligations.JobsKeepTheDeepestAndClassify := by
  refine ⟨fun st records distinct => ?_, fun st fault worst _ => ?_⟩
  · intro kept
    have strict : (ranked (records.map (sized st.curve))).Pairwise Deeper :=
      ranked_deeper (by rw [List.map_map]; exact distinct)
    have sorted : kept.Pairwise Deeper := strict.sublist (List.take_sublist ..)
    refine ⟨keptOf_length_eq st.curve records, sorted, fun x hx => ?_, fun r hr dropped x hx => ?_,
      worstOf_of_sorted sorted⟩
    · obtain ⟨r, hr, rfl⟩ := exists_of_mem_keptOf hx
      exact ⟨r, hr, rfl, sized_of_clipped, sized_of_not_clipped⟩
    · have after := (mem_keptOf_or_drop (c := st.curve) hr).resolve_left fun h => dropped _ h rfl
      rw [← List.take_append_drop Config.keptMax (ranked _), List.pairwise_append] at strict
      obtain ⟨-, -, across⟩ := strict
      exact across x hx _ after
  · cases fault with
    | some f => rfl
    | none =>
      cases worst with
      | none => rfl
      | some d =>
        cases d with
        | indefinite => rfl
        | pct n => exact classifyDepth_eq (some (.pct n))

end Sys2Proof.Machine
end

section
/-!
The layouts of the replies (R188, R189): each field and each record as the formats give it is what
the machine writes, and how many characters it takes.
-/

namespace Sys2Proof.Machine

/-! ## Fields -/

theorem maybe_one (n : Option Nat) : Maybe 1 n = o1 n := rfl

theorem maybe_two (n : Option Nat) : Maybe 2 n = o2 n := rfl

theorem depthChar_eq (d : Option Depth) : DepthChar d = depthChar d := by
  cases d with
  | none => rfl
  | some d => cases d <;> rfl

theorem signed4_eq (n : Option Int) : Signed4 n = os4 n := by cases n <;> rfl

/-- A flag takes its weight in a flags character when it is set. -/
theorem bit_eq (b : Bool) (weight : Nat) : Bit b weight = weight * b.toNat := by
  cases b <;> simp [Bit]

theorem c1_bit (b : Bool) : c1 (Bit b 1) = flag b := by rw [bit_eq, Nat.one_mul, flag]

theorem c1_bits_three (b0 b1 b2 : Bool) :
    c1 (Bit b0 1 + Bit b1 2 + Bit b2 4) = flags b0 b1 b2 := by
  rw [bit_eq, bit_eq, bit_eq, Nat.one_mul, flags]

theorem c1_bits_two (b0 b1 : Bool) : c1 (Bit b0 1 + Bit b1 2) = flags b0 b1 false :=
  c1_bits_three b0 b1 false

theorem c1_bit_flags (b : Bool) : c1 (Bit b 1) = flags b false false := c1_bits_three b false false

theorem bits_four (q : FourSet) :
    c1 (Bit (q.get 0) 1 + Bit (q.get 1) 2 + Bit (q.get 2) 4 + Bit (q.get 3) 8) = setChar q := by
  rw [bit_eq, bit_eq, bit_eq, bit_eq, Nat.one_mul]; rfl

theorem faultNumber_eq : FaultNumber = PullFault.rank := by funext f; cases f <;> rfl

theorem reasonNumber_eq : ReasonNumber = CalReason.code := by funext why; cases why <;> rfl

theorem kindChar_eq (k : PullKind) : KindChar k = c1 k.code := by cases k <;> rfl

theorem traceChar_eq (t : Trace) : [TraceChar t] = c1 t.code := by
  cases t with
  | raw r => cases r <;> rfl
  | m1 | m2 => rfl

/-- The status, reason and fault characters are written one by one. -/
theorem statusChars_eq (st : Status) :
    StatusChars st = c1 st.code ++ (o1 st.reasonCode ++ o1 st.faultCode) := by
  cases st with
  | unresolved why =>
    cases why with
    | serviceFault f => cases f <;> rfl
    | indefiniteDepth | attempts => rfl
  | _ => rfl

theorem statusChars_take (st : Status) :
    (StatusChars st).take 2 = c1 st.code ++ o1 st.reasonCode := by
  rw [statusChars_eq]; rfl

theorem statusChars_drop (st : Status) :
    (StatusChars st).drop 1 = o1 st.reasonCode ++ o1 st.faultCode := by
  rw [statusChars_eq]; rfl

theorem Status.code_le (st : Status) : st.code ≤ 8 := by cases st <;> simp [Status.code]

/-- The first of these characters tells the statuses apart. -/
theorem statusChars_head_iff (st : Status) (b : Byte) :
    (StatusChars st).head? = some b ↔ st.code = b.toNat := by
  rw [statusChars_eq]
  show some (BitVec.ofNat 8 st.code) = some b ↔ _
  have hlt : st.code < 256 := Nat.lt_of_le_of_lt st.code_le (by decide)
  rw [Option.some_inj, ← BitVec.toNat_inj, toNat_ofNat8 _ hlt]

/-! ## Lengths of fields -/

@[simp] theorem c1_length (n : Nat) : (c1 n).length = 1 := rfl
@[simp] theorem c2_length (n : Nat) : (c2 n).length = 2 := rfl
@[simp] theorem c4_length (n : Nat) : (c4 n).length = 4 := rfl
@[simp] theorem o1_length (n : Option Nat) : (o1 n).length = 1 := rfl
@[simp] theorem o2_length (n : Option Nat) : (o2 n).length = 2 := rfl
@[simp] theorem flag_length (b : Bool) : (flag b).length = 1 := rfl
@[simp] theorem flags_length (b0 b1 b2 : Bool) : (flags b0 b1 b2).length = 1 := rfl

@[simp] theorem depthChar_length (d : Option Depth) : (depthChar d).length = 1 := by
  cases d with
  | none => rfl
  | some d => cases d <;> rfl

/-- Entries of one length take that length each. -/
theorem length_flatMap_const {α : Type} {f : α → List Byte} {n : Nat} (h : ∀ x, (f x).length = n)
    (l : List α) : (l.flatMap f).length = n * l.length := by
  simp [List.length_flatMap, h, Nat.mul_comm]

/-! ## Results -/

theorem traceItems_eq : TraceItems = TraceEntry.body := by
  funext e
  simp only [TraceItems, traceChar_eq, maybe_two, reasonNumber_eq, TraceEntry.body]
  cases e.failed <;> rfl

theorem mixItems_eq : MixItems = fun m => mixEntry m.code m.coef := by
  funext m
  cases m <;> simp only [MixItems, signed4_eq] <;> rfl

theorem TraceEntry.body_length (e : TraceEntry) : e.body.length = 12 := by simp [TraceEntry.body]

/-- The formats' layouts are those that RESULT_TAKE writes. -/
theorem resultItems_eq (r : Result) : ResultItems r = r.body := by
  cases r with
  | tube r =>
    simp only [ResultItems, statusChars_take, maybe_one, faultNumber_eq, c1_bits_two, depthChar_eq,
      Result.body, TubeResult.body, List.append_assoc]
    rfl
  | cal r =>
    simp only [ResultItems, kindChar_eq, maybe_one, reasonNumber_eq, faultNumber_eq, c1_bit_flags,
      traceItems_eq, mixItems_eq, Result.body, CalResult.body]
    rfl

theorem TubeResult.body_length (r : TubeResult) : r.body.length = 24 := by simp [TubeResult.body]

theorem CalResult.body_length (r : CalResult) :
    r.body.length = 18 + 12 * r.traces.length + 9 * r.mixes.length := by
  simp only [CalResult.body, List.length_append, c1_length, c2_length, o1_length, flags_length,
    length_flatMap_const TraceEntry.body_length,
    length_flatMap_const (fun m : MixOutcome => mixEntry_length m.code m.coef)]
  omega

/-! ## Tubes and indications -/

theorem find?_cons_val (f : Chan → Bool) (c : Chan) (l : List Chan) :
    ((c :: l).find? f).map Fin.val
      = if f c = true then some c.val else (l.find? f).map Fin.val := by
  rw [List.find?_cons]; cases f c <;> rfl

/-- The group that holds a tube is looked for in the order of the channels (R173). -/
theorem groupOf_val (s : State) (i : Nat) :
    (s.groupOf i).map Fin.val
      = if i ∈ (s.cal.get 0).group then some 0
        else if i ∈ (s.cal.get 1).group then some 1
        else if i ∈ (s.cal.get 2).group then some 2
        else if i ∈ (s.cal.get 3).group then some 3 else none := by
  simp only [State.groupOf, four, find?_cons_val, List.contains_iff_mem]
  rfl

theorem tubeItems_eq (s : State) (i : Nat) (tb : Tube) : TubeItems s i tb = tubeBody s i tb := by
  have marker : (fun cf : TubeClaim => if cf.inPull then 1 else 0) = fun cf => cf.inPull.toNat := by
    funext cf; cases cf.inPull <;> rfl
  simp only [TubeItems, statusChars_eq, maybe_one, maybe_two, marker, depthChar_eq, c1_bits_two,
    ← groupOf_val, tubeBody, List.append_assoc]
  cases tb.claim <;> rfl

theorem indicationItems_eq (x : Indication) : IndicationItems x = x.body := by
  simp only [IndicationItems, maybe_two, signed4_eq, traceChar_eq, depthChar_eq, c1_bits_three]
  rfl

theorem Indication.body_length (x : Indication) : x.body.length = 15 := by
  simp [Indication.body, os4_length]

/-! ## The summary -/

/-- A test that a status code decides counts the tubes of that code. -/
theorem countP_status {f : Status → Bool} {code : Nat} (h : ∀ st, f st = decide (st.code = code))
    (tubes : List Tube) : tubes.countP (fun tb => f tb.status) = statusCount tubes code := by
  simp only [h, statusCount, List.countP_eq_length_filter]

theorem Quad.toList_eq_map {α : Type} (q : Quad α) : q.toList = four.map q.get := rfl

/-- The filled slots are counted port by port and tag by tag. -/
theorem claimsHeld_eq (s : State) :
    (four.flatMap (fun p => four.map (fun t => (p, t)))).countP (fun x => (s.slot x.1 x.2).isSome)
      = s.claimsHeld := by
  have slots : s.claims.toList.flatMap Quad.toList
      = (four.flatMap (fun p => four.map (fun t => (p, t)))).map (fun x => s.slot x.1 x.2) := by
    simp only [List.map_flatMap, List.map_map, Quad.toList_eq_map, List.flatMap_map]
    rfl
  rw [State.claimsHeld, slots, ← List.countP_eq_length_filter, List.countP_map]
  rfl

theorem jobs_length (s : State) : s.jobs.length = s.jobCount := by
  simp only [State.jobs, State.jobCount]
  cases s.sizing.flight <;> simp

theorem jobs_eq_nil_iff (s : State) : s.jobs = [] ↔ ¬ s.jobsWaiting = true := by
  rw [jobsWaiting_iff, not_not]
  simp [State.jobs, State.noJob]

/-- The nine counts are rewritten in the order of the status codes; each test is then seen to decide
its code. -/
theorem summaryItems_eq (s : State) : SummaryItems s = summaryBody s := by
  unfold SummaryItems
  extract_lets count
  have counted {f : Status → Bool} {code : Nat} (h : ∀ st, f st = decide (st.code = code)) :
      count f = c2 (statusCount s.tubes code) := congrArg c2 (countP_status h s.tubes)
  clear_value count
  rw [counted (code := 0), counted (code := 1), counted (code := 2), counted (code := 3),
    counted (code := 4), counted (code := 5), counted (code := 6), counted (code := 7),
    counted (code := 8), claimsHeld_eq, jobs_length, c1_bit, c1_bit,
    if_congr (jobs_eq_nil_iff s) rfl rfl, ite_not]
  · simp only [summaryBody, List.flatMap_cons, List.flatMap_nil, List.append_assoc, List.nil_append]
    rfl
  all_goals
    intro st
    cases st <;> rfl

theorem summaryBody_length (s : State) : (summaryBody s).length = 51 := by
  simp [summaryBody, paddedName]

/-! ## A channel -/

/-- The calibrated slots of a unit, bit by bit. -/
theorem calSlots_eq (slots : Option FourSet) :
    o1 (slots.map (fun q =>
        Bit (q.get 0) 1 + Bit (q.get 1) 2 + Bit (q.get 2) 4 + Bit (q.get 3) 8))
      = (slots.map setChar).getD (o1 none) := by
  cases slots with
  | none => rfl
  | some q => exact bits_four q

/-- A channel is marked orphaned when a job queued or in flight is an orphan of it (R177). -/
theorem orphaned_iff (s : State) (c : Chan) :
    s.orphaned c = true ↔ ∃ j ∈ s.jobs, j.chan = c ∧ j.orphan = true := by
  simp only [State.orphaned, State.jobs, List.any_eq_true, Bool.and_eq_true, decide_eq_true_eq]

theorem channelItems_eq (s : State) (c : Chan) : ChannelItems s c = channelBody s c := by
  have orphan : decide ((s.chan.get c).state = .sizing ∧ ∃ j ∈ s.jobs, j.chan = c ∧ j.orphan = true)
      = (decide ((s.chan.get c).state = .sizing) && s.orphaned c) :=
    Bool.eq_iff_iff.2 (by
      rw [decide_eq_true_iff, Bool.and_eq_true, decide_eq_true_iff, orphaned_iff])
  simp only [ChannelItems, maybe_one, maybe_two, signed4_eq, calSlots_eq, c1_bit, orphan,
    channelBody, dividerBody, positionEntry, mixEntry, List.append_assoc]
  cases (s.cal.get c).slots <;> rfl

end Sys2Proof.Machine
end

section
/-!
RESULT_TAKE and STATUS (R168, R171).
-/

namespace Sys2Proof.Machine

variable {s : State} {p : Port} {b : Byte} {c : Chan}

/-! ## RESULT_TAKE -/

section
variable (role : (s.ports.get p).role = .crew)
include role

theorem ownResultTake_range (h : 3 < b.toNat) : ownResultTake b p s = .refused .range := by
  simp [ownResultTake, role, fin4_of_gt h]

variable (hb : b.toNat = c.val)
include hb

theorem ownResultTake_notBound (h : s.holdsChan p c = false) :
    ownResultTake b p s = .refused .notBound := by
  simp [ownResultTake, role, fin4_of_val hb, h]

variable (holds : s.holdsChan p c = true)
include holds

/-- A channel of the station that is not HELD refuses by its pull state. -/
theorem ownResultTake_refused {why : RefusalCode}
    (h : takeRefusal (s.chan.get c).state = some why) : ownResultTake b p s = .refused why := by
  simp [ownResultTake, role, fin4_of_val hb, holds, h]

/-- A HELD channel of the station hands over its record. -/
theorem ownResultTake_held {r : Result} (held : (s.chan.get c).state = .held)
    (result : (s.pull.get c).result = some r) :
    ownResultTake b p s = .done (s.takeResult c) r.body := by
  simp [ownResultTake, role, fin4_of_val hb, holds, held, takeRefusal, result]

end

/-! ## STATUS -/

/-- The role character of an attached port. -/
theorem c1_role {r : Role} (h : r ≠ .none) : c1 r.code = [if r = .crew then 1 else 2] := by
  cases r with
  | none => exact absurd rfl h
  | crew | review => rfl

/-- STATUS answers an attached station and empties its latched notices (R171). -/
theorem exec_status (h : s.takes p ⟨0x40, [], false⟩) (attached : (s.ports.get p).role ≠ .none) :
    exec (.status p []) s
      = .next (State.answered (s.setPort p { s.ports.get p with notices := Notices.empty }) p 0xF0
          (statusBody s p)) :=
  attached_done ownStatus h attached (x := ()) rfl rfl

/-- Settles O47: the checks of RESULT_TAKE in their order, the record it hands over, and STATUS; the
lengths are those of the layouts. -/
theorem resultsAndNoticesAreTaken : Obligations.ResultsAndNoticesAreTaken := by
  refine ⟨fun s p b h attached => ⟨fun role => ?_, fun role hb => ?_, fun role c hb bound => ?_⟩,
    fun s p => ⟨fun b c r h role hb holds => ?_, fun h attached => ?_, fun r => ?_, fun r => ?_⟩⟩
  · exact attached_refused ownResultTake .role h attached (x := b) rfl (if_pos role)
  · exact attached_refused ownResultTake .range h attached rfl (ownResultTake_range role hb)
  · exact attached_refused ownResultTake .notBound h attached rfl
      (ownResultTake_notBound role hb bound)
  · have attached := attached_of_crew role
    refine ⟨fun idle => ?_, fun busy => ?_, fun held result => ?_⟩
    · refine attached_refused ownResultTake .state h attached rfl
        (ownResultTake_refused role hb holds ?_)
      rcases idle with e | e <;> rw [e] <;> rfl
    · refine attached_refused ownResultTake .busy h attached rfl
        (ownResultTake_refused role hb holds ?_)
      rcases busy with e | e <;> rw [e] <;> rfl
    · rw [resultItems_eq]
      exact attached_done ownResultTake h attached rfl
        (ownResultTake_held role hb holds held result)
  · intro x
    rw [exec_status h attached, statusBody, c1_role attached]
    rfl
  · rw [resultItems_eq]
    exact r.body_length
  · rw [resultItems_eq]
    exact r.body_length

end Sys2Proof.Machine
end

section
/-!
TUBE_READ, IND_READ, LIST_READ, SUMMARY_READ and CHANNEL_READ (R173 to R177).
-/

namespace Sys2Proof.Machine

variable {s : State} {p : Port} {place : Place} {i : Nat} {tb : Tube} {tubes : List Tube}
  {code start n : Nat}

/-! ## TUBE_READ and IND_READ -/

theorem ownTubeRead_noTube (h : s.tubeAt place = none) :
    ownTubeRead place p s = .refused .noTube := by rw [ownTubeRead, h]

theorem ownTubeRead_tube (h : s.tubeAt place = some (i, tb)) :
    ownTubeRead place p s = .done s (tubeBody s i tb) := by rw [ownTubeRead, h]

theorem ownIndRead_range {b : Byte} (h : b.toNat < 1 ∨ 16 < b.toNat) :
    ownIndRead ⟨place, b⟩ p s = .refused .range := if_pos h

section
variable {b : Byte} (range : ¬ (b.toNat < 1 ∨ 16 < b.toNat))
include range

theorem ownIndRead_noTube (h : s.tubeAt place = none) :
    ownIndRead ⟨place, b⟩ p s = .refused .noTube := by
  simp only [ownIndRead, if_neg range, h]

variable (tube : s.tubeAt place = some (i, tb))
include tube

theorem ownIndRead_short (h : tb.list.length < b.toNat) :
    ownIndRead ⟨place, b⟩ p s = .refused .range := by
  have past : tb.list[b.toNat - 1]? = none := List.getElem?_eq_none (by omega)
  simp only [ownIndRead, if_neg range, tube, past]

theorem ownIndRead_entry {x : Indication} (h : tb.list[b.toNat - 1]? = some x) :
    ownIndRead ⟨place, b⟩ p s = .done s (c1 tb.list.length ++ x.body) := by
  simp only [ownIndRead, if_neg range, tube, h]

end

/-! ## LIST_READ -/

/-- The tubes of a status from an index on, of which LIST_READ answers the first (R175). -/
def tubesOfCode (code start : Nat) (tubes : List Tube) : List (Nat × Tube) :=
  (indexed start (tubes.drop start)).filter (fun x => decide (x.2.status.code = code))

theorem listEntries_eq (code start : Nat) (tubes : List Tube) :
    listEntries code start tubes = (tubesOfCode code start tubes).take 27 := rfl

theorem mem_tubesOfCode {x : Nat × Tube} :
    x ∈ tubesOfCode code start tubes
      ↔ (start ≤ x.1 ∧ tubes[x.1]? = some x.2) ∧ x.2.status.code = code := by
  rw [tubesOfCode, List.mem_filter, mem_indexed, List.getElem?_drop, decide_eq_true_iff]
  refine and_congr_left' (and_congr_right fun h => ?_)
  rw [Nat.add_sub_cancel' h]

theorem tubesOfCode_ascending (code start : Nat) (tubes : List Tube) :
    (tubesOfCode code start tubes).Pairwise (fun x y => x.1 < y.1) :=
  (List.pairwise_map.1 (indexed_ascending start (tubes.drop start))).filter _

theorem listEntries_ascending (code start : Nat) (tubes : List Tube) :
    ((listEntries code start tubes).map Prod.fst).Pairwise (· < ·) :=
  List.pairwise_map.2 ((tubesOfCode_ascending code start tubes).sublist (List.take_sublist ..))

theorem listEntries_length_le (code start : Nat) (tubes : List Tube) :
    (listEntries code start tubes).length ≤ 27 := List.length_take_le ..

/-- A member of a list stands among its first `n`, or after them, of which there are then `n`. -/
theorem mem_take_or_after {α : Type} {r : α → α → Prop} {l : List α} (h : l.Pairwise r) {x : α}
    (hx : x ∈ l) (n : Nat) : x ∈ l.take n ∨ (l.take n).length = n ∧ ∀ y ∈ l.take n, r y x := by
  rw [← List.take_append_drop n l] at hx h
  obtain ⟨-, -, across⟩ := List.pairwise_append.1 h
  refine (List.mem_append.1 hx).imp_right fun after => ⟨?_, fun y hy => across y hy x after⟩
  have hlt : n < l.length := by
    refine Nat.lt_of_not_le fun hle => ?_
    rw [List.drop_eq_nil_of_le hle] at after
    exact List.not_mem_nil after
  rw [List.length_take, Nat.min_eq_left hlt.le]

/-- A tube of the status is listed, or the list is full of tubes before it. -/
theorem listEntries_complete (hs : start ≤ i) (hi : tubes[i]? = some tb)
    (hc : tb.status.code = code) :
    (∃ x ∈ listEntries code start tubes, x.1 = i)
      ∨ (listEntries code start tubes).length = 27
        ∧ ∀ x ∈ listEntries code start tubes, x.1 < i := by
  have sought : (i, tb) ∈ tubesOfCode code start tubes := mem_tubesOfCode.2 ⟨⟨hs, hi⟩, hc⟩
  rw [listEntries_eq]
  exact (mem_take_or_after (tubesOfCode_ascending code start tubes) sought 27).imp_left
    fun h => ⟨_, h, rfl⟩

/-- The next index of a full list is the one after its last entry (R175). -/
theorem nextIndex_eq (entries : List (Nat × Tube)) (count : Nat) :
    nextIndex entries count
      = if entries.length = 27 then (entries.getLast?.map (fun x => x.1 + 1)).getD 0
        else count := by
  refine if_ctx_congr Iff.rfl (fun full => ?_) (fun _ => rfl)
  cases e : entries.getLast? with
  | some x => rfl
  | none =>
    rw [List.getLast?_eq_none_iff.1 e] at full
    cases full

theorem entryBody_eq (x : Nat × Tube) :
    entryBody x = c2 x.1 ++ c2 x.2.row ++ c2 x.2.col ++ (StatusChars x.2.status).drop 1
      ++ DepthChar x.2.worst := by
  simp only [entryBody, statusChars_drop, depthChar_eq, List.append_assoc]

theorem ownListRead_range {st : Byte} (h : 8 < st.toNat ∨ s.tubes.length < start) :
    ownListRead ⟨st, start⟩ p s = .refused .range := if_pos h

theorem ownListRead_done {st : Byte} (hst : st.toNat ≤ 8) (h : start ≤ s.tubes.length) :
    ownListRead ⟨st, start⟩ p s
      = .done s (c2 (nextIndex (listEntries st.toNat start s.tubes) s.tubes.length)
          ++ c1 (listEntries st.toNat start s.tubes).length
          ++ (listEntries st.toNat start s.tubes).flatMap entryBody) :=
  if_neg (show ¬ (8 < st.toNat ∨ s.tubes.length < start) by omega)

/-! ## CHANNEL_READ -/

theorem ownChannelRead_range {b : Byte} (h : 3 < b.toNat) :
    ownChannelRead b p s = .refused .range := by rw [ownChannelRead, fin4_of_gt h]

theorem ownChannelRead_done {b : Byte} {c : Chan} (h : b.toNat = c.val) :
    ownChannelRead b p s = .done s (channelBody s c) := by rw [ownChannelRead, fin4_of_val h]

/-! ## The readouts -/

/-- Settles O48: each readout in the order of its checks, and the times that run. -/
theorem readoutsWriteNoState : Obligations.ReadoutsWriteNoState := by
  refine ⟨fun s p attached => ⟨?_, ?_, ?_, fun h => ?_, fun b h => ⟨fun c hb => ?_, fun hb => ?_⟩⟩,
    fun s times => ⟨fun p t i deadline d hs => ?_, fun c calibrated => ?_⟩⟩
  · intro r0 r1 k0 k1 h place
    refine ⟨fun hat => ?_, fun i tb hat => ?_⟩
    · exact attached_refused ownTubeRead .noTube h attached rfl (ownTubeRead_noTube hat)
    · rw [tubeItems_eq]
      exact ⟨tubeBody_length s i tb,
        attached_done ownTubeRead h attached rfl (ownTubeRead_tube hat)⟩
  · intro r0 r1 k0 k1 n h place
    refine ⟨fun hn => ?_, fun h1 h2 => ?_⟩
    · exact attached_refused ownIndRead .range h attached rfl (ownIndRead_range (place := place) hn)
    · have range : ¬ (n.toNat < 1 ∨ 16 < n.toNat) := by omega
      refine ⟨fun hat => ?_, fun i tb hat => ⟨fun past => ?_, fun x hx => ?_⟩⟩
      · exact attached_refused ownIndRead .noTube h attached rfl (ownIndRead_noTube range hat)
      · exact attached_refused ownIndRead .range h attached rfl (ownIndRead_short range hat past)
      · rw [indicationItems_eq]
        exact ⟨x.body_length,
          attached_done ownIndRead h attached rfl (ownIndRead_entry range hat hx)⟩
  · intro st a b h start
    refine ⟨fun out => ?_, fun hst hstart => ⟨listEntries st.toNat start s.tubes,
      listEntries_length_le .., listEntries_ascending .., fun x hx => ?_,
      fun i tb hi htb hc => listEntries_complete hi htb ((statusChars_head_iff _ _).1 hc),
      _, rfl, ?_⟩⟩
    · exact attached_refused ownListRead .range h attached rfl
        (ownListRead_range (start := start) out)
    · obtain ⟨⟨hle, hx⟩, hc⟩ := mem_tubesOfCode.1 (List.mem_of_mem_take hx)
      exact ⟨hle, hx, (statusChars_head_iff _ _).2 hc⟩
    · have e := attached_done ownListRead h attached rfl (ownListRead_done hst hstart)
      rw [nextIndex_eq, funext entryBody_eq] at e
      exact e
  · rw [summaryItems_eq]
    exact ⟨summaryBody_length s, attached_done ownSummaryRead h attached (x := ()) rfl rfl⟩
  · rw [channelItems_eq]
    exact ⟨channelBody_length s c,
      attached_done ownChannelRead h attached rfl (ownChannelRead_done hb)⟩
  · exact attached_refused ownChannelRead .range h attached rfl (ownChannelRead_range hb)
  · exact Nat.sub_pos_of_lt (times.leases p t i deadline d hs)
  · obtain ⟨g, hg, ahead⟩ := times.intervals c calibrated
    exact ⟨g, hg, Nat.sub_pos_of_lt ahead⟩

end Sys2Proof.Machine
end

section
/-!
Every step keeps the law of roles and of the Station Table's entries (R178, R30, R48, R170): the actions
that keep every role, then the four that attach, detach or reset a port.
-/

namespace Sys2Proof.Machine

variable {s t r : State} {p : Port} {u : Tag} {c : Chan} {x y z : PortState}

/-! ## One entry of the Station Table -/

/-- What the law of roles says of one port's entry (R178, R48, R170). -/
structure PortState.Proper (x : PortState) : Prop where
  policy : x.policy.isSome = decide (x.role = .crew)
  bound : x.bound.card ≤ 2
  boundCrew : x.role ≠ .crew → x.bound = FourSet.empty
  notices : x.role = .none → x.notices = Notices.empty

/-- The entry `y` keeps the role of `x`, and is proper where `x` is. -/
structure PortState.Keeps (x y : PortState) : Prop where
  role : y.role = x.role
  proper : x.Proper → y.Proper

theorem PortState.Keeps.refl (x : PortState) : x.Keeps x := ⟨rfl, id⟩

theorem PortState.Keeps.trans (h : x.Keeps y) (k : y.Keeps z) : x.Keeps z :=
  ⟨k.role.trans h.role, fun hx => k.proper (h.proper hx)⟩

theorem PortState.Keeps.of_same (h : x.sameStation y) : x.Keeps y := by
  obtain ⟨role, policy, bound, notices⟩ := h
  refine ⟨role, fun hx => ⟨?_, ?_, ?_, ?_⟩⟩
  · rw [policy, role]; exact hx.policy
  · rw [bound]; exact hx.bound
  · rw [bound, role]; exact hx.boundCrew
  · rw [notices, role]; exact hx.notices

/-- Notices are latched for attached stations alone. -/
theorem PortState.Keeps.notices {n : Notices} (h : x.role = .none → n = Notices.empty) :
    x.Keeps { x with notices := n } :=
  ⟨rfl, fun hx => ⟨hx.policy, hx.bound, hx.boundCrew, h⟩⟩

theorem card_set_true (q : FourSet) (c : Fin 4) : FourSet.card (q.set c true) ≤ q.card + 1 := by
  obtain ⟨a, b, d, e⟩ := q
  revert a b d e c
  decide

theorem card_set_false (q : FourSet) (c : Fin 4) : FourSet.card (q.set c false) ≤ q.card := by
  obtain ⟨a, b, d, e⟩ := q
  revert a b d e c
  decide

theorem card_empty : FourSet.empty.card = 0 := rfl

theorem empty_set_false (c : Fin 4) : Quad.set FourSet.empty c false = FourSet.empty := by
  revert c
  decide

/-- A channel that joins the set of a CREW station with room for it. -/
theorem PortState.Keeps.join (crew : x.role = .crew) (room : x.bound.card < 2) (c : Chan) :
    x.Keeps { x with bound := x.bound.set c true } :=
  ⟨rfl, fun hx => ⟨hx.policy, (card_set_true ..).trans room,
    fun h => absurd crew h, hx.notices⟩⟩

/-- A channel that leaves the set of a port. -/
theorem PortState.Keeps.leave (x : PortState) (c : Chan) :
    x.Keeps { x with bound := x.bound.set c false } := by
  refine ⟨rfl, fun hx => ⟨hx.policy, (card_set_false ..).trans hx.bound, fun h => ?_,
    hx.notices⟩⟩
  show Quad.set x.bound c false = FourSet.empty
  rw [hx.boundCrew h, empty_set_false]

theorem PortState.Keeps.sendNext (x : PortState) : x.Keeps x.sendNext := by
  refine .of_same ?_
  unfold PortState.sendNext
  split
  · split <;> exact ⟨rfl, rfl, rfl, rfl⟩
  · exact ⟨rfl, rfl, rfl, rfl⟩

theorem PortState.Keeps.tellStoreLow (x : PortState) : x.Keeps x.tellStoreLow := by
  unfold PortState.tellStoreLow
  split
  · exact .refl x
  · next h => exact .notices fun e => absurd e h

theorem PortState.Keeps.tellRescreenDone (x : PortState) : x.Keeps x.tellRescreenDone := by
  unfold PortState.tellRescreenDone
  split
  · next h => exact .notices fun e => by rw [h] at e; cases e
  · exact .refl x

/-- A port without a station, as a detach and the resets leave it. -/
theorem PortState.Proper.of_none (role : x.role = .none) (policy : x.policy = none)
    (bound : x.bound = FourSet.empty) (notices : x.notices = Notices.empty) : x.Proper := by
  refine ⟨?_, ?_, fun _ => bound, fun _ => notices⟩
  · rw [role, policy]; rfl
  · rw [bound, card_empty]; exact Nat.zero_le 2

/-- ATTACH gives a policy exactly with the CREW role (R185). -/
theorem attachFields_policy {a b : Byte} {role : Role} {policy : Option Policy}
    (h : attachFields a b = some (role, policy)) :
    policy.isSome = decide (role = .crew) := by
  unfold attachFields at h
  split at h <;> cases h <;> rfl

/-! ## Actions that keep every role -/

/-- A slot holds a claim of the station that stands on its port, not of a departed one. -/
def State.stands (s : State) (p : Port) (u : Tag) : Prop :=
  ∃ cl, s.slot p u = some cl ∧ cl.departed = false

/-- Every port keeps its role and stays proper, and a claim is new only for a CREW station. -/
structure StationsKept (s t : State) : Prop where
  ports : ∀ p, (s.ports.get p).Keeps (t.ports.get p)
  claims : ∀ p u, t.stands p u → s.stands p u ∨ (s.ports.get p).role = .crew

theorem StationsKept.trans (h : StationsKept s t) (k : StationsKept t r) : StationsKept s r where
  ports p := (h.ports p).trans (k.ports p)
  claims p u hr := (k.claims p u hr).elim (h.claims p u) fun e => .inr ((h.ports p).role ▸ e)

theorem StationsKept.of_ports (hp : ∀ p, (s.ports.get p).Keeps (t.ports.get p))
    (hc : t.claims = s.claims) : StationsKept s t := by
  refine ⟨hp, fun p u h => .inl ?_⟩
  rwa [State.stands, State.slot, hc] at h

theorem StationsKept.of_same (hp : t.ports = s.ports) (hc : t.claims = s.claims) :
    StationsKept s t := .of_ports (fun p => by rw [hp]; exact .refl _) hc

theorem StationsKept.setPort (h : (s.ports.get p).Keeps x) : StationsKept s (s.setPort p x) := by
  refine .of_ports (fun q => ?_) rfl
  rw [State.setPort_ports, Quad.get_set]
  split
  · next e => subst e; exact h
  · exact .refl _

/-- A slot and its tube written together. -/
theorem StationsKept.write {w : Option Claim} {i : Nat} {f : Tube → Tube}
    (h : ∀ cl, w = some cl → cl.departed = false → s.stands p u ∨ (s.ports.get p).role = .crew) :
    StationsKept s ((s.setSlot p u w).modTube i f) := by
  refine ⟨fun q => .refl _, fun q v hq => ?_⟩
  obtain ⟨cl, hs, hd⟩ := hq
  rw [State.slot_modTube, State.slot_setSlot] at hs
  split at hs
  · next e => obtain ⟨rfl, rfl⟩ := e; exact h cl hs hd
  · exact .inl ⟨cl, hs, hd⟩

theorem StationsKept.grant (crew : (s.ports.get p).role = .crew) (u : Tag) (i : Nat) :
    StationsKept s (s.grant p u i) := .write fun _ _ _ => .inr crew

theorem StationsKept.markInPull (s : State) (p : Port) (u : Tag) :
    StationsKept s (s.markInPull p u) := by
  unfold State.markInPull
  split
  · next cl h => exact .write fun _ e hd => by cases e; exact .inl ⟨cl, h, hd⟩
  · exact .of_same rfl rfl

theorem StationsKept.keepClaim (s : State) (p : Port) (u : Tag) :
    StationsKept s (s.keepClaim p u) := by
  unfold State.keepClaim
  split
  · next cl h => exact .write fun _ e hd => by cases e; exact .inl ⟨cl, h, hd⟩
  · exact .of_same rfl rfl

theorem StationsKept.dropClaim (s : State) (p : Port) (u : Tag) :
    StationsKept s (s.dropClaim p u) := by
  unfold State.dropClaim
  split
  · exact .write nofun
  · exact .of_same rfl rfl

/-- A notice for an attached station, after the end of a claim. -/
theorem StationsKept.dropClaim_notify (attached : (s.ports.get p).role ≠ .none) (u : Tag)
    (n : Notices) :
    StationsKept s ((s.dropClaim p u).setPort p
      { (s.dropClaim p u).ports.get p with notices := n }) := by
  refine (StationsKept.dropClaim s p u).trans (.setPort (.notices fun e => ?_))
  rw [dropClaim_ports] at e
  exact absurd e attached

/-- The station whose claim a slot holds, unless the claim is a departed station's, is attached. -/
theorem StationLaw.attached_of_slot (h : StationLaw s) {cl : Claim} (hs : s.slot p u = some cl)
    (hd : ¬ s.departedClaim p u = true) : (s.ports.get p).role ≠ .none := by
  rw [h.claimsCrew p u cl hs (by simpa [State.departedClaim, hs] using hd)]
  exact nofun

theorem StationsKept.expire (h : StationLaw s) (runOut : s.leaseRunOut p u = true) :
    StationsKept s (s.expire p u) := by
  obtain ⟨cl, hs⟩ : ∃ cl, s.slot p u = some cl := by
    unfold State.leaseRunOut at runOut
    split at runOut
    · exact ⟨_, ‹_›⟩
    · cases runOut
  unfold State.expire
  dsimp only
  split
  · exact .dropClaim s p u
  · exact .dropClaim_notify (h.attached_of_slot hs ‹_›) u _

theorem StationsKept.revoke (h : StationLaw s) {i : Nat} {tb : Tube} {cf : TubeClaim}
    (tube : s.tubes[i]? = some tb) (claim : tb.claim = some cf) :
    StationsKept s (if s.departedClaim cf.port cf.tag then s.dropClaim cf.port cf.tag
      else (s.dropClaim cf.port cf.tag).addRevoked cf.port cf.tag) := by
  obtain ⟨cl, hs, -⟩ := h.tubeSlot i tb cf tube claim
  split
  · exact .dropClaim s cf.port cf.tag
  · exact .dropClaim_notify (h.attached_of_slot hs ‹_›) cf.tag _

theorem StationsKept.unbindChan (s : State) (c : Chan) : StationsKept s (s.unbindChan c) := by
  refine .of_ports (fun p => ?_) ?_
  · rw [unbindChan_ports]
    split
    · exact .leave _ c
    · exact .refl _
  · obtain ⟨ports, e⟩ := unbindChan_parts s c
    rw [e]

theorem StationsKept.forceUnbind (s : State) (c : Chan) : StationsKept s (s.forceUnbind c) :=
  (StationsKept.of_same rfl rfl : StationsKept s (s.setPull c
    { s.pull.get c with result := none })).trans ((StationsKept.unbindChan _ c).trans
      (.of_same rfl rfl))

theorem settingsChanged_links (s : State) :
    s.settingsChanged.ports = s.ports ∧ s.settingsChanged.claims = s.claims := by
  unfold State.settingsChanged State.startPass State.restartJob
  split
  · split <;> exact ⟨rfl, rfl⟩
  · exact ⟨rfl, rfl⟩

theorem StationsKept.settingsChanged (s : State) : StationsKept s s.settingsChanged :=
  let ⟨hp, hc⟩ := settingsChanged_links s
  .of_same hp hc

theorem StationsKept.warnStore (s : State) (n : Nat) : StationsKept s (s.warnStore n) := by
  unfold State.warnStore
  split
  · exact .of_ports (fun p => by rw [Quad.get_map]; exact .tellStoreLow _) rfl
  · exact .of_same rfl rfl

theorem StationsKept.writeStep (s : State) (st : Settings) : StationsKept s (s.writeStep st) := by
  unfold State.writeStep
  dsimp only
  split
  · exact .of_ports (fun p => by rw [State.completePass, Quad.get_map]; exact .tellRescreenDone _) rfl
  · exact .of_same rfl rfl

theorem StationsKept.abort (s : State) (c : Chan) : StationsKept s (s.abortPull c) := by
  unfold State.abortPull
  dsimp only
  split
  · exact .of_same rfl rfl
  · split
    · refine StationsKept.trans ?_ (.keepClaim ..)
      exact .of_same rfl rfl
    · exact .of_same rfl rfl

theorem StationsKept.errorEnd (s : State) (c : Chan) (rec : PullRecord) (tp : TubePull) :
    StationsKept s (s.errorEnd c rec tp) := by
  have commit : StationsKept s (s.errorCommit rec.port tp.tag tp.index) := by
    unfold State.errorCommit
    split
    · exact .of_same rfl rfl
    · dsimp only
      split
      · refine StationsKept.trans ?_ (.dropClaim ..)
        exact .of_same rfl rfl
      · refine StationsKept.trans ?_ (.keepClaim ..)
        exact .of_same rfl rfl
  exact commit.trans (.of_same rfl rfl)

theorem StationsKept.endCal (s : State) (c : Chan) (kind : PullKind) :
    StationsKept s (s.endCal c kind) := by
  obtain ⟨v, _, _, _, judged, e, -⟩ := endCal_parts s c kind
  have judge : StationsKept s v := by
    obtain ⟨_, rfl, -⟩ | rfl := judged <;> exact .of_same rfl rfl
  rw [e]
  exact judge.trans (.of_same rfl rfl)

theorem StationsKept.releaseChan (s : State) (j : Job) (z : Sizing) :
    StationsKept s (s.releaseChan j z) := by
  unfold State.releaseChan
  dsimp only
  split
  · exact .forceUnbind s j.chan
  · exact .of_same rfl rfl

theorem StationsKept.commit (s : State) (j : Job) (st : Settings) :
    StationsKept s (s.commitJob j st) := by
  cases ht : s.tubes[j.index]? with
  | none => rw [commitJob_of_none ht]; exact .of_same rfl rfl
  | some tb =>
    rw [commitJob_of_tube ht]
    have write : StationsKept s (s.committing j (sizeJob j st tb.list s.free)) := .of_same rfl rfl
    exact ((write.trans (.dropClaim ..)).trans (.warnStore ..)).trans (.releaseChan ..)

/-! ## The law -/

theorem StationLaw.proper (h : StationLaw s) (p : Port) : (s.ports.get p).Proper :=
  ⟨h.policy p, h.bound p, h.boundCrew p, h.notices p⟩

theorem StationLaw.crew_of_stands (h : StationLaw s) (hs : s.stands p u) :
    (s.ports.get p).role = .crew :=
  let ⟨cl, hs, hd⟩ := hs
  h.claimsCrew p u cl hs hd

theorem StationLaw.of_proper (hc : ClaimLaw s) (proper : ∀ p, (s.ports.get p).Proper)
    (one : ∀ p q, (s.ports.get p).role = .review → (s.ports.get q).role = .review → p = q)
    (claims : ∀ p u, s.stands p u → (s.ports.get p).role = .crew) : StationLaw s where
  toClaimLaw := hc
  oneReview := one
  policy p := (proper p).policy
  bound p := (proper p).bound
  boundCrew p := (proper p).boundCrew
  claimsCrew p u cl hs hd := claims p u ⟨cl, hs, hd⟩
  notices p := (proper p).notices

theorem StationLaw.of_kept (h : StationLaw s) (hc : ClaimLaw t) (k : StationsKept s t) :
    StationLaw t := by
  refine .of_proper hc (fun p => (k.ports p).proper (h.proper p)) (fun p q hp hq => ?_)
    fun p u hs => ?_
  · rw [(k.ports _).role] at hp hq
    exact h.oneReview p q hp hq
  · rw [(k.ports p).role]
    exact (k.claims p u hs).elim h.crew_of_stands id

/-- One entry written anew: it is proper, no other is a REVIEW station's where it is one, and no claim
of its own station stands in its slots. -/
theorem StationLaw.of_entry (h : StationLaw s) (hc : ClaimLaw t) (hp : t.ports = s.ports.set p x)
    (proper : x.Proper)
    (alone : x.role = .review → ∀ q, q ≠ p → (s.ports.get q).role ≠ .review)
    (claims : ∀ q u, t.stands q u → q ≠ p ∧ s.stands q u) : StationLaw t := by
  have own : t.ports.get p = x := by rw [hp, Quad.get_set_same]
  have other : ∀ q, q ≠ p → t.ports.get q = s.ports.get q := fun q hq => by
    rw [hp, Quad.get_set_ne _ _ hq]
  refine .of_proper hc (fun q => ?_) (fun q q' hq hq' => ?_) fun q u hs => ?_
  · by_cases e : q = p
    · subst e; rw [own]; exact proper
    · rw [other q e]; exact h.proper q
  · by_cases e : q = p <;> by_cases e' : q' = p
    · rw [e, e']
    · subst e
      rw [own] at hq
      rw [other q' e'] at hq'
      exact absurd hq' (alone hq q' e')
    · subst e'
      rw [own] at hq'
      rw [other q e] at hq
      exact absurd hq (alone hq' q e)
    · rw [other q e] at hq
      rw [other q' e'] at hq'
      exact h.oneReview q q' hq hq'
  · obtain ⟨e, hs⟩ := claims q u hs
    rw [other q e]
    exact h.crew_of_stands hs

theorem otherReview_iff (s : State) (p : Port) :
    s.otherReview p = true ↔ ∃ q, q ≠ p ∧ (s.ports.get q).role = .review := by
  simp [State.otherReview, mem_four]

theorem StationLaw.attach (h : StationLaw s) {role : Role} {policy : Option Policy} {a b : Byte}
    (fields : attachFields a b = some (role, policy)) (detached : (s.ports.get p).role = .none)
    (alone : ¬ (role = .review ∧ s.otherReview p = true)) :
    StationLaw (s.setPort p
      { s.ports.get p with
        role := role, policy := policy, bound := FourSet.empty, notices := Notices.empty }) := by
  refine h.of_entry (h.toClaimLaw.of_same rfl rfl rfl) rfl
    ⟨attachFields_policy fields, card_empty.trans_le (Nat.zero_le 2), fun _ => rfl, fun _ => rfl⟩
    (fun hr q hq e => ?_)
    fun q u hs => ⟨?_, hs⟩
  · exact alone ⟨hr, (otherReview_iff s p).2 ⟨q, hq, e⟩⟩
  · rintro rfl
    have crew := h.crew_of_stands (s := s) hs
    rw [detached] at crew
    cases crew

theorem StationLaw.detach (h : StationLaw s) (p : Port) : StationLaw (s.detachPort p) := by
  refine h.of_entry (h.toClaimLaw.detach p) (x := (s.ports.get p).detached) rfl
    (.of_none rfl rfl rfl rfl) nofun fun q u ⟨cl, hs, hd⟩ => ?_
  rw [slot_detachPort] at hs
  split at hs
  · obtain ⟨_, -, rfl⟩ := Option.map_eq_some_iff.1 hs
    cases hd
  · next e => exact ⟨e, cl, hs, hd⟩

/-- With every port detached and every slot empty the law holds, where that of claims does. -/
theorem StationLaw.of_detached (hc : ClaimLaw s) (role : ∀ p, (s.ports.get p).role = .none)
    (proper : ∀ p, (s.ports.get p).Proper) (hs : ∀ p u, s.slot p u = none) : StationLaw s :=
  .of_proper hc proper (fun p _ hp => by rw [role p] at hp; cases hp)
    fun p u ⟨cl, e, _⟩ => by rw [hs p u] at e; cases e

theorem StationLaw.warm (s : State) : StationLaw s.warm := by
  have port : ∀ p, s.warm.ports.get p = (s.ports.get p).warm := fun p => Quad.get_map ..
  refine .of_detached (.warm s) (fun p => ?_) (fun p => ?_) fun p u => ?_
  · rw [port]; rfl
  · rw [port]; exact .of_none rfl rfl rfl rfl
  · show ((Quad.fill (Quad.fill none)).get p).get u = none
    rw [Quad.get_fill, Quad.get_fill]

theorem StationLaw.tick (h : StationLaw s) :
    StationLaw { s with seconds := s.seconds + 1 }.takeLeases.takeIntervals := by
  have h1 : StationLaw { s with seconds := s.seconds + 1 } :=
    h.of_kept (h.toClaimLaw.of_same rfl rfl rfl) (.of_same rfl rfl)
  have h2 := takeLeases_keeps (law := StationLaw)
    (fun s p u h runOut => h.of_kept (h.toClaimLaw.expire p u) (.expire h runOut)) h1
  exact h2.of_kept (h2.toClaimLaw.of_quiet (.takeIntervals _)) (.of_same rfl rfl)

/-! ## All actions -/

/-- The actions on links, channels and units, but for ATTACH, keep every role. -/
theorem QuietAct.stations (h : StationLaw s) (hc : ClaimLaw t) (a : QuietAct s t) : StationLaw t := by
  cases a with
  | attach p role policy a b fields detached alone => exact h.attach fields detached alone
  | line p x same => exact h.of_kept hc (.setPort (.of_same same))
  | replies =>
    refine h.of_kept hc (.of_ports (fun p => ?_) rfl)
    rw [State.advanceReplies, Quad.get_map]
    exact .sendNext _
  | clearNotices p => exact h.of_kept hc (.setPort (.notices fun _ => rfl))
  | bind p c crew _ room =>
    exact h.of_kept hc ((StationsKept.setPort (.join crew room c)).trans (.of_same rfl rfl))
  | unbind p c _ => exact h.of_kept hc ((StationsKept.unbindChan s c).trans (.of_same rfl rfl))
  | processStep c raw _ _ =>
    obtain ⟨_, _, _, e, -⟩ := processStep_parts s c raw
    exact h.of_kept hc (by rw [e]; exact .of_same rfl rfl)
  | queue | freqSet | settled | coil | count | passed | startCal | latch | endChecks | takeResult
  | intervalExpiry | jobBegin | startPass | stepBegin | orphan =>
    exact h.of_kept hc (.of_same rfl rfl)

theorem StationLaw.act (h : StationLaw s) (a : Act s t) : StationLaw t := by
  have hc : ClaimLaw t := h.toClaimLaw.act a
  cases a with
  | quiet a => exact a.stations h hc
  | detach p => exact h.detach p
  | warm => exact .warm s
  | tick => exact h.tick
  | newPlan | planOpen | planClose | planLock | planSet | standardSet | tracesSet | addRow | mark
  | scope | repull | jobEnd => exact h.of_kept hc (.of_same rfl rfl)
  | curveSet | limitsSet =>
    refine h.of_kept hc (StationsKept.trans ?_ (.settingsChanged _))
    exact .of_same rfl rfl
  | grant _ p u i tb crew => exact h.of_kept hc (.grant crew u i)
  | drop p u => exact h.of_kept hc (.dropClaim s p u)
  | revoke i tb cf tube claim _ => exact h.of_kept hc (.revoke h tube claim)
  | expire p u runOut => exact h.of_kept hc (.expire h runOut)
  | startTube p u => exact h.of_kept hc ((StationsKept.markInPull s p u).trans (.of_same rfl rfl))
  | abort c _ => exact h.of_kept hc (.abort s c)
  | errorEnd c rec tp _ => exact h.of_kept hc (.errorEnd s c rec tp)
  | endCal c _ _ _ _ => exact h.of_kept hc (.endCal s c _)
  | commit j st _ => exact h.of_kept hc (.commit s j st)
  | stepWrite st _ => exact h.of_kept hc (.writeStep s st)
  | forceUnbind c _ _ => exact h.of_kept hc (.forceUnbind s c)

theorem StationLaw.reset (l : List Instr) : StationLaw { State.reset with pending := l } := by
  have port : ∀ p, ({ State.reset with pending := l }.ports).get p = PortState.reset :=
    fun p => Quad.get_fill _ p
  refine .of_detached (.reset l) (fun p => ?_) (fun p => ?_) fun p u => ?_
  · rw [port]; rfl
  · rw [port]; exact .of_none rfl rfl rfl rfl
  · show ((Quad.fill (Quad.fill none)).get p).get u = none
    rw [Quad.get_fill, Quad.get_fill]

/-- Settles O55: each action keeps every role with its entry, or attaches, detaches or resets a port. -/
theorem stationLawIsKept : Obligations.StationLawIsKept :=
  kept_of_acts (fun _ _ h a => h.act a) StationLaw.reset

end Sys2Proof.Machine
end

section
/-!
SUPPORT. The table of the requests (R182, R187, R189): who may issue each, and the length of its body;
every request is dealt with as its row says.
-/

namespace Sys2Proof.Machine

variable {s : State} {p : Port} {i : Instr} {code : Byte} {body : List Byte} {n k : Nat}

/-! ## The lengths of the bodies -/

/-- The requests whose layout has one length, each with that length (R189). -/
def fixedLayouts : List (Nat × Nat) :=
  [(0x10, 0), (0x12, 7), (0x13, 7), (0x14, 5), (0x16, 18), (0x18, 9), (0x19, 0), (0x1A, 0), (0x1B, 0),
    (0x1C, 4), (0x1D, 0), (0x20, 5), (0x21, 9), (0x22, 1), (0x23, 4), (0x30, 1), (0x31, 1), (0x32, 9),
    (0x33, 2), (0x34, 2), (0x35, 2), (0x36, 1), (0x37, 1), (0x40, 0), (0x41, 4), (0x42, 5), (0x43, 3),
    (0x44, 0), (0x45, 1), (0x50, 2), (0x51, 0), (0x52, 1)]

/-- The count that stands at place `k` of a body, 0 where the body ends before it. -/
def countAt (body : List Byte) (k : Nat) : Nat := ((body[k]?).map (fun b => b.toNat)).getD 0

/-- The body has another length than the layout of its request gives (R182, R189). -/
def Misfits (n : Nat) (body : List Byte) : Prop :=
  (∃ k, (n, k) ∈ fixedLayouts ∧ body.length ≠ k)
    ∨ n = 0x11 ∧ body.length ≠ 3 + countAt body 0
    ∨ n = 0x15 ∧ body.length ≠ 1 + 3 * countAt body 0
    ∨ n = 0x17 ∧ body.length ≠ 3 + 2 * countAt body 2

theorem fixedLayouts_unique :
    ∀ x ∈ fixedLayouts, ∀ y ∈ fixedLayouts, x.1 = y.1 → x.2 = y.2 := by decide

theorem fixedLayouts_counts :
    ∀ x ∈ fixedLayouts, x.1 ≠ 0x11 ∧ x.1 ≠ 0x15 ∧ x.1 ≠ 0x17 := by decide

theorem Misfits.fixed (h : Misfits n body) (hk : (n, k) ∈ fixedLayouts) : body.length ≠ k := by
  obtain ⟨h11, h15, h17⟩ := fixedLayouts_counts _ hk
  obtain ⟨j, hj, hl⟩ | ⟨e, -⟩ | ⟨e, -⟩ | ⟨e, -⟩ := h
  · have e : k = j := fixedLayouts_unique _ hk _ hj rfl
    rwa [e]
  · exact absurd e h11
  · exact absurd e h15
  · exact absurd e h17

theorem readPlanSet_misfit (h : Misfits 0x11 body) : readPlanSet body = none := by
  have hl : body.length ≠ 3 + countAt body 0 := by simpa [Misfits, fixedLayouts] using h
  cases body with
  | nil => rfl
  | cons m rest =>
    have hd : (rest.drop m.toNat).length ≠ 2 := by
      simp [countAt] at hl
      rw [List.length_drop]
      omega
    unfold readPlanSet
    dsimp only
    split
    · next e => rw [e] at hd; exact absurd rfl hd
    · rfl

theorem readCurve_misfit (h : Misfits 0x15 body) : readCurve body = none := by
  have hl : body.length ≠ 1 + 3 * countAt body 0 := by simpa [Misfits, fixedLayouts] using h
  cases body with
  | nil => rfl
  | cons m rest =>
    simp [countAt] at hl
    exact if_neg (by omega)

theorem readTraces_misfit (h : Misfits 0x17 body) : readTraces body = none := by
  have hl : body.length ≠ 3 + 2 * countAt body 2 := by simpa [Misfits, fixedLayouts] using h
  match body, hl with
  | [], _ | [_], _ | [_, _], _ => rfl
  | _ :: _ :: m :: rest, hl =>
    simp [countAt] at hl
    exact if_neg (by omega)

/-! ## The rows -/

/-- Who may issue a request, by its code (R187). -/
def rightsOf (n : Nat) : Rights :=
  if n ≤ 0x1D then .review else if n = 0x50 ∨ n = 0x52 then .anyone else .attached

/-- The command is a request of the code: it comes as the frame, from a station of the code's rights,
with a body that is read only where its length fits. -/
def IsRequest (i : Instr) (p : Port) (code : Byte) (body : List Byte) : Prop :=
  frameOfCommand i = some (p, ⟨code, body, false⟩)
    ∧ ∃ (α : Type) (fields : Option α) (owner : α → Port → State → Answer),
        (∀ s, exec i s = request p code body (rightsOf code.toNat) fields owner s)
        ∧ (Misfits code.toNat body → fields = none)

theorem IsRequest.of_fixed {α : Type} {read : List Byte → Option α}
    {owner : α → Port → State → Answer} (hf : frameOfCommand i = some (p, ⟨code, body, false⟩))
    (he : ∀ s, exec i s = request p code body (rightsOf code.toNat) (read body) owner s)
    (hk : (code.toNat, k) ∈ fixedLayouts) (hr : body.length ≠ k → read body = none) :
    IsRequest i p code body :=
  ⟨hf, α, read body, owner, he, fun h => hr (h.fixed hk)⟩

theorem code_of_toNat (h : code.toNat = n) (hlt : n < 256) : code = BitVec.ofNat 8 n :=
  BitVec.eq_of_toNat_eq (by rw [toNat_ofNat8 n hlt, h])

/-- The command that a code names is a request of that code. -/
theorem isRequest_of_code (h : requestOfCode p code body = some i) : IsRequest i p code body := by
  unfold requestOfCode at h
  split at h
  case h_36 => cases h
  all_goals
    rename_i hc
    obtain rfl := code_of_toNat hc (by decide)
    cases h
  · exact .of_fixed rfl (fun _ => rfl) (by decide) readNone_length
  · exact ⟨rfl, _, _, _, fun _ => rfl, readPlanSet_misfit⟩
  · exact .of_fixed rfl (fun _ => rfl) (by decide) readStandard_length
  · exact .of_fixed rfl (fun _ => rfl) (by decide) readRowAdd_length
  · exact .of_fixed rfl (fun _ => rfl) (by decide) readPlaceAnd_length
  · exact ⟨rfl, _, _, _, fun _ => rfl, readCurve_misfit⟩
  · exact .of_fixed rfl (fun _ => rfl) (by decide) readLimits_length
  · exact ⟨rfl, _, _, _, fun _ => rfl, readTraces_misfit⟩
  · exact .of_fixed rfl (fun _ => rfl) (by decide) readScope_length
  · exact .of_fixed rfl (fun _ => rfl) (by decide) readNone_length
  · exact .of_fixed rfl (fun _ => rfl) (by decide) readNone_length
  · exact .of_fixed rfl (fun _ => rfl) (by decide) readNone_length
  · exact .of_fixed rfl (fun _ => rfl) (by decide) readPlace_length
  · exact .of_fixed rfl (fun _ => rfl) (by decide) readNone_length
  · exact .of_fixed rfl (fun _ => rfl) (by decide) readTagPlace_length
  · exact .of_fixed rfl (fun _ => rfl) (by decide) readClaimNext_length
  · exact .of_fixed rfl (fun _ => rfl) (by decide) readOne_length
  · exact .of_fixed rfl (fun _ => rfl) (by decide) readPlace_length
  · exact .of_fixed rfl (fun _ => rfl) (by decide) readOne_length
  · exact .of_fixed rfl (fun _ => rfl) (by decide) readOne_length
  · exact .of_fixed rfl (fun _ => rfl) (by decide) readFreq_length
  · exact .of_fixed rfl (fun _ => rfl) (by decide) readTwo_length
  · exact .of_fixed rfl (fun _ => rfl) (by decide) readTwo_length
  · exact .of_fixed rfl (fun _ => rfl) (by decide) readTwo_length
  · exact .of_fixed rfl (fun _ => rfl) (by decide) readOne_length
  · exact .of_fixed rfl (fun _ => rfl) (by decide) readOne_length
  · exact .of_fixed rfl (fun _ => rfl) (by decide) readNone_length
  · exact .of_fixed rfl (fun _ => rfl) (by decide) readPlace_length
  · exact .of_fixed rfl (fun _ => rfl) (by decide) readPlaceAnd_length
  · exact .of_fixed rfl (fun _ => rfl) (by decide) readList_length
  · exact .of_fixed rfl (fun _ => rfl) (by decide) readNone_length
  · exact .of_fixed rfl (fun _ => rfl) (by decide) readOne_length
  · exact .of_fixed rfl (fun _ => rfl) (by decide) readTwo_length
  · exact .of_fixed rfl (fun _ => rfl) (by decide) readNone_length
  · exact .of_fixed rfl (fun _ => rfl) (by decide) readOne_length

/-- A code for which the table has no row is none of its codes. -/
theorem namesRequest_of_none (h : requestOfCode p code body = none) : namesRequest code = false := by
  by_contra hc
  rw [Bool.not_eq_false, namesRequest, List.contains_iff_mem] at hc
  simp only [requestCodes, List.mem_cons, List.not_mem_nil, or_false] at hc
  repeat' obtain rfl | hc := hc
  all_goals cases h

end Sys2Proof.Machine
end

section
/-!
A command that comes as a frame is its port dealing with that frame (R181 to R183): every command goes on,
a taken request gets one reply, a frame waits while a reply is in progress, and the checks of R182 stand in
their order.
-/

namespace Sys2Proof.Machine

variable {s t : State} {p : Port} {f : Frame} {i : Instr} {code : Byte} {body : List Byte}

/-! ## Frames are dealt with -/

/-- Whatever a frame holds, its command is the port dealing with the frame by some answer. -/
theorem exec_commandOfFrame (p : Port) (f : Frame) :
    ∃ ask, ∀ s, exec (commandOfFrame p f) s = .next (s.deliver p f ask) := by
  obtain ⟨code, body, garbled⟩ := f
  cases garbled with
  | true => exact ⟨_, fun _ => rfl⟩
  | false =>
    show ∃ ask, ∀ s, exec ((requestOfCode p code body).getD (.unknownCode p code body)) s = _
    cases h : requestOfCode p code body with
    | none => exact ⟨_, fun _ => if_neg (by rw [namesRequest_of_none h]; exact Bool.false_ne_true)⟩
    | some i =>
      obtain ⟨-, _, _, _, e, -⟩ := isRequest_of_code h
      exact ⟨_, e⟩

/-- A well-formed command that comes as a frame is its port dealing with the frame. -/
theorem exec_frame (hw : i.wellFormed = true) (hf : frameOfCommand i = some (p, f)) :
    ∃ ask, ∀ s, exec i s = .next (s.deliver p f ask) :=
  commandOfFrame_of_command hw hf ▸ exec_commandOfFrame p f

/-- While a reply is in progress a complete frame waits. -/
theorem State.deliver_waits (h : (s.ports.get p).reply.isSome = true)
    (ha : ∀ g, (s.ports.get p).assembly ≠ .waiting g) (ask : State → Answer) :
    s.deliver p f ask = s.setPort p { s.ports.get p with assembly := .waiting f } := by
  obtain ⟨⟨hr, -⟩, -⟩ | ⟨-, -, e⟩ | ⟨⟨g, hg⟩, -⟩ := s.deliver_cases p f ask
  · rw [hr] at h; cases h
  · exact e
  · exact absurd hg (ha g)

/-- A second frame is not kept. -/
theorem State.deliver_discards {g : Frame} (h : (s.ports.get p).reply.isSome = true)
    (ha : (s.ports.get p).assembly = .waiting g) (ask : State → Answer) :
    s.deliver p f ask = s := by
  obtain ⟨⟨hr, -⟩, -⟩ | ⟨-, hn, -⟩ | ⟨-, e⟩ := s.deliver_cases p f ask
  · rw [hr] at h; cases h
  · exact absurd ha (hn g)
  · exact e

/-- Settles O5: the three ways of a frame, of which a reply in progress leaves two. -/
theorem framesWaitWhileAReplyIsSent : Obligations.FramesWaitWhileAReplyIsSent := by
  intro i p f s hw hf hr
  obtain ⟨ask, e⟩ := exec_frame hw hf
  refine ⟨fun ha => ?_, fun g ha => ?_⟩
  · rw [e, State.deliver_waits hr ha]; rfl
  · rw [e, State.deliver_discards hr ha]

/-! ## Answers -/

theorem answered_port (s : State) (p : Port) (lead : Byte) (body : List Byte) :
    (s.answered p lead body).ports.get p
      = { s.ports.get p with assembly := .hunt, reply := some ⟨lead, body, 0⟩ } :=
  Quad.get_set_same ..

theorem RefusalCode.code_range (why : RefusalCode) : 1 ≤ why.code.toNat ∧ why.code.toNat ≤ 25 := by
  cases why <;> decide

/-- Settles O4: the port answers as its owner says, DONE or REFUSED. -/
theorem refusedRequestsChangeNothing : Obligations.RefusedRequestsChangeNothing := by
  intro i p f s hw hf takes
  obtain ⟨ask, e⟩ := exec_frame hw hf
  rw [e, State.deliver_takes takes]
  cases ask s with
  | done t body =>
    rw [State.answer_done]
    refine ⟨_, ⟨0xF0, body, 0⟩, rfl, ?_, ?_, rfl, .inl rfl⟩ <;> rw [answered_port]
  | refused why =>
    rw [State.answer_refused]
    obtain ⟨low, high⟩ := why.code_range
    refine ⟨_, ⟨0xF1, [why.code], 0⟩, rfl, ?_, ?_, rfl, .inr ⟨why.code, low, high, rfl⟩⟩
      <;> rw [answered_port]

/-! ## Every command goes on -/

/-- A port that hands on its frame goes on. -/
theorem handOn_goes_on (s : State) (p : Port) : ∃ t, s.handOn p = .next t := by
  unfold State.handOn
  dsimp only
  split
  · rw [takeFrame_eq]
    obtain ⟨ask, e⟩ := exec_commandOfFrame p ‹Frame›
    exact ⟨_, e _⟩
  · exact ⟨_, rfl⟩

/-- Settles O3: a frame is dealt with, and every event has its next state. -/
theorem everyCommandGoesOn : Obligations.EveryCommandGoesOn := by
  refine ⟨fun i s hw => ?_, fun p code body s named => if_pos named⟩
  cases hf : frameOfCommand i with
  | some x =>
    obtain ⟨ask, e⟩ := exec_frame hw hf
    exact ⟨_, e s⟩
  | none =>
    cases i with
    | replySent p =>
      simp only [exec, execReplySent]
      split
      · exact handOn_goes_on _ p
      · exact ⟨_, rfl⟩
    | receivedCharacter p ch => exact handOn_goes_on _ p
    | lineBreak | lineReturnedToMark | warmReset | powerOnReset | timeBaseTick | leaseExpiry | timeout
    | calibrationIntervalExpiry | settleCompletion | encoderStep | encoderReverse | demodulatorOutput
    | coilOpen | coilRestored | sizingJobBegin | sizingCommit | rescreenStepBegin | rescreenStepWrite
    | detachPullAbort | detachClaimRemoval | forcedUnbind | orphanMark => exact ⟨_, rfl⟩
    | _ => cases hf

/-! ## The checks of a frame -/

section
variable {α : Type} {rights : Rights} {fields : Option α} {owner : α → Port → State → Answer}

theorem checked_denied (role : rights.allows (s.ports.get p).role = false) :
    checked p rights fields owner s = .refused .role :=
  if_neg (by rw [role]; exact Bool.false_ne_true)

theorem checked_misfit (role : rights.allows (s.ports.get p).role = true) (h : fields = none) :
    checked p rights fields owner s = .refused .range := by
  subst h
  exact if_pos role

end

/-- The Station Table refuses a request whose rights the role does not have (R187). -/
theorem IsRequest.refuses_role (h : IsRequest i p code body) (takes : s.takes p ⟨code, body, false⟩)
    (role : (rightsOf code.toNat).allows (s.ports.get p).role = false) : Refuses i s p 0x03 := by
  obtain ⟨-, α, fields, owner, e, -⟩ := h
  rw [Refuses, e, request_takes takes, checked_denied role]
  rfl

/-- A body that does not fit its layout is refused after the role is checked (R182). -/
theorem IsRequest.refuses_length (h : IsRequest i p code body)
    (takes : s.takes p ⟨code, body, false⟩)
    (role : (rightsOf code.toNat).allows (s.ports.get p).role = true)
    (misfits : Misfits code.toNat body) : Refuses i s p 0x06 := by
  obtain ⟨-, α, fields, owner, e, hfields⟩ := h
  rw [Refuses, e, request_takes takes, checked_misfit role (hfields misfits)]
  rfl

/-- The requests of the plan are those of the REVIEW station. -/
theorem rightsOf_plan {n : Nat} (h : n ≤ 0x1D) : rightsOf n = .review := if_pos h

/-- ATTACH and LINK_RATE are anyone's. -/
theorem rightsOf_anyone {n : Nat} (h : n = 0x50 ∨ n = 0x52) : rightsOf n = .anyone := by
  rw [rightsOf, if_neg (by omega), if_pos h]

/-- A detached port may issue ATTACH and LINK_RATE alone. -/
theorem rightsOf_detached {n : Nat} (h50 : n ≠ 0x50) (h52 : n ≠ 0x52) :
    (rightsOf n).allows .none = false := by
  rw [rightsOf, if_neg (show ¬ (n = 0x50 ∨ n = 0x52) by omega)]
  split <;> rfl

/-- The REVIEW station may issue every request. -/
theorem rightsOf_review (n : Nat) : (rightsOf n).allows .review = true := by
  unfold rightsOf
  split
  · rfl
  · split <;> rfl

/-- A CREW station may issue every request but those of the plan. -/
theorem rightsOf_crew {n : Nat} (h : 0x1D < n) : (rightsOf n).allows .crew = true := by
  rw [rightsOf, if_neg (by omega)]
  split <;> rfl

/-- Settles O6: garbled, unknown, the rights of the code, and the length of its layout. -/
theorem framesAreCheckedInOrder : Obligations.FramesAreCheckedInOrder := by
  intro s p code body
  refine ⟨fun takes => ?_, fun takes unnamed => ?_, fun takes i hi => ?_⟩
  · exact congrArg _ (State.deliver_takes takes _)
  · rw [Refuses, exec, execUnknownCode, if_neg (by rw [unnamed]; exact Bool.false_ne_true),
      State.deliver_takes takes]
    rfl
  · have request := isRequest_of_code hi
    intro passes count
    have allowed : passes → (rightsOf code.toNat).allows (s.ports.get p).role = true := by
      rintro (role | ⟨role, hc⟩ | hc | hc)
      · rw [role]; exact rightsOf_review _
      · rw [role]; exact rightsOf_crew (by omega)
      · rw [rightsOf_anyone (.inl hc)]; rfl
      · rw [rightsOf_anyone (.inr hc)]; rfl
    refine ⟨fun role h50 h52 => ?_, fun role plan => ?_, fun pass n hn hl => ?_, fun pass hl => ?_⟩
    · exact request.refuses_role takes (by rw [role]; exact rightsOf_detached h50 h52)
    · exact request.refuses_role takes (by rw [role, rightsOf_plan plan]; rfl)
    · exact request.refuses_length takes (allowed pass) (.inl ⟨n, hn, hl⟩)
    · exact request.refuses_length takes (allowed pass) (.inr hl)

end Sys2Proof.Machine
end

section
/-!
Characters build frames and replies hand them on (R179 to R181): what the receive assembly makes of a
character, the characters of a frame one after another, and the end of a reply.
-/

namespace Sys2Proof.Machine

variable {s : State} {p : Port} {f : Frame} {i : Instr} {code : Byte} {ch : Character} {a : Assembly}
  {len : Nat} {got : List Byte} {g : Bool}

/-! ## The receive assembly -/

theorem receive_mark (h : ∀ f, a ≠ .waiting f) (mark : ch.mark = true) :
    a.receive ch = .length ch.data (Character.inError ch) := by
  cases a with
  | waiting f => exact absurd rfl (h f)
  | hunt | length | body => exact if_pos mark

section
variable (mark : ch.mark = false)
include mark

theorem receive_hunt : Assembly.hunt.receive ch = .hunt := by simp [Assembly.receive, mark]

/-- A length above 250 makes the frame garbled, and complete. -/
theorem receive_length_long (h : 250 < ch.data.toNat) :
    (Assembly.length code g).receive ch = .waiting ⟨code, [], true⟩ := by
  simp [Assembly.receive, mark, h]

theorem receive_length_zero (h : ch.data.toNat = 0) :
    (Assembly.length code g).receive ch = .waiting ⟨code, [], g || Character.inError ch⟩ := by
  simp [Assembly.receive, mark, h]

theorem receive_length_body (h : 0 < ch.data.toNat) (hle : ch.data.toNat ≤ 250) :
    (Assembly.length code g).receive ch = .body code ch.data.toNat [] (g || Character.inError ch) := by
  simp [Assembly.receive, mark, Nat.not_lt.2 hle, h.ne']

theorem receive_body_more (h : got.length + 1 < len) :
    (Assembly.body code len got g).receive ch
      = .body code len (got ++ [ch.data]) (g || Character.inError ch) := by
  simp [Assembly.receive, mark, Nat.not_le.2 h]

theorem receive_body_last (h : len ≤ got.length + 1) :
    (Assembly.body code len got g).receive ch
      = .waiting ⟨code, got ++ [ch.data], g || Character.inError ch⟩ := by
  simp [Assembly.receive, mark, h]

end

/-! ## A received character -/

/-- A character after which no frame is handed on writes the assembly alone. -/
theorem exec_receivedCharacter (hr : (s.ports.get p).assembly.receive ch = a)
    (h : (∀ f, a ≠ .waiting f) ∨ (s.ports.get p).reply.isSome = true) :
    exec (.receivedCharacter p ch) s
      = .next (s.setPort p { s.ports.get p with assembly := a }) := by
  subst hr
  exact State.handOn_idle (by rw [State.setPort_ports, Quad.get_set_same]; exact h)

/-- A character that completes a frame while no reply is in progress runs the frame's command. -/
theorem exec_lastCharacter (hr : (s.ports.get p).assembly.receive ch = .waiting f)
    (idle : (s.ports.get p).reply = none) :
    exec (.receivedCharacter p ch) s
      = exec (commandOfFrame p f) (s.setPort p { s.ports.get p with assembly := .hunt }) := by
  show State.handOn _ p = _
  rw [hr, State.handOn_waiting (f := f) (by rw [State.setPort_ports, Quad.get_set_same])
    (by rw [State.setPort_ports, Quad.get_set_same]; exact idle)]
  simp only [State.setPort, Quad.get_set_same, Quad.set_set]

theorem inError_eq (ch : Character) :
    Character.inError ch = (decide (((List.range 8).countP (fun n => ch.data.toNat.testBit n) + ch.mark.toNat
      + ch.parity.toNat) % 2 = 0) || !ch.stop) := by
  rw [Character.inError, Character.parityError, onesOf, List.countP_eq_length_filter]

/-- Settles O8: the rows of the receive assembly, and the frame that completes. -/
theorem receivedCharactersBuildFrames : Obligations.ReceivedCharactersBuildFrames := by
  intro s p ch err herr
  rw [← inError_eq] at herr
  subst herr
  intro x becomes completes
  have builds : ∀ a, (∀ f, a ≠ .waiting f) → x.assembly.receive ch = a → becomes a :=
    fun a ha hr => exec_receivedCharacter hr (.inl ha)
  have hands : ∀ f, x.assembly.receive ch = .waiting f → completes f := fun f hr =>
    ⟨fun busy => exec_receivedCharacter hr (.inr busy), fun idle i hw hf => by
      rw [exec_lastCharacter hr idle, commandOfFrame_of_command hw hf]; rfl⟩
  refine ⟨?_, fun ha mark => ?_, fun ha mark => ?_, fun code g ha mark => ⟨?_, ?_, ?_⟩,
    fun code len got g ha mark => ⟨?_, ?_⟩⟩
  · rintro ⟨f, ha⟩ busy
    exact exec_receivedCharacter (by rw [ha]; rfl) (.inr busy)
  · exact builds _ nofun (receive_mark ha mark)
  · exact builds _ nofun (by rw [ha]; exact receive_hunt mark)
  · exact fun h => hands _ (by rw [ha]; exact receive_length_long mark h)
  · exact fun h => hands _ (by rw [ha]; exact receive_length_zero mark h)
  · exact fun h hle => builds _ nofun (by rw [ha]; exact receive_length_body mark h hle)
  · exact fun h => builds _ nofun (by rw [ha]; exact receive_body_more mark h)
  · exact fun h => hands _ (by rw [ha]; exact receive_body_last mark h)

/-! ## The characters of a frame -/

/-- A step on a queue runs its first command, and the steps that are left go on from there. -/
theorem steps_next {c : Instr} {rest : List Instr} {t : State} (k : Nat)
    (h : exec c { s with pending := rest } = .next t) :
    steps (k + 1) { s with pending := c :: rest } = steps k t := by
  simp only [steps, step, h]

/-- The one step of a queue of one command runs it. -/
theorem steps_last (c : Instr) : steps 1 { s with pending := [c] } = exec c { s with pending := [] } := by
  simp only [steps, step]
  cases exec c { s with pending := [] } <;> rfl

/-- The state with a receive assembly of the port and commands that wait. -/
def State.receiving (s : State) (p : Port) (a : Assembly) (l : List Instr) : State :=
  { s with ports := s.ports.set p { s.ports.get p with assembly := a }, pending := l }

theorem receiving_port (s : State) (p : Port) (a : Assembly) (l : List Instr) :
    (s.receiving p a l).ports.get p = { s.ports.get p with assembly := a } := Quad.get_set_same ..

theorem receiving_hunt (h : (s.ports.get p).assembly = .hunt) (l : List Instr) :
    s.receiving p .hunt l = { s with pending := l } := by
  rw [State.receiving, ← h, Quad.set_get]

theorem receiving_setPort (s : State) (p : Port) (a b : Assembly) (l : List Instr) :
    (s.receiving p a l).setPort p { (s.receiving p a l).ports.get p with assembly := b }
      = s.receiving p b l := by
  simp only [State.receiving, State.setPort, Quad.get_set_same, Quad.set_set]

/-- A character that the assembly takes without completing a frame. -/
theorem steps_character {b : Assembly} (k : Nat) (rest : List Instr) (hr : a.receive ch = b)
    (hb : ∀ f, b ≠ .waiting f) :
    steps (k + 1) (s.receiving p a (.receivedCharacter p ch :: rest))
      = steps k (s.receiving p b rest) := by
  refine steps_next (s := s.receiving p a []) k ?_
  show exec _ (s.receiving p a rest) = _
  rw [exec_receivedCharacter (a := b) (by rw [receiving_port]; exact hr) (.inl hb),
    receiving_setPort]

/-- The character that completes a frame while no reply is in progress. -/
theorem steps_lastCharacter (idle : (s.ports.get p).reply = none)
    (hunt : (s.ports.get p).assembly = .hunt) (hr : a.receive ch = .waiting f) :
    steps 1 (s.receiving p a [.receivedCharacter p ch])
      = exec (commandOfFrame p f) { s with pending := [] } := by
  refine (steps_last (s := s.receiving p a []) _).trans ?_
  show exec _ (s.receiving p a []) = _
  rw [exec_lastCharacter (f := f) (by rw [receiving_port]; exact hr)
    (by rw [receiving_port]; exact idle), receiving_setPort, receiving_hunt hunt]

/-- The characters of the rest of a body, one after another, complete the frame. -/
theorem steps_body (idle : (s.ports.get p).reply = none)
    (hunt : (s.ports.get p).assembly = .hunt) (code : Byte) :
    ∀ (b : Byte) (rest got : List Byte), len = got.length + (rest.length + 1) →
      steps (rest.length + 1) (s.receiving p (.body code len got false)
          ((b :: rest).map fun d => Instr.receivedCharacter p (sentCharacter d false)))
        = exec (commandOfFrame p ⟨code, got ++ b :: rest, false⟩) { s with pending := [] }
  | b, [], got, hl => by
    refine steps_lastCharacter idle hunt ?_
    rw [receive_body_last rfl (by simp at hl; omega), sentCharacter_inError]
    rfl
  | b, d :: rest, got, hl => by
    rw [List.length_cons] at hl
    refine (steps_character _ _ (receive_body_more rfl (by omega)) nofun).trans ?_
    rw [sentCharacter_inError]
    refine (steps_body idle hunt code d rest (got ++ [b]) ?_).trans ?_
    · rw [List.length_append, List.length_singleton]; omega
    · rw [List.append_assoc]; rfl

/-- Settles O7: the code, the length, and the characters of the body in their order. -/
theorem sentFrameIsTakenAsItsCommand : Obligations.SentFrameIsTakenAsItsCommand := by
  intro i p f s hw hf clean hunt idle
  obtain ⟨code, body, garbled⟩ := f
  obtain rfl : garbled = false := clean
  have fits : body.length ≤ 250 := frameOfCommand_fits hw hf
  have hlen : (BitVec.ofNat 8 body.length).toNat = body.length := toNat_ofNat8 _ (by omega)
  rw [← commandOfFrame_of_command hw hf]
  dsimp only
  rw [← receiving_hunt hunt]
  have first : Assembly.hunt.receive (sentCharacter code true) = .length code false := by
    rw [receive_mark (a := .hunt) nofun rfl, sentCharacter_inError]; rfl
  refine (steps_character _ _ first nofun).trans ?_
  cases body with
  | nil =>
    refine steps_lastCharacter idle hunt ?_
    rw [receive_length_zero rfl hlen, sentCharacter_inError]
    rfl
  | cons b rest =>
    have second : (Assembly.length code false).receive
        (sentCharacter (BitVec.ofNat 8 (b :: rest).length) false)
          = .body code (b :: rest).length [] false := by
      rw [receive_length_body rfl (by rw [sentCharacter, hlen]; exact Nat.succ_pos _)
        (by rw [sentCharacter, hlen]; exact fits), sentCharacter_inError]
      exact congrArg (Assembly.body code · [] false) hlen
    refine (steps_character _ _ second nofun).trans ?_
    rw [List.map_map, List.length_map]
    exact steps_body idle hunt code b rest [] (Nat.zero_add _).symm

end Sys2Proof.Machine
end

section
/-!
Replies, the link rate, attaching, detaching and breaks (R180, R181, R184 to R186).
-/

namespace Sys2Proof.Machine

variable {s t : State} {p : Port} {f : Frame} {i : Instr} {a b d : Byte}

/-! ## A request that anyone may issue -/

section
variable {α : Type} {code : Byte} {body out : List Byte} {fields : Option α} {x : α}
  (owner : α → Port → State → Answer) (why : RefusalCode)

theorem anyone_refused (h : s.takes p ⟨code, body, false⟩) (hx : fields = some x)
    (ho : owner x p s = .refused why) :
    request p code body .anyone fields owner s = .next (s.answered p 0xF1 [why.code]) := by
  rw [request_owner h rfl hx, ho, State.answer_refused]

theorem anyone_done (h : s.takes p ⟨code, body, false⟩) (hx : fields = some x)
    (ho : owner x p s = .done t out) :
    request p code body .anyone fields owner s = .next (t.answered p 0xF0 out) := by
  rw [request_owner h rfl hx, ho, State.answer_done]

end

/-! ## LINK_RATE and the end of a reply -/

/-- The rate in baud is the nearest whole number to 921,600 / (D + 1) (R180). -/
theorem baud_nearest (d : Nat) :
    (2 * (baud d : Int) * (d + 1) - 2 * 921600).natAbs ≤ d + 1 := by
  have hpos : (0 : Int) < 16 * ((d : Int) + 1) := by omega
  have low := (roundHalfEven_between 14745600 _ hpos 0 14745600 (by omega)
    (by omega)).1
  have near := (roundHalfEven_nearest 14745600 _ hpos).1
  rw [baud, Int.toNat_of_nonneg low]
  generalize roundHalfEven 14745600 (16 * ((d : Int) + 1)) = r at near
  have e : r * (16 * ((d : Int) + 1)) = 16 * (r * (d + 1)) := by ring
  rw [e] at near
  rw [mul_assoc]
  generalize r * ((d : Int) + 1) = m at near
  omega

theorem ownLinkRate_range (h : 127 < d.toNat) : ownLinkRate d p s = .refused .range := if_pos h

theorem ownLinkRate_done (h : d.toNat ≤ 127) :
    ownLinkRate d p s
      = .done (s.setPort p { s.ports.get p with nextDivider := some d.toNat })
          (c1 d.toNat ++ c4 (baud d.toNat)) := if_neg (Nat.not_lt.2 h)

/-- A reply that is sent frees its port, which then hands on the frame that waits. -/
theorem exec_replySent (h : (s.ports.get p).reply.isSome = true) :
    exec (.replySent p) s = (s.setPort p (s.ports.get p).replySent).handOn p := if_pos h

theorem exec_replySent_free (h : (s.ports.get p).reply.isSome = true)
    (ha : ∀ f, (s.ports.get p).assembly ≠ .waiting f) :
    exec (.replySent p) s = .next (s.setPort p (s.ports.get p).replySent) := by
  rw [exec_replySent h, State.handOn_idle (.inl ?_)]
  rw [State.setPort_ports, Quad.get_set_same]
  exact ha

theorem exec_replySent_waiting (h : (s.ports.get p).reply.isSome = true)
    (ha : (s.ports.get p).assembly = .waiting f) :
    exec (.replySent p) s = exec (commandOfFrame p f)
      (s.setPort p { (s.ports.get p).replySent with assembly := .hunt }) := by
  rw [exec_replySent h, State.handOn_waiting (f := f)]
  · simp only [State.setPort, Quad.get_set_same, Quad.set_set]
  · rw [State.setPort_ports, Quad.get_set_same]; exact ha
  · rw [State.setPort_ports, Quad.get_set_same]; rfl

/-- Settles O9: the checks and the reply of LINK_RATE, and what the end of a reply does. -/
theorem linkRateTakesEffectAfterItsReply : Obligations.LinkRateTakesEffectAfterItsReply := by
  intro s p d x freed
  refine ⟨fun takes h => ?_, fun takes h => ⟨baud d.toNat, ?_, baud_nearest d.toNat⟩, fun busy ha => ?_,
    fun i f busy ha hw hf => ?_, fun idle => ?_⟩
  · exact anyone_refused ownLinkRate .range takes rfl (ownLinkRate_range h)
  · exact anyone_done ownLinkRate takes rfl (ownLinkRate_done h)
  · exact exec_replySent_free busy ha
  · rw [exec_replySent_waiting busy ha, commandOfFrame_of_command hw hf]; rfl
  · exact if_neg (by rw [idle]; exact Bool.false_ne_true)

/-! ## ATTACH -/

/-- The role and the policy that the two characters of an ATTACH name (R185). -/
theorem attachFields_of_names {role : Role} {policy : Option Policy}
    (h : a.toNat = 1 ∧ b.toNat = 0 ∧ role = .crew ∧ policy = some .masked
      ∨ a.toNat = 1 ∧ b.toNat = 1 ∧ role = .crew ∧ policy = some .unmasked
      ∨ a.toNat = 2 ∧ role = .review ∧ policy = none) :
    attachFields a b = some (role, policy) := by
  obtain ⟨ha, hb, rfl, rfl⟩ | ⟨ha, hb, rfl, rfl⟩ | ⟨ha, rfl, rfl⟩ := h
  · rw [attachFields, ha, hb]; rfl
  · rw [attachFields, ha, hb]; rfl
  · rw [attachFields, ha]; rfl

theorem attachFields_eq_none (h : ¬ (a.toNat = 1 ∧ b.toNat ≤ 1 ∨ a.toNat = 2)) :
    attachFields a b = none := by
  unfold attachFields
  split
  · omega
  · omega
  · omega
  · rfl

/-- The characters of the role and the policy in the reply are those that name them, but for the policy
of a REVIEW station (R185, assumption log 16). -/
theorem attachReply_of_names {role : Role} {policy : Option Policy}
    (h : a.toNat = 1 ∧ b.toNat = 0 ∧ role = .crew ∧ policy = some .masked
      ∨ a.toNat = 1 ∧ b.toNat = 1 ∧ role = .crew ∧ policy = some .unmasked
      ∨ a.toNat = 2 ∧ role = .review ∧ policy = none) :
    c1 role.code ++ o1 (policy.map Policy.code) = [a, if role = .crew then b else 0xFF] := by
  obtain ⟨ha, hb, rfl, rfl⟩ | ⟨ha, hb, rfl, rfl⟩ | ⟨ha, rfl, rfl⟩ := h
  · obtain rfl := code_of_toNat ha (by decide)
    obtain rfl := code_of_toNat hb (by decide)
    rfl
  · obtain rfl := code_of_toNat ha (by decide)
    obtain rfl := code_of_toNat hb (by decide)
    rfl
  · obtain rfl := code_of_toNat ha (by decide)
    rfl

section
variable {role : Role} {policy : Option Policy} (fields : attachFields a b = some (role, policy))
include fields

theorem ownAttach_state (attached : (s.ports.get p).role ≠ .none) :
    ownAttach (a, b) p s = .refused .state := by
  simp only [ownAttach, fields, if_pos attached]

variable (detached : (s.ports.get p).role = .none)
include detached

theorem ownAttach_role (review : role = .review) (other : s.otherReview p = true) :
    ownAttach (a, b) p s = .refused .role := by
  simp only [ownAttach, fields, detached, ne_eq, not_true_eq_false, if_false, review, other,
    and_self, if_true]

theorem ownAttach_done (alone : ¬ (role = .review ∧ s.otherReview p = true)) :
    ownAttach (a, b) p s
      = .done (s.setPort p
          { s.ports.get p with
            role := role, policy := policy, bound := FourSet.empty, notices := Notices.empty })
        (c1 p.val ++ c1 role.code ++ o1 (policy.map Policy.code) ++ c1 (s.ports.get p).divider) := by
  simp only [ownAttach, fields, detached, ne_eq, not_true_eq_false, if_false, if_neg alone]

end

/-- Settles O10: the checks of ATTACH in their order, the entry it writes and its reply. -/
theorem attachGivesARole : Obligations.AttachGivesARole := by
  refine ⟨fun s p a b role policy takes names => ?_, fun s p a b takes out => ?_⟩
  · have fields := attachFields_of_names names
    refine ⟨fun detached alone => ?_, fun attached => ?_, fun detached review other => ?_⟩
    · have done := anyone_done ownAttach takes rfl (ownAttach_done fields detached
        fun ⟨review, other⟩ =>
          let ⟨q, hq, hr⟩ := (otherReview_iff s p).1 other
          alone review q hq hr)
      rw [List.append_assoc (c1 p.val), attachReply_of_names names] at done
      exact done
    · exact anyone_refused ownAttach .state takes rfl (ownAttach_state fields attached)
    · exact anyone_refused ownAttach .role takes rfl
        (ownAttach_role fields detached review ((otherReview_iff s p).2 other))
  · exact anyone_refused ownAttach .range takes rfl (by
      simp only [ownAttach, attachFields_eq_none out])

/-! ## DETACH and breaks -/

theorem jobHolds_eq_false_iff (s : State) (i : Nat) :
    s.jobHolds i = false ↔ ∀ j ∈ s.jobs, j.index ≠ i := by
  show s.jobs.any (fun j => decide (j.index = i)) = false ↔ _
  simp only [List.any_eq_false, decide_eq_true_eq, ne_eq]

/-- The claims that no job holds, counted tag by tag. -/
theorem claimsWithoutJob_eq (s : State) (p : Port) :
    s.claimsWithoutJob p
      = four.countP (fun t => decide (∃ cl, (s.claims.get p).get t = some cl
          ∧ ∀ j ∈ s.jobs, j.index ≠ cl.tube)) := by
  rw [State.claimsWithoutJob, ← List.countP_eq_length_filter,
    show (s.claims.get p).toList = four.map (s.claims.get p).get from rfl, List.countP_map]
  refine List.countP_congr fun t _ => ?_
  dsimp only [Function.comp]
  cases (s.claims.get p).get t with
  | none => simp
  | some cl => simp [← jobHolds_eq_false_iff]

/-- Settles O11: the detached port, its claims, and the two items of the reply. -/
theorem detachLeavesTheStation : Obligations.DetachLeavesTheStation := by
  intro s p takes attached
  rw [← claimsWithoutJob_eq]
  exact attached_done ownDetach takes attached (x := ()) rfl rfl

/-- A reset of a detached port writes its line alone. -/
theorem portReset_of_detached (role : (s.ports.get p).role = .none) :
    s.portReset p = s.setPort p (s.ports.get p).lineReset := if_pos role

/-- A reset of an attached port detaches its station too. -/
theorem portReset_of_attached (role : (s.ports.get p).role ≠ .none) :
    s.portReset p = (s.setPort p (s.ports.get p).lineReset).detachPort p := if_neg role

theorem exec_lineBreak (fresh : (s.ports.get p).breakTaken = false) :
    exec (.lineBreak p) s = .next (s.portReset p) :=
  congrArg Host.Outcome.next (if_neg (by rw [fresh]; exact Bool.false_ne_true))

/-- Settles O12: the port reset with the detach of an attached station, the same break again, and the
return to mark. -/
theorem breakResetsThePort : Obligations.BreakResetsThePort := by
  intro s p
  refine ⟨fun fresh => ?_, fun taken => congrArg Host.Outcome.next (if_pos taken), rfl⟩
  rw [exec_lineBreak fresh]
  by_cases role : (s.ports.get p).role = .none
  · rw [portReset_of_detached role]
    simp only [State.setPort, PortState.lineReset, role, if_true, Quad.set_get]
  · rw [portReset_of_attached role]
    simp only [State.detachPort, State.setPort, PortState.lineReset, PortState.detached,
      Quad.get_set_same, Quad.set_set, if_neg role]
    rfl

end Sys2Proof.Machine
end

section
/-!
SUPPORT. The queue of commands that wait is written by no operation of the blocks, said once for each of
them (log 28). The operations that are one record update keep it by definition; the others go through
what is known of the fields they write.
-/

namespace Sys2Proof.Machine

variable {s t : State}

/-! ## Claims and channels -/

theorem ClaimsWritten.pending (h : ClaimsWritten s t) : t.pending = s.pending := by rw [h.rest]

theorem ClaimsEnded.pending {ends told : Port → Tag → Prop} (h : ClaimsEnded ends told s t) :
    t.pending = s.pending := by rw [h.rest]

@[simp] theorem grant_pending (p : Port) (u : Tag) (i : Nat) :
    (s.grant p u i).pending = s.pending :=
  rfl

@[simp] theorem dropClaim_pending (p : Port) (u : Tag) : (s.dropClaim p u).pending = s.pending :=
  (ClaimsWritten.dropClaim s p u).pending

@[simp] theorem expire_pending (p : Port) (u : Tag) : (s.expire p u).pending = s.pending :=
  (ClaimsWritten.expire s p u).pending

@[simp] theorem addRevoked_pending (p : Port) (u : Tag) : (s.addRevoked p u).pending = s.pending :=
  rfl

@[simp] theorem bindChan_pending (p : Port) (c : Chan) : (s.bindChan p c).pending = s.pending := rfl

@[simp] theorem dropCal_pending (c : Chan) : (s.dropCal c).pending = s.pending := rfl

@[simp] theorem unbindChan_pending (c : Chan) : (s.unbindChan c).pending = s.pending := by
  obtain ⟨ports, e⟩ := unbindChan_parts s c
  rw [e]

@[simp] theorem forceUnbind_pending (c : Chan) : (s.forceUnbind c).pending = s.pending := by
  obtain ⟨ports, e⟩ := forceUnbind_parts s c
  rw [e]

/-! ## The plan and the order of work -/

@[simp] theorem newPlan_pending : s.newPlan.pending = s.pending := rfl

@[simp] theorem takeIntervals_pending : s.takeIntervals.pending = s.pending := rfl

@[simp] theorem setTraces_pending (x : Traces) : (s.setTraces x).pending = s.pending := rfl

@[simp] theorem addRow_pending (x : RowAddBody) : (s.addRow x).pending = s.pending := rfl

@[simp] theorem startPass_pending : s.startPass.pending = s.pending := rfl

@[simp] theorem restartJob_pending : s.restartJob.pending = s.pending := by
  unfold State.restartJob
  split <;> rfl

@[simp] theorem settingsChanged_pending : s.settingsChanged.pending = s.pending := by
  unfold State.settingsChanged
  split <;> simp

@[simp] theorem warnStore_pending (n : Nat) : (s.warnStore n).pending = s.pending := by
  obtain ⟨ports, e⟩ := warnStore_parts s n
  rw [e]

@[simp] theorem releaseChan_pending (j : Job) (z : Sizing) :
    (s.releaseChan j z).pending = s.pending := by
  unfold State.releaseChan
  dsimp only
  split
  · exact forceUnbind_pending _
  · rfl

@[simp] theorem commitJob_pending (j : Job) (st : Settings) :
    (s.commitJob j st).pending = s.pending := by
  cases ht : s.tubes[j.index]? with
  | none => rw [commitJob_of_none ht]; rfl
  | some tb =>
    rw [commitJob_of_tube ht, releaseChan_pending, warnStore_pending, dropClaim_pending]
    rfl

@[simp] theorem writeStep_pending (st : Settings) : (s.writeStep st).pending = s.pending := by
  obtain ⟨ports, rescreen, e⟩ := writeStep_parts s st
  rw [e]
  rfl

/-! ## Pulls -/

variable {c : Chan}

theorem Judged.pending (h : Judged s c t) : t.pending = s.pending := by
  obtain ⟨u, rfl, -⟩ | rfl := h <;> rfl

@[simp] theorem startTube_pending (p : Port) (u : Tag) (i : Nat) (tb : Tube) :
    (s.startTube p u c i tb).pending = s.pending := (ClaimsWritten.markInPull s p u).pending

@[simp] theorem startCal_pending (p : Port) (kind : PullKind) (d : Standard) :
    (s.startCal p c kind d).pending = s.pending := rfl

@[simp] theorem takeResult_pending : (s.takeResult c).pending = s.pending := rfl

@[simp] theorem endCal_pending (kind : PullKind) : (s.endCal c kind).pending = s.pending := by
  obtain ⟨v, u, k, ch, judged, e, -⟩ := endCal_parts s c kind
  rw [e]
  exact judged.pending

@[simp] theorem errorEnd_pending (rec : PullRecord) (tp : TubePull) :
    (s.errorEnd c rec tp).pending = s.pending := by
  obtain ⟨tubes, claims, e⟩ := errorCommit_parts s rec.port tp.tag tp.index
  rw [State.errorEnd, e]
  rfl

@[simp] theorem settleTube_pending (rec : PullRecord) (tp : TubePull) :
    (s.settleTube c rec tp).pending = s.pending := by
  unfold State.settleTube
  split
  · split
    · exact errorEnd_pending rec tp
    · rfl
  · rfl

@[simp] theorem endOnFault_pending : (s.endOnFault c).pending = s.pending := by
  unfold State.endOnFault
  split
  · rfl
  · split
    · exact settleTube_pending ..
    · exact endCal_pending _

@[simp] theorem endBy_pending (by_ : EndBy) : (s.endBy c by_).pending = s.pending := by
  unfold State.endBy
  split
  · rfl
  · split
    · exact settleTube_pending ..
    · exact endCal_pending _

@[simp] theorem endWith_pending (f : PullFault) :
    (s.endWith c f).pending = s.pending := endOnFault_pending

@[simp] theorem abortPull_pending : (s.abortPull c).pending = s.pending :=
  (abortPull_written s c).1.pending

@[simp] theorem processStep_pending (raw : RawSample) :
    (s.processStep c raw).pending = s.pending := by
  obtain ⟨ch, k, cal, e, -⟩ := processStep_parts s c raw
  rw [e]

@[simp] theorem takeOutput_pending (values : Eight Raw) :
    (s.takeOutput c values).pending = s.pending := by
  unfold State.takeOutput
  dsimp only
  split
  · rw [endOnFault_pending, processStep_pending]
  · split
    · rw [endBy_pending, processStep_pending]
    · exact processStep_pending _

/-! ## The links and the detach course -/

@[simp] theorem portReset_pending (p : Port) : (s.portReset p).pending = s.pending := by
  unfold State.portReset
  dsimp only
  split <;> rfl

theorem departedAborts_pending (p : Port) (f : PullState → Bool) :
    (overChans State.abortPull (s.departedIn p f) s).pending = s.pending := by
  have aborted := overChans_aborted (s.departedIn p f) s (List.Nodup.filter _ (by decide))
  rw [aborted.rest]

end Sys2Proof.Machine
end

section
/-!
No command touches the queue (log 28): a request answers with what an operation of its owner leaves, and
an event leaves what one of the operations leaves, or nothing changed.
-/

namespace Sys2Proof.Machine

variable {s t : State} {p : Port}

/-! ## The owners' answers -/

/-- The state that an answer leaves has the queue of the state it was asked in. -/
def Answer.KeepsQueue (s : State) (a : Answer) : Prop := (a.after s).pending = s.pending

@[simp] theorem Answer.keepsQueue_refused (why : RefusalCode) : (Answer.refused why).KeepsQueue s :=
  rfl

@[simp] theorem Answer.keepsQueue_done {body : List Byte} :
    (Answer.done t body).KeepsQueue s ↔ t.pending = s.pending := .rfl

/-- A check that refuses, before an answer. -/
theorem Answer.keepsQueue_check {P : Prop} [Decidable P] {why : RefusalCode} {own : Answer}
    (h : own.KeepsQueue s) : (if P then .refused why else own).KeepsQueue s := by
  split
  · exact keepsQueue_refused why
  · exact h

theorem gated_keepsQueue {gate : PlanState → Gate} {own : Answer} (h : own.KeepsQueue s) :
    (gated gate s own).KeepsQueue s := by
  obtain ⟨-, e⟩ | ⟨-, -, e⟩ | ⟨-, e⟩ := gated_cases gate s own
  · exact e ▸ Answer.keepsQueue_refused _
  · exact e ▸ Answer.keepsQueue_refused _
  · rw [Answer.KeepsQueue, e]; exact h

/-! ## Commands -/

/-- A command that goes on leaves the queue as it was. -/
def LeavesQueue (s : State) (o : Host.Outcome State Fault Refusal) : Prop :=
  ∀ t, o = .next t → t.pending = s.pending

theorem leavesQueue_next (h : t.pending = s.pending) : LeavesQueue s (.next t) :=
  fun _ e => by cases e; exact h

/-- An event whose condition fails changes nothing (log 2). -/
theorem leavesQueue_event {P : Prop} [Decidable P] (h : t.pending = s.pending) :
    LeavesQueue s (.next (if P then t else s)) := by
  refine leavesQueue_next ?_
  split
  · exact h
  · rfl

theorem deliver_pending {ask : State → Answer} (h : (ask s).KeepsQueue s) (p : Port) (f : Frame) :
    (s.deliver p f ask).pending = s.pending := by
  obtain ⟨-, e⟩ | ⟨-, -, e⟩ | ⟨-, e⟩ := s.deliver_cases p f ask
  · rw [e]; exact h
  · rw [e]; rfl
  · rw [e]

theorem request_leavesQueue {α : Type} {code : Byte} {body : List Byte} {rights : Rights}
    {fields : Option α} {owner : α → Port → State → Answer}
    (h : ∀ x, (owner x p s).KeepsQueue s) :
    LeavesQueue s (request p code body rights fields owner s) := by
  refine leavesQueue_next (deliver_pending ?_ p _)
  obtain ⟨-, e⟩ | ⟨-, -, e⟩ | ⟨-, x, -, e⟩ := checked_cases p rights fields owner s
  · exact e ▸ Answer.keepsQueue_refused _
  · exact e ▸ Answer.keepsQueue_refused _
  · exact e ▸ h x

open Answer

/-- A command that comes as a frame keeps the queue: on every branch of its owner's checks the answer is
a refusal, or DONE with what operations leave that do not write the queue. -/
theorem exec_frame_leavesQueue {i : Instr} (hi : (frameOfCommand i).isSome = true) :
    LeavesQueue s (exec i s) := by
  cases i with
  | planNew | planSet | standardSet | rowAdd | tubeMark | curveSet | limitsSet | tracesSet | scopeSet
  | planOpen | planLock | planClose | tubeRepull =>
    refine request_leavesQueue fun x => gated_keepsQueue ?_
    repeat' split
    all_goals simp
  | rescreenStart | claim | claimNext | release | tubeRelease | bind | unbind | freqSet | calStart
  | pullStart | pullEnd | pullAbort | resultTake | indRead | listRead | linkRate =>
    refine request_leavesQueue fun x => keepsQueue_check ?_
    repeat' split
    all_goals simp
  | status | summaryRead | detach => exact request_leavesQueue fun x => keepsQueue_done.2 rfl
  | tubeRead | channelRead | attach =>
    refine request_leavesQueue fun x => ?_
    simp only [ownTubeRead, ownChannelRead, ownAttach]
    repeat' split
    all_goals simp
  | garbledFrame p code body => exact leavesQueue_next (deliver_pending (keepsQueue_refused _) p _)
  | unknownCode p code body =>
    simp only [exec, execUnknownCode]
    split
    · exact fun _ h => by cases h
    · exact leavesQueue_next (deliver_pending (keepsQueue_refused _) p _)
  | _ => cases hi

/-- A port's line is written, and then it hands on the frame that stands complete, if one does. -/
theorem line_handOn_leavesQueue (x : PortState) : LeavesQueue s ((s.setPort p x).handOn p) := by
  unfold State.handOn
  dsimp only
  split
  · rw [takeFrame_eq]
    exact exec_frame_leavesQueue (frameOfCommand_commandOfFrame p _)
  · exact leavesQueue_next rfl

/-- No command touches the queue. -/
theorem exec_leavesQueue (i : Instr) (s : State) : LeavesQueue s (exec i s) := by
  by_cases hf : (frameOfCommand i).isSome = true
  · exact exec_frame_leavesQueue hf
  cases i with
  | replySent p =>
    simp only [exec, execReplySent]
    split
    · exact line_handOn_leavesQueue _
    · exact leavesQueue_next rfl
  | receivedCharacter p ch => exact line_handOn_leavesQueue _
  | warmReset | powerOnReset | lineReturnedToMark => exact leavesQueue_next rfl
  | lineBreak p =>
    refine leavesQueue_next ?_
    split
    · rfl
    · exact portReset_pending p
  | timeBaseTick =>
    exact leavesQueue_next (ClaimsWritten.takeLeases { s with seconds := s.seconds + 1 }).pending
  | leaseExpiry p u => exact leavesQueue_event (expire_pending p u)
  | timeout | encoderReverse => exact leavesQueue_event (endWith_pending _)
  | calibrationIntervalExpiry | settleCompletion | encoderStep | orphanMark =>
    exact leavesQueue_event rfl
  | demodulatorOutput c values => exact leavesQueue_event (takeOutput_pending values)
  | coilOpen c =>
    refine leavesQueue_next ?_
    split
    · rfl
    · exact endWith_pending _
    · rfl
  | coilRestored c =>
    refine leavesQueue_next ?_
    split <;> rfl
  | sizingJobBegin =>
    refine leavesQueue_next ?_
    split <;> rfl
  | sizingCommit =>
    refine leavesQueue_next ?_
    split
    · exact commitJob_pending ..
    · rfl
  | rescreenStepBegin =>
    refine leavesQueue_event ?_
    split <;> rfl
  | rescreenStepWrite =>
    refine leavesQueue_next ?_
    split
    · exact writeStep_pending _
    · rfl
  | detachPullAbort p => exact leavesQueue_next (departedAborts_pending p _)
  | detachClaimRemoval p => exact leavesQueue_event (removeDeparted_list p four s).pending
  | forcedUnbind c =>
    refine leavesQueue_next ?_
    split
    · rfl
    · split
      · split
        · rfl
        · exact forceUnbind_pending c
      · rfl
  | _ => exact absurd rfl hf

/-- Settles O2: no operation of the blocks writes the queue, and a reset keeps it. -/
theorem commandsLeaveTheQueue : Obligations.CommandsLeaveTheQueue :=
  fun c s => exec_leavesQueue c s

end Sys2Proof.Machine
end
